-- ==== Sys2Proof/Word.lean ====
section
/-! DEFINITION. The words of the part: bytes as the host bus and the device pins carry them, and how a count becomes
the bytes of a result (R183: least significant byte first). -/

namespace Sys2Proof

/-- One byte of the host bus, of the spool store, or of a device's data pins. -/
abbrev Byte := BitVec 8

/-- A count as one byte of a result. -/
def byteOf (n : Nat) : Byte := BitVec.ofNat 8 n

/-- R183: a quantity in `k` bytes, least significant byte first. -/
def leBytes : Nat → Nat → List Byte
  | 0, _ => []
  | k + 1, n => byteOf n :: leBytes k (n / 256)

/-- A flag as one bit of a number. -/
def bit (b : Bool) : Nat := if b then 1 else 0

/-- A byte from its bits, bit 0 first. -/
def packBits : List Bool → Nat
  | [] => 0
  | b :: bs => bit b + 2 * packBits bs

/-- How many of the eight bits of a byte are 1. -/
def onesIn (b : Byte) : Nat :=
  bit (b.getLsbD 0) + bit (b.getLsbD 1) + bit (b.getLsbD 2) + bit (b.getLsbD 3)
    + bit (b.getLsbD 4) + bit (b.getLsbD 5) + bit (b.getLsbD 6) + bit (b.getLsbD 7)

/-- One more, stopping at `top` (a saturating count). -/
def satSucc (top n : Nat) : Nat := if n < top then n + 1 else n

end Sys2Proof
end

