-- ==== Sys2Proof/Syntax.lean ====
section
/-! DEFINITION. The commands of the part as syntax: one constructor of `Instr` for each row of spec/opcode_table.json,
with what the row's event brings from outside (a byte, a line, the levels of pins). Lines 0 to 3 are A, B, C, D (R184);
a parallel line is 0 or 1 for A or B, a serial line is 0 or 1 for C or D. -/

namespace Sys2Proof

/-- The electrical levels (`true` is high) of a parallel line's five inputs (chapter 6, section 6.1). -/
structure ParPins where
  /-- xTOOK, acknowledge: a pulse to the low level. -/
  took : Bool
  /-- xHOLD, active high: the device cannot take a byte. -/
  hold : Bool
  /-- xFAIL, active low: the device reports a fault. -/
  fail : Bool
  /-- xOUT, active high: the device is out of media. -/
  out : Bool
  /-- xON, active high: the device is online. -/
  on : Bool
  deriving DecidableEq, Repr

/-- The electrical levels (`true` is high) of a serial line's two inputs (chapter 7, section 7.1). -/
structure SerPins where
  /-- yGO, active low: the device can take characters. -/
  go : Bool
  /-- yRXD: mark is high, space is low. -/
  rxd : Bool
  deriving DecidableEq, Repr

/-- The twenty commands of the Command Port (R157). -/
inductive Cmd where
  | openJob | target | closeJob | cancel | hold | release | move | verify | queryJob | take | storeQuery
  | lineSet | lineEnable | lineDisable | lineStop | lineGo | lineResume | lineRestart | lineAbort | lineQuery
  deriving DecidableEq, Repr

/-- R157: the fixed number of parameter bytes of each command. -/
def Cmd.params : Cmd → Nat
  | .openJob => 4
  | .target => 1
  | .closeJob => 1
  | .cancel => 1
  | .hold => 1
  | .release => 1
  | .move => 2
  | .verify => 1
  | .queryJob => 1
  | .take => 0
  | .storeQuery => 0
  | .lineSet => 8
  | .lineEnable => 1
  | .lineDisable => 1
  | .lineStop => 1
  | .lineGo => 1
  | .lineResume => 2
  | .lineRestart => 1
  | .lineAbort => 1
  | .lineQuery => 1

/-- The commands sent to the block: one constructor for each row of spec/opcode_table.json. -/
inductive Instr where
  /-- DATA_WRITE (R49): a host write of a byte to DATA. -/
  | dataWrite (b : Byte)
  /-- PARAMETER_WRITE (R145): a host write of a byte to PARAMETER. -/
  | parameterWrite (b : Byte)
  /-- RESULT_READ (R149): a host read of RESULT. -/
  | resultRead
  /-- EVENT_WRITE (R153): a host write of a byte to EVENT. -/
  | eventWrite (b : Byte)
  /-- ENABLE_WRITE (R154): a host write of a byte to ENABLE. -/
  | enableWrite (b : Byte)
  /-- SOFTWARE_RESET (R180): a host write to CONTROL of a byte with SRESET (bit 0) = 1. -/
  | softwareReset (b : Byte)
  /-- INVCHK (R180): a host write to CONTROL of a byte with SRESET (bit 0) = 0. -/
  | invchk (b : Byte)
  /-- TICK_WRITE (R156): a host write of a byte to TICK. -/
  | tickWrite (b : Byte)
  /-- IGNORED_REGISTER_WRITE (R178): a host write to a register whose write effect is "ignored". -/
  | ignoredRegisterWrite (reg : BitVec 4) (b : Byte)
  /-- POWER_ON_RESET (R181): the application of power. -/
  | powerOnReset
  /-- POWER_GOOD (R181): power-good has held for 8 CLK periods. -/
  | powerGood
  /-- PIN_RESET (R181): RSTn has been low for 8 CLK periods. -/
  | pinReset
  /-- PIN_RESET_RELEASE (R47): RSTn returns high. -/
  | pinResetRelease
  /-- START_UP_BUILD_END (R46): the 512 CLK periods of the start-up build are over. -/
  | startUpBuildEnd
  /-- TICK (R156): the Time Base produces a tick. -/
  | tick
  /-- HOLD_TIMER_EXPIRY (R83) of a line. -/
  | holdTimerExpiry (line : Fin 4)
  /-- STARVE_TIMER_EXPIRY (R89) of a line. -/
  | starveTimerExpiry (line : Fin 4)
  /-- ACK_TIMER_EXPIRY (R115) of a parallel line. -/
  | ackTimerExpiry (line : Fin 2)
  /-- STORE_GRANT (R38): the Store Arbiter grants the next requester. -/
  | storeGrant
  /-- INTAKE_ACCESS_END (R54): the Intake Unit's store access ends. -/
  | intakeAccessEnd
  /-- FETCH_END (R82): the store access of a line's Drain Engine ends. -/
  | fetchEnd (line : Fin 4)
  /-- VERIFY_READ_END (R41): the Verify Unit's store access ends. -/
  | verifyReadEnd
  /-- SETUP_END (R112): the setup time of a parallel line's byte is over. -/
  | setupEnd (line : Fin 2)
  /-- STROBE_END (R112): the strobe width of a parallel line's byte is over. -/
  | strobeEnd (line : Fin 2)
  /-- TRAIL_END (R116): the trail of a parallel line's byte is over. -/
  | trailEnd (line : Fin 2)
  /-- INPUT_CHANGE (R109): a parallel line's inputs now stand at these levels in the snapshot. -/
  | inputChange (line : Fin 2) (levels : ParPins)
  /-- GO_CHANGE (R126): a serial line's yGO now stands at this level in the snapshot (`true` is high, inactive). -/
  | goChange (line : Fin 2) (level : Bool)
  /-- FRAME_END (R128): the last stop bit of a serial line's frame ends. -/
  | frameEnd (line : Fin 2)
  /-- RECEIVED_CHARACTER (R129): a serial line's receiver has sampled these data bits, parity bit and first stop bit. -/
  | receivedCharacter (line : Fin 2) (data : Byte) (parity stop : Bool)
  /-- OPEN (R159), written as its code and four parameters. -/
  | openJob (line options copies quota : Byte)
  /-- TARGET (R160), written as its code and one parameter. -/
  | target (job : Byte)
  /-- CLOSE (R161), written as its code and one parameter. -/
  | closeJob (job : Byte)
  /-- CANCEL (R162), written as its code and one parameter. -/
  | cancel (job : Byte)
  /-- HOLD (R163), written as its code and one parameter. -/
  | hold (job : Byte)
  /-- RELEASE (R164), written as its code and one parameter. -/
  | release (job : Byte)
  /-- MOVE (R165), written as its code and two parameters. -/
  | move (job line : Byte)
  /-- VERIFY (R166), written as its code and one parameter. -/
  | verify (job : Byte)
  /-- QUERY JOB (R167), written as its code and one parameter. -/
  | queryJob (job : Byte)
  /-- TAKE (R168), written as its code. -/
  | take
  /-- LINE SET (R169), written as its code and eight parameters. -/
  | lineSet (line mode second holdLimit starveLimit separator policy substitute : Byte)
  /-- LINE ENABLE (R170), written as its code and one parameter. -/
  | lineEnable (line : Byte)
  /-- LINE DISABLE (R171), written as its code and one parameter. -/
  | lineDisable (line : Byte)
  /-- LINE STOP (R172), written as its code and one parameter. -/
  | lineStop (line : Byte)
  /-- LINE GO (R172), written as its code and one parameter. -/
  | lineGo (line : Byte)
  /-- LINE RESUME (R173), written as its code and two parameters. -/
  | lineResume (line choice : Byte)
  /-- LINE RESTART (R174), written as its code and one parameter. -/
  | lineRestart (line : Byte)
  /-- LINE ABORT (R175), written as its code and one parameter. -/
  | lineAbort (line : Byte)
  /-- LINE QUERY (R176), written as its code and one parameter. -/
  | lineQuery (line : Byte)
  /-- STORE QUERY (R177), written as its code. -/
  | storeQuery
  /-- UNKNOWN (R157): a write to COMMAND of a code that names no command. -/
  | unknown (code : Byte)
  /-- COMMAND_WRITE (R144): a host write of any code to COMMAND. -/
  | commandWrite (code : Byte)
  /-- RXD_MARK (R129): a serial line's yRXD is at mark. -/
  | rxdMark (line : Fin 2)
  /-- START_BIT (R129): a serial line's yRXD falls to space. -/
  | startBit (line : Fin 2)
  /-- START_BIT_SAMPLE (R129): half a bit time after the fall the receiver samples yRXD at this level (`true` is mark). -/
  | startBitSample (line : Fin 2) (level : Bool)
  deriving DecidableEq, Repr

end Sys2Proof
end

