-- ==== Sys2Proof/Decode.lean ====
section
/-! DEFINITION. Decoding: the codes of the twenty commands (R183), and the host's question of what command a word of the
table spells. No row of spec/opcode_table.json gives bits, so a word spells none. -/

namespace Sys2Proof

/-- R183: the command a code written to COMMAND names; `none` is an unknown code. -/
def Cmd.ofCode (code : Byte) : Option Cmd :=
  match code.toNat with
  | 0x10 => some .openJob
  | 0x11 => some .target
  | 0x12 => some .closeJob
  | 0x13 => some .cancel
  | 0x14 => some .hold
  | 0x15 => some .release
  | 0x16 => some .move
  | 0x18 => some .verify
  | 0x19 => some .queryJob
  | 0x1A => some .take
  | 0x1B => some .storeQuery
  | 0x20 => some .lineSet
  | 0x21 => some .lineEnable
  | 0x22 => some .lineDisable
  | 0x23 => some .lineStop
  | 0x24 => some .lineGo
  | 0x25 => some .lineResume
  | 0x26 => some .lineRestart
  | 0x27 => some .lineAbort
  | 0x28 => some .lineQuery
  | _ => none

/-- R183: the code of each command. -/
def Cmd.code : Cmd → Byte
  | .openJob => 0x10#8
  | .target => 0x11#8
  | .closeJob => 0x12#8
  | .cancel => 0x13#8
  | .hold => 0x14#8
  | .release => 0x15#8
  | .move => 0x16#8
  | .verify => 0x18#8
  | .queryJob => 0x19#8
  | .take => 0x1A#8
  | .storeQuery => 0x1B#8
  | .lineSet => 0x20#8
  | .lineEnable => 0x21#8
  | .lineDisable => 0x22#8
  | .lineStop => 0x23#8
  | .lineGo => 0x24#8
  | .lineResume => 0x25#8
  | .lineRestart => 0x26#8
  | .lineAbort => 0x27#8
  | .lineQuery => 0x28#8

/-- The command a word of the table spells: no row of the table gives bits (log 1, DEDUCED). -/
def decodeTableWord (_nbits _w : Nat) : Option Instr := none

end Sys2Proof
end

