-- ==== Sys2Proof/Config.lean ====
section
/-! DEFINITION. What is fixed for the part: its sizes, intervals, limits and default settings as the spec gives them,
and the free values, which the spec leaves open (opaque constants without a body: no proof can see what they are). -/

namespace Sys2Proof.Config

/-- R26: blocks of the spool store. -/
def blocks : Nat := 128
/-- R26: bytes in a block. -/
def blockBytes : Nat := 256
/-- R48: entries of the Intake FIFO. -/
def fifoDepth : Nat := 16
/-- R136: records of the Completion Queue. -/
def completionDepth : Nat := 8
/-- Section 1.1: where stored count, copy position and total delivered stop. -/
def countTop : Nat := 16777215
/-- R6, R41: where check errors and the scan's error count stop. -/
def checkTop : Nat := 255
/-- R41: where the scan's bytes checked stops. -/
def scanTop : Nat := 65535

/-- R46: CLK periods of the start-up build. -/
def buildClks : Nat := 512
/-- R112: CLK periods of data setup before xPUT falls. -/
def setupClks : Nat := 4
/-- R112: CLK periods of data hold after xPUT rises. -/
def trailClks : Nat := 4
/-- R119: CLK periods of the strobe, by strobe code. -/
def strobeClks (code : Fin 4) : Nat := 8 * 2 ^ code.val
/-- R124: CLK periods for which an input must hold a new level before the snapshot has it. -/
def sampleClks : Nat := 2
/-- R156: CLK periods of one tick at TICK setting `n`, where 0 stands for 256. -/
def tickClks (n : Byte) : Nat := (if n.toNat = 0 then 256 else n.toNat) * 64
/-- R104: ticks counted by a hold timer of limit `l`. -/
def holdTicks (l : Byte) : Nat := l.toNat * 16
/-- R104: ticks counted by a starve timer of limit `l`. -/
def starveTicks (l : Byte) : Nat := l.toNat * 64
/-- R127: BCLK periods of one bit, by rate code. -/
def bitBclks (rate : Fin 8) : Nat := 6144 / 2 ^ rate.val

/-- R156: the TICK setting after power-on reset and pin reset. -/
def tickDefault : Byte := 62#8
/-- R103: the default separator. -/
def separatorDefault : Byte := 0x0C#8
/-- R103: the default substitute byte. -/
def substituteDefault : Byte := 0x3F#8
/-- R119: the default ack limit. -/
def ackLimitDefault : Byte := 20#8
/-- R178: what IDENT reads. -/
def ident : Byte := 0xD4#8

/-- How many times a line may take a job or complete a copy within one event. The law of R66 bounds the jobs of a queue by
sixteen and R2 bounds copies by 15, so 16 takes and 16 × 15 completions are never exceeded in a state a run reaches (log 11). -/
def settleBound : Nat := 320

/-- FREE VALUE (R26): what byte a store access overtaken by a reset leaves at its position, for the `n`-th such value drawn. -/
opaque tornByte : Nat → Byte
/-- FREE VALUE (R26): what check bit a store access overtaken by a reset leaves at its position. -/
opaque tornCheck : Nat → BitVec 1
/-- FREE VALUE: how many BCLK periods end in the `n`-th CLK period drawn; the spec does not tie BCLK to CLK. -/
opaque bclkPeriods : Nat → Nat

end Sys2Proof.Config
end

