-- ==== Sys2Proof/Machine/State.lean ====
section
/-! DEFINITION. The state of the part as plain data, unit by unit, and the machine right after reset (forms: log 19).
A device or bus pin the part drives (HIRQ, xDAT, xPUT, yTXD) is computed from the state in Machine/Flags.lean. -/

namespace Sys2Proof.Machine

/-- A position in the spool store: a block and an offset 0 to 256 (R30). -/
structure Pos where
  block : Fin 128
  off : Nat
  deriving DecidableEq, Repr

/-- The intake phase of a job (section 1.4). -/
inductive IntakePhase where
  | opened | closing | closed
  deriving DecidableEq, Repr

/-- The output phase of a job (section 1.5). -/
inductive OutputPhase where
  | pending | queued | current | finished
  deriving DecidableEq, Repr

/-- How a job ended (R17). -/
inductive JobOutcome where
  | complete | cancelled | aborted
  deriving DecidableEq, Repr

/-- A fault cause, or NONE (R93). -/
inductive Cause where
  | none | device | media | offline | noack | holdtime | starve | check
  deriving DecidableEq, Repr

/-- A job record (section 1.1). Its number is its slot; a free slot holds no record. -/
structure Job where
  line : Fin 4
  urgent : Bool
  early : Bool
  retain : Bool
  separate : Bool
  copies : Nat
  copiesDone : Nat
  quota : Nat
  intake : IntakePhase
  output : OutputPhase
  held : Bool
  truncated : Bool
  head : Option (Fin 128)
  tail : Option (Fin 128)
  tailFill : Nat
  chainLen : Nat
  stored : Nat
  /-- `none` is the start of an empty chain (R3). -/
  cursor : Option Pos
  copyPos : Nat
  sepPending : Bool
  anyReleased : Bool
  total : Nat
  checkErrors : Nat
  outcome : Option JobOutcome
  cause : Cause
  /-- posted: in queue (`true`) or waiting. -/
  posted : Bool
  /-- R21: cancelled-pending. -/
  cancelPending : Bool
  deriving DecidableEq, Repr

/-- A requester of the Store Arbiter (R38). -/
inductive Requester where
  | intake | drainA | drainB | drainC | drainD | verify
  deriving DecidableEq, Repr

/-- The store access in progress (R39). The byte and position of an intake access are those of the head entry and of its
job's tail; those of a fetch are in the engine; that of a scan read is in the Verify Unit. -/
inductive Access where
  /-- An intake access, with the check bit its grant decided (R27). -/
  | intake (check : BitVec 1)
  /-- A fetch by a line's Drain Engine, with the check-error flag of the read (R28). -/
  | drain (line : Fin 4) (err : Bool)
  /-- A read by the Verify Unit, with its check-error flag. -/
  | verify (err : Bool)
  deriving DecidableEq, Repr

/-- The spool store, the Block Table, the Free List and the Store Arbiter (chapter 2). -/
structure Spool where
  /-- The stored bytes by address (block × 256 + offset), in canonical form. -/
  bytes : List Host.Cell
  /-- The check bits by address, in canonical form. -/
  checks : List (Nat × BitVec 1)
  links : Vector (Option (Fin 128)) 128
  freeList : List (Fin 128)
  /-- The last-granted pointer (R38). -/
  pointer : Requester
  access : Option Access
  deriving DecidableEq, Repr

/-- The Verify Unit (section 2.5). -/
structure Verify where
  running : Bool
  job : Fin 16
  pos : Option Pos
  bytesChecked : Nat
  errors : Nat
  firstBad : Option (Fin 128)
  firstBadOff : Nat
  moved : Bool
  deriving DecidableEq, Repr

/-- The head request of the Intake Unit (section 3.1). -/
inductive HeadRequest where
  | none | waiting | granted
  deriving DecidableEq, Repr

/-- The Intake Unit (section 3.1). -/
structure Intake where
  fifo : List (Fin 16 × Byte)
  target : Option (Fin 16)
  stall : Bool
  headReq : HeadRequest
  deriving DecidableEq, Repr

/-- One line's queue: two classes, oldest first (R66). -/
structure LineQueue where
  urgent : List (Fin 16)
  normal : List (Fin 16)
  deriving DecidableEq, Repr

/-- The state of a line (R79). -/
inductive LineState where
  | off | idle | sending | starved | paused | fault
  deriving DecidableEq, Repr

/-- The step of the byte cycle (section 5.1). -/
inductive CycleStep where
  | boundary | fetching | waiting | inFlight
  deriving DecidableEq, Repr

/-- The kind of a fetched byte (section 5.1). -/
inductive ByteKind where
  | stored | substitute | separator
  deriving DecidableEq, Repr

/-- The fetched byte: its value, its kind, and for a stored or substitute byte the position of the stored byte. -/
structure Fetched where
  value : Byte
  kind : ByteKind
  pos : Option Pos
  deriving DecidableEq, Repr

/-- The check policy of a line (R82). -/
inductive Policy where
  | halt | substitute
  deriving DecidableEq, Repr

/-- The configuration fields the Drain Engine uses (R103). -/
structure DrainConfig where
  holdLimit : Byte
  starveLimit : Byte
  separator : Byte
  policy : Policy
  substitute : Byte
  deriving DecidableEq, Repr

/-- A Drain Engine (section 5.1). -/
structure Engine where
  state : LineState
  current : Option (Fin 16)
  stop : Bool
  cause : Cause
  step : CycleStep
  fetched : Option Fetched
  /-- The hold timer: `none` is disarmed. -/
  hold : Option Nat
  /-- The starve timer: `none` is disarmed. -/
  starve : Option Nat
  config : DrainConfig
  deriving DecidableEq, Repr

/-- The handshake state of a Parallel Line Unit (section 6.2). -/
inductive Handshake where
  | rest | waiting | setup | strobe | trail | ackwait
  deriving DecidableEq, Repr

/-- The end of a byte once it is decided (section 6.2). -/
inductive ByteEnd where
  | delivered | noack
  deriving DecidableEq, Repr

/-- The configuration of a Parallel Line Unit (R119). -/
structure ParConfig where
  /-- HOLD-cycle mode (`true`) or TOOK-pulse mode. -/
  holdCycle : Bool
  strobeCode : Fin 4
  ackLimit : Byte
  deriving DecidableEq, Repr

/-- A Parallel Line Unit (section 6.2). -/
structure ParUnit where
  handshake : Handshake
  /-- The byte on xDAT outside REST and WAITING. -/
  byte : Byte
  busySeen : Bool
  /-- The ack timer: `none` is disarmed. -/
  ack : Option Nat
  decided : Option ByteEnd
  /-- The levels at the pins. -/
  pins : ParPins
  /-- The levels in the snapshot (R109). -/
  snapshot : ParPins
  config : ParConfig
  /-- CLK periods passed in SETUP, STROBE or TRAIL (R112). -/
  phaseClks : Nat
  deriving DecidableEq, Repr

/-- The transmit state of a Serial Line Unit (section 7.2). -/
inductive Transmit where
  | rest | waiting | shifting
  deriving DecidableEq, Repr

/-- The receiver state (R129). -/
inductive Receiver where
  | stopped | markwait | hunt | receiving
  deriving DecidableEq, Repr

/-- Parity of a frame (R127). -/
inductive Parity where
  | none | odd | even
  deriving DecidableEq, Repr

/-- Flow mode of a serial line (R125). -/
inductive Flow where
  | none | go | xonxoff
  deriving DecidableEq, Repr

/-- The configuration of a Serial Line Unit (R131). -/
structure SerConfig where
  rate : Fin 8
  /-- 7 data bits (`true`) or 8. -/
  seven : Bool
  parity : Parity
  /-- 2 stop bits (`true`) or 1. -/
  twoStop : Bool
  flow : Flow
  deriving DecidableEq, Repr

/-- A Serial Line Unit (section 7.2). -/
structure SerUnit where
  transmit : Transmit
  frameByte : Byte
  /-- The bit position: the index in the frame of the bit on yTXD while SHIFTING. -/
  bitIndex : Nat
  /-- BCLK periods passed in that bit. -/
  bitClks : Nat
  receiver : Receiver
  /-- In HUNT: a fall has begun a character and its half-bit sample is due (R129). -/
  startSeen : Bool
  /-- The data bits of the character being received, once its bits are in. -/
  rxData : Byte
  /-- Its parity bit. -/
  rxParity : Bool
  xoff : Bool
  /-- The levels at the pins. -/
  pins : SerPins
  /-- The levels in the snapshot (R124). -/
  snapshot : SerPins
  /-- CLK periods for which yRXD has held a level that is not yet in the snapshot (R124). -/
  rxdClks : Nat
  config : SerConfig
  deriving DecidableEq, Repr

/-- A completion record (R134). -/
structure Record where
  seq : Byte
  job : Fin 16
  line : Fin 4
  outcome : JobOutcome
  truncated : Bool
  copiesDone : Nat
  total : Nat
  checkErrors : Nat
  cause : Cause
  deriving DecidableEq, Repr

/-- The Completion Unit (section 8.1). -/
structure Completion where
  queue : List Record
  postWait : List (Fin 16)
  seq : Byte
  deriving DecidableEq, Repr

/-- The state of the Command Port (R143). -/
inductive PortState where
  | idle | collecting | executing | results
  deriving DecidableEq, Repr

/-- The Command Port (section 9.1). `results` holds the bytes not yet read. -/
structure Port where
  state : PortState
  staged : Option Cmd
  staging : List Byte
  results : List Byte
  abandoned : Bool
  collided : Bool
  strayParam : Bool
  underrun : Bool
  deriving DecidableEq, Repr

/-- The Event Unit (section 9.8): the EVENT flags and the ENABLE mask, in the layout of R182. -/
structure Events where
  flags : Byte
  enable : Byte
  deriving DecidableEq, Repr

/-- The Time Base (R156): the TICK setting and the count of CLK periods. -/
structure TimeBase where
  setting : Byte
  count : Nat
  deriving DecidableEq, Repr

/-- The Register Window and the resets: STATUS.READY, the two resets that hold the part, the CLK periods of the start-up
build, CONTROL.INVCHK, and the byte the last host read of RESULT drove on D0 to D7. -/
structure Window where
  ready : Bool
  powerHeld : Bool
  pinHeld : Bool
  buildClks : Nat
  invchk : Bool
  readByte : Byte
  deriving DecidableEq, Repr

/-- The state of the part, and the queue of the commands that are waiting. -/
structure State where
  /-- The commands waiting to be taken, oldest first (the model's own). -/
  pending : List Instr
  window : Window
  jobs : Vector (Option Job) 16
  spool : Spool
  verify : Verify
  intake : Intake
  queues : Vector LineQueue 4
  engines : Vector Engine 4
  par : Vector ParUnit 2
  ser : Vector SerUnit 2
  completion : Completion
  port : Port
  events : Events
  timeBase : TimeBase
  /-- How many free values have been drawn (the model's own). -/
  fresh : Nat
  deriving DecidableEq, Repr

/-- Why the machine stops with a fault: no command does, since the spec gives each an effect in every state, and so there is
no reason. -/
inductive Fault
  deriving DecidableEq, Repr

/-- Why a command has no meaning. -/
inductive Refusal where
  /-- Raised by `exec` for a command whose meaning is not written. Safe: the machine stops. No arm raises it. -/
  | notModelled (mnemonic : String)
  deriving DecidableEq, Repr

/-- R103: the default configuration of a Drain Engine. -/
def DrainConfig.default : DrainConfig :=
  { holdLimit := 0#8, starveLimit := 0#8, separator := Config.separatorDefault, policy := .halt,
    substitute := Config.substituteDefault }

/-- R106: a Drain Engine after power-on reset or pin reset. -/
def Engine.reset : Engine :=
  { state := .off, current := none, stop := false, cause := .none, step := .boundary, fetched := none, hold := none,
    starve := none, config := DrainConfig.default }

/-- The levels a parallel line's inputs stand at before a device drives them: every input inactive (log 3, DESIGN
CHOICE). -/
def ParPins.quiet : ParPins := { took := true, hold := false, fail := true, out := false, on := false }

/-- The levels a serial line's inputs stand at before a device drives them: yGO inactive, yRXD at mark (log 3,
DESIGN CHOICE). -/
def SerPins.quiet : SerPins := { go := true, rxd := true }

/-- R119: the default configuration of a Parallel Line Unit. -/
def ParConfig.default : ParConfig := { holdCycle := false, strobeCode := 0, ackLimit := Config.ackLimitDefault }

/-- R121: a Parallel Line Unit after power-on reset or pin reset, with these levels at its pins. The spec gives the snapshot from
the end of the reset on; here it holds the pins' levels from the start of the reset too (log 6, DESIGN CHOICE). -/
def ParUnit.reset (pins : ParPins) : ParUnit :=
  { handshake := .rest, byte := 0#8, busySeen := false, ack := none, decided := none, pins := pins, snapshot := pins,
    config := ParConfig.default, phaseClks := 0 }

/-- R131: the default configuration of a Serial Line Unit. -/
def SerConfig.default : SerConfig := { rate := 5, seven := false, parity := .none, twoStop := false, flow := .none }

/-- R133: a Serial Line Unit after power-on reset or pin reset, with these levels at its pins. The snapshot is loaded from them at
the start of the reset too (log 6, DESIGN CHOICE). -/
def SerUnit.reset (pins : SerPins) : SerUnit :=
  { transmit := .rest, frameByte := 0#8, bitIndex := 0, bitClks := 0, receiver := .stopped, startSeen := false,
    rxData := 0#8, rxParity := false, xoff := false, pins := pins, snapshot := pins, rxdClks := 0, config := SerConfig.default }

/-- R46, R38: the spool store right after power-on reset; the links before the first build are log 9's (DESIGN CHOICE). -/
def Spool.reset : Spool :=
  { bytes := [], checks := [], links := Vector.replicate 128 none, freeList := [], pointer := .verify, access := none }

/-- R45: the Verify Unit after a reset; its job and position are log 9's (DESIGN CHOICE). -/
def Verify.reset : Verify :=
  { running := false, job := 0, pos := none, bytesChecked := 0, errors := 0, firstBad := none, firstBadOff := 0,
    moved := false }

/-- R65: the Intake Unit after a reset. -/
def Intake.reset : Intake := { fifo := [], target := none, stall := false, headReq := .none }

/-- R142: the Completion Unit after a reset. -/
def Completion.reset : Completion := { queue := [], postWait := [], seq := 0#8 }

/-- R151: the Command Port after a reset. -/
def Port.reset : Port :=
  { state := .idle, staged := none, staging := [], results := [], abandoned := false, collided := false,
    strayParam := false, underrun := false }

/-- The machine right after reset: a power-on reset has just ended and the start-up build begins (R46; log 2, DESIGN CHOICE; for
fields to which the spec gives no value, log 9, DESIGN CHOICE). -/
def State.reset : State :=
  { pending := []
    window := { ready := false, powerHeld := false, pinHeld := false, buildClks := 0, invchk := false, readByte := 0#8 }
    jobs := Vector.replicate 16 none
    spool := Spool.reset
    verify := Verify.reset
    intake := Intake.reset
    queues := Vector.replicate 4 { urgent := [], normal := [] }
    engines := Vector.replicate 4 Engine.reset
    par := Vector.replicate 2 (ParUnit.reset ParPins.quiet)
    ser := Vector.replicate 2 (SerUnit.reset SerPins.quiet)
    completion := Completion.reset
    port := Port.reset
    events := { flags := 0#8, enable := 0#8 }
    timeBase := { setting := Config.tickDefault, count := 0 }
    fresh := 0 }

end Sys2Proof.Machine
end

