-- ==== Sys2Proof/Machine/Operands.lean ====
section
/-! DEFINITION. The parameter bytes of the commands: what each means and which are refused with BADPARAM (R158, R184),
and the bytes of results. -/

namespace Sys2Proof.Machine

/-- R158: a byte 0–15 names a slot. -/
def jobOf (b : Byte) : Option (Fin 16) := if h : b.toNat < 16 then some ⟨b.toNat, h⟩ else none

/-- R158: a byte 0–3 names a line. -/
def lineOf (b : Byte) : Option (Fin 4) := if h : b.toNat < 4 then some ⟨b.toNat, h⟩ else none

/-- R2, R184: the four parameters of OPEN pass their checks. -/
def openParamsOk (line options copies quota : Byte) : Bool :=
  decide (line.toNat < 4) && decide (options.toNat < 16) && decide (1 ≤ copies.toNat) && decide (copies.toNat ≤ 15)
    && decide (quota.toNat ≤ 128) && !(options.getLsbD 1 && decide (1 < copies.toNat))

/-- R184: the policy byte. -/
def policyOf (b : Byte) : Option Policy :=
  match b.toNat with
  | 0 => some .halt
  | 1 => some .substitute
  | _ => none

/-- R119, R184: a parallel line's mode and ack limit. -/
def parConfigOf (mode second : Byte) : Option ParConfig :=
  if mode.toNat < 8 ∧ second.toNat ≠ 0 then
    some { holdCycle := mode.getLsbD 0, strobeCode := Fin.ofNat 4 (mode.toNat / 2), ackLimit := second }
  else none

/-- R184: the parity positions of a serial mode. -/
def parityOf (mode : Byte) : Option Parity :=
  match mode.toNat / 16 % 4 with
  | 0 => some .none
  | 1 => some .odd
  | 2 => some .even
  | _ => none

/-- R184: the flow byte. -/
def flowOf (b : Byte) : Option Flow :=
  match b.toNat with
  | 0 => some .none
  | 1 => some .go
  | 2 => some .xonxoff
  | _ => none

/-- R131, R184: a serial line's mode and flow; bit 7 of the mode is reserved. -/
def serConfigOf (mode second : Byte) : Option SerConfig :=
  match parityOf mode, flowOf second with
  | some p, some f =>
    if mode.toNat < 128 then
      some { rate := Fin.ofNat 8 mode.toNat, seven := mode.getLsbD 3, parity := p, twoStop := mode.getLsbD 6, flow := f }
    else none
  | _, _ => none

/-- R173: the choice of LINE RESUME is 0 for retry and 1 for skip; `true` is skip. -/
def skipOf (b : Byte) : Option Bool :=
  match b.toNat with
  | 0 => some false
  | 1 => some true
  | _ => none

/-- A completion code (R147). -/
inductive Code where
  | ok | unknown | badParam | badJob | badState | noSlot | notReady | empty | gone
  deriving DecidableEq, Repr

/-- R184: the byte of a completion code. -/
def codeByte : Code → Byte
  | .ok => 0x01#8
  | .unknown => 0x02#8
  | .badParam => 0x03#8
  | .badJob => 0x04#8
  | .badState => 0x05#8
  | .noSlot => 0x06#8
  | .notReady => 0x07#8
  | .empty => 0x08#8
  | .gone => 0x09#8

/-- R184: the byte of an intake phase. -/
def intakeByte : IntakePhase → Byte
  | .opened => 0#8
  | .closing => 1#8
  | .closed => 2#8

/-- R184: the byte of an output phase. -/
def outputByte : OutputPhase → Byte
  | .pending => 0#8
  | .queued => 1#8
  | .current => 2#8
  | .finished => 3#8

/-- R184: the byte of a line state. -/
def lineStateByte : LineState → Byte
  | .off => 0#8
  | .idle => 1#8
  | .sending => 2#8
  | .starved => 3#8
  | .paused => 4#8
  | .fault => 5#8

/-- R184: the byte of an outcome. -/
def outcomeByte : JobOutcome → Byte
  | .complete => 1#8
  | .cancelled => 2#8
  | .aborted => 3#8

/-- R184: the byte of a fault cause. -/
def causeByte : Cause → Byte
  | .none => 0#8
  | .device => 1#8
  | .media => 2#8
  | .offline => 3#8
  | .noack => 4#8
  | .holdtime => 5#8
  | .starve => 6#8
  | .check => 7#8

/-- A number that may be none, as a byte: 0xFF stands for none (R183). -/
def orNone {n : Nat} (x : Option (Fin n)) : Byte :=
  match x with
  | some i => byteOf i.val
  | none => 0xFF#8

/-- R184: flags as a byte, bit 0 first. -/
def flagByte (bits : List Bool) : Byte := byteOf (packBits bits)

/-- R134, R183: the eleven bytes of a completion record. -/
def recordBytes (r : Record) : List Byte :=
  [r.seq, byteOf r.job.val, byteOf r.line.val, outcomeByte r.outcome, flagByte [r.truncated], byteOf r.copiesDone]
    ++ leBytes 3 r.total ++ [byteOf r.checkErrors, causeByte r.cause]

/-- R167, R183: the twelve bytes QUERY JOB returns after the code. -/
def jobBytes (r : Job) : List Byte :=
  [intakeByte r.intake, outputByte r.output, byteOf r.line.val, flagByte [r.urgent, r.early, r.retain, r.separate],
    flagByte [r.held, r.truncated], byteOf r.copies, byteOf r.copiesDone]
    ++ leBytes 3 r.stored ++ [byteOf r.chainLen, byteOf r.checkErrors]

/-- R120: the device inputs of a parallel line, by the meaning of each signal. -/
def parInputsByte (p : ParPins) : Byte := flagByte [p.on, !p.fail, p.out, p.hold, !p.took]

/-- R132: the device inputs of a serial line. -/
def serInputsByte (u : SerUnit) : Byte := flagByte [!u.snapshot.go, u.xoff, u.snapshot.rxd]

/-- R43, R183: the five bytes VERIFY returns after the code. -/
def verifyBytes (v : Verify) : List Byte :=
  [byteOf v.errors, orNone v.firstBad, byteOf v.firstBadOff] ++ leBytes 2 v.bytesChecked

end Sys2Proof.Machine
end

