-- ==== Sys2Proof/Machine/Flags.lean ====
section
/-! DEFINITION. The flags and the outputs of the part: the event flags (R152), the registers as the host reads them
(R178, R182), and the levels the part drives on HIRQ, xDAT, xPUT and yTXD (R154, R107, R122, R127). -/

namespace Sys2Proof.Machine

/-- The eight event flags (R152). -/
inductive Ev where
  | cmdDone | cmdErr | doneQ | lineAtt | storeFull | overrun | stray | check
  deriving DecidableEq, Repr

/-- R182: the position of each flag in EVENT and ENABLE. -/
def evMask : Ev → Byte
  | .cmdDone => 0x01#8
  | .cmdErr => 0x02#8
  | .doneQ => 0x04#8
  | .lineAtt => 0x08#8
  | .storeFull => 0x10#8
  | .overrun => 0x20#8
  | .stray => 0x40#8
  | .check => 0x80#8

/-- R152: raise a flag; one that is set stays set. -/
def raise (e : Ev) (s : State) : State := { s with events.flags := s.events.flags ||| evMask e }

/-- R154: HIRQ is asserted while a set flag is enabled. -/
def hirq (s : State) : Bool := decide (s.events.flags &&& s.events.enable ≠ 0#8)

/-- Either reset holds the part (R181; log 16, DEDUCED). -/
def inReset (s : State) : Bool := s.window.powerHeld || s.window.pinHeld

/-- R46: the start-up build is running. -/
def building (s : State) : Bool := !s.window.ready && !inReset s

/-- R105: at least one line is in FAULT. -/
def anyFault (s : State) : Bool :=
  s.engines[0].state == .fault || s.engines[1].state == .fault || s.engines[2].state == .fault || s.engines[3].state == .fault

/-- R182: the number of a port state. -/
def portStateNum : PortState → Nat
  | .idle => 0
  | .collecting => 1
  | .executing => 2
  | .results => 3

/-- R182: what COMMAND reads. -/
def commandByte (p : Port) : Byte :=
  byteOf (portStateNum p.state + 16 * packBits [p.abandoned, p.collided, p.strayParam, p.underrun])

/-- R182: what STATUS reads. -/
def statusByte (s : State) : Byte :=
  flagByte [s.window.ready, s.intake.stall, s.port.state == .executing, !s.completion.queue.isEmpty, anyFault s,
    s.intake.fifo.isEmpty]

/-- R105, R182: the group of a line state in LINES. -/
def lineGroup : LineState → Nat
  | .off => 0
  | .idle => 0
  | .sending => 1
  | .starved => 2
  | .paused => 2
  | .fault => 3

/-- R182: what LINES reads. -/
def linesByte (s : State) : Byte :=
  byteOf (lineGroup s.engines[0].state + 4 * lineGroup s.engines[1].state + 16 * lineGroup s.engines[2].state
    + 64 * lineGroup s.engines[3].state)

/-- R149, R151: what a read of RESULT returns: the next unread byte, or 0x00 when none waits. -/
def resultByte (s : State) : Byte :=
  if s.window.ready && s.port.state == .results then s.port.results.headD 0#8 else 0#8

/-- R178, R179: what a host read of a register returns. The read of RESULT has a side effect, which RESULT_READ gives. -/
def readRegister (reg : BitVec 4) (s : State) : Byte :=
  match reg.toNat with
  | 0x1 => commandByte s.port
  | 0x3 => resultByte s
  | 0x4 => statusByte s
  | 0x5 => s.events.flags
  | 0x6 => s.events.enable
  | 0x7 => flagByte [false, s.window.invchk]
  | 0x8 => byteOf (Config.fifoDepth - s.intake.fifo.length)
  | 0x9 => orNone s.intake.target
  | 0xA => byteOf s.spool.freeList.length
  | 0xB => linesByte s
  | 0xC => byteOf s.completion.queue.length
  | 0xD => s.timeBase.setting
  | 0xE => Config.ident
  | _ => 0#8

/-- R108: a byte is in flight on a parallel line. -/
def byteOut : Handshake → Bool
  | .rest => false
  | .waiting => false
  | .setup => true
  | .strobe => true
  | .trail => true
  | .ackwait => true

/-- R107, R112: what a Parallel Line Unit drives on xDAT. -/
def xDat (u : ParUnit) : Byte := if byteOut u.handshake then u.byte else 0#8

/-- R107, R112: the level of xPUT, low only in STROBE. -/
def xPut (u : ParUnit) : Bool := u.handshake != .strobe

/-- R127: the data bits sent, least significant first. -/
def dataBits (seven : Bool) (b : Byte) : List Bool :=
  [b.getLsbD 0, b.getLsbD 1, b.getLsbD 2, b.getLsbD 3, b.getLsbD 4, b.getLsbD 5, b.getLsbD 6]
    ++ (if seven then [] else [b.getLsbD 7])

/-- R127, R129: the parity bit that goes with data bits. -/
def parityBit (p : Parity) (bits : List Bool) : Option Bool :=
  match p with
  | .none => none
  | .odd => some (bits.count true % 2 == 0)
  | .even => some (bits.count true % 2 == 1)

/-- R127: the levels of a frame, one for each bit time in the order sent (`true` is mark). -/
def frameLevels (c : SerConfig) (b : Byte) : List Bool :=
  [false] ++ dataBits c.seven b ++ (parityBit c.parity (dataBits c.seven b)).toList
    ++ (if c.twoStop then [true, true] else [true])

/-- R122, R127: the level of yTXD, at mark whenever no frame is being shifted out. -/
def yTxd (u : SerUnit) : Bool :=
  match u.transmit with
  | .shifting => (frameLevels u.config u.frameByte).getD u.bitIndex true
  | .rest => true
  | .waiting => true

end Sys2Proof.Machine
end

