-- ==== Sys2Proof/Machine/Memory.lean ====
section
/-! DEFINITION. The store's contents: lists of address and value in one canonical form (addresses strictly rising, below
32,768, no entry equal to what an unlisted address reads as), with the read and the write of one position. The bytes are
held at width 8 and the check bits at width 1. What an unlisted address reads as is zero (log 4). -/

namespace Sys2Proof.Machine

/-- Contents of the store at one width. -/
abbrev Memory (w : Nat) : Type := List (Nat × BitVec w)

/-- What a position that is not listed reads as (log 4, DESIGN CHOICE, unsafe). -/
def Memory.unlisted (w : Nat) : BitVec w := 0#w

/-- The value at an address. -/
def Memory.read {w : Nat} : Memory w → Nat → BitVec w
  | [], _ => Memory.unlisted w
  | (k, v) :: m, a => if k = a then v else Memory.read m a

/-- The contents with one address changed, in canonical form. -/
def Memory.write {w : Nat} : Memory w → Nat → BitVec w → Memory w
  | [], a, v => if v = Memory.unlisted w then [] else [(a, v)]
  | (k, x) :: m, a, v =>
    if a < k then (if v = Memory.unlisted w then (k, x) :: m else (a, v) :: (k, x) :: m)
    else if a = k then (if v = Memory.unlisted w then m else (a, v) :: m)
    else (k, x) :: Memory.write m a v

/-- R26: addresses of the store are block × 256 + offset, 0 to 32,767. -/
def Memory.size : Nat := Config.blocks * Config.blockBytes

/-- The canonical form, for entries at or above `lo`. -/
def Memory.wfFrom {w : Nat} : Nat → Memory w → Bool
  | _, [] => true
  | lo, (k, v) :: m => decide (lo ≤ k) && decide (k < Memory.size) && decide (v ≠ Memory.unlisted w) && Memory.wfFrom (k + 1) m

/-- The canonical form holds. -/
def Memory.wf {w : Nat} (m : Memory w) : Bool := Memory.wfFrom 0 m

/-- The address of a position of the store. -/
def Pos.addr (p : Pos) : Nat := p.block.val * Config.blockBytes + p.off

/-- R27: the check bit stored with a byte, odd parity or, with INVCHK set, its inverse. -/
def checkBit (invchk : Bool) (b : Byte) : BitVec 1 :=
  if (onesIn b % 2 == 0) != invchk then 1#1 else 0#1

/-- R28: a read finds a check error when its nine stored bits hold an even number of ones. -/
def checkError (b : Byte) (c : BitVec 1) : Bool := (onesIn b + c.toNat) % 2 == 0

end Sys2Proof.Machine
end

