-- ==== Sys2Proof/Machine/Ops.lean ====
section
/-! DEFINITION. The named operations over the tables of the part: the one way each table is read and written, the queues,
the events of the Command Port's end of a command, and the positions of a job's chain. -/

namespace Sys2Proof.Machine

/-- Entry `i` of a table. -/
def tab {α : Type} {n : Nat} (v : Vector α n) (i : Fin n) : α := v[i.val]

/-- A table with entry `i` changed. -/
def setTab {α : Type} {n : Nat} (v : Vector α n) (i : Fin n) (x : α) : Vector α n := v.set i.val x i.isLt

/-- The record of a job; `none` for a free slot. -/
def jobAt (s : State) (j : Fin 16) : Option Job := tab s.jobs j
/-- The Drain Engine of a line. -/
def engineAt (s : State) (l : Fin 4) : Engine := tab s.engines l
/-- The queue of a line. -/
def queueAt (s : State) (l : Fin 4) : LineQueue := tab s.queues l
/-- A Parallel Line Unit. -/
def parAt (s : State) (x : Fin 2) : ParUnit := tab s.par x
/-- A Serial Line Unit. -/
def serAt (s : State) (y : Fin 2) : SerUnit := tab s.ser y
/-- The next-link of a block (R30). -/
def linkAt (s : State) (b : Fin 128) : Option (Fin 128) := tab s.spool.links b

/-- Write a job record. -/
def setJob (j : Fin 16) (r : Job) (s : State) : State := { s with jobs := setTab s.jobs j (some r) }
/-- Free a slot (R23). -/
def freeSlot (j : Fin 16) (s : State) : State := { s with jobs := setTab s.jobs j none }
/-- Write a Drain Engine. -/
def setEngine (l : Fin 4) (e : Engine) (s : State) : State := { s with engines := setTab s.engines l e }
/-- Write a line's queue. -/
def setQueue (l : Fin 4) (q : LineQueue) (s : State) : State := { s with queues := setTab s.queues l q }
/-- Write a Parallel Line Unit. -/
def setPar (x : Fin 2) (u : ParUnit) (s : State) : State := { s with par := setTab s.par x u }
/-- Write a Serial Line Unit. -/
def setSer (y : Fin 2) (u : SerUnit) (s : State) : State := { s with ser := setTab s.ser y u }
/-- Write the next-link of a block. -/
def setLink (b : Fin 128) (x : Option (Fin 128)) (s : State) : State :=
  { s with spool.links := setTab s.spool.links b x }

/-- Which Line Unit a line ends in: lines A and B are parallel, C and D serial (R184). -/
inductive UnitOf where
  | par (x : Fin 2)
  | ser (y : Fin 2)
  deriving DecidableEq, Repr

/-- The Line Unit of a line. -/
def unitOf (l : Fin 4) : UnitOf :=
  if l.val < 2 then .par (Fin.ofNat 2 l.val) else .ser (Fin.ofNat 2 (l.val - 2))
/-- The line of a Parallel Line Unit. -/
def parLine (x : Fin 2) : Fin 4 := ⟨x.val, by omega⟩
/-- The line of a Serial Line Unit. -/
def serLine (y : Fin 2) : Fin 4 := ⟨y.val + 2, by omega⟩

/-- R146: the command ends: its results are in the result buffer, the port is in RESULTS and CMDDONE is raised. -/
def finish (bytes : List Byte) (s : State) : State :=
  raise .cmdDone
    { s with port := { s.port with state := .results, staged := none, staging := [], results := bytes } }

/-- R146: the command ends with its code alone. -/
def finishCode (c : Code) (s : State) : State := finish [codeByte c] s

/-- The current job of a line and its record. -/
def currentJob (s : State) (l : Fin 4) : Option (Fin 16 × Job) :=
  match (engineAt s l).current with
  | none => none
  | some j => (jobAt s j).map (fun r => (j, r))

/-- R30: where the next read of a reader at this position is made; `none` where the store has no such position. -/
def readPos (s : State) (p : Option Pos) : Option Pos :=
  match p with
  | none => none
  | some p =>
    if p.off < Config.blockBytes then some p
    else (linkAt s p.block).map (fun b => { block := b, off := 0 })

/-- R30, R39: a position is at the stored end of a job: the chain is empty, or the position or the read that follows it is
where the job's next byte goes in its tail block. While an access that took a new tail block is in progress that place is
offset 0 of the new block, and so the position past the last byte of the old tail is the stored end until the access has
ended (log 21, DEDUCED). No block of a chain that is not empty is taken as not there (log 17, DESIGN CHOICE). -/
def atStoredEnd (s : State) (r : Job) (p : Option Pos) : Bool :=
  match r.tail with
  | none => true
  | some t =>
    let next : Pos := { block := t, off := r.tailFill }
    p == some next || readPos s p == some next

/-- The position at offset 0 of a job's head block, or the start of an empty chain. -/
def chainStart (r : Job) : Option Pos := r.head.map (fun b => { block := b, off := 0 })

/-- The blocks of a chain of this length from its head, following the links. -/
def chainFrom (s : State) : Nat → Option (Fin 128) → List (Fin 128)
  | 0, _ => []
  | _ + 1, none => []
  | n + 1, some b => b :: chainFrom s n (linkAt s b)

/-- The blocks a job holds, head first. -/
def chainOf (s : State) (r : Job) : List (Fin 128) := chainFrom s r.chainLen r.head

/-- R34: a block goes to the tail of the Free List and its link becomes none. -/
def releaseBlock (b : Fin 128) (s : State) : State :=
  setLink b none { s with spool.freeList := s.spool.freeList ++ [b] }

/-- R36: blocks are released one after another, in the order given. -/
def releaseAll : List (Fin 128) → State → State
  | [], s => s
  | b :: bs, s => releaseAll bs (releaseBlock b s)

/-- R67: a job joins the tail of its class in the queue of a line. -/
def joinTail (l : Fin 4) (urgent : Bool) (j : Fin 16) (s : State) : State :=
  let q := queueAt s l
  setQueue l (if urgent then { q with urgent := q.urgent ++ [j] } else { q with normal := q.normal ++ [j] }) s

/-- R68: a job joins the head of its class in the queue of a line. -/
def joinHead (l : Fin 4) (urgent : Bool) (j : Fin 16) (s : State) : State :=
  let q := queueAt s l
  setQueue l (if urgent then { q with urgent := j :: q.urgent } else { q with normal := j :: q.normal }) s

/-- R69: a job leaves the queue of a line from the place where it stands. -/
def leaveQueue (l : Fin 4) (j : Fin 16) (s : State) : State :=
  let q := queueAt s l
  setQueue l { urgent := q.urgent.filter (· ≠ j), normal := q.normal.filter (· ≠ j) } s

/-- A job of a queue is occupied and not held. -/
def unheld (s : State) (j : Fin 16) : Bool :=
  match jobAt s j with
  | some r => !r.held
  | none => false

/-- R71: the job a line would take: the first unheld URGENT entry, or failing that the first unheld NORMAL entry. -/
def eligible (s : State) (l : Fin 4) : Option (Fin 16) :=
  let q := queueAt s l
  match q.urgent.find? (unheld s) with
  | some j => some j
  | none => q.normal.find? (unheld s)

/-- R77: the length of a line's queue. -/
def queueLength (q : LineQueue) : Nat := q.urgent.length + q.normal.length

/-- The intake holds an entry of a job. -/
def hasEntry (s : State) (j : Fin 16) : Bool := s.intake.fifo.any (fun e => e.1 == j)

end Sys2Proof.Machine
end

