-- ==== Sys2Proof/Machine/Store.lean ====
section
/-! DEFINITION. The spool store's work for its requesters: the reads and writes of the contents, allocation at an intake
grant (R33), the end of an intake access (R54), and the Store Arbiter's choice (R37, R38). -/

namespace Sys2Proof.Machine

/-- R28: the byte at a position and whether its read finds a check error. -/
def storeRead (s : State) (p : Pos) : Byte × Bool :=
  let b := Memory.read s.spool.bytes p.addr
  (b, checkError b (Memory.read s.spool.checks p.addr))

/-- The position an intake access for a job writes: the offset the tail fill gives in the tail block (R54). -/
def tailPos (r : Job) : Option Pos := r.tail.map (fun t => { block := t, off := r.tailFill })

/-- R33: the block at the head of the Free List becomes the job's new tail; `none` when the Free List is empty. The record
shows the new tail and the chain length from the grant on (log 21, DEDUCED). -/
def allocate (j : Fin 16) (r : Job) (s : State) : Option State :=
  match s.spool.freeList with
  | [] => none
  | nb :: rest =>
    let s := { s with spool.freeList := rest }
    let s := match r.tail with
      | some t => setLink t (some nb) s
      | none => s
    let s := setLink nb none s
    some (match r.tail with
      | some _ => setJob j { r with tail := some nb, tailFill := 0, chainLen := r.chainLen + 1 } s
      | none =>
        setJob j { r with head := some nb, tail := some nb, tailFill := 0, chainLen := r.chainLen + 1,
                          cursor := some { block := nb, off := 0 } } s)

/-- R53 test 3: the job has a tail block with room. -/
def tailHasRoom (r : Job) : Bool := r.tail.isSome && decide (r.tailFill < Config.blockBytes)

/-- R33, R54: the grant of the head entry's store access. -/
def grantIntake (s : State) : Option State :=
  match s.intake.fifo with
  | [] => none
  | (j, b) :: _ =>
    match jobAt s j with
    | none => none
    | some r =>
      let go := fun t : State =>
        { t with spool.access := some (.intake (checkBit t.window.invchk b)), intake.headReq := .granted }
      if tailHasRoom r then some (go s) else (allocate j r s).map go

/-- R81: the grant of a line's fetch: the engine records the byte, its kind and the position it was read from. A cursor at
the stored end reads nothing (R30). -/
def grantFetch (l : Fin 4) (s : State) : Option State :=
  match currentJob s l with
  | none => none
  | some (_, r) =>
    if atStoredEnd s r r.cursor then none
    else match readPos s r.cursor with
    | none => none
    | some p =>
      let rd := storeRead s p
      some { setEngine l { engineAt s l with fetched := some { value := rd.1, kind := .stored, pos := some p } } s with
        spool.access := some (.drain l rd.2) }

/-- R41: the grant of the scan's read; the scan then stands at the position read. A scan at the stored end reads nothing. -/
def grantVerify (s : State) : Option State :=
  match jobAt s s.verify.job, readPos s s.verify.pos with
  | some r, some p =>
    if atStoredEnd s r s.verify.pos then none
    else some { s with spool.access := some (.verify (storeRead s p).2), verify.pos := some p }
  | _, _ => none

/-- R38: the order in which requesters are looked through after the one the pointer names. -/
def afterPointer : Requester → List Requester
  | .intake => [.drainA, .drainB, .drainC, .drainD, .verify, .intake]
  | .drainA => [.drainB, .drainC, .drainD, .verify, .intake, .drainA]
  | .drainB => [.drainC, .drainD, .verify, .intake, .drainA, .drainB]
  | .drainC => [.drainD, .verify, .intake, .drainA, .drainB, .drainC]
  | .drainD => [.verify, .intake, .drainA, .drainB, .drainC, .drainD]
  | .verify => [.intake, .drainA, .drainB, .drainC, .drainD, .verify]

/-- The access a grant to a requester begins (R39); `none` where it has none to make: a reader at the stored end, or, in
states that no run reaches, a reader with no position in its chain and an allocation from an empty Free List (log 17). -/
def grantTo (q : Requester) (s : State) : Option State :=
  match q with
  | .intake => grantIntake s
  | .drainA => grantFetch 0 s
  | .drainB => grantFetch 1 s
  | .drainC => grantFetch 2 s
  | .drainD => grantFetch 3 s
  | .verify => grantVerify s

/-- R37: the step of its unit at which a requester makes its request. -/
def atRequest (s : State) : Requester → Bool
  | .intake => s.intake.headReq == .waiting
  | .drainA => (engineAt s 0).step == .fetching
  | .drainB => (engineAt s 1).step == .fetching
  | .drainC => (engineAt s 2).step == .fetching
  | .drainD => (engineAt s 3).step == .fetching
  | .verify => s.verify.running

/-- R37: a requester's request is waiting: its unit is at that step and has an access to make (log 17, DESIGN CHOICE). -/
def requesting (s : State) (q : Requester) : Bool := atRequest s q && (grantTo q s).isSome

/-- R38: the requester the Arbiter grants next; `none` when no request is waiting. -/
def nextRequester (s : State) : Option Requester := (afterPointer s.spool.pointer).find? (requesting s)

/-- R38: the pointer names a requester. -/
def setPointer (q : Requester) (s : State) : State := { s with spool.pointer := q }

/-- R38, R39: the Store Arbiter, with the store free, grants the next waiting requester, which the pointer then names. -/
def storeGrant (s : State) : State :=
  match s.spool.access, nextRequester s with
  | none, some q => setPointer q ((grantTo q s).getD s)
  | _, _ => s

/-- R54: the head entry's byte and check bit are in the store, tail fill and stored count rise, the entry leaves the FIFO,
and the store is free. The effects on the job's phases are not made here. -/
def storeHead (check : BitVec 1) (s : State) : State :=
  match s.intake.fifo with
  | [] => { s with spool.access := none, intake.headReq := .none }
  | (j, b) :: rest =>
    let s := { s with spool.access := none, intake.headReq := .none, intake.fifo := rest }
    match jobAt s j with
    | none => s
    | some r =>
      match tailPos r with
      | none => s
      | some p =>
        setJob j { r with tailFill := r.tailFill + 1, stored := r.stored + 1 }
          { s with spool.bytes := Memory.write s.spool.bytes p.addr b
                   spool.checks := Memory.write s.spool.checks p.addr check }

end Sys2Proof.Machine
end

