-- ==== Sys2Proof/Machine/JobTable.lean ====
section
/-! DEFINITION. Retirement, the one act of the Job Table that ends a job (R16), with what it calls: the Completion Unit's
posting (R135), the end of a scan (R43, R44) and the purge of the Intake FIFO (R63). -/

namespace Sys2Proof.Machine

/-- R134: the record of a job, built at its posting. -/
def recordOf (j : Fin 16) (r : Job) (seq : Byte) : Record :=
  { seq := seq, job := j, line := r.line, outcome := r.outcome.getD .complete, truncated := r.truncated,
    copiesDone := r.copiesDone, total := r.total, checkErrors := r.checkErrors, cause := r.cause }

/-- R135, R137: a job is posted: its record joins the tail of the Completion Queue with the counter's value, the counter
advances, posted becomes in queue and DONEQ is raised. -/
def post (j : Fin 16) (s : State) : State :=
  match jobAt s j with
  | none => s
  | some r =>
    raise .doneQ
      { setJob j { r with posted := true } s with
        completion.queue := s.completion.queue ++ [recordOf j r s.completion.seq]
        completion.seq := s.completion.seq + 1#8 }

/-- R135: the hand-over of a retired job to the Completion Unit. -/
def handOver (j : Fin 16) (s : State) : State :=
  if s.completion.queue.length < Config.completionDepth then post j s
  else { s with completion.postWait := s.completion.postWait ++ [j] }

/-- R43, R44: the scan ends with a code; its results go to the port. -/
def endScan (c : Code) (s : State) : State :=
  finish (codeByte c :: verifyBytes s.verify) { s with verify.running := false }

/-- R41: a read of the scan is counted and the position advances by one. -/
def countRead (err : Bool) (s : State) : State :=
  let v := s.verify
  let v1 := { v with bytesChecked := satSucc Config.scanTop v.bytesChecked,
                     pos := v.pos.map (fun p => { p with off := p.off + 1 }) }
  let v2 :=
    match err, v.firstBad, v.pos with
    | false, _, _ => v1
    | true, none, some p => { v1 with errors := satSucc Config.checkTop v.errors, firstBad := some p.block, firstBadOff := p.off }
    | true, _, _ => { v1 with errors := satSucc Config.checkTop v.errors }
  let s := { s with verify := v2, spool.access := none }
  if err then raise .check s else s

/-- R41 to R43: the scan's next step: the move to the head block if its block was released, then the test for the stored
end. A scan that goes on has its request waiting at once. A read in progress is let end first. -/
def scanStep (s : State) : State :=
  match s.spool.access with
  | some (.verify _) => s
  | _ =>
    if !s.verify.running then s
    else match jobAt s s.verify.job with
      | none => endScan .ok s
      | some r =>
        let v := if s.verify.moved then { s.verify with pos := chainStart r, moved := false } else s.verify
        let s := { s with verify := v }
        if atStoredEnd s r v.pos then endScan .ok s else s

/-- R63: every entry of a job leaves the Intake FIFO; the waiting request of a purged head entry is withdrawn. -/
def purge (j : Fin 16) (s : State) : State :=
  let headIs := match s.intake.fifo with
    | [] => false
    | e :: _ => e.1 == j
  { s with intake.fifo := s.intake.fifo.filter (fun e => e.1 ≠ j)
           intake.headReq := if headIs then .none else s.intake.headReq }

/-- R39, R44: a read of the scan of a job that is in progress ends before the job's retirement is taken (log 13, DEDUCED).
An intake access of the job has ended before the event that retires it (endIntakeAccessOf); one that has not, which no run
reaches, ends here with its byte and counts (log 17, DESIGN CHOICE). -/
def endAccessOf (j : Fin 16) (s : State) : State :=
  match s.spool.access with
  | some (.intake c) =>
    match s.intake.fifo with
    | e :: _ => if e.1 = j then storeHead c s else s
    | [] => s
  | some (.verify err) => if s.verify.job = j then countRead err s else s
  | some (.drain _ _) => s
  | none => s

/-- R44: a scan of a job that retires ends with GONE. -/
def endScanOf (j : Fin 16) (s : State) : State :=
  if s.verify.running && decide (s.verify.job = j) then endScan .gone s else s

/-- R16, steps 1 to 7, once no access of the job is in progress: outcome and cause, purge, target, queue or line, blocks,
FINISHED, hand-over. The line's own response (R85, R98, R99) is its caller's. -/
def retireNow (j : Fin 16) (r : Job) (o : JobOutcome) (c : Cause) (s : State) : State :=
  let blocks := chainOf s r
  let s := purge j s
  let s := { s with intake.target := if s.intake.target = some j then none else s.intake.target }
  let s := match r.output with
    | .queued => leaveQueue r.line j s
    | .current => setEngine r.line { engineAt s r.line with current := none } s
    | .pending => s
    | .finished => s
  let s := releaseAll blocks s
  let s := setJob j { r with outcome := some o, cause := c, intake := .closed, output := .finished, head := none,
                             tail := none, tailFill := 0, chainLen := 0, cancelPending := false, posted := false } s
  handOver j (endScanOf j s)

/-- R16: retirement of a job. -/
def retire (j : Fin 16) (o : JobOutcome) (c : Cause) (s : State) : State :=
  let s := endAccessOf j s
  match jobAt s j with
  | none => s
  | some r => retireNow j r o c s

end Sys2Proof.Machine
end

