-- ==== Sys2Proof/Machine/LineUnits.lean ====
section
/-! DEFINITION. Between a Drain Engine and its Line Unit: readiness (R83, R110, R125), the put (R112, R125), the withdrawal
of a request (R118, R126) and the entry into FAULT (R93). -/

namespace Sys2Proof.Machine

/-- What a Line Unit reports at readiness (R83). -/
inductive Ready where
  | ready
  | failure (c : Cause)
  | notReady
  deriving DecidableEq, Repr

/-- R110: the four checks of a Parallel Line Unit on its snapshot, in order. -/
def parReady (p : ParPins) : Ready :=
  if !p.on then .failure .offline
  else if !p.fail then .failure .device
  else if p.out then .failure .media
  else if p.hold then .notReady
  else .ready

/-- R125: the flow test of a Serial Line Unit. -/
def serReady (u : SerUnit) : Ready :=
  match u.config.flow with
  | .none => .ready
  | .go => if u.snapshot.go then .notReady else .ready
  | .xonxoff => if u.xoff then .notReady else .ready

/-- What the Line Unit of a line reports at readiness. -/
def unitReady (s : State) (l : Fin 4) : Ready :=
  match unitOf l with
  | .par x => parReady (parAt s x).snapshot
  | .ser y => serReady (serAt s y)

/-- R111, R126: the unit returns from WAITING to REST; a unit that is not WAITING is left as it is. -/
def withdraw (l : Fin 4) (s : State) : State :=
  match unitOf l with
  | .par x => if (parAt s x).handshake = .waiting then setPar x { parAt s x with handshake := .rest } s else s
  | .ser y => if (serAt s y).transmit = .waiting then setSer y { serAt s y with transmit := .rest } s else s

/-- R112, R125: the unit takes the byte: SETUP on a parallel line, the start bit on a serial line, which stands on
yTXD from the put on (log 20, PRESUMED). -/
def unitPut (l : Fin 4) (b : Byte) (s : State) : State :=
  match unitOf l with
  | .par x =>
    let u := parAt s x
    setPar x { u with handshake := .setup, byte := b, busySeen := u.config.holdCycle && u.snapshot.hold, ack := none,
                      decided := none, phaseClks := 0 } s
  | .ser y => setSer y { serAt s y with transmit := .shifting, frameByte := b, bitIndex := 0, bitClks := 0 } s

/-- R84: the engine hands the fetched byte to the Line Unit; the byte is in flight. -/
def putByte (l : Fin 4) (s : State) : State :=
  let e := engineAt s l
  match e.fetched with
  | none => s
  | some f => unitPut l f.value (setEngine l { e with step := .inFlight, hold := none } s)

/-- What a line's byte cycle holds is given up: the cycle step is boundary, no byte is fetched, both timers are disarmed,
and a readiness request is withdrawn. -/
def clearCycle (l : Fin 4) (s : State) : State :=
  withdraw l
    (setEngine l { engineAt s l with step := .boundary, fetched := none, hold := none, starve := none } s)

/-- R93: the entry into FAULT with a cause. -/
def enterFault (l : Fin 4) (c : Cause) (s : State) : State :=
  let s := clearCycle l s
  raise .lineAtt (setEngine l { engineAt s l with state := .fault, cause := c } s)

/-- R83, R111: the engine handles the unit's report for the byte it holds. A wait goes on without effect. -/
def answerReady (l : Fin 4) (s : State) : State :=
  match unitReady s l with
  | .ready => putByte l s
  | .failure c => enterFault l c s
  | .notReady => s

/-- R83: the unit enters WAITING. -/
def unitWait (l : Fin 4) (s : State) : State :=
  match unitOf l with
  | .par x => setPar x { parAt s x with handshake := .waiting } s
  | .ser y => setSer y { serAt s y with transmit := .waiting } s

/-- R83: the engine asks for readiness for a byte. -/
def askReady (l : Fin 4) (f : Fetched) (s : State) : State :=
  let e := engineAt s l
  let s := setEngine l { e with step := .waiting, fetched := some f } s
  match unitReady s l with
  | .notReady =>
    unitWait l
      (setEngine l { e with step := .waiting, fetched := some f,
                            hold := if e.config.holdLimit = 0#8 then none else some 0 } s)
  | .ready => answerReady l s
  | .failure _ => answerReady l s

/-- R95: the input behind a device cause is still active in the snapshot. -/
def inputActive (s : State) (l : Fin 4) (c : Cause) : Bool :=
  match unitOf l with
  | .ser _ => false
  | .par x =>
    let p := (parAt s x).snapshot
    match c with
    | .offline => !p.on
    | .device => !p.fail
    | .media => p.out
    | .none | .noack | .holdtime | .starve | .check => false

end Sys2Proof.Machine
end

