-- ==== Sys2Proof/Machine/Drain.lean ====
section
/-! DEFINITION. The Drain Engines: the take rule and the byte boundary decision (R71, R80), copies (R85), passing a byte and
drain release (R35, R84), pausing and resuming (R91, R92), and the end of a byte (R84, R86, R99). -/

namespace Sys2Proof.Machine

/-- R73: the job leaves its queue, becomes CURRENT, and the line leaves IDLE for SENDING at a byte boundary. -/
def takeJob (l : Fin 4) (j : Fin 16) (s : State) : State :=
  match jobAt s j with
  | none => s
  | some r =>
    let s := setJob j { r with output := .current } (leaveQueue l j s)
    setEngine l { engineAt s l with state := .sending, current := some j, step := .boundary } s

/-- R80 test 1: separator pending is clear, the cursor is at the stored end and the intake phase is CLOSED. -/
def copyEnd (s : State) (r : Job) : Bool := !r.sepPending && atStoredEnd s r r.cursor && decide (r.intake = .closed)

/-- R85: a copy completes: the job is retired COMPLETE and the line becomes IDLE, or the engine rewinds. `r` is the job's
record as it stands, with its separator done. -/
def completeCopy (l : Fin 4) (j : Fin 16) (r : Job) (s : State) : State :=
  if r.copiesDone + 1 < r.copies then
    setJob j { r with copiesDone := r.copiesDone + 1, cursor := chainStart r, copyPos := 0 } s
  else
    let s := retire j .complete .none (setJob j { r with copiesDone := r.copiesDone + 1 } s)
    setEngine l { engineAt s l with state := .idle } s

/-- R88: the line enters STARVED. -/
def starveLine (l : Fin 4) (s : State) : State :=
  let e := engineAt s l
  raise .lineAtt
    (setEngine l { e with state := .starved, starve := if e.config.starveLimit = 0#8 then none else some 0 } s)

/-- R80, tests 2 to 5, for a line at a byte boundary with this current job: pause, separator, starve, fetch. -/
def afterCopyEnd (l : Fin 4) (r : Job) (s : State) : State :=
  let e := engineAt s l
  if e.stop || r.held then setEngine l { e with state := .paused } s
  else if r.sepPending then askReady l { value := e.config.separator, kind := .separator, pos := none } s
  else if atStoredEnd s r r.cursor then starveLine l s
  else setEngine l { e with step := .fetching } s

/-- What a line does at once: an IDLE line applies the take rule (R71, R72), a SENDING line at a byte boundary makes the
decision of R80, again after each copy that completes without a byte and each take. The bound is log 11's
(DESIGN CHOICE). -/
def runLine : Nat → Fin 4 → State → State
  | 0, _, s => s
  | n + 1, l, s =>
    match (engineAt s l).state with
    | .idle =>
      if (engineAt s l).stop then s
      else match eligible s l with
        | none => s
        | some j => runLine n l (takeJob l j s)
    | .sending =>
      if (engineAt s l).step ≠ .boundary then s
      else match currentJob s l with
        | none => s
        | some (j, r) =>
          if copyEnd s r then
            if r.separate then
              afterCopyEnd l { r with sepPending := true } (setJob j { r with sepPending := true } s)
            else runLine n l (completeCopy l j r s)
          else afterCopyEnd l r s
    | .off => s
    | .starved => s
    | .paused => s
    | .fault => s

/-- R72, R80: a line applies the take rule, or makes its byte boundary decision. -/
def decideLine (l : Fin 4) (s : State) : State := runLine Config.settleBound l s

/-- R35, R42: a drain release of a job's head block, after which `nb` is the head; a scan that stands in the released
block is marked moved. -/
def drainRelease (j : Fin 16) (r : Job) (h nb : Fin 128) (s : State) : State :=
  let s := setJob j { r with head := some nb, chainLen := r.chainLen - 1, anyReleased := true } (releaseBlock h s)
  if s.verify.running && decide (s.verify.job = j) && decide (s.verify.pos.map Pos.block = some h) then
    scanStep { s with verify.moved := true }
  else s

/-- R35, R84, R96: the byte at a position is passed: copy position and cursor advance, and the block before it is released
when the byte is the first of a block in the last copy of a job that is not retained. The release is taken at once, also while an
intake access of the job is in progress (R39; log 13, DEDUCED). -/
def passByte (j : Fin 16) (r : Job) (p : Pos) (s : State) : State :=
  let r1 := { r with copyPos := r.copyPos + 1, cursor := some { block := p.block, off := p.off + 1 } }
  let s := setJob j r1 s
  match r.head with
  | none => s
  | some h =>
    if decide (p.off = 0) && !r.retain && decide (r.copiesDone + 1 = r.copies) && decide (h ≠ p.block) then
      drainRelease j r1 h p.block s
    else s

/-- R91: a SENDING or STARVED line whose stop flag or current job's held flag has become set pauses at once where it can:
in STARVED, while its read request is not granted, and during a readiness wait. -/
def pauseLine (l : Fin 4) (s : State) : State :=
  let e := engineAt s l
  let now := match e.state, e.step with
    | .starved, _ => true
    | .sending, .waiting => true
    | .sending, .fetching =>
      (match s.spool.access with
      | some (.drain k _) => decide (k ≠ l)
      | _ => true)
    | _, _ => false
  if now then
    let s := clearCycle l s
    setEngine l { engineAt s l with state := .paused } s
  else s

/-- R92: a PAUSED line resumes when both reasons are gone. -/
def resumeLine (l : Fin 4) (s : State) : State :=
  let e := engineAt s l
  match currentJob s l with
  | none => s
  | some (_, r) =>
    if decide (e.state = .paused) && !e.stop && !r.held then
      decideLine l (setEngine l { e with state := .sending, step := .boundary } s)
    else s

/-- R89: the starvation of a line on its current job ends and the line decides its next step. -/
def endStarvation (l : Fin 4) (j : Fin 16) (s : State) : State :=
  let e := engineAt s l
  if decide (e.state = .starved) && decide (e.current = some j) then
    decideLine l (setEngine l { e with state := .sending, step := .boundary, starve := none } s)
  else s

/-- R21, R99: a cancelled job whose byte has ended retires CANCELLED, the line takes a state with a cause, and CANCEL
completes with OK. -/
def cancelEnds (l : Fin 4) (j : Fin 16) (st : LineState) (c : Cause) (s : State) : State :=
  let s := retire j .cancelled .none s
  finishCode .ok (setEngine l { engineAt s l with state := st, cause := c } s)

/-- R84, R86, R21: the Line Unit reports the delivery of the line's byte; with none in flight, which no run reaches, nothing
happens (log 17, DESIGN CHOICE). -/
def delivered (l : Fin 4) (s : State) : State :=
  let e := engineAt s l
  match e.fetched, currentJob s l with
  | some f, some (j, r) =>
    let s := setEngine l { e with step := .boundary, fetched := none } s
    let r := { r with total := satSucc Config.countTop r.total }
    match f.kind, f.pos with
    | .separator, _ | _, none =>
      let r := { r with sepPending := false }
      if r.cancelPending then
        decideLine l (cancelEnds l j .idle .none (setJob j { r with copiesDone := r.copiesDone + 1 } s))
      else decideLine l (completeCopy l j r s)
    | _, some p =>
      let s := passByte j r p s
      if r.cancelPending then
        match jobAt s j with
        | none => s
        | some r =>
          let r := if copyEnd s r && !r.separate then { r with copiesDone := r.copiesDone + 1 } else r
          decideLine l (cancelEnds l j .idle .none (setJob j r s))
      else decideLine l s
  | _, _ => s

/-- R84, R99: the Line Unit reports failure with cause NOACK. -/
def failedNoack (l : Fin 4) (s : State) : State :=
  match currentJob s l with
  | none => s
  | some (j, r) =>
    if r.cancelPending then
      raise .lineAtt (cancelEnds l j .fault .noack (clearCycle l s))
    else enterFault l .noack s

/-- R82: a fetch ends: a check error is counted and, under HALT, puts the line into FAULT; under SUBSTITUTE the fetched byte
becomes the substitute. -/
def fetchResult (l : Fin 4) (err : Bool) (s : State) : State :=
  let s := { s with spool.access := none }
  if !err then s
  else
    let s := raise .check s
    let s := match currentJob s l with
      | none => s
      | some (j, r) => setJob j { r with checkErrors := satSucc Config.checkTop r.checkErrors } s
    let e := engineAt s l
    match e.config.policy with
    | .halt => enterFault l .check s
    | .substitute =>
      let sub := fun f : Fetched => { f with value := e.config.substitute, kind := .substitute }
      setEngine l { e with fetched := e.fetched.map sub } s

/-- R82, R91: a fetch ends and the engine goes on to readiness, unless the line is to pause or is in FAULT. -/
def fetchDone (l : Fin 4) (err : Bool) (s : State) : State :=
  let s := fetchResult l err s
  let e := engineAt s l
  match e.state, e.fetched, currentJob s l with
  | .sending, some f, some (_, r) =>
    if e.stop || r.held then setEngine l { e with state := .paused, step := .boundary, fetched := none } s
    else askReady l f s
  | _, _, _ => s

end Sys2Proof.Machine
end

