-- ==== Sys2Proof/Machine/IntakePath.lean ====
section
/-! DEFINITION. The intake path: the change of a job's intake phase to CLOSED (R9, R61), the evaluation of the head entry
(R53) with discard (R56) and stall (R57 to R59), and the end of an intake access (R54, R55). -/

namespace Sys2Proof.Machine

/-- R9, R61, R89: a job's intake phase becomes CLOSED: a PENDING job joins its queue and the take rule is applied, and the
STARVED line of a current job ends its starvation. -/
def becomeClosed (j : Fin 16) (s : State) : State :=
  match jobAt s j with
  | none => s
  | some r =>
    match r.output with
    | .pending =>
      decideLine r.line (joinTail r.line r.urgent j (setJob j { r with intake := .closed, output := .queued } s))
    | .current => endStarvation r.line j (setJob j { r with intake := .closed } s)
    | .queued => setJob j { r with intake := .closed } s
    | .finished => setJob j { r with intake := .closed } s

/-- R61: a CLOSING job with no entry left in the FIFO becomes CLOSED. -/
def closeIfDrained (j : Fin 16) (s : State) : State :=
  match jobAt s j with
  | none => s
  | some r => if decide (r.intake = .closing) && !hasEntry s j then becomeClosed j s else s

/-- R56: the head entry leaves without a store access; `rest` are the entries behind it. A stall on it ends (R59). -/
def discardHead (j : Fin 16) (rest : List (Fin 16 × Byte)) (s : State) : State :=
  closeIfDrained j { s with intake.fifo := rest, intake.stall := false }

/-- R13: a job is marked truncated. -/
def markTruncated (j : Fin 16) (r : Job) (s : State) : State := setJob j { r with truncated := true } s

/-- R54: the head request becomes waiting; a stall on the entry ends (R58). -/
def requestHead (s : State) : State := { s with intake.headReq := .waiting, intake.stall := false }

/-- R57: the unit stalls, raising STOREFULL on entry; a stall that goes on raises nothing (R59). -/
def stallHead (s : State) : State :=
  if s.intake.stall then s else raise .storeFull { s with intake.stall := true }

/-- R53: the storing engine evaluates the head entry, and the entry behind each one that is discarded. A head entry that
has its request is not evaluated again; with an empty FIFO no stall remains (R59), and
the entry of a free slot, which no run reaches, is discarded (log 17, DESIGN CHOICE). -/
def evalHead : Nat → State → State
  | 0, s => s
  | n + 1, s =>
    match s.intake.fifo with
    | [] => { s with intake.stall := false }
    | (j, _) :: rest =>
      if s.intake.headReq ≠ .none then s
      else match jobAt s j with
        | none => evalHead n (discardHead j rest s)
        | some r =>
          if r.truncated then evalHead n (discardHead j rest s)
          else if Config.countTop ≤ r.stored then evalHead n (discardHead j rest (markTruncated j r s))
          else if tailHasRoom r then requestHead s
          else if r.quota ≠ 0 ∧ r.chainLen = r.quota then evalHead n (discardHead j rest (markTruncated j r s))
          else if s.spool.freeList.isEmpty then stallHead s
          else requestHead s

/-- R53, R58, R59: the storing engine evaluates the head entry as the whole act left it. -/
def evalIntake (s : State) : State := evalHead (s.intake.fifo.length + 1) s

/-- A line decides (R72, R80), and the Intake Unit is seen after the whole act (R59; log 18, DEDUCED). -/
def settle (l : Fin 4) (s : State) : State := evalIntake (decideLine l s)

/-- R55, R61: a byte has been stored for a job: a CLOSING job with no entry left becomes CLOSED, and the starvation of the
job's line ends, by the one or by the other (log 18). -/
def byteStored (j : Fin 16) (s : State) : State :=
  match jobAt s j with
  | none => s
  | some r =>
    if decide (r.intake = .closing) && !hasEntry s j then becomeClosed j s
    else if r.output = .current then endStarvation r.line j s
    else s

/-- R54, R55, R61: an intake access ends: the byte exists for the rest of the part, the entry leaves the FIFO, the job's
neighbours are told, and the next head entry is evaluated. -/
def intakeEnd (check : BitVec 1) (s : State) : State :=
  match s.intake.fifo with
  | [] => evalIntake (storeHead check s)
  | e :: _ => evalIntake (byteStored e.1 (storeHead check s))

/-- R39, R63: an event that retires a job is taken after an intake access of the job that is in progress has ended, with all
that the end of the access does (log 13, DEDUCED). -/
def endIntakeAccessOf (j : Fin 16) (s : State) : State :=
  match s.spool.access, s.intake.fifo with
  | some (.intake c), e :: _ => if e.1 = j then intakeEnd c s else s
  | _, _ => s

end Sys2Proof.Machine
end

