-- ==== Sys2Proof/Machine/JobActs.lean ====
section
/-! DEFINITION. What the commands on jobs do when the Command Port has them carried out (section 10.2): checks in the order
of R146, then effects. Each ends the command through `finish`, but for the two timed cases of R148. -/

namespace Sys2Proof.Machine

/-- The sixteen slots, lowest first. -/
def slots : List (Fin 16) := [0, 1, 2, 3, 4, 5, 6, 7, 8, 9, 10, 11, 12, 13, 14, 15]

/-- R2: the lowest-numbered free slot. -/
def firstFree (s : State) : Option (Fin 16) := slots.find? (fun j => (jobAt s j).isNone)

/-- R3: the record an accepted OPEN writes. -/
def openRecord (line : Fin 4) (options copies quota : Byte) : Job :=
  { line := line, urgent := options.getLsbD 0, early := options.getLsbD 1, retain := options.getLsbD 2,
    separate := options.getLsbD 3, copies := copies.toNat, copiesDone := 0, quota := quota.toNat, intake := .opened,
    output := if options.getLsbD 1 then .queued else .pending, held := false, truncated := false, head := none,
    tail := none, tailFill := 0, chainLen := 0, stored := 0, cursor := none, copyPos := 0, sepPending := false,
    anyReleased := false, total := 0, checkErrors := 0, outcome := none, cause := .none, posted := false,
    cancelPending := false }

/-- R158, R146: a job number's parameter check and job check; `k` is the command on an occupied slot. -/
def withJob (b : Byte) (s : State) (k : Fin 16 → Job → State) : State :=
  match jobOf b with
  | none => finishCode .badParam s
  | some j =>
    match jobAt s j with
    | none => finishCode .badJob s
    | some r => k j r

/-- R2, R3, R159: OPEN. -/
def actOpen (line options copies quota : Byte) (s : State) : State :=
  match lineOf line with
  | none => finishCode .badParam s
  | some l =>
    if !openParamsOk line options copies quota then finishCode .badParam s
    else match firstFree s with
      | none => finishCode .noSlot s
      | some j =>
        let r := openRecord l options copies quota
        let s := finish [codeByte .ok, byteOf j.val] { setJob j r s with intake.target := some j }
        if r.early then settle l (joinTail l r.urgent j s) else s

/-- R52, R160: TARGET. -/
def actTarget (b : Byte) (s : State) : State :=
  if b = 0xFF#8 then finishCode .ok { s with intake.target := none }
  else withJob b s fun j r =>
    if r.intake ≠ .opened then finishCode .badState s
    else finishCode .ok { s with intake.target := some j }

/-- R7, R60, R161: CLOSE. -/
def actClose (b : Byte) (s : State) : State :=
  withJob b s fun j r =>
    if r.intake ≠ .opened then finishCode .badState s
    else
      let s := finishCode .ok { s with intake.target := if s.intake.target = some j then none else s.intake.target }
      if hasEntry s j then setJob j { r with intake := .closing } s
      else evalIntake (becomeClosed j s)

/-- R20, R99: CANCEL of a current job with no byte in flight. A fetch whose access is in progress has ended first, by R82,
and its byte is dropped (R39, R81). -/
def cancelCurrent (l : Fin 4) (j : Fin 16) (s : State) : State :=
  let s := match s.spool.access with
    | some (.drain k err) => if k = l then fetchResult l err s else s
    | _ => s
  let s := retire j .cancelled .none (clearCycle l s)
  settle l (finishCode .ok (setEngine l { engineAt s l with state := .idle, cause := .none } s))

/-- R19 to R21, R162: CANCEL, no intake access of the job being in progress. -/
def cancelJob (b : Byte) (s : State) : State :=
  withJob b s fun j r =>
    match r.output with
    | .pending => evalIntake (finishCode .ok (retire j .cancelled .none s))
    | .queued => evalIntake (finishCode .ok (retire j .cancelled .none s))
    | .current =>
      if (engineAt s r.line).step = .inFlight then setJob j { r with cancelPending := true } s
      else cancelCurrent r.line j s
    | .finished => finishCode .badState s

/-- R39, R162: CANCEL. An intake access of the job that is in progress has ended first (log 13, DEDUCED). -/
def actCancel (b : Byte) (s : State) : State :=
  cancelJob b (match jobOf b with
    | none => s
    | some j => endIntakeAccessOf j s)

/-- R11, R163: HOLD. -/
def actHold (b : Byte) (s : State) : State :=
  withJob b s fun j r =>
    if r.output = .finished then finishCode .badState s
    else if r.held then finishCode .ok s
    else
      let s := finishCode .ok (setJob j { r with held := true } s)
      if r.output = .current then pauseLine r.line s else s

/-- R12, R164: RELEASE. -/
def actRelease (b : Byte) (s : State) : State :=
  withJob b s fun j r =>
    if r.output = .finished then finishCode .badState s
    else if !r.held then finishCode .ok s
    else
      let s := finishCode .ok (setJob j { r with held := false } s)
      match r.output with
      | .queued => settle r.line s
      | .current => evalIntake (resumeLine r.line s)
      | .pending => s
      | .finished => s

/-- R15, R68, R100: MOVE of a current job out of a PAUSED or FAULT line. -/
def moveCurrent (j : Fin 16) (r : Job) (l : Fin 4) (s : State) : State :=
  let e := engineAt s r.line
  let s := setEngine r.line { e with current := none, state := if e.state = .paused then .idle else e.state } s
  let s := joinHead l r.urgent j (setJob j { r with line := l, output := .queued } s)
  let s := settle l (finishCode .ok s)
  settle r.line s

/-- R14, R15, R165: MOVE. -/
def actMove (b line : Byte) (s : State) : State :=
  match lineOf line with
  | none => finishCode .badParam s
  | some l =>
    withJob b s fun j r =>
      if r.line = l then finishCode .badParam s
      else match r.output with
        | .finished => finishCode .badState s
        | .pending => finishCode .ok (setJob j { r with line := l } s)
        | .queued =>
          settle l (finishCode .ok
            (joinTail l r.urgent j (setJob j { r with line := l } (leaveQueue r.line j s))))
        | .current =>
          if (engineAt s r.line).state = .paused ∨ (engineAt s r.line).state = .fault then moveCurrent j r l s
          else finishCode .badState s

/-- R40, R166: VERIFY. -/
def actVerify (b : Byte) (s : State) : State :=
  withJob b s fun j r =>
    if r.output = .finished then finish (codeByte .gone :: verifyBytes Verify.reset) s
    else
      scanStep { s with verify := { Verify.reset with running := true, job := j, pos := chainStart r } }

/-- R24, R167: QUERY JOB. -/
def actQueryJob (b : Byte) (s : State) : State :=
  withJob b s fun _ r => finish (codeByte .ok :: jobBytes r) s

/-- R138, R168: TAKE. -/
def actTake (s : State) : State :=
  match s.completion.queue with
  | [] => finishCode .empty s
  | rec :: rest =>
    let s := finish (codeByte .ok :: recordBytes rec) (freeSlot rec.job { s with completion.queue := rest })
    match s.completion.postWait with
    | [] => s
    | j :: more => post j { s with completion.postWait := more }

/-- R64, R177: STORE QUERY. -/
def actStoreQuery (s : State) : State :=
  finish [codeByte .ok, byteOf s.spool.freeList.length, flagByte [s.intake.stall], byteOf s.intake.fifo.length,
    orNone s.intake.target, s.completion.seq] s

end Sys2Proof.Machine
end

