-- ==== Sys2Proof/Machine/LineActs.lean ====
section
/-! DEFINITION. What the commands on lines do when the Command Port has them carried out (section 10.3). -/

namespace Sys2Proof.Machine

/-- R158: a line number's parameter check; `k` is the command on the line. -/
def withLine (b : Byte) (s : State) (k : Fin 4 → State) : State :=
  match lineOf b with
  | none => finishCode .badParam s
  | some l => k l

/-- The Drain Engine's fields of a LINE SET (R103). -/
def drainConfigOf (holdLimit starveLimit separator : Byte) (p : Policy) (substitute : Byte) : DrainConfig :=
  { holdLimit := holdLimit, starveLimit := starveLimit, separator := separator, policy := p, substitute := substitute }

/-- R103: LINE SET writes a line's Drain Engine configuration. -/
def setDrainConfig (l : Fin 4) (c : DrainConfig) (s : State) : State := setEngine l { engineAt s l with config := c } s

/-- R103, R119, R131, R169: LINE SET. -/
def actLineSet (line mode second holdLimit starveLimit separator policy substitute : Byte) (s : State) : State :=
  withLine line s fun l =>
    match policyOf policy with
    | none => finishCode .badParam s
    | some p =>
      let d := drainConfigOf holdLimit starveLimit separator p substitute
      match unitOf l with
      | .par x =>
        (match parConfigOf mode second with
        | none => finishCode .badParam s
        | some c =>
          if (engineAt s l).state ≠ .off then finishCode .badState s
          else finishCode .ok (setPar x { parAt s x with config := c } (setDrainConfig l d s)))
      | .ser y =>
        (match serConfigOf mode second with
        | none => finishCode .badParam s
        | some c =>
          if (engineAt s l).state ≠ .off then finishCode .badState s
          else finishCode .ok (setSer y { serAt s y with config := c } (setDrainConfig l d s)))

/-- R129, R130: LINE ENABLE clears the xoff flag of a serial line and starts its receiver in XON/XOFF mode. The receiver is in
MARKWAIT until an RXD_MARK, even with yRXD at mark already (log 22, DESIGN CHOICE). -/
def startReceiver (y : Fin 2) (s : State) : State :=
  let u := serAt s y
  if u.config.flow = .xonxoff then setSer y { u with xoff := false, receiver := .markwait, startSeen := false } s
  else setSer y { u with xoff := false } s

/-- R129: LINE DISABLE stops a serial line's receiver, which abandons its character; the xoff flag is kept. -/
def stopReceiver (y : Fin 2) (s : State) : State :=
  setSer y { serAt s y with receiver := .stopped, startSeen := false } s

/-- R101, R170: LINE ENABLE. -/
def actLineEnable (line : Byte) (s : State) : State :=
  withLine line s fun l =>
    if (engineAt s l).state ≠ .off then finishCode .badState s
    else
      let s := finishCode .ok (setEngine l { engineAt s l with state := .idle } s)
      let s := match unitOf l with
        | .par _ => s
        | .ser y => startReceiver y s
      settle l s

/-- R102, R171: LINE DISABLE. -/
def actLineDisable (line : Byte) (s : State) : State :=
  withLine line s fun l =>
    if (engineAt s l).state ≠ .idle then finishCode .badState s
    else
      let s := finishCode .ok (setEngine l { engineAt s l with state := .off } s)
      match unitOf l with
      | .par _ => s
      | .ser y => stopReceiver y s

/-- R90, R172: LINE STOP. -/
def actLineStop (line : Byte) (s : State) : State :=
  withLine line s fun l =>
    if (engineAt s l).stop then finishCode .ok s
    else pauseLine l (finishCode .ok (setEngine l { engineAt s l with stop := true } s))

/-- R90, R92, R172: LINE GO. -/
def actLineGo (line : Byte) (s : State) : State :=
  withLine line s fun l =>
    if !(engineAt s l).stop then finishCode .ok s
    else
      let s := finishCode .ok (setEngine l { engineAt s l with stop := false } s)
      match (engineAt s l).state with
      | .idle => settle l s
      | .paused => evalIntake (resumeLine l s)
      | .off => s
      | .sending => s
      | .starved => s
      | .fault => s

/-- R95: a recovered line with a current job becomes PAUSED when its stop flag is set or its job is held, and otherwise
SENDING, where R80 decides. -/
def recoverLine (l : Fin 4) (s : State) : State :=
  let e := engineAt s l
  match currentJob s l with
  | none => settle l (setEngine l { e with state := .idle } s)
  | some (_, r) =>
    if e.stop || r.held then evalIntake (setEngine l { e with state := .paused, step := .boundary } s)
    else settle l (setEngine l { e with state := .sending, step := .boundary } s)

/-- R96: the choice of LINE RESUME acts on the byte at the cursor, the fault cause being cleared already. A skip that passes a
byte brings the line to test 1 of R80 (log 12, DEDUCED). -/
def resumeChoice (l : Fin 4) (skip : Bool) (s : State) : State :=
  match currentJob s l with
  | none => recoverLine l s
  | some (j, r) =>
    if skip && r.sepPending then
      let s := completeCopy l j { r with sepPending := false } s
      if (engineAt s l).state = .idle then settle l s else recoverLine l s
    else if skip && !atStoredEnd s r r.cursor then
      (match readPos s r.cursor with
      | none => recoverLine l s
      | some p => settle l (setEngine l { engineAt s l with state := .sending, step := .boundary } (passByte j r p s)))
    else recoverLine l s

/-- R95, R173: LINE RESUME. A skip after a STARVE fault acts as retry (R173), also when a byte has been stored since, which is then
sent (R89; log 23, DEDUCED against R96's wording). -/
def actLineResume (line choice : Byte) (s : State) : State :=
  withLine line s fun l =>
    match skipOf choice with
    | none => finishCode .badParam s
    | some skip =>
      let e := engineAt s l
      if e.state ≠ .fault then finishCode .badState s
      else if inputActive s l e.cause then finishCode .notReady s
      else resumeChoice l (skip && decide (e.cause ≠ .starve)) (finishCode .ok (setEngine l { e with cause := .none } s))

/-- R97, R174: LINE RESTART. -/
def actLineRestart (line : Byte) (s : State) : State :=
  withLine line s fun l =>
    let e := engineAt s l
    if e.state ≠ .fault then finishCode .badState s
    else match currentJob s l with
      | none => finishCode .badState s
      | some (j, r) =>
        if r.anyReleased then finishCode .badState s
        else if inputActive s l e.cause then finishCode .notReady s
        else
          recoverLine l (finishCode .ok
            (setJob j { r with cursor := chainStart r, copyPos := 0, sepPending := false }
              (setEngine l { e with cause := .none } s)))

/-- R98: LINE ABORT of a line in FAULT, no intake access of its current job being in progress. -/
def abortLine (l : Fin 4) (s : State) : State :=
  let e := engineAt s l
  let s := match e.current with
    | none => s
    | some j => retire j .aborted e.cause s
  settle l (finishCode .ok (setEngine l { engineAt s l with state := .idle, cause := .none } s))

/-- R98, R175: LINE ABORT. An intake access of the job that is in progress has ended first (log 13, DEDUCED). -/
def actLineAbort (line : Byte) (s : State) : State :=
  withLine line s fun l =>
    let e := engineAt s l
    if e.state ≠ .fault then finishCode .badState s
    else abortLine l (match e.current with
      | none => s
      | some j => endIntakeAccessOf j s)

/-- R176: the current job's copy position, 0 when there is none. -/
def copyPosOf (s : State) (l : Fin 4) : Nat :=
  match currentJob s l with
  | none => 0
  | some (_, r) => r.copyPos

/-- R176: the current job is held; not held when there is none. -/
def heldOf (s : State) (l : Fin 4) : Bool :=
  match currentJob s l with
  | none => false
  | some (_, r) => r.held

/-- R120, R132: the device inputs LINE QUERY returns. -/
def inputsOf (s : State) (l : Fin 4) : Byte :=
  match unitOf l with
  | .par x => parInputsByte (parAt s x).snapshot
  | .ser y => serInputsByte (serAt s y)

/-- R105, R176, R183: the nine bytes LINE QUERY returns after the code. -/
def lineBytes (s : State) (l : Fin 4) : List Byte :=
  let e := engineAt s l
  [lineStateByte e.state, causeByte e.cause, orNone e.current, flagByte [e.stop, heldOf s l], inputsOf s l,
    byteOf (queueLength (queueAt s l))] ++ leBytes 3 (copyPosOf s l)

/-- R105, R176: LINE QUERY. -/
def actLineQuery (line : Byte) (s : State) : State :=
  withLine line s fun l => finish (codeByte .ok :: lineBytes s l) s

end Sys2Proof.Machine
end

