-- ==== Sys2Proof/Machine/CommandPort.lean ====
section
/-! DEFINITION. The Command Port: code writes (R144), parameter writes (R145), the carrying out of a command (R146), the
reads of RESULT (R149), and the misuse flags (R150). Each access has its effect only while STATUS.READY reads 1 (R179). -/

namespace Sys2Proof.Machine

/-- R146: a command is carried out with its parameters, in the order written. -/
def carryOut (c : Cmd) (ps : List Byte) (s : State) : State :=
  let p := fun i : Nat => ps.getD i 0#8
  match c with
  | .openJob => actOpen (p 0) (p 1) (p 2) (p 3) s
  | .target => actTarget (p 0) s
  | .closeJob => actClose (p 0) s
  | .cancel => actCancel (p 0) s
  | .hold => actHold (p 0) s
  | .release => actRelease (p 0) s
  | .move => actMove (p 0) (p 1) s
  | .verify => actVerify (p 0) s
  | .queryJob => actQueryJob (p 0) s
  | .take => actTake s
  | .storeQuery => actStoreQuery s
  | .lineSet => actLineSet (p 0) (p 1) (p 2) (p 3) (p 4) (p 5) (p 6) (p 7) s
  | .lineEnable => actLineEnable (p 0) s
  | .lineDisable => actLineDisable (p 0) s
  | .lineStop => actLineStop (p 0) s
  | .lineGo => actLineGo (p 0) s
  | .lineResume => actLineResume (p 0) (p 1) s
  | .lineRestart => actLineRestart (p 0) s
  | .lineAbort => actLineAbort (p 0) s
  | .lineQuery => actLineQuery (p 0) s

/-- R143: the port while a command is being carried out: nothing is staged and no result byte waits. -/
def portExecuting (s : State) : State :=
  { s with port := { s.port with state := .executing, staged := none, staging := [], results := [] } }

/-- R144: an accepted code. -/
def acceptCode (code : Byte) (s : State) : State :=
  match Cmd.ofCode code with
  | none => finishCode .unknown s
  | some c =>
    if c.params = 0 then carryOut c [] (portExecuting s)
    else { s with port := { s.port with state := .collecting, staged := some c, staging := [], results := [] } }

/-- R144: a host write to COMMAND. -/
def writeCommand (code : Byte) (s : State) : State :=
  if !s.window.ready then s
  else match s.port.state with
    | .idle => acceptCode code s
    | .collecting => acceptCode code (raise .cmdErr { s with port.abandoned := true })
    | .executing => raise .cmdErr { s with port.collided := true }
    | .results => acceptCode code s

/-- R145: a parameter byte that no command collects. -/
def strayParameter (s : State) : State := raise .cmdErr { s with port.strayParam := true }

/-- R145: a host write to PARAMETER. -/
def writeParameter (b : Byte) (s : State) : State :=
  if !s.window.ready then s
  else match s.port.state, s.port.staged with
    | .collecting, some c =>
      let ps := s.port.staging ++ [b]
      if c.params ≤ ps.length then carryOut c ps (portExecuting s) else { s with port.staging := ps }
    | _, _ => strayParameter s

/-- A command written whole: its code and then each of its parameters, with nothing in between (log 5, DESIGN CHOICE). -/
def hostCommand (c : Cmd) (ps : List Byte) (s : State) : State :=
  ps.foldl (fun t b => writeParameter b t) (writeCommand c.code s)

/-- R149: a host read of RESULT; the byte it returns is driven on D0–D7. -/
def readResult (s : State) : State :=
  if !s.window.ready then { s with window.readByte := 0#8 }
  else match s.port.state, s.port.results with
    | .results, [b] => { s with window.readByte := b, port.state := .idle, port.results := [] }
    | .results, b :: rest => { s with window.readByte := b, port.results := rest }
    | _, _ => raise .cmdErr { s with window.readByte := 0#8, port.underrun := true }

end Sys2Proof.Machine
end

