-- ==== Sys2Proof/Machine/LineEvents.lean ====
section
/-! DEFINITION. The events of the Line Units: the handshake of a parallel line (chapter 6), the frames and the receiver of a
serial line (chapter 7), the ticks and expiries of the line timers (R104, R115), and the ends of fetches and scan reads. -/

namespace Sys2Proof.Machine

/-- R39, R21: the report of a byte's end retires a job that CANCEL waits for, and is then taken after an intake access of the
job that is in progress has ended (log 13, DEDUCED). -/
def beforeReport (l : Fin 4) (s : State) : State :=
  match currentJob s l with
  | none => s
  | some (j, r) => if r.cancelPending then endIntakeAccessOf j s else s

/-- R116: the unit's outputs go to rest and it reports the byte's end to the engine. -/
def reportEnd (x : Fin 2) (o : ByteEnd) (s : State) : State :=
  let s := beforeReport (parLine x) s
  let s := setPar x { parAt s x with handshake := .rest, busySeen := false, ack := none, decided := none, phaseClks := 0 } s
  match o with
  | .delivered => evalIntake (delivered (parLine x) s)
  | .noack => evalIntake (failedNoack (parLine x) s)

/-- R113, R115: the outcome of the byte in flight is decided and the ack timer disarmed, by its own expiry too (log 15, DESIGN
CHOICE); in ACKWAIT the outcome is reported at once. -/
def decideByte (x : Fin 2) (o : ByteEnd) (s : State) : State :=
  let u := parAt s x
  if byteOut u.handshake && u.decided.isNone then
    let s := setPar x { u with decided := some o, ack := none } s
    if u.handshake = .ackwait then reportEnd x o s else s
  else s

/-- R112: SETUP ends, xPUT falls, the ack timer is armed, also where the outcome is decided already (log 15, DEDUCED).
Out of its state this event, like those below, does nothing (log 10, DEDUCED). -/
def endSetup (x : Fin 2) (s : State) : State :=
  let u := parAt s x
  if u.handshake = .setup then setPar x { u with handshake := .strobe, ack := some 0, phaseClks := 0 } s else s

/-- R112: STROBE ends, xPUT returns high. -/
def endStrobe (x : Fin 2) (s : State) : State :=
  let u := parAt s x
  if u.handshake = .strobe then setPar x { u with handshake := .trail, phaseClks := 0 } s else s

/-- R112, R116: TRAIL ends: a decided outcome is reported, or the unit enters ACKWAIT. -/
def endTrail (x : Fin 2) (s : State) : State :=
  let u := parAt s x
  if u.handshake = .trail then
    match u.decided with
    | some o => reportEnd x o s
    | none => setPar x { u with handshake := .ackwait, phaseClks := 0 } s
  else s

/-- R111: a change of xHOLD, xFAIL, xOUT or xON. -/
def readyInputsDiffer (a b : ParPins) : Bool :=
  a.hold != b.hold || a.fail != b.fail || a.out != b.out || a.on != b.on

/-- R113, R114: what a change of the inputs does to a byte in flight. -/
def examineInFlight (x : Fin 2) (old new : ParPins) (s : State) : State :=
  let u := parAt s x
  if u.config.holdCycle then
    if new.hold && !old.hold then setPar x { u with busySeen := true } s
    else if !new.hold && old.hold && u.busySeen then decideByte x .delivered s
    else s
  else if !new.took && old.took then decideByte x .delivered s
  else s

/-- R109, R111, R113, R114, R117: a parallel line's inputs change level in the snapshot. While a reset holds the part only
the pins change: sampling starts again at the end of the reset (log 6, DEDUCED). -/
def changeInputs (x : Fin 2) (new : ParPins) (s : State) : State :=
  let u := parAt s x
  let old := u.snapshot
  if inReset s then setPar x { u with pins := new } s
  else
    let s := setPar x { u with pins := new, snapshot := new } s
    match u.handshake with
    | .rest => s
    | .waiting => if readyInputsDiffer old new then answerReady (parLine x) s else s
    | .setup => examineInFlight x old new s
    | .strobe => examineInFlight x old new s
    | .trail => examineInFlight x old new s
    | .ackwait => examineInFlight x old new s

/-- R126: a waiting Serial Line Unit tests the flow condition again. -/
def retestFlow (y : Fin 2) (s : State) : State :=
  if (serAt s y).transmit = .waiting then answerReady (serLine y) s else s

/-- R124, R126: yGO changes level in the snapshot. -/
def changeGo (y : Fin 2) (level : Bool) (s : State) : State :=
  let u := serAt s y
  if inReset s then setSer y { u with pins.go := level } s
  else
    let s := setSer y { u with pins.go := level, snapshot.go := level } s
    if u.config.flow = .go then retestFlow y s else s

/-- R128: the last stop bit of a frame ends; the byte is delivered. -/
def endFrame (y : Fin 2) (s : State) : State :=
  let u := serAt s y
  if u.transmit = .shifting then
    let s := beforeReport (serLine y) s
    evalIntake (delivered (serLine y) (setSer y { serAt s y with transmit := .rest, bitIndex := 0, bitClks := 0 } s))
  else s

/-- R124: yRXD stands at a level. A level that has changed is in the snapshot only after two CLK periods (sampleRxd). -/
def setRxd (y : Fin 2) (level : Bool) (s : State) : State :=
  let u := serAt s y
  setSer y { u with pins.rxd := level, rxdClks := if u.pins.rxd = level then u.rxdClks else 0 } s

/-- R124: one CLK period passes at yRXD: a level that is not in the snapshot is counted, and is in it after two periods. -/
def sampleRxd (y : Fin 2) (s : State) : State :=
  let u := serAt s y
  if u.pins.rxd = u.snapshot.rxd then setSer y { u with rxdClks := 0 } s
  else if u.rxdClks + 1 < Config.sampleClks then setSer y { u with rxdClks := u.rxdClks + 1 } s
  else setSer y { u with snapshot.rxd := u.pins.rxd, rxdClks := 0 } s

/-- R130: the data bits compared: seven with bit 7 taken as 0, or all eight. -/
def comparedData (c : SerConfig) (data : Byte) : Byte := if c.seven then data &&& 0x7F#8 else data

/-- R129: a character is good: its stop bit is mark and its parity, when there is parity, agrees with its data bits. -/
def goodParity (c : SerConfig) (data : Byte) (parity : Bool) : Bool :=
  match parityBit c.parity (dataBits c.seven data) with
  | none => true
  | some p => p == parity

/-- R130: a good character acts on the xoff flag; an XON ends a waiting request at once (R126). -/
def actOnCharacter (y : Fin 2) (data : Byte) (s : State) : State :=
  let u := serAt s y
  if comparedData u.config data = 0x13#8 then setSer y { u with xoff := true } s
  else if comparedData u.config data = 0x11#8 then
    let s := setSer y { u with xoff := false } s
    if u.config.flow = .xonxoff then retestFlow y s else s
  else s

/-- R129: the receiver ends a character at the sample of its first stop bit. -/
def receiveCharacter (y : Fin 2) (data : Byte) (parity stop : Bool) (s : State) : State :=
  let s := setRxd y stop s
  let u := serAt s y
  if u.receiver = .receiving then
    let u := { u with rxData := comparedData u.config data, rxParity := parity, startSeen := false }
    if !stop then setSer y { u with receiver := .markwait } s
    else
      let s := setSer y { u with receiver := .hunt } s
      if goodParity u.config data parity then actOnCharacter y data s else s
  else s

/-- R129: in MARKWAIT the receiver finds yRXD at mark, and enters HUNT. This row is that finding: no other act takes the receiver
out of MARKWAIT (log 22, DESIGN CHOICE). -/
def rxdAtMark (y : Fin 2) (s : State) : State :=
  let s := setRxd y true s
  let u := serAt s y
  if u.receiver = .markwait then setSer y { u with receiver := .hunt, startSeen := false } s else s

/-- R129: in HUNT a fall of yRXD to space begins a character. -/
def rxdFalls (y : Fin 2) (s : State) : State :=
  let s := setRxd y false s
  let u := serAt s y
  if u.receiver = .hunt then setSer y { u with startSeen := true } s else s

/-- R129: half a bit time after the fall the receiver samples yRXD: mark was noise, space begins the bits. -/
def sampleStartBit (y : Fin 2) (level : Bool) (s : State) : State :=
  let s := setRxd y level s
  let u := serAt s y
  if u.receiver = .hunt ∧ u.startSeen = true then
    setSer y { u with startSeen := false, receiver := if level then .hunt else .receiving } s
  else s

/-- R104: a line's timers count a tick; a disarmed timer ignores it, and a timer at its limit has expired and waits for its
expiry to be taken (log 14, DEDUCED). -/
def tickEngine (e : Engine) : Engine :=
  { e with hold := e.hold.map (fun n => min (n + 1) (Config.holdTicks e.config.holdLimit))
           starve := e.starve.map (fun n => min (n + 1) (Config.starveTicks e.config.starveLimit)) }

/-- R115: a parallel line's ack timer counts a tick. -/
def tickPar (u : ParUnit) : ParUnit :=
  { u with ack := u.ack.map (fun n => min (n + 1) u.config.ackLimit.toNat) }

/-- R156: the Time Base produces one tick and its count returns to 0. A reset that holds the part holds the Time Base. -/
def takeTick (s : State) : State :=
  if inReset s then s
  else
    { s with
      timeBase.count := 0
      engines := #v[tickEngine (engineAt s 0), tickEngine (engineAt s 1), tickEngine (engineAt s 2), tickEngine (engineAt s 3)]
      par := #v[tickPar (parAt s 0), tickPar (parAt s 1)] }

/-- A timer is armed and its count has reached its limit (R104). -/
def timerDue (t : Option Nat) (limit : Nat) : Bool :=
  match t with
  | none => false
  | some n => decide (limit ≤ n)

/-- R83, R104: the hold timer of a line expires: the request is withdrawn and the line enters FAULT with cause HOLDTIME. An
expiry whose wait has ended has no effect. -/
def expireHold (l : Fin 4) (s : State) : State :=
  let e := engineAt s l
  if decide (e.state = .sending) && decide (e.step = .waiting) && timerDue e.hold (Config.holdTicks e.config.holdLimit) then
    enterFault l .holdtime s
  else s

/-- R89, R104: the starve timer of a line expires and the line enters FAULT with cause STARVE. -/
def expireStarve (l : Fin 4) (s : State) : State :=
  let e := engineAt s l
  if decide (e.state = .starved) && timerDue e.starve (Config.starveTicks e.config.starveLimit) then enterFault l .starve s
  else s

/-- R115: the ack timer of a parallel line expires: an undecided byte is decided NOACK. -/
def expireAck (x : Fin 2) (s : State) : State :=
  let u := parAt s x
  if timerDue u.ack u.config.ackLimit.toNat then decideByte x .noack s else s

/-- R82: a line's fetch ends. -/
def endFetch (l : Fin 4) (s : State) : State :=
  match s.spool.access with
  | some (.drain k err) => if k = l then fetchDone l err s else s
  | _ => s

/-- R41: the scan's read ends and the scan takes its next step. -/
def endVerifyRead (s : State) : State :=
  match s.spool.access with
  | some (.verify err) => scanStep (countRead err s)
  | _ => s

/-- R54: the intake's access ends. -/
def endIntakeAccess (s : State) : State :=
  match s.spool.access with
  | some (.intake c) => intakeEnd c s
  | _ => s

end Sys2Proof.Machine
end

