-- ==== Sys2Proof/Machine/Resets.lean ====
section
/-! DEFINITION. The three resets, the start-up build, and the host's writes to the registers that are not the Command Port's
(R46, R47, R178 to R181, and the reset rule of each chapter). -/

namespace Sys2Proof.Machine

/-- R26: an intake access overtaken by a reset leaves any value at its position: a free value (log 8, DESIGN CHOICE for
the count the values are drawn by). -/
def tearStore (s : State) : State :=
  match s.spool.access, s.intake.fifo with
  | some (.intake _), (j, _) :: _ =>
    match jobAt s j with
    | none => s
    | some r =>
      match tailPos r with
      | none => s
      | some p =>
        { s with spool.bytes := Memory.write s.spool.bytes p.addr (Config.tornByte s.fresh)
                 spool.checks := Memory.write s.spool.checks p.addr (Config.tornCheck s.fresh)
                 fresh := s.fresh + 1 }
  | _, _ => s

/-- R106: a Drain Engine after software reset: OFF stays OFF, any other state becomes IDLE, the configuration is kept. -/
def softEngine (e : Engine) : Engine :=
  { Engine.reset with state := if e.state = .off then .off else .idle, config := e.config }

/-- R121: a Parallel Line Unit after software reset: the configuration is kept. -/
def softPar (u : ParUnit) : ParUnit := { ParUnit.reset u.pins with config := u.config }

/-- R133: a Serial Line Unit after software reset: the configuration is kept. -/
def softSer (u : SerUnit) : SerUnit := { SerUnit.reset u.pins with config := u.config }

/-- The spool store at a reset: the contents and the Block Table stand until the build (R26, R46). -/
def keptSpool (p : Spool) : Spool := { Spool.reset with bytes := p.bytes, checks := p.checks, links := p.links }

/-- R180: software reset. The start-up build begins at once (R46). -/
def softReset (s0 : State) : State :=
  let s := tearStore s0
  { State.reset with
    pending := s.pending
    window := { State.reset.window with readByte := s.window.readByte }
    spool := keptSpool s.spool
    engines := #v[softEngine (engineAt s 0), softEngine (engineAt s 1), softEngine (engineAt s 2), softEngine (engineAt s 3)]
    par := #v[softPar (parAt s 0), softPar (parAt s 1)]
    ser := #v[softSer (serAt s 0), softSer (serAt s 1)]
    events := { flags := 0#8, enable := s.events.enable }
    timeBase := { setting := s.timeBase.setting, count := 0 }
    fresh := s.fresh }

/-- R181: the values of pin reset, with which resets hold the part and what the store keeps. -/
def hardReset (powerHeld pinHeld : Bool) (p : Spool) (s : State) : State :=
  { State.reset with
    pending := s.pending
    window := { State.reset.window with powerHeld := powerHeld, pinHeld := pinHeld, readByte := s.window.readByte }
    spool := p
    par := #v[ParUnit.reset (parAt s 0).pins, ParUnit.reset (parAt s 1).pins]
    ser := #v[SerUnit.reset (serAt s 0).pins, SerUnit.reset (serAt s 1).pins]
    fresh := s.fresh }

/-- R26, R181: the application of power: pin-reset values, the store's contents lost, and the part held in reset.
Whether RSTn is low does not change (log 16, DESIGN CHOICE). -/
def applyPower (s : State) : State := hardReset true s.window.pinHeld Spool.reset s

/-- R181: pin reset is recognised: every unit takes its pin-reset values and the part is held in reset. -/
def assertPinReset (s0 : State) : State :=
  let s := tearStore s0
  hardReset s.window.powerHeld true (keptSpool s.spool) s

/-- R46, R109, R124, R156: the last reset that held the part ends: the build begins, the snapshots are loaded from the pins
and the Time Base counts from 0. -/
def beginBuild (s : State) : State :=
  { s with
    window.ready := false
    window.buildClks := 0
    timeBase.count := 0
    par := #v[{ parAt s 0 with snapshot := (parAt s 0).pins }, { parAt s 1 with snapshot := (parAt s 1).pins }]
    ser := #v[{ serAt s 0 with snapshot := (serAt s 0).pins, rxdClks := 0 },
      { serAt s 1 with snapshot := (serAt s 1).pins, rxdClks := 0 }] }

/-- R181: power-good has held: the power-on reset ends. -/
def endPowerOn (s : State) : State :=
  if !s.window.powerHeld then s
  else
    let s := { s with window.powerHeld := false }
    if s.window.pinHeld then s else beginBuild s

/-- R47, R181: RSTn returns high: the pin reset ends. -/
def endPinReset (s : State) : State :=
  if !s.window.pinHeld then s
  else
    let s := { s with window.pinHeld := false }
    if s.window.powerHeld then s else beginBuild s

/-- R46: blocks 0 to 127 in ascending order. -/
def allBlocks : List (Fin 128) := (List.range 128).map (Fin.ofNat 128)

/-- R129, R133: at the end of the build the receiver of a line left IDLE in XON/XOFF mode starts. It is in
MARKWAIT until an RXD_MARK (log 22, DESIGN CHOICE). -/
def startAfterBuild (y : Fin 2) (s : State) : State :=
  let u := serAt s y
  if (engineAt s (serLine y)).state = .idle ∧ u.config.flow = .xonxoff then
    setSer y { u with receiver := .markwait, startSeen := false } s
  else s

/-- R46: the start-up build ends: the Free List holds all blocks in ascending order, every link is none, READY becomes 1.
Out of a build nothing happens (log 10, DEDUCED). -/
def endBuild (s : State) : State :=
  if building s then
    startAfterBuild 1 (startAfterBuild 0
      { s with spool.freeList := allBlocks, spool.links := Vector.replicate 128 none, window.ready := true,
               window.buildClks := 0 })
  else s

/-- R49, R50: a host write to DATA. -/
def writeData (b : Byte) (s : State) : State :=
  if !s.window.ready then s
  else match s.intake.target with
    | none => raise .stray s
    | some j =>
      if s.intake.fifo.length < Config.fifoDepth then
        let t := { s with intake.fifo := s.intake.fifo ++ [(j, b)] }
        if s.intake.fifo.isEmpty then evalIntake t else t
      else raise .overrun s

/-- R150, R153: a host write to EVENT. -/
def writeEvent (b : Byte) (s : State) : State :=
  if !s.window.ready then s
  else
    let s := { s with events.flags := s.events.flags &&& ~~~b }
    if b &&& evMask .cmdErr = 0#8 then s
    else { s with port.abandoned := false, port.collided := false, port.strayParam := false, port.underrun := false }

/-- R154: a host write to ENABLE. -/
def writeEnable (b : Byte) (s : State) : State := if !s.window.ready then s else { s with events.enable := b }

/-- R156: a host write to TICK. -/
def writeTick (b : Byte) (s : State) : State :=
  if !s.window.ready then s else { s with timeBase := { setting := b, count := 0 } }

/-- R179, R180, R181: a host write to CONTROL. -/
def writeControl (b : Byte) (s : State) : State :=
  if b.getLsbD 0 then (if inReset s then s else softReset s)
  else if s.window.ready then { s with window.invchk := b.getLsbD 1 }
  else s

/-- R178: a host write to any register; a write whose effect is "ignored" reaches no unit. -/
def writeRegister (reg : BitVec 4) (b : Byte) (s : State) : State :=
  match reg.toNat with
  | 0x0 => writeData b s
  | 0x1 => writeCommand b s
  | 0x2 => writeParameter b s
  | 0x5 => writeEvent b s
  | 0x6 => writeEnable b s
  | 0x7 => writeControl b s
  | 0xD => writeTick b s
  | _ => s

end Sys2Proof.Machine
end

