-- ==== Sys2Proof/Machine/Clock.lean ====
section
/-! DEFINITION. One CLK period, in which no command comes from outside (what a step does on an empty queue, log 7): yRXD is
sampled (R124), the setup, strobe and trail of a byte count (R112) and the frames being shifted out advance by the BCLK periods
that end in it (R127), the Time Base counts (R156), timers that are due expire (R104, R115), the start-up build counts (R46), and
the phases and frames that have their full length end (R112, R128). -/

namespace Sys2Proof.Machine

/-- R156: the Time Base counts one CLK period and produces the tick when its count reaches N × 64. -/
def clkTimeBase (s : State) : State :=
  if s.timeBase.count + 1 < Config.tickClks s.timeBase.setting then { s with timeBase.count := s.timeBase.count + 1 }
  else takeTick s

/-- R104, R115: every timer that has reached its limit expires. -/
def clkTimers (s : State) : State :=
  let s := expireStarve 0 (expireHold 0 s)
  let s := expireStarve 1 (expireHold 1 s)
  let s := expireStarve 2 (expireHold 2 s)
  let s := expireStarve 3 (expireHold 3 s)
  expireAck 1 (expireAck 0 s)

/-- R46: the start-up build counts one CLK period and ends after 512. -/
def clkBuild (s : State) : State :=
  if building s then
    if s.window.buildClks + 1 < Config.buildClks then { s with window.buildClks := s.window.buildClks + 1 } else endBuild s
  else s

/-- R112: one CLK period of SETUP, STROBE or TRAIL has passed. -/
def countHandshake (x : Fin 2) (s : State) : State :=
  let u := parAt s x
  match u.handshake with
  | .rest => s
  | .waiting => s
  | .ackwait => s
  | .setup => setPar x { u with phaseClks := u.phaseClks + 1 } s
  | .strobe => setPar x { u with phaseClks := u.phaseClks + 1 } s
  | .trail => setPar x { u with phaseClks := u.phaseClks + 1 } s

/-- R112: SETUP, STROBE or TRAIL of a parallel line ends when its length has been counted. -/
def clkHandshake (x : Fin 2) (s : State) : State :=
  let u := parAt s x
  match u.handshake with
  | .rest => s
  | .waiting => s
  | .ackwait => s
  | .setup => if u.phaseClks < Config.setupClks then s else endSetup x s
  | .strobe => if u.phaseClks < Config.strobeClks u.config.strobeCode then s else endStrobe x s
  | .trail => if u.phaseClks < Config.trailClks then s else endTrail x s

/-- R127: `n` BCLK periods of the frame being shifted out have passed. -/
def countFrame (y : Fin 2) (n : Nat) (s : State) : State :=
  let u := serAt s y
  if u.transmit = .shifting then
    let t := Config.bitBclks u.config.rate
    let e := u.bitIndex * t + u.bitClks + n
    setSer y { u with bitIndex := e / t, bitClks := e % t } s
  else s

/-- R128: the frame being shifted out ends when all its bits have passed. -/
def clkFrame (y : Fin 2) (s : State) : State :=
  let u := serAt s y
  if u.transmit = .shifting ∧ (frameLevels u.config u.frameByte).length ≤ u.bitIndex then endFrame y s else s

/-- One CLK period without a command (log 7, DESIGN CHOICE). While a reset holds the part nothing counts. What is under way at
its start counts first, so that a byte put in this period counts its setup and its frame from the next one on (R112, R127). No
receiver moves in it: the receiver's samples are rows of their own (log 22, DESIGN CHOICE). -/
def clkPeriod (s : State) : State :=
  if inReset s then s
  else
    let n := Config.bclkPeriods s.fresh
    let s := sampleRxd 1 (sampleRxd 0 { s with fresh := s.fresh + 1 })
    let s := countFrame 1 n (countFrame 0 n (countHandshake 1 (countHandshake 0 s)))
    let s := clkBuild (clkTimers (clkTimeBase s))
    let s := clkHandshake 1 (clkHandshake 0 s)
    clkFrame 1 (clkFrame 0 s)

end Sys2Proof.Machine
end

