-- ==== Sys2Proof/Machine/HostAccess.lean ====
section
/-! DEFINITION. The meanings of the rows of spec/opcode_table.json for the host's register accesses, one definition a row. -/

namespace Sys2Proof.Machine

/-- DATA_WRITE. R49, R50: a host write to DATA. -/
def execDataWrite (b : Byte) (s : State) : Host.Outcome State Fault Refusal :=
  .next (writeData b s)

/-- PARAMETER_WRITE. R145: a host write to PARAMETER. -/
def execParameterWrite (b : Byte) (s : State) : Host.Outcome State Fault Refusal :=
  .next (writeParameter b s)

/-- RESULT_READ. R149: a host read of RESULT. -/
def execResultRead (s : State) : Host.Outcome State Fault Refusal :=
  .next (readResult s)

/-- EVENT_WRITE. R150, R153: a host write to EVENT. -/
def execEventWrite (b : Byte) (s : State) : Host.Outcome State Fault Refusal :=
  .next (writeEvent b s)

/-- ENABLE_WRITE. R154: a host write to ENABLE. -/
def execEnableWrite (b : Byte) (s : State) : Host.Outcome State Fault Refusal :=
  .next (writeEnable b s)

/-- SOFTWARE_RESET. R180: a host write to CONTROL with SRESET = 1. -/
def execSoftwareReset (b : Byte) (s : State) : Host.Outcome State Fault Refusal :=
  .next (writeControl b s)

/-- INVCHK. R27, R180: a host write to CONTROL with SRESET = 0. -/
def execInvchk (b : Byte) (s : State) : Host.Outcome State Fault Refusal :=
  .next (writeControl b s)

/-- TICK_WRITE. R156: a host write to TICK. -/
def execTickWrite (b : Byte) (s : State) : Host.Outcome State Fault Refusal :=
  .next (writeTick b s)

/-- IGNORED_REGISTER_WRITE. R178: a host write to a register whose write effect is "ignored". -/
def execIgnoredRegisterWrite (reg : BitVec 4) (b : Byte) (s : State) : Host.Outcome State Fault Refusal :=
  .next (writeRegister reg b s)

/-- UNKNOWN. R157: a host write to COMMAND of a code that names no command. -/
def execUnknown (code : Byte) (s : State) : Host.Outcome State Fault Refusal :=
  .next (writeCommand code s)

/-- COMMAND_WRITE. R144: a host write to COMMAND. -/
def execCommandWrite (code : Byte) (s : State) : Host.Outcome State Fault Refusal :=
  .next (writeCommand code s)

end Sys2Proof.Machine
end

