-- ==== Sys2Proof/Machine/JobCommands.lean ====
section
/-! DEFINITION. The meanings of the rows of spec/opcode_table.json for the commands on jobs and on the part, each written whole, one definition a row. -/

namespace Sys2Proof.Machine

/-- OPEN. R159: OPEN. -/
def execOpenJob (line options copies quota : Byte) (s : State) : Host.Outcome State Fault Refusal :=
  .next (hostCommand .openJob [line, options, copies, quota] s)

/-- TARGET. R160: TARGET. -/
def execTarget (job : Byte) (s : State) : Host.Outcome State Fault Refusal :=
  .next (hostCommand .target [job] s)

/-- CLOSE. R161: CLOSE. -/
def execCloseJob (job : Byte) (s : State) : Host.Outcome State Fault Refusal :=
  .next (hostCommand .closeJob [job] s)

/-- CANCEL. R162: CANCEL. -/
def execCancel (job : Byte) (s : State) : Host.Outcome State Fault Refusal :=
  .next (hostCommand .cancel [job] s)

/-- HOLD. R163: HOLD. -/
def execHold (job : Byte) (s : State) : Host.Outcome State Fault Refusal :=
  .next (hostCommand .hold [job] s)

/-- RELEASE. R164: RELEASE. -/
def execRelease (job : Byte) (s : State) : Host.Outcome State Fault Refusal :=
  .next (hostCommand .release [job] s)

/-- MOVE. R165: MOVE. -/
def execMove (job line : Byte) (s : State) : Host.Outcome State Fault Refusal :=
  .next (hostCommand .move [job, line] s)

/-- VERIFY. R166: VERIFY. -/
def execVerify (job : Byte) (s : State) : Host.Outcome State Fault Refusal :=
  .next (hostCommand .verify [job] s)

/-- QUERY_JOB. R167: QUERY JOB. -/
def execQueryJob (job : Byte) (s : State) : Host.Outcome State Fault Refusal :=
  .next (hostCommand .queryJob [job] s)

/-- TAKE. R168: TAKE. -/
def execTake (s : State) : Host.Outcome State Fault Refusal :=
  .next (hostCommand .take [] s)

/-- STORE_QUERY. R177: STORE QUERY. -/
def execStoreQuery (s : State) : Host.Outcome State Fault Refusal :=
  .next (hostCommand .storeQuery [] s)

end Sys2Proof.Machine
end

