-- ==== Sys2Proof/Machine/LineCommands.lean ====
section
/-! DEFINITION. The meanings of the rows of spec/opcode_table.json for the commands on lines, each written whole, one definition a row. -/

namespace Sys2Proof.Machine

/-- LINE_SET. R169: LINE SET. -/
def execLineSet (line mode second holdLimit starveLimit separator policy substitute : Byte) (s : State) : Host.Outcome State Fault Refusal :=
  .next (hostCommand .lineSet [line, mode, second, holdLimit, starveLimit, separator, policy, substitute] s)

/-- LINE_ENABLE. R170: LINE ENABLE. -/
def execLineEnable (line : Byte) (s : State) : Host.Outcome State Fault Refusal :=
  .next (hostCommand .lineEnable [line] s)

/-- LINE_DISABLE. R171: LINE DISABLE. -/
def execLineDisable (line : Byte) (s : State) : Host.Outcome State Fault Refusal :=
  .next (hostCommand .lineDisable [line] s)

/-- LINE_STOP. R172: LINE STOP. -/
def execLineStop (line : Byte) (s : State) : Host.Outcome State Fault Refusal :=
  .next (hostCommand .lineStop [line] s)

/-- LINE_GO. R172: LINE GO. -/
def execLineGo (line : Byte) (s : State) : Host.Outcome State Fault Refusal :=
  .next (hostCommand .lineGo [line] s)

/-- LINE_RESUME. R173: LINE RESUME. -/
def execLineResume (line choice : Byte) (s : State) : Host.Outcome State Fault Refusal :=
  .next (hostCommand .lineResume [line, choice] s)

/-- LINE_RESTART. R174: LINE RESTART. -/
def execLineRestart (line : Byte) (s : State) : Host.Outcome State Fault Refusal :=
  .next (hostCommand .lineRestart [line] s)

/-- LINE_ABORT. R175: LINE ABORT. -/
def execLineAbort (line : Byte) (s : State) : Host.Outcome State Fault Refusal :=
  .next (hostCommand .lineAbort [line] s)

/-- LINE_QUERY. R176: LINE QUERY. -/
def execLineQuery (line : Byte) (s : State) : Host.Outcome State Fault Refusal :=
  .next (hostCommand .lineQuery [line] s)

end Sys2Proof.Machine
end

