-- ==== Sys2Proof/Machine/LineUnitEvents.lean ====
section
/-! DEFINITION. The meanings of the rows of spec/opcode_table.json for the events of the Line Units, one definition a row. -/

namespace Sys2Proof.Machine

/-- SETUP_END. R112: SETUP ends. -/
def execSetupEnd (x : Fin 2) (s : State) : Host.Outcome State Fault Refusal :=
  .next (endSetup x s)

/-- STROBE_END. R112: STROBE ends. -/
def execStrobeEnd (x : Fin 2) (s : State) : Host.Outcome State Fault Refusal :=
  .next (endStrobe x s)

/-- TRAIL_END. R112, R116: TRAIL ends. -/
def execTrailEnd (x : Fin 2) (s : State) : Host.Outcome State Fault Refusal :=
  .next (endTrail x s)

/-- INPUT_CHANGE. R109: a parallel line's inputs change level in the snapshot. -/
def execInputChange (x : Fin 2) (levels : ParPins) (s : State) : Host.Outcome State Fault Refusal :=
  .next (changeInputs x levels s)

/-- GO_CHANGE. R126: yGO changes level in the snapshot. -/
def execGoChange (y : Fin 2) (level : Bool) (s : State) : Host.Outcome State Fault Refusal :=
  .next (changeGo y level s)

/-- FRAME_END. R128: a frame ends. -/
def execFrameEnd (y : Fin 2) (s : State) : Host.Outcome State Fault Refusal :=
  .next (endFrame y s)

/-- RECEIVED_CHARACTER. R129: the receiver ends a character. -/
def execReceivedCharacter (y : Fin 2) (data : Byte) (parity stop : Bool) (s : State) : Host.Outcome State Fault Refusal :=
  .next (receiveCharacter y data parity stop s)

/-- RXD_MARK. R129: yRXD is at mark. -/
def execRxdMark (y : Fin 2) (s : State) : Host.Outcome State Fault Refusal :=
  .next (rxdAtMark y s)

/-- START_BIT. R129: yRXD falls to space. -/
def execStartBit (y : Fin 2) (s : State) : Host.Outcome State Fault Refusal :=
  .next (rxdFalls y s)

/-- START_BIT_SAMPLE. R129: the half-bit sample. -/
def execStartBitSample (y : Fin 2) (level : Bool) (s : State) : Host.Outcome State Fault Refusal :=
  .next (sampleStartBit y level s)

end Sys2Proof.Machine
end

