-- ==== Sys2Proof/Machine/ResetEvents.lean ====
section
/-! DEFINITION. The meanings of the rows of spec/opcode_table.json for the resets and the start-up build, one definition a row. -/

namespace Sys2Proof.Machine

/-- POWER_ON_RESET. R181: the application of power. -/
def execPowerOnReset (s : State) : Host.Outcome State Fault Refusal :=
  .next (applyPower s)

/-- POWER_GOOD. R181: the end of power-on reset. -/
def execPowerGood (s : State) : Host.Outcome State Fault Refusal :=
  .next (endPowerOn s)

/-- PIN_RESET. R181: RSTn low, recognised. -/
def execPinReset (s : State) : Host.Outcome State Fault Refusal :=
  .next (assertPinReset s)

/-- PIN_RESET_RELEASE. R47, R181: RSTn returns high. -/
def execPinResetRelease (s : State) : Host.Outcome State Fault Refusal :=
  .next (endPinReset s)

/-- START_UP_BUILD_END. R46: the end of the start-up build. -/
def execStartUpBuildEnd (s : State) : Host.Outcome State Fault Refusal :=
  .next (endBuild s)

end Sys2Proof.Machine
end

