-- ==== Sys2Proof/Machine/StoreEvents.lean ====
section
/-! DEFINITION. The meanings of the rows of spec/opcode_table.json for the Store Arbiter and the ends of store accesses, one definition a row. -/

namespace Sys2Proof.Machine

/-- STORE_GRANT. R38, R39: the Store Arbiter grants the next waiting requester; with the store busy or no request waiting
it grants none (log 10, DEDUCED). -/
def execStoreGrant (s : State) : Host.Outcome State Fault Refusal :=
  .next (storeGrant s)

/-- INTAKE_ACCESS_END. R54: an intake store access ends. -/
def execIntakeAccessEnd (s : State) : Host.Outcome State Fault Refusal :=
  .next (endIntakeAccess s)

/-- FETCH_END. R82: a Drain Engine's fetch ends. -/
def execFetchEnd (l : Fin 4) (s : State) : Host.Outcome State Fault Refusal :=
  .next (endFetch l s)

/-- VERIFY_READ_END. R41: a read of the scan ends. -/
def execVerifyReadEnd (s : State) : Host.Outcome State Fault Refusal :=
  .next (endVerifyRead s)

end Sys2Proof.Machine
end

