-- ==== Sys2Proof/Machine/TimerEvents.lean ====
section
/-! DEFINITION. The meanings of the rows of spec/opcode_table.json for the tick and the expiries of the line timers, one definition a row. -/

namespace Sys2Proof.Machine

/-- TICK. R156, R104, R115: one tick. -/
def execTick (s : State) : Host.Outcome State Fault Refusal :=
  .next (takeTick s)

/-- HOLD_TIMER_EXPIRY. R83: the hold timer of a line expires. -/
def execHoldTimerExpiry (l : Fin 4) (s : State) : Host.Outcome State Fault Refusal :=
  .next (expireHold l s)

/-- STARVE_TIMER_EXPIRY. R89: the starve timer of a line expires. -/
def execStarveTimerExpiry (l : Fin 4) (s : State) : Host.Outcome State Fault Refusal :=
  .next (expireStarve l s)

/-- ACK_TIMER_EXPIRY. R115: the ack timer of a parallel line expires. -/
def execAckTimerExpiry (x : Fin 2) (s : State) : Host.Outcome State Fault Refusal :=
  .next (expireAck x s)

end Sys2Proof.Machine
end

