-- ==== Sys2Proof/Machine/Dispatch.lean ====
section
/-! DEFINITION. The dispatch: one arm per row of spec/opcode_table.json, in the table's order. -/

namespace Sys2Proof.Machine

/-- What each command does to everything but the queue. -/
def exec (i : Instr) (s : State) : Host.Outcome State Fault Refusal :=
  match i with
  | .dataWrite b => Sys2Proof.Machine.execDataWrite b s
  | .parameterWrite b => Sys2Proof.Machine.execParameterWrite b s
  | .resultRead => Sys2Proof.Machine.execResultRead s
  | .eventWrite b => Sys2Proof.Machine.execEventWrite b s
  | .enableWrite b => Sys2Proof.Machine.execEnableWrite b s
  | .softwareReset b => Sys2Proof.Machine.execSoftwareReset b s
  | .invchk b => Sys2Proof.Machine.execInvchk b s
  | .tickWrite b => Sys2Proof.Machine.execTickWrite b s
  | .ignoredRegisterWrite reg b => Sys2Proof.Machine.execIgnoredRegisterWrite reg b s
  | .powerOnReset => Sys2Proof.Machine.execPowerOnReset s
  | .powerGood => Sys2Proof.Machine.execPowerGood s
  | .pinReset => Sys2Proof.Machine.execPinReset s
  | .pinResetRelease => Sys2Proof.Machine.execPinResetRelease s
  | .startUpBuildEnd => Sys2Proof.Machine.execStartUpBuildEnd s
  | .tick => Sys2Proof.Machine.execTick s
  | .holdTimerExpiry l => Sys2Proof.Machine.execHoldTimerExpiry l s
  | .starveTimerExpiry l => Sys2Proof.Machine.execStarveTimerExpiry l s
  | .ackTimerExpiry x => Sys2Proof.Machine.execAckTimerExpiry x s
  | .storeGrant => Sys2Proof.Machine.execStoreGrant s
  | .intakeAccessEnd => Sys2Proof.Machine.execIntakeAccessEnd s
  | .fetchEnd l => Sys2Proof.Machine.execFetchEnd l s
  | .verifyReadEnd => Sys2Proof.Machine.execVerifyReadEnd s
  | .setupEnd x => Sys2Proof.Machine.execSetupEnd x s
  | .strobeEnd x => Sys2Proof.Machine.execStrobeEnd x s
  | .trailEnd x => Sys2Proof.Machine.execTrailEnd x s
  | .inputChange x levels => Sys2Proof.Machine.execInputChange x levels s
  | .goChange y level => Sys2Proof.Machine.execGoChange y level s
  | .frameEnd y => Sys2Proof.Machine.execFrameEnd y s
  | .receivedCharacter y data parity stop => Sys2Proof.Machine.execReceivedCharacter y data parity stop s
  | .openJob line options copies quota => Sys2Proof.Machine.execOpenJob line options copies quota s
  | .target job => Sys2Proof.Machine.execTarget job s
  | .closeJob job => Sys2Proof.Machine.execCloseJob job s
  | .cancel job => Sys2Proof.Machine.execCancel job s
  | .hold job => Sys2Proof.Machine.execHold job s
  | .release job => Sys2Proof.Machine.execRelease job s
  | .move job line => Sys2Proof.Machine.execMove job line s
  | .verify job => Sys2Proof.Machine.execVerify job s
  | .queryJob job => Sys2Proof.Machine.execQueryJob job s
  | .take => Sys2Proof.Machine.execTake s
  | .lineSet line mode second holdLimit starveLimit separator policy substitute => Sys2Proof.Machine.execLineSet line mode second holdLimit starveLimit separator policy substitute s
  | .lineEnable line => Sys2Proof.Machine.execLineEnable line s
  | .lineDisable line => Sys2Proof.Machine.execLineDisable line s
  | .lineStop line => Sys2Proof.Machine.execLineStop line s
  | .lineGo line => Sys2Proof.Machine.execLineGo line s
  | .lineResume line choice => Sys2Proof.Machine.execLineResume line choice s
  | .lineRestart line => Sys2Proof.Machine.execLineRestart line s
  | .lineAbort line => Sys2Proof.Machine.execLineAbort line s
  | .lineQuery line => Sys2Proof.Machine.execLineQuery line s
  | .storeQuery => Sys2Proof.Machine.execStoreQuery s
  | .unknown code => Sys2Proof.Machine.execUnknown code s
  | .commandWrite code => Sys2Proof.Machine.execCommandWrite code s
  | .rxdMark y => Sys2Proof.Machine.execRxdMark y s
  | .startBit y => Sys2Proof.Machine.execStartBit y s
  | .startBitSample y level => Sys2Proof.Machine.execStartBitSample y level s

end Sys2Proof.Machine
end

