-- ==== Sys2Proof/Safety.lean ====
section
/-! DEFINITION. The laws of the part, each as a check on a state: what the spec calls "a law of the part", and the agreement
of units it states. A safe run is one whose every state meets them. -/

namespace Sys2Proof.Machine

/-- The numbers of the four lines. -/
def lines : List (Fin 4) := [0, 1, 2, 3]

/-- The canonical form of the store's contents. -/
def storeLaw (s : State) : Bool := Memory.wf s.spool.bytes && Memory.wf s.spool.checks

/-- R143: staged parameters are held only in COLLECTING, fewer than the staged command's count; unread result bytes only,
and always, in RESULTS. -/
def portLaw (p : Port) : Bool :=
  match p.state with
  | .idle => p.staged.isNone && p.staging.isEmpty && p.results.isEmpty
  | .executing => p.staged.isNone && p.staging.isEmpty && p.results.isEmpty
  | .results => p.staged.isNone && p.staging.isEmpty && !p.results.isEmpty
  | .collecting =>
    p.results.isEmpty &&
      (match p.staged with
      | none => false
      | some c => decide (p.staging.length < c.params))

/-- R48: the Intake FIFO holds at most sixteen entries, and each names a job whose intake phase is OPEN or CLOSING. -/
def fifoLaw (s : State) : Bool :=
  decide (s.intake.fifo.length ≤ Config.fifoDepth) &&
    s.intake.fifo.all (fun e => match jobAt s e.1 with
      | some r => decide (r.intake ≠ .closed)
      | none => false)

/-- R51: while the target names a job, that job's intake phase is OPEN. -/
def targetLaw (s : State) : Bool :=
  match s.intake.target with
  | none => true
  | some j => (match jobAt s j with
    | some r => decide (r.intake = .opened)
    | none => false)

/-- R8: a job in intake phase CLOSING has at least one entry in the Intake FIFO. -/
def closingLaw (s : State) : Bool :=
  slots.all (fun j => match jobAt s j with
    | some r => decide (r.intake ≠ .closing) || hasEntry s j
    | none => true)

/-- R6: a job's copy position never exceeds its stored count, and its copies done never exceeds its copies. -/
def countLaw (s : State) : Bool :=
  slots.all (fun j => match jobAt s j with
    | some r => decide (r.copyPos ≤ r.stored) && decide (r.copiesDone ≤ r.copies)
    | none => true)

/-- The lists a job number may stand in. -/
def queueEntries (s : State) (l : Fin 4) (urgent : Bool) : List (Fin 16) :=
  if urgent then (queueAt s l).urgent else (queueAt s l).normal

/-- R66: a job stands in a class of a line's queue exactly when it is QUEUED on that line in that class, and then once. -/
def queueLaw (s : State) : Bool :=
  slots.all (fun j => lines.all (fun l => [true, false].all (fun u =>
    decide ((queueEntries s l u).count j =
      (match jobAt s j with
      | some r => if r.output = .queued ∧ r.line = l ∧ r.urgent = u then 1 else 0
      | none => 0)))))

/-- R79: OFF and IDLE lines have no current job, SENDING, STARVED and PAUSED lines have one; the cycle step, the fetched byte
and the hold timer stand only in SENDING, the starve timer only in STARVED, and a cause only in FAULT. In SENDING the hold timer
stands only in a readiness wait, no byte is fetched at a boundary, and one is when it waits or is in flight (section 5.1). -/
def engineLaw (e : Engine) : Bool :=
  let rests := decide (e.step = .boundary) && e.fetched.isNone && e.hold.isNone
  match e.state with
  | .off | .idle => e.current.isNone && decide (e.cause = .none) && rests && e.starve.isNone
  | .sending =>
    e.current.isSome && decide (e.cause = .none) && e.starve.isNone && (decide (e.step = .waiting) || e.hold.isNone) &&
      (match e.step with
      | .boundary => e.fetched.isNone
      | .fetching => true
      | .waiting | .inFlight => e.fetched.isSome)
  | .starved => e.current.isSome && decide (e.cause = .none) && rests
  | .paused => e.current.isSome && decide (e.cause = .none) && rests && e.starve.isNone
  | .fault => decide (e.cause ≠ .none) && rests && e.starve.isNone

/-- R80: a SENDING line does not stay at a byte boundary. -/
def boundaryLaw (s : State) : Bool :=
  lines.all (fun l => decide ((engineAt s l).state ≠ .sending) || decide ((engineAt s l).step ≠ .boundary))

/-- R79: a job whose output phase is CURRENT is the current job of the line named in its record and of no other. -/
def currentLaw (s : State) : Bool :=
  lines.all (fun l => engineLaw (engineAt s l)) &&
  slots.all (fun j => lines.all (fun l =>
    decide ((engineAt s l).current = some j) ==
      (match jobAt s j with
      | some r => decide (r.output = .current) && decide (r.line = l)
      | none => false)))

/-- R108, R123: the engine's cycle step and the Line Unit's state agree. -/
def unitLaw (s : State) : Bool :=
  lines.all (fun l =>
    let e := engineAt s l
    match unitOf l with
    | .par x =>
      (match (parAt s x).handshake with
      | .rest => decide (e.step = .boundary) || decide (e.step = .fetching)
      | .waiting => decide (e.step = .waiting)
      | _ => decide (e.step = .inFlight))
    | .ser y =>
      (match (serAt s y).transmit with
      | .rest => decide (e.step = .boundary) || decide (e.step = .fetching)
      | .waiting => decide (e.step = .waiting)
      | .shifting => decide (e.step = .inFlight)))

/-- The blocks of every occupied job's chain. -/
def chainBlocks (s : State) : List (Fin 128) :=
  slots.flatMap (fun j => match jobAt s j with
    | some r => chainOf s r
    | none => [])

/-- R32: while READY reads 1, each of the 128 blocks stands once on the Free List or in the chain of one occupied job. -/
def blockLaw (s : State) : Bool :=
  !s.window.ready || allBlocks.all (fun b => decide ((s.spool.freeList ++ chainBlocks s).count b = 1))

/-- R31: outside a store access a tail block holds at least one byte; the one that may hold none is that of the head entry
while its access is in progress. -/
def storingFor (s : State) (j : Fin 16) : Bool :=
  match s.spool.access, s.intake.fifo with
  | some (.intake _), e :: _ => e.1 == j
  | _, _ => false

/-- R30, R31: a job's chain runs from its head through chain length blocks to its tail, whose link is none and which outside a
store access holds 1 to 256 bytes; the link of a block on the Free List is none. -/
def chainLaw (s : State) : Bool :=
  slots.all (fun j => match jobAt s j with
    | none => true
    | some r =>
      decide ((chainOf s r).length = r.chainLen) && decide ((chainOf s r).head? = r.head) &&
        decide ((chainOf s r).getLast? = r.tail) &&
        (match r.tail with
        | none => decide (r.tailFill = 0)
        | some t => decide (linkAt s t = none) && decide (r.tailFill ≤ Config.blockBytes) &&
          (decide (1 ≤ r.tailFill) || storingFor s j)))
  && s.spool.freeList.all (fun b => decide (linkAt s b = none))

/-- R31: the bytes a chain holds; blocks other than the tail are full. -/
def chainBytes (r : Job) : Nat := Config.blockBytes * (r.chainLen - 1) + r.tailFill

/-- R30, R31, R35: the cursor stands in the chain, at most at the stored end, with the bytes of the copy that are not passed
yet before it and the others behind it; in the last copy of a job that is not retained it stands in the head block. -/
def cursorLaw (s : State) (r : Job) : Bool :=
  match r.cursor with
  | none => r.head.isNone && decide (r.copyPos = 0) && decide (r.stored = 0) && !r.anyReleased
  | some c =>
    decide (c.off ≤ Config.blockBytes) && decide (r.copyPos ≤ r.stored) &&
      decide (∃ i, i < r.chainLen ∧ (chainOf s r)[i]? = some c.block ∧
        r.copyPos + chainBytes r = r.stored + Config.blockBytes * i + c.off ∧
        (r.retain = false → r.copiesDone + 1 = r.copies → i = 0))

/-- R6, R16, R31, R35: a job that is not FINISHED has copies to go; its cursor keeps its law; the stored count is the number of
bytes in its chain until a block of it is released, which happens only in the last copy. -/
def progressLaw (s : State) : Bool :=
  slots.all (fun j => match jobAt s j with
    | none => true
    | some r => decide (r.output = .finished) ||
      (decide (r.copiesDone < r.copies) && cursorLaw s r &&
        (if r.anyReleased then decide (r.copiesDone + 1 = r.copies) else r.tail.isNone || decide (r.stored = chainBytes r))))

/-- R81, R30: the position that goes with an engine's fetched byte is that of the stored byte at its current job's cursor. -/
def fetchedLaw (s : State) : Bool :=
  lines.all (fun l => match (engineAt s l).fetched, currentJob s l with
    | some f, some (_, r) =>
      (match f.pos with
      | none => true
      | some p => decide (∃ i, i < r.chainLen ∧ (chainOf s r)[i]? = some p.block ∧ p.off < Config.blockBytes ∧
          r.copyPos + chainBytes r = r.stored + Config.blockBytes * i + p.off ∧ r.copyPos < r.stored))
    | _, _ => true)

/-- R39, R81: a fetch in progress is that of a SENDING line at its fetch step. -/
def fetchLaw (s : State) : Bool :=
  match s.spool.access with
  | some (.drain l _) =>
    decide ((engineAt s l).state = .sending) && decide ((engineAt s l).step = .fetching) && (engineAt s l).fetched.isSome
  | some (.intake _) | some (.verify _) | none => true

/-- R46, R179: while STATUS.READY reads 0 no slot is occupied. -/
def emptyLaw (s : State) : Bool := s.window.ready || slots.all (fun j => (jobAt s j).isNone)

/-- R46, R181: STATUS.READY reads 0 while a reset holds the part. -/
def heldLaw (s : State) : Bool := !(inReset s && s.window.ready)

/-- R16: a FINISHED job holds no blocks, has no entry in the Intake FIFO, is not the target, and its intake is CLOSED. -/
def finishedLaw (s : State) : Bool :=
  slots.all (fun j => match jobAt s j with
    | none => true
    | some r => decide (r.output ≠ .finished) ||
      (decide (r.intake = .closed) && decide (r.chainLen = 0) && r.head.isNone && r.tail.isNone && !hasEntry s j &&
        decide (s.intake.target ≠ some j)))

/-- R136: the Completion Queue holds at most eight records; every FINISHED job is named by one record when posted and stands
once on the Post-Wait List when waiting, and not both; and the list is empty while the queue is not full. -/
def reportLaw (s : State) : Bool :=
  decide (s.completion.queue.length ≤ Config.completionDepth) &&
  (s.completion.postWait.isEmpty || decide (s.completion.queue.length = Config.completionDepth)) &&
  slots.all (fun j =>
    let recs := (s.completion.queue.map Record.job).count j
    let waits := s.completion.postWait.count j
    match jobAt s j with
    | none => decide (recs = 0) && decide (waits = 0)
    | some r =>
      if r.output = .finished then
        (if r.posted then decide (recs = 1) && decide (waits = 0) else decide (recs = 0) && decide (waits = 1))
      else decide (recs = 0) && decide (waits = 0))

/-- R31: the tail fill of a job is at most 256. -/
def fillLaw (s : State) : Bool :=
  slots.all (fun j => match jobAt s j with
    | none => true
    | some r => decide (r.tailFill ≤ Config.blockBytes))

/-- R54: while an intake access is in progress the head request is granted, and the head entry's job has a place free at the
offset its tail fill gives. -/
def accessLaw (s : State) : Bool :=
  match s.spool.access with
  | some (.intake _) =>
    decide (s.intake.headReq = .granted) &&
      (match s.intake.fifo with
      | [] => false
      | e :: _ => (match jobAt s e.1 with
        | none => true
        | some r => decide (r.tailFill < Config.blockBytes)))
  | some (.drain _ _) | some (.verify _) | none => true

/-- The store is written only where it has a place, and its contents stay in canonical form (R26, R31, R54). -/
def StoreSafe (s : State) : Prop := storeLaw s = true ∧ fillLaw s = true ∧ accessLaw s = true

/-- R137: the records carry consecutive sequence numbers, the one at the tail carrying the counter's value less one. -/
def seqLaw (seq : Byte) : List Record → Bool
  | [] => true
  | r :: rs => decide (r.seq = seq - byteOf (rs.length + 1)) && seqLaw seq rs

/-- R136, R137: the Completion Queue holds at most eight records, in the order of their sequence numbers. -/
def recordsLaw (c : Completion) : Bool := decide (c.queue.length ≤ Config.completionDepth) && seqLaw c.seq c.queue

/-- What the jobs, their chains and counts, the queues, the intake, the lines and the completion reports keep at every step: the
laws of the part and the facts about chains, cursors and fetched bytes that hold them up. -/
def Kept (s : State) : Prop :=
  fifoLaw s = true ∧ targetLaw s = true ∧ closingLaw s = true ∧ countLaw s = true ∧ queueLaw s = true ∧
  currentLaw s = true ∧ unitLaw s = true ∧ blockLaw s = true ∧ chainLaw s = true ∧ finishedLaw s = true ∧
  reportLaw s = true ∧ accessLaw s = true ∧ progressLaw s = true ∧ fetchedLaw s = true ∧ fetchLaw s = true ∧
  emptyLaw s = true ∧ heldLaw s = true

/-- Every law of the part holds. -/
def lawful (s : State) : Bool :=
  storeLaw s && portLaw s.port && fifoLaw s && targetLaw s && closingLaw s && countLaw s && queueLaw s && currentLaw s
    && boundaryLaw s && unitLaw s && blockLaw s && chainLaw s && finishedLaw s && reportLaw s && fillLaw s && accessLaw s
    && progressLaw s && fetchedLaw s && fetchLaw s && emptyLaw s && heldLaw s && recordsLaw s.completion

/-- A safe state is one in which every law of the part holds. -/
def Safe (s : State) : Prop := lawful s = true

end Sys2Proof.Machine
end

