-- ==== Sys2Proof/WellFormed.lean ====
section
/-! DEFINITION. Which terms of `Instr` are events of their row. Lines and pin levels are well formed by their types; a byte
written to a checked field is the row's whatever its value (the Command Port checks it, R146). -/

namespace Sys2Proof

/-- R178: the registers whose write effect is "ignored". -/
def writeIgnored (reg : BitVec 4) : Bool :=
  reg.toNat == 3 || reg.toNat == 4 || (8 ≤ reg.toNat && reg.toNat ≤ 0xC) || reg.toNat == 0xE || reg.toNat == 0xF

/-- A term is an event of its row: SOFTWARE_RESET writes SRESET = 1 and INVCHK writes SRESET = 0 (R180), an ignored register
write names a register whose write effect is "ignored" (R178), and an unknown code names no command (R157). -/
def Instr.wf : Instr → Bool
  | .softwareReset b => b.getLsbD 0
  | .invchk b => !b.getLsbD 0
  | .ignoredRegisterWrite reg _ => writeIgnored reg
  | .unknown code => (Cmd.ofCode code).isNone
  | .dataWrite _ | .parameterWrite _ | .resultRead | .eventWrite _ | .enableWrite _ | .tickWrite _ => true
  | .powerOnReset | .powerGood | .pinReset | .pinResetRelease | .startUpBuildEnd | .tick => true
  | .holdTimerExpiry _ | .starveTimerExpiry _ | .ackTimerExpiry _ => true
  | .storeGrant | .intakeAccessEnd | .fetchEnd _ | .verifyReadEnd => true
  | .setupEnd _ | .strobeEnd _ | .trailEnd _ | .inputChange _ _ | .goChange _ _ | .frameEnd _ => true
  | .receivedCharacter _ _ _ _ | .rxdMark _ | .startBit _ | .startBitSample _ _ => true
  | .openJob _ _ _ _ | .target _ | .closeJob _ | .cancel _ | .hold _ | .release _ | .move _ _ | .verify _ => true
  | .queryJob _ | .take | .lineSet _ _ _ _ _ _ _ _ | .lineEnable _ | .lineDisable _ | .lineStop _ | .lineGo _ => true
  | .lineResume _ _ | .lineRestart _ | .lineAbort _ | .lineQuery _ | .storeQuery | .commandWrite _ => true

end Sys2Proof
end

