-- ==== Sys2Proof/Certificates/Slice0/Obligations.lean ====
section
/-! DEFINITION. The statements for the provers, and the words they are said in. -/

namespace Sys2Proof.Says

open Sys2Proof.Machine

/-- The port takes a command code: STATUS.READY reads 1 and no command is executing (R144, R179). -/
def Taking (s : State) : Prop := s.window.ready = true ∧ s.port.state ≠ .executing

/-- Event flags of these positions (R182) are raised (R152). -/
def flagged (m : Byte) (s : State) : State := { s with events := { s.events with flags := s.events.flags ||| m } }

/-- R144: a code is accepted; a command that was being collected is dropped with ABANDONED and CMDERR. -/
def begun (s : State) : State :=
  if s.port.state = .collecting then flagged 0x02#8 { s with port := { s.port with abandoned := true } } else s

/-- R146: the command has ended: RESULTS, these result bytes, nothing staged, CMDDONE raised. -/
def answered (bytes : List Byte) (s : State) : State :=
  flagged 0x01#8 { s with port := { s.port with state := .results, staged := none, staging := [], results := bytes } }

/-- R148: the command waits on an operation that takes time. -/
def executing (s : State) : State :=
  { s with port := { s.port with state := .executing, staged := none, staging := [], results := [] } }

/-- A number as one byte of a result. -/
def one (n : Nat) : Byte := BitVec.ofNat 8 n

/-- R183: a number as three bytes of a result, least significant first. -/
def three (n : Nat) : List Byte := [one n, one (n / 256), one (n / 65536)]

/-- R158, R146: the checks of a job number, then the command on an occupied slot. -/
def onJob (b : Byte) (s : State) (k : Fin 16 → Job → State) : State :=
  if 16 ≤ b.toNat then answered [0x03#8] s
  else match jobAt s (Fin.ofNat 16 b.toNat) with
    | none => answered [0x04#8] s
    | some r => k (Fin.ofNat 16 b.toNat) r

/-- R158: the check of a line number, then the command on the line. -/
def onLine (b : Byte) (s : State) (k : Fin 4 → State) : State :=
  if 4 ≤ b.toNat then answered [0x03#8] s else k (Fin.ofNat 4 b.toNat)

/-- R3: the record an accepted OPEN writes. -/
def newJob (line options copies quota : Byte) : Job :=
  { line := Fin.ofNat 4 line.toNat
    urgent := options.getLsbD 0
    early := options.getLsbD 1
    retain := options.getLsbD 2
    separate := options.getLsbD 3
    copies := copies.toNat
    copiesDone := 0
    quota := quota.toNat
    intake := .opened
    output := if options.getLsbD 1 then .queued else .pending
    held := false
    truncated := false
    head := none
    tail := none
    tailFill := 0
    chainLen := 0
    stored := 0
    cursor := none
    copyPos := 0
    sepPending := false
    anyReleased := false
    total := 0
    checkErrors := 0
    outcome := none
    cause := .none
    posted := false
    cancelPending := false }

/-- R67: a job stands at the tail of its class in the queue of a line. -/
def queuedLast (l : Fin 4) (urgent : Bool) (j : Fin 16) (s : State) : State :=
  let q := queueAt s l
  let q' : LineQueue :=
    { urgent := if urgent then q.urgent ++ [j] else q.urgent, normal := if urgent then q.normal else q.normal ++ [j] }
  { s with queues := setTab s.queues l q' }

/-- R68: a job stands at the head of its class in the queue of a line. -/
def queuedFirst (l : Fin 4) (urgent : Bool) (j : Fin 16) (s : State) : State :=
  let q := queueAt s l
  let q' : LineQueue :=
    { urgent := if urgent then j :: q.urgent else q.urgent, normal := if urgent then q.normal else j :: q.normal }
  { s with queues := setTab s.queues l q' }

/-- R69: the queue of a line without a job. -/
def without (j : Fin 16) (q : LineQueue) : LineQueue :=
  { urgent := q.urgent.filter (fun k => k ≠ j), normal := q.normal.filter (fun k => k ≠ j) }

/-- R134: the completion record of a job that ends with an outcome and a cause. -/
def recordFor (seq : Byte) (j : Fin 16) (r : Job) (o : JobOutcome) (c : Cause) : Record :=
  { seq := seq, job := j, line := r.line, outcome := o, truncated := r.truncated, copiesDone := r.copiesDone,
    total := r.total, checkErrors := r.checkErrors, cause := c }

/-- The state a command leaves. -/
def after (c : Instr) (s : State) : State :=
  match exec c s with
  | .next t => t
  | .fault _ => s
  | .refused _ => s

/-- R43, R44: the results of a scan, as they stand. -/
def scanResults (v : Verify) : List Byte :=
  [one v.errors, (match v.firstBad with | none => 0xFF#8 | some b => one b.val), one v.firstBadOff, one v.bytesChecked,
    one (v.bytesChecked / 256)]

/-- R44: the scan of a job that retires ends with GONE. -/
def scanGone (j : Fin 16) (s : State) : State :=
  if s.verify.running = true ∧ s.verify.job = j then
    answered (0x09#8 :: scanResults s.verify) { s with verify := { s.verify with running := false } }
  else s

/-- R41: a read of the scan is counted, with a check error or without, and the position advances by one. -/
def scanRead (err : Bool) (s : State) : State :=
  let v := s.verify
  let first := err && v.firstBad.isNone && v.pos.isSome
  { s with
    verify := { v with
      bytesChecked := if v.bytesChecked < 65535 then v.bytesChecked + 1 else v.bytesChecked
      errors := if err && decide (v.errors < 255) then v.errors + 1 else v.errors
      firstBad := if first then v.pos.map Pos.block else v.firstBad
      firstBadOff := if first then (v.pos.map Pos.off).getD 0 else v.firstBadOff
      pos := v.pos.map (fun p => { block := p.block, off := p.off + 1 }) }
    spool := { s.spool with access := none }
    events := if err then { s.events with flags := s.events.flags ||| 0x80#8 } else s.events }

/-- R39: an intake access of a job that is in progress has ended; without one the state is as it was. -/
def stored (j : Fin 16) (s : State) : State :=
  match s.spool.access, s.intake.fifo with
  | some (.intake _), e :: _ => if e.1 = j then after .intakeAccessEnd s else s
  | _, _ => s

/-- R39, R21: the state in which the end of a line's byte is reported: where the report retires a job that CANCEL waits for,
an intake access of that job has ended (log 13). -/
def reporting (l : Fin 4) (s : State) : State :=
  match currentJob s l with
  | none => s
  | some (j, r) => if r.cancelPending then stored j s else s

/-- R16: the job retired, all seven steps, and handed over (R135); a scan of the job ends with GONE (R44). -/
def retired (j : Fin 16) (r : Job) (o : JobOutcome) (c : Cause) (s : State) : State :=
  let s := scanGone j s
  let chain := chainOf s r
  let room := decide (s.completion.queue.length < 8)
  let r' := { r with
    outcome := some o, cause := c, intake := .closed, output := .finished, head := none, tail := none, tailFill := 0,
    chainLen := 0, cancelPending := false, posted := room }
  let intake' : Intake := { s.intake with
    fifo := s.intake.fifo.filter (fun e => e.1 ≠ j)
    target := if s.intake.target = some j then none else s.intake.target
    headReq := if s.intake.fifo.head?.map Prod.fst = some j then .none else s.intake.headReq }
  let spool' : Spool := { s.spool with
    freeList := s.spool.freeList ++ chain
    links := chain.foldl (fun v b => setTab v b none) s.spool.links }
  let completion' : Completion :=
    if room then
      { s.completion with queue := s.completion.queue ++ [recordFor s.completion.seq j r o c], seq := s.completion.seq + 1#8 }
    else { s.completion with postWait := s.completion.postWait ++ [j] }
  { s with
    jobs := setTab s.jobs j (some r')
    intake := intake'
    queues := if r.output = .queued then setTab s.queues r.line (without j (queueAt s r.line)) else s.queues
    engines := if r.output = .current then setTab s.engines r.line { engineAt s r.line with current := none } else s.engines
    spool := spool'
    completion := completion'
    events := if room then { s.events with flags := s.events.flags ||| 0x04#8 } else s.events }

/-- No intake access is in progress (R39). -/
def NotStoring (s : State) : Prop := ∀ k, s.spool.access ≠ some (.intake k)

/-- No intake access of the job and no read of a scan of it is in progress (R39). -/
def NoAccessOf (j : Fin 16) (s : State) : Prop :=
  (∀ k b es, s.spool.access = some (.intake k) → s.intake.fifo ≠ (j, b) :: es) ∧
  (∀ err, s.spool.access = some (.verify err) → s.verify.job ≠ j)

/-- R66, R2: no more jobs and copies stand before a line than a queue and a job may hold (log 11). -/
def Bounded (l : Fin 4) (s : State) : Prop :=
  (queueAt s l).urgent.length + (queueAt s l).normal.length ≤ 16 ∧ ∀ j r, jobAt s j = some r → r.copies ≤ 15

/-- R91, R89: the points at which a line whose stop or held flag becomes set pauses at once. -/
def pausesNow (s : State) (l : Fin 4) : Bool :=
  (engineAt s l).state == .starved
    || ((engineAt s l).state == .sending && (engineAt s l).step == .waiting)
    || ((engineAt s l).state == .sending && (engineAt s l).step == .fetching
        && decide (s.spool.access ≠ some (.drain l true)) && decide (s.spool.access ≠ some (.drain l false)))

/-- R91: the line pauses: no byte fetched, no timer armed, a readiness request withdrawn. -/
def paused (l : Fin 4) (s : State) : State :=
  setEngine l { engineAt s l with state := .paused, step := .boundary, fetched := none, hold := none, starve := none }
    (withdraw l s)

/-- R93: the line enters FAULT with a cause, with its byte dropped, its timers disarmed and LINEATT raised. -/
def faulted (l : Fin 4) (c : Cause) (s : State) : State :=
  let e := { engineAt s l with
    state := .fault, cause := c, step := .boundary, fetched := none, hold := none, starve := none }
  flagged 0x08#8 (setEngine l e (withdraw l s))

/-- The line is SENDING at a byte boundary (R80). -/
def sendingAt (l : Fin 4) (s : State) : State :=
  setEngine l { engineAt s l with state := .sending, step := .boundary } s

/-- R72, R59: the line takes a job or makes its boundary decision, and the Intake Unit is seen after the whole act. -/
def goesOn (l : Fin 4) (s : State) : State := evalIntake (decideLine l s)

/-- R95: a line that leaves FAULT, its cause cleared already: IDLE without a current job, PAUSED when its stop flag is set or
its job is held, and otherwise SENDING. -/
def recovered (l : Fin 4) (held : Option Bool) (s : State) : State :=
  match held with
  | none => goesOn l (setEngine l { engineAt s l with state := .idle } s)
  | some h =>
    if (engineAt s l).stop || h then
      evalIntake (setEngine l { engineAt s l with state := .paused, step := .boundary } s)
    else goesOn l (sendingAt l s)

/-- R20, R99: a current job without a byte in flight retires CANCELLED: its line gives up its byte, its timers and its readiness
request, becomes IDLE with its cause cleared and applies the take rule, and CANCEL completes with OK. -/
def cancelledAtOnce (l : Fin 4) (j : Fin 16) (r : Job) (s : State) : State :=
  let e := { engineAt s l with step := .boundary, fetched := none, hold := none, starve := none }
  goesOn l (answered [0x01#8] (setEngine l { e with state := .idle, cause := .none, current := none }
    (retired j r .cancelled .none (setEngine l e (withdraw l s)))))

/-- R95: the input behind a device cause is still active in the snapshot of a parallel line. -/
def stillFailing (l : Fin 4) (s : State) : Prop :=
  ∃ x : Fin 2, l.val = x.val ∧
    ((engineAt s l).cause = .offline ∧ (parAt s x).snapshot.on = false ∨
     (engineAt s l).cause = .device ∧ (parAt s x).snapshot.fail = false ∨
     (engineAt s l).cause = .media ∧ (parAt s x).snapshot.out = true)

/-- R12, R46, R65, R78, R142, R151, R155: what every one of the three resets leaves: no job, no entry, no record, no flag. -/
def cleared (s : State) : State :=
  { s with
    window := { s.window with ready := false, buildClks := 0, invchk := false }
    jobs := Vector.replicate 16 none
    spool := { s.spool with freeList := [], pointer := .verify, access := none }
    verify := { running := false, job := 0, pos := none, bytesChecked := 0, errors := 0, firstBad := none, firstBadOff := 0,
                moved := false }
    intake := { fifo := [], target := none, stall := false, headReq := .none }
    queues := Vector.replicate 4 { urgent := [], normal := [] }
    completion := { queue := [], postWait := [], seq := 0#8 }
    port := { state := .idle, staged := none, staging := [], results := [], abandoned := false, collided := false,
              strayParam := false, underrun := false }
    events := { s.events with flags := 0#8 }
    timeBase := { s.timeBase with count := 0 } }

/-- R103, R106: a Drain Engine with no job, in a state and with a configuration. -/
def restEngine (st : LineState) (c : DrainConfig) : Engine :=
  { state := st, current := none, stop := false, cause := .none, step := .boundary, fetched := none, hold := none,
    starve := none, config := c }

/-- R121: a Parallel Line Unit at rest, its snapshot loaded from its pins. -/
def restPar (pins : ParPins) (c : ParConfig) : ParUnit :=
  { handshake := .rest, byte := 0#8, busySeen := false, ack := none, decided := none, pins := pins, snapshot := pins,
    config := c, phaseClks := 0 }

/-- R133: a Serial Line Unit at rest, its receiver stopped, its snapshot loaded from its pins. -/
def restSer (pins : SerPins) (c : SerConfig) : SerUnit :=
  { transmit := .rest, frameByte := 0#8, bitIndex := 0, bitClks := 0, receiver := .stopped, startSeen := false,
    rxData := 0#8, rxParity := false, xoff := false, pins := pins, snapshot := pins, rxdClks := 0, config := c }

/-- R181, R106, R121, R133, R155, R156: the values of power-on reset and pin reset, every configuration at its default. -/
def hard (s : State) : State :=
  let drain : DrainConfig := { holdLimit := 0#8, starveLimit := 0#8, separator := 0x0C#8, policy := .halt, substitute := 0x3F#8 }
  let par : ParConfig := { holdCycle := false, strobeCode := 0, ackLimit := 20#8 }
  let ser : SerConfig := { rate := 5, seven := false, parity := .none, twoStop := false, flow := .none }
  { cleared s with
    engines := Vector.replicate 4 (restEngine .off drain)
    par := #v[restPar (parAt s 0).pins par, restPar (parAt s 1).pins par]
    ser := #v[restSer (serAt s 0).pins ser, restSer (serAt s 1).pins ser]
    events := { flags := 0#8, enable := 0#8 }
    timeBase := { setting := 62#8, count := 0 } }

/-- R180, R106, R121, R133, R155, R156: the values of software reset: OFF lines stay OFF and the others become IDLE, and the
configurations, ENABLE and TICK are kept. -/
def soft (s : State) : State :=
  let engine := fun l : Fin 4 =>
    restEngine (if (engineAt s l).state = .off then .off else .idle) (engineAt s l).config
  { cleared s with
    engines := #v[engine 0, engine 1, engine 2, engine 3]
    par := #v[restPar (parAt s 0).pins (parAt s 0).config, restPar (parAt s 1).pins (parAt s 1).config]
    ser := #v[restSer (serAt s 0).pins (serAt s 0).config, restSer (serAt s 1).pins (serAt s 1).config] }

/-- R46, R109, R124, R156: no reset holds the part any longer and the start-up build begins: the snapshots are loaded from the
pins and the Time Base counts from 0. -/
def buildBegun (s : State) : State :=
  { s with
    window := { s.window with ready := false, powerHeld := false, pinHeld := false, buildClks := 0 }
    timeBase := { s.timeBase with count := 0 }
    par := #v[{ parAt s 0 with snapshot := (parAt s 0).pins }, { parAt s 1 with snapshot := (parAt s 1).pins }]
    ser := #v[{ serAt s 0 with snapshot := (serAt s 0).pins, rxdClks := 0 },
      { serAt s 1 with snapshot := (serAt s 1).pins, rxdClks := 0 }] }

/-- The line has a current job and it is not held. -/
def currentUnheld (s : State) (l : Fin 4) : Bool :=
  match currentJob s l with
  | some (_, r) => !r.held
  | none => false

/-- Every command code of the part (R183). -/
def commandCodes : List Byte :=
  [0x10#8, 0x11#8, 0x12#8, 0x13#8, 0x14#8, 0x15#8, 0x16#8, 0x18#8, 0x19#8, 0x1A#8, 0x1B#8,
   0x20#8, 0x21#8, 0x22#8, 0x23#8, 0x24#8, 0x25#8, 0x26#8, 0x27#8, 0x28#8]

/-- The place of a requester in the cyclic order of R38. -/
def place : Requester → Nat
  | .intake => 0
  | .drainA => 1
  | .drainB => 2
  | .drainC => 3
  | .drainD => 4
  | .verify => 5

/-- R38: how many places after the one that follows the pointer a requester is looked at. -/
def turn (s : State) (q : Requester) : Nat := (place q + 5 - place s.spool.pointer) % 6

/-- The requester of a line's Drain Engine. -/
def drainOf (l : Fin 4) : Requester :=
  match l.val with
  | 0 => .drainA
  | 1 => .drainB
  | 2 => .drainC
  | _ => .drainD

/-- R37, R38: a requester is waiting, and no waiting requester comes before it. -/
def isNext (s : State) (q : Requester) : Prop :=
  requesting s q = true ∧ ∀ q', requesting s q' = true → turn s q ≤ turn s q'

/-- R28: the nine bits of a position hold an even number of ones. -/
def foundBad (s : State) (p : Pos) : Bool :=
  (onesIn (Memory.read s.spool.bytes (p.block.val * 256 + p.off))
    + (Memory.read s.spool.checks (p.block.val * 256 + p.off)).toNat) % 2 == 0

/-- R30: the read of a reader at `p` is made at `q`: at `p` itself, or at offset 0 of the block linked behind it. -/
def readsAt (s : State) (p : Option Pos) (q : Pos) : Prop :=
  (p = some q ∧ q.off < 256) ∨
  (∃ p', p = some p' ∧ 256 ≤ p'.off ∧ linkAt s p'.block = some q.block ∧ q.off = 0)

/-- R112: a parallel line's unit with a byte put to it. -/
def putPar (u : ParUnit) (b : Byte) : ParUnit :=
  { u with
    handshake := .setup, byte := b, busySeen := u.config.holdCycle && u.snapshot.hold, ack := none, decided := none,
    phaseClks := 0 }

/-- R125, R127: a serial line's unit with a byte put to it: the start bit begins. -/
def putSer (u : SerUnit) (b : Byte) : SerUnit :=
  { u with transmit := .shifting, frameByte := b, bitIndex := 0, bitClks := 0 }

/-- R84: a line's byte is in flight. -/
def inFlight (l : Fin 4) (f : Fetched) (s : State) : State :=
  setEngine l { engineAt s l with step := .inFlight, fetched := some f, hold := none } s

/-- R83: a line waits for readiness with a byte, its hold timer armed unless its limit is 0. -/
def waitsFor (l : Fin 4) (f : Fetched) (s : State) : State :=
  let e := engineAt s l
  setEngine l { e with
    step := .waiting, fetched := some f, hold := if e.config.holdLimit = 0#8 then none else some 0 } s

/-- R80, tests 2 to 5, for a line at a byte boundary with a job: pause, separator, starve, fetch. -/
def boundaryTests (l : Fin 4) (r : Job) (s : State) : State :=
  let e := engineAt s l
  if e.stop || r.held then setEngine l { e with state := .paused } s
  else if r.sepPending then askReady l { value := e.config.separator, kind := .separator, pos := none } s
  else if atStoredEnd s r r.cursor then
    flagged 0x08#8 (setEngine l { e with
      state := .starved, starve := if e.config.starveLimit = 0#8 then none else some 0 } s)
  else setEngine l { e with step := .fetching } s

/-- R116: a parallel line's unit after it has ended its byte. -/
def parEnded (x : Fin 2) (s : State) : State :=
  setPar x { parAt s x with handshake := .rest, busySeen := false, ack := none, decided := none, phaseClks := 0 } s

/-- The twenty command rows, each with its code and its parameters in the order written (R183). -/
def written : Instr → Option (Byte × List Byte)
  | .openJob line options copies quota => some (0x10#8, [line, options, copies, quota])
  | .target job => some (0x11#8, [job])
  | .closeJob job => some (0x12#8, [job])
  | .cancel job => some (0x13#8, [job])
  | .hold job => some (0x14#8, [job])
  | .release job => some (0x15#8, [job])
  | .move job line => some (0x16#8, [job, line])
  | .verify job => some (0x18#8, [job])
  | .queryJob job => some (0x19#8, [job])
  | .take => some (0x1A#8, [])
  | .storeQuery => some (0x1B#8, [])
  | .lineSet line mode second holdLimit starveLimit separator policy substitute =>
    some (0x20#8, [line, mode, second, holdLimit, starveLimit, separator, policy, substitute])
  | .lineEnable line => some (0x21#8, [line])
  | .lineDisable line => some (0x22#8, [line])
  | .lineStop line => some (0x23#8, [line])
  | .lineGo line => some (0x24#8, [line])
  | .lineResume line choice => some (0x25#8, [line, choice])
  | .lineRestart line => some (0x26#8, [line])
  | .lineAbort line => some (0x27#8, [line])
  | .lineQuery line => some (0x28#8, [line])
  | .dataWrite _ | .parameterWrite _ | .resultRead | .eventWrite _ | .enableWrite _ | .softwareReset _ | .invchk _
  | .tickWrite _ | .ignoredRegisterWrite _ _ | .powerOnReset | .powerGood | .pinReset | .pinResetRelease
  | .startUpBuildEnd | .tick | .holdTimerExpiry _ | .starveTimerExpiry _ | .ackTimerExpiry _ | .storeGrant
  | .intakeAccessEnd | .fetchEnd _ | .verifyReadEnd | .setupEnd _ | .strobeEnd _ | .trailEnd _ | .inputChange _ _
  | .goChange _ _ | .frameEnd _ | .receivedCharacter _ _ _ _ | .unknown _ | .commandWrite _ | .rxdMark _ | .startBit _
  | .startBitSample _ _ => none

/-- Commands taken one after another, each on the state the one before it left. -/
def runAll : List Instr → State → Host.Outcome State Fault Refusal
  | [], s => .next s
  | c :: cs, s =>
    match exec c s with
    | .next t => runAll cs t
    | .fault f => .fault f
    | .refused r => .refused r

/-- The commands that reset the part (R180, R181). -/
def resets : Instr → Bool
  | .softwareReset _ | .powerOnReset | .pinReset => true
  | _ => false

end Sys2Proof.Says

open Sys2Proof Sys2Proof.Machine Sys2Proof.Says

/-! ## One step -/

/-- A step takes the command at the front of the queue and carries it out on the state with the queue's rest. -/
def Obligations.StepTakesFrontCommand : Prop :=
  ∀ (c : Instr) (rest : List Instr) (s : State), s.pending = c :: rest →
    step s = exec c { s with pending := rest }

/-- The model's choice (log 7): on an empty queue a step lets one CLK period pass. Under a reset nothing counts. Otherwise, in
this order: yRXD is sampled, a level it holds for two periods entering the snapshot (R124); SETUP, STROBE and TRAIL count
(R112), and the frames advance by the BCLK periods drawn, 6144 to 48 of them to a bit by the rate code (R127); the Time Base
counts and produces its tick at N × 64 (R156); the timers that are due expire (R104, R115); the build counts and ends at 512
(R46); SETUP, STROBE and TRAIL end at 4, at 8, 16, 32 or 64 by the strobe code, and at 4 (R112, R119); and a frame ends with its
last bit (R128). A byte that is put in the period counts from the next one on. Where nothing is under way only the Time Base
counts. No receiver moves (log 22). -/
def Obligations.EmptyQueueLetsOneClkPeriodPass : Prop :=
  (∀ s : State, s.pending = [] → inReset s = true → step s = .next s) ∧
  (∀ s : State, s.pending = [] → inReset s = false →
    let n := Config.bclkPeriods s.fresh
    let sampled := sampleRxd 1 (sampleRxd 0 { s with fresh := s.fresh + 1 })
    let counted := countFrame 1 n (countFrame 0 n (countHandshake 1 (countHandshake 0 sampled)))
    let timed := clkBuild (clkTimers (clkTimeBase counted))
    step s = .next (clkFrame 1 (clkFrame 0 (clkHandshake 1 (clkHandshake 0 timed))))) ∧
  (∀ (y : Fin 2) (s : State), sampleRxd y s = setSer y (
    let u := serAt s y
    if u.pins.rxd = u.snapshot.rxd then { u with rxdClks := 0 }
    else if u.rxdClks = 0 then { u with rxdClks := 1 }
    else { u with snapshot := { u.snapshot with rxd := u.pins.rxd }, rxdClks := 0 }) s) ∧
  (∀ s : State, clkTimeBase s =
    if s.timeBase.count + 1 < (if s.timeBase.setting = 0#8 then 256 else s.timeBase.setting.toNat) * 64 then
      { s with timeBase := { s.timeBase with count := s.timeBase.count + 1 } }
    else after .tick s) ∧
  (∀ s : State, clkTimers s =
    ([.holdTimerExpiry 0, .starveTimerExpiry 0, .holdTimerExpiry 1, .starveTimerExpiry 1, .holdTimerExpiry 2,
      .starveTimerExpiry 2, .holdTimerExpiry 3, .starveTimerExpiry 3, .ackTimerExpiry 0, .ackTimerExpiry 1] : List Instr).foldl
      (fun t c => after c t) s) ∧
  (∀ s : State, inReset s = false → clkBuild s =
    if s.window.ready then s
    else if s.window.buildClks + 1 < 512 then { s with window := { s.window with buildClks := s.window.buildClks + 1 } }
    else after .startUpBuildEnd s) ∧
  (∀ (x : Fin 2) (s : State),
    let u := parAt s x
    let strobe := match u.config.strobeCode.val with | 0 => 8 | 1 => 16 | 2 => 32 | _ => 64
    (countHandshake x s = if u.handshake ∈ [.setup, .strobe, .trail] then
      setPar x { u with phaseClks := u.phaseClks + 1 } s else s) ∧
    clkHandshake x s =
      if u.handshake = .setup then (if u.phaseClks < 4 then s else after (.setupEnd x) s)
      else if u.handshake = .strobe then (if u.phaseClks < strobe then s else after (.strobeEnd x) s)
      else if u.handshake = .trail then (if u.phaseClks < 4 then s else after (.trailEnd x) s)
      else s) ∧
  (∀ (y : Fin 2) (n : Nat) (s : State),
    let u := serAt s y
    let bit := match u.config.rate.val with
      | 0 => 6144 | 1 => 3072 | 2 => 1536 | 3 => 768 | 4 => 384 | 5 => 192 | 6 => 96 | _ => 48
    let passed := u.bitIndex * bit + u.bitClks + n
    (countFrame y n s = if u.transmit = .shifting then
      setSer y { u with bitIndex := passed / bit, bitClks := passed % bit } s else s) ∧
    clkFrame y s = if u.transmit = .shifting ∧ (frameLevels u.config u.frameByte).length ≤ u.bitIndex then
      after (.frameEnd y) s else s) ∧
  (∀ s : State, s.pending = [] → inReset s = false → s.window.ready = true →
    (∀ l, (engineAt s l).hold = none ∧ (engineAt s l).starve = none) →
    (∀ x, (parAt s x).handshake = .rest ∧ (parAt s x).ack = none) →
    (∀ y, (serAt s y).transmit = .rest ∧ (serAt s y).pins.rxd = (serAt s y).snapshot.rxd ∧ (serAt s y).rxdClks = 0) →
    s.timeBase.count + 1 < (if s.timeBase.setting = 0#8 then 256 else s.timeBase.setting.toNat) * 64 →
    step s = .next { s with fresh := s.fresh + 1, timeBase := { s.timeBase with count := s.timeBase.count + 1 } })

/-- Every command answers a next state, with the queue as it stood: none ends in a fault and none is refused. Where a command is
given out of its state, or in a state that no run reaches, that it answers so is the model's choice (logs 10 and 17). -/
def Obligations.EveryCommandKeepsTheQueue : Prop :=
  ∀ (c : Instr) (s : State), ∃ t, exec c s = .next t ∧ t.pending = s.pending

/-! ## Resets and the register window -/

/-- R32, R136, R143, R180, R181: every law of the part holds at State.reset, those that every step keeps among them, and the
store may be written safely from it. -/
def Obligations.ResetStateIsSafe : Prop := Safe State.reset ∧ StoreSafe State.reset ∧ Kept State.reset

/-- R181, R26, R46: power-on reset and pin reset put every unit at the same values. Power-on reset alone loses the store's
contents, which the model then reads as 0 (log 4, the model's choice); the Block Table then shows no links. Where the spec gives a
field no value at reset the statement has the value of log 9, the model's choice; that the snapshots hold the pins' levels from the
start of the reset is log 6, the model's choice; and that each of the two resets leaves the
other as it stands is log 16, the model's choice for power applied while RSTn is low. -/
def Obligations.HardResetValues : Prop :=
  (∀ s : State, exec .powerOnReset s = .next { hard s with
      window := { (hard s).window with powerHeld := true }
      spool := { (hard s).spool with bytes := [], checks := [], links := Vector.replicate 128 none } }) ∧
  (∀ s : State, NotStoring s →
    exec .pinReset s = .next { hard s with window := { (hard s).window with pinHeld := true } })

/-- R180, R181: software reset puts every unit at its values and the build begins; while a reset holds the part it is ignored. Where
the spec gives a field no value the statement has the value of log 9, the model's choice. -/
def Obligations.SoftwareResetValues : Prop :=
  ∀ (b : Byte) (s : State), b.getLsbD 0 = true →
    (inReset s = false → NotStoring s → exec (.softwareReset b) s = .next (soft s)) ∧
    (inReset s = true → exec (.softwareReset b) s = .next s)

/-- R26: pin reset and software reset keep the store's contents, but at the one position that an intake access they overtake
was to write, where the value is free (log 8). -/
def Obligations.ResetsKeepTheStore : Prop :=
  ∀ (c : Instr) (s : State), storeLaw s = true →
    (c = .pinReset ∨ (∃ b : Byte, c = .softwareReset b ∧ b.getLsbD 0 = true)) →
    (NotStoring s → ∃ t, exec c s = .next t ∧
      t.spool.bytes = s.spool.bytes ∧ t.spool.checks = s.spool.checks ∧ t.spool.links = s.spool.links) ∧
    (∀ (k : BitVec 1) (j : Fin 16) (b : Byte) (rest : List (Fin 16 × Byte)) (r : Job) (tb : Fin 128),
      s.spool.access = some (.intake k) → s.intake.fifo = (j, b) :: rest → jobAt s j = some r → r.tail = some tb →
      ∃ t, exec c s = .next t ∧ t.spool.links = s.spool.links ∧
        ∀ a, a ≠ tb.val * 256 + r.tailFill →
          Memory.read t.spool.bytes a = Memory.read s.spool.bytes a ∧
          Memory.read t.spool.checks a = Memory.read s.spool.checks a)

/-- R46, R109, R124, R129, R156, R181: POWER_GOOD and PIN_RESET_RELEASE each end their reset; the last of the two to end begins
the build, loads the snapshots from the pins and starts the Time Base at 0. The build ends with READY 1, the 128 blocks on the
Free List in ascending order and every link none, and the receiver of a line left IDLE in XON/XOFF mode starts. That the
two resets hold the part independently, so that the last of them to end begins the build, is the model's reading (log 16), and
so is that out of its reset or its build each row has no effect (log 10). -/
def Obligations.StartUpBuild : Prop :=
  (∀ s : State,
     (s.window.powerHeld = true → s.window.pinHeld = false → exec .powerGood s = .next (buildBegun s)) ∧
     (s.window.powerHeld = false → s.window.pinHeld = true → exec .pinResetRelease s = .next (buildBegun s)) ∧
     (s.window.powerHeld = true → s.window.pinHeld = true →
       exec .powerGood s = .next { s with window := { s.window with powerHeld := false } } ∧
       exec .pinResetRelease s = .next { s with window := { s.window with pinHeld := false } }) ∧
     (s.window.powerHeld = false → exec .powerGood s = .next s) ∧
     (s.window.pinHeld = false → exec .pinResetRelease s = .next s)) ∧
  (∀ s : State,
     (s.window.ready = false → inReset s = false →
       ∃ t, exec .startUpBuildEnd s = .next t ∧
         t.window = { s.window with ready := true, buildClks := 0 } ∧
         t.spool = { s.spool with freeList := (List.range 128).map (Fin.ofNat 128), links := Vector.replicate 128 none } ∧
         (∀ y, serAt t y =
           (if (engineAt s (serLine y)).state = .idle ∧ (serAt s y).config.flow = .xonxoff then
             { serAt s y with receiver := .markwait, startSeen := false } else serAt s y)) ∧
         { t with window := s.window, spool := s.spool, ser := s.ser } = s) ∧
     (s.window.ready = true ∨ inReset s = true → exec .startUpBuildEnd s = .next s))

/-- R179: while READY reads 0 the host's writes are ignored, a write to CONTROL with SRESET = 0 and the twenty commands
included, and a read of RESULT returns 0x00 and does not set UNDERRUN. -/
def Obligations.NotReadyIgnoresHostAccesses : Prop :=
  ∀ s : State, s.window.ready = false →
    (∀ b, exec (.dataWrite b) s = .next s ∧ exec (.commandWrite b) s = .next s ∧ exec (.unknown b) s = .next s ∧
      exec (.parameterWrite b) s = .next s ∧ exec (.eventWrite b) s = .next s ∧ exec (.enableWrite b) s = .next s ∧
      exec (.tickWrite b) s = .next s) ∧
    (∀ b : Byte, b.getLsbD 0 = false → exec (.invchk b) s = .next s) ∧
    (∀ c p, written c = some p → exec c s = .next s) ∧
    exec .resultRead s = .next { s with window := { s.window with readByte := 0x00#8 } }

/-- R178, R179, R182, R149, R141, R48, R105: each register reads the state of the unit that owns it; RESULT reads the next unread
result byte in RESULTS, and 0x00 in the other port states and while READY reads 0. -/
def Obligations.RegistersReadTheirUnits : Prop :=
  ∀ s : State,
    let status := readRegister 0x4#4 s
    let command := readRegister 0x1#4 s
    let control := readRegister 0x7#4 s
    (status.getLsbD 0 = s.window.ready ∧ status.getLsbD 1 = s.intake.stall ∧
      (status.getLsbD 2 = true ↔ s.port.state = .executing) ∧ (status.getLsbD 3 = true ↔ s.completion.queue ≠ []) ∧
      (status.getLsbD 4 = true ↔ ∃ l, (engineAt s l).state = .fault) ∧ (status.getLsbD 5 = true ↔ s.intake.fifo = []) ∧
      status.toNat < 64) ∧
    (command.toNat % 16 = (match s.port.state with | .idle => 0 | .collecting => 1 | .executing => 2 | .results => 3) ∧
      command.getLsbD 4 = s.port.abandoned ∧ command.getLsbD 5 = s.port.collided ∧
      command.getLsbD 6 = s.port.strayParam ∧ command.getLsbD 7 = s.port.underrun) ∧
    (readRegister 0x5#4 s = s.events.flags ∧ readRegister 0x6#4 s = s.events.enable ∧
      readRegister 0xD#4 s = s.timeBase.setting ∧ readRegister 0xE#4 s = 0xD4#8) ∧
    (control.getLsbD 0 = false ∧ control.getLsbD 1 = s.window.invchk ∧ control.toNat < 4) ∧
    (s.intake.fifo.length ≤ 16 → (readRegister 0x8#4 s).toNat + s.intake.fifo.length = 16) ∧
    (s.intake.target = none → readRegister 0x9#4 s = 0xFF#8) ∧
    (∀ j, s.intake.target = some j → (readRegister 0x9#4 s).toNat = j.val) ∧
    (s.spool.freeList.length ≤ 128 → (readRegister 0xA#4 s).toNat = s.spool.freeList.length) ∧
    (s.completion.queue.length ≤ 8 → (readRegister 0xC#4 s).toNat = s.completion.queue.length) ∧
    (∀ l : Fin 4, (readRegister 0xB#4 s).toNat / 4 ^ l.val % 4 =
      (match (engineAt s l).state with
      | .off => 0 | .idle => 0 | .sending => 1 | .starved => 2 | .paused => 2 | .fault => 3)) ∧
    (∀ b rest, s.window.ready = true → s.port.state = .results → s.port.results = b :: rest → readRegister 0x3#4 s = b) ∧
    (s.window.ready = false ∨ s.port.state ≠ .results → readRegister 0x3#4 s = 0x00#8) ∧
    (readRegister 0x0#4 s = 0x00#8 ∧ readRegister 0x2#4 s = 0x00#8 ∧ readRegister 0xF#4 s = 0x00#8)

/-- R154: ENABLE is written and read as a whole, whatever it holds, and HIRQ is asserted while some flag is set whose enable bit
is set, and not otherwise. -/
def Obligations.HirqFollowsEnabledFlags : Prop :=
  (∀ (b : Byte) (s : State), s.window.ready = true →
    exec (.enableWrite b) s = .next { s with events := { s.events with enable := b } }) ∧
  (∀ s : State, readRegister 0x6#4 s = s.events.enable) ∧
  (∀ s : State, hirq s = true ↔ ∃ i, i < 8 ∧ s.events.flags.getLsbD i = true ∧ s.events.enable.getLsbD i = true)

/-- R153, R150, R156, R180, R178: a write to EVENT clears the flags it names, and the four misuse flags with CMDERR; a write
to TICK stores the setting and starts the Time Base at 0; a write to CONTROL with SRESET = 0 sets INVCHK from bit 1; a write
to a register whose write effect is "ignored" changes nothing. -/
def Obligations.SettingWrites : Prop :=
  ∀ (b : Byte) (s : State), s.window.ready = true →
    (b.getLsbD 1 = false →
      exec (.eventWrite b) s = .next { s with events := { s.events with flags := s.events.flags &&& ~~~b } }) ∧
    (b.getLsbD 1 = true →
      exec (.eventWrite b) s = .next { s with
        events := { s.events with flags := s.events.flags &&& ~~~b }
        port := { s.port with abandoned := false, collided := false, strayParam := false, underrun := false } }) ∧
    exec (.tickWrite b) s = .next { s with timeBase := { setting := b, count := 0 } } ∧
    (b.getLsbD 0 = false → exec (.invchk b) s = .next { s with window := { s.window with invchk := b.getLsbD 1 } }) ∧
    (∀ reg : BitVec 4, reg ∈ [0x3#4, 0x4#4, 0x8#4, 0x9#4, 0xA#4, 0xB#4, 0xC#4, 0xE#4, 0xF#4] →
      exec (.ignoredRegisterWrite reg b) s = .next s)

/-- R49, R50: a byte written to DATA joins the tail of the FIFO, tagged with the target, and one that finds the FIFO empty is
evaluated (R53); without a target it is lost with STRAY, tested first, and with a full FIFO it is lost with OVERRUN. -/
def Obligations.DataWrite : Prop :=
  ∀ (b : Byte) (s : State), s.window.ready = true →
    (s.intake.target = none → exec (.dataWrite b) s = .next (flagged 0x40#8 s)) ∧
    (∀ j, s.intake.target = some j →
      (16 ≤ s.intake.fifo.length → exec (.dataWrite b) s = .next (flagged 0x20#8 s)) ∧
      (0 < s.intake.fifo.length → s.intake.fifo.length < 16 →
        exec (.dataWrite b) s = .next { s with intake := { s.intake with fifo := s.intake.fifo ++ [(j, b)] } }) ∧
      (s.intake.fifo = [] →
        exec (.dataWrite b) s = .next (evalIntake { s with intake := { s.intake with fifo := [(j, b)] } })))

/-! ## The Command Port -/

/-- R144, R157: what a code written to COMMAND does in each state of the port. -/
def Obligations.CodeWrite : Prop :=
  ∀ (code : Byte) (s : State), s.window.ready = true →
    (s.port.state = .executing →
      exec (.commandWrite code) s = .next (flagged 0x02#8 { s with port := { s.port with collided := true } }) ∧
      exec (.unknown code) s = .next (flagged 0x02#8 { s with port := { s.port with collided := true } })) ∧
    (s.port.state ≠ .executing → code ∉ commandCodes →
      exec (.commandWrite code) s = .next (answered [0x02#8] (begun s)) ∧
      exec (.unknown code) s = .next (answered [0x02#8] (begun s))) ∧
    (s.port.state ≠ .executing → ∀ c : Cmd, c.code = code → c ≠ .take → c ≠ .storeQuery →
      exec (.commandWrite code) s = .next { begun s with
        port := { (begun s).port with state := .collecting, staged := some c, staging := [], results := [] } }) ∧
    (code = 0x1A#8 → exec (.commandWrite code) s = exec .take s) ∧
    (code = 0x1B#8 → exec (.commandWrite code) s = exec .storeQuery s)

/-- R145: a byte written to PARAMETER is collected in COLLECTING; the last carries the staged command out as the row of that
command does, and the staged bytes are its parameters in the order written. In every other state the byte is stray. -/
def Obligations.ParameterWrite : Prop :=
  ∀ (b : Byte) (s : State), s.window.ready = true →
    (∀ c : Cmd, s.port.state = .collecting → s.port.staged = some c → s.port.staging.length + 1 < c.params →
      exec (.parameterWrite b) s = .next { s with port := { s.port with staging := s.port.staging ++ [b] } }) ∧
    (∀ i code, s.port.state = .collecting → written i = some (code, s.port.staging ++ [b]) →
      s.port.staged = Cmd.ofCode code →
      exec (.parameterWrite b) s = exec i { s with port := { s.port with state := .idle, staged := none, staging := [], results := [] } }) ∧
    (s.port.state ≠ .collecting →
      exec (.parameterWrite b) s = .next (flagged 0x02#8 { s with port := { s.port with strayParam := true } }))

/-- R183, R146 (log 5): each of the twenty command rows is its code written to COMMAND and then its parameters written to
PARAMETER in order, with nothing in between. -/
def Obligations.CommandRowsAreTheirWrites : Prop :=
  ∀ (c : Instr) (code : Byte) (ps : List Byte) (s : State), written c = some (code, ps) →
    exec c s = runAll (.commandWrite code :: ps.map Instr.parameterWrite) s

/-- R144, R145, R148: while the port is EXECUTING a command is refused and lost: its code with COLLIDED, its parameters with
STRAYPARAM, and CMDERR is raised; the executing command and its results are not disturbed. -/
def Obligations.ExecutingPortRefuses : Prop :=
  ∀ (c : Instr) (code : Byte) (ps : List Byte) (s : State), written c = some (code, ps) →
    s.window.ready = true → s.port.state = .executing →
    exec c s = .next (flagged 0x02#8 { s with
      port := { s.port with collided := true, strayParam := s.port.strayParam || decide (ps ≠ []) } })

/-- R149: a read of RESULT returns the next unread byte and the last one leaves the port IDLE; with nothing waiting it returns
0x00, sets UNDERRUN and raises CMDERR. -/
def Obligations.ResultRead : Prop :=
  ∀ s : State, s.window.ready = true →
    (∀ b, s.port.state = .results → s.port.results = [b] →
      exec .resultRead s = .next { s with
        window := { s.window with readByte := b }, port := { s.port with state := .idle, results := [] } }) ∧
    (∀ b c rest, s.port.state = .results → s.port.results = b :: c :: rest →
      exec .resultRead s = .next { s with
        window := { s.window with readByte := b }, port := { s.port with results := c :: rest } }) ∧
    (s.port.state ≠ .results →
      exec .resultRead s = .next (flagged 0x02#8 { s with
        window := { s.window with readByte := 0x00#8 }, port := { s.port with underrun := true } }))

/-- R143: the law of the Command Port is kept by every step: staged parameters only in COLLECTING, fewer than the staged
command's count, and unread result bytes only, and always, in RESULTS. -/
def Obligations.StepKeepsPortLaw : Prop :=
  ∀ s t : State, portLaw s.port = true → step s = .next t → portLaw t.port = true

/-! ## Commands on jobs -/

/-- R2, R3, R159: OPEN makes its parameter checks, then looks for the lowest-numbered free slot, writes every field of its
record, makes the job the target and returns its number; an early job joins the tail of its class and the take rule is
applied. -/
def Obligations.OpenCommand : Prop :=
  ∀ (line options copies quota : Byte) (s : State), Taking s →
    let bad := 4 ≤ line.toNat ∨ 16 ≤ options.toNat ∨ copies.toNat = 0 ∨ 16 ≤ copies.toNat ∨ 128 < quota.toNat ∨
      (options.getLsbD 1 = true ∧ 1 < copies.toNat)
    (bad → exec (.openJob line options copies quota) s = .next (answered [0x03#8] (begun s))) ∧
    (¬bad → (∀ j, jobAt s j ≠ none) → exec (.openJob line options copies quota) s = .next (answered [0x06#8] (begun s))) ∧
    (∀ j : Fin 16, ¬bad → jobAt s j = none → (∀ k, k < j → jobAt s k ≠ none) →
      let l : Fin 4 := Fin.ofNat 4 line.toNat
      let t := { setJob j (newJob line options copies quota) (begun s) with intake := { s.intake with target := some j } }
      let u := answered [0x01#8, one j.val] t
      exec (.openJob line options copies quota) s =
        .next (if options.getLsbD 1 then goesOn l (queuedLast l (options.getLsbD 0) j u) else u))

/-- R52, R160: TARGET changes the target and nothing else. -/
def Obligations.TargetCommand : Prop :=
  ∀ (job : Byte) (s : State), Taking s →
    let aim := fun x : Option (Fin 16) =>
      answered [0x01#8] { begun s with intake := { s.intake with target := x } }
    (job = 0xFF#8 → exec (.target job) s = .next (aim none)) ∧
    (job ≠ 0xFF#8 → exec (.target job) s = .next (onJob job (begun s) fun j r =>
      if r.intake = .opened then aim (some j) else answered [0x05#8] (begun s)))

/-- R7, R9, R60, R89, R161: CLOSE. The target is cleared if it named the job; a job with entries in the FIFO becomes CLOSING,
and one without becomes CLOSED: a PENDING job joins its queue and the take rule is applied, and a STARVED line of a current
job ends its starvation. -/
def Obligations.CloseCommand : Prop :=
  ∀ (job : Byte) (s : State), Taking s →
    exec (.closeJob job) s = .next (onJob job (begun s) fun j r =>
      if r.intake ≠ .opened then answered [0x05#8] (begun s)
      else
        let t := answered [0x01#8] { begun s with
          intake := { s.intake with target := if s.intake.target = some j then none else s.intake.target } }
        if s.intake.fifo.any (fun e => e.1 == j) then setJob j { r with intake := .closing } t
        else if r.output = .pending then
          goesOn r.line (queuedLast r.line r.urgent j (setJob j { r with intake := .closed, output := .queued } t))
        else
          let u := setJob j { r with intake := .closed } t
          let e := engineAt s r.line
          if r.output = .current ∧ e.state = .starved ∧ e.current = some j then
            goesOn r.line (setEngine r.line { e with state := .sending, step := .boundary, starve := none } u)
          else evalIntake u)

/-- R19 to R21, R39, R99, R146, R148, R162: CANCEL checks its parameter, its slot and that the job is not FINISHED. An intake
access of the job that is in progress has ended first (log 13). A PENDING or QUEUED job retires CANCELLED at once. A CURRENT job
with a byte in flight is marked cancelled-pending and the port is EXECUTING; with none, the line's byte, timers and readiness
request are given up, the job retires CANCELLED, and the line becomes IDLE with its cause cleared and applies the take rule. A
fetch of the line that is in progress has ended first, with its check error, and its byte is dropped (R82, log 13). -/
def Obligations.CancelCommand : Prop :=
  ∀ (job : Byte) (s : State), Taking s →
    (16 ≤ job.toNat → exec (.cancel job) s = .next (answered [0x03#8] (begun s))) ∧
    (∀ j : Fin 16, job.toNat = j.val →
      let t := stored j (executing (begun s))
      (jobAt t j = none → exec (.cancel job) s = .next (answered [0x04#8] t)) ∧
      (∀ r, jobAt t j = some r →
        (r.output = .finished → exec (.cancel job) s = .next (answered [0x05#8] t)) ∧
        (r.output = .pending ∨ r.output = .queued → NoAccessOf j t →
          exec (.cancel job) s = .next (evalIntake (answered [0x01#8] (retired j r .cancelled .none t)))) ∧
        (r.output = .current → (engineAt t r.line).step = .inFlight →
          exec (.cancel job) s = .next (setJob j { r with cancelPending := true } t)) ∧
        (r.output = .current → (engineAt t r.line).step ≠ .inFlight → NoAccessOf j t →
          (∀ err, t.spool.access ≠ some (.drain r.line err)) →
          exec (.cancel job) s = .next (cancelledAtOnce r.line j r t)) ∧
        (∀ err, r.output = .current → (engineAt t r.line).step ≠ .inFlight → t.spool.access = some (.drain r.line err) →
          (engineAt t r.line).current = some j →
          let free := { t with spool := { t.spool with access := none } }
          let q := { r with checkErrors := if err && decide (r.checkErrors < 255) then r.checkErrors + 1 else r.checkErrors }
          let counted := if err then flagged 0x80#8 (setJob j q free) else free
          let halts := err = true ∧ (engineAt t r.line).config.policy = .halt
          (halts → exec (.cancel job) s = .next (cancelledAtOnce r.line j q (faulted r.line .check counted))) ∧
          (¬halts → exec (.cancel job) s = .next (cancelledAtOnce r.line j q counted)))))

/-- R11, R12, R91, R92, R163, R164: HOLD sets the held flag, and a line whose current job it is pauses at once where it can;
RELEASE clears it, the line of a QUEUED job applies the take rule, and a PAUSED line whose current job it is resumes when its
stop flag is clear. A flag that stands so already is answered OK and nothing changes. -/
def Obligations.HoldAndRelease : Prop :=
  (∀ (job : Byte) (s : State), Taking s →
     exec (.hold job) s = .next (onJob job (begun s) fun j r =>
       if r.output = .finished then answered [0x05#8] (begun s)
       else if r.held then answered [0x01#8] (begun s)
       else
         let t := answered [0x01#8] (setJob j { r with held := true } (begun s))
         if r.output = .current ∧ pausesNow s r.line = true then paused r.line t else t)) ∧
  (∀ (job : Byte) (s : State), Taking s →
     exec (.release job) s = .next (onJob job (begun s) fun j r =>
       let e := engineAt s r.line
       if r.output = .finished then answered [0x05#8] (begun s)
       else if r.held = false then answered [0x01#8] (begun s)
       else
         let t := answered [0x01#8] (setJob j { r with held := false } (begun s))
         if r.output = .queued then goesOn r.line t
         else if r.output = .pending then t
         else if e.state = .paused ∧ e.stop = false ∧ currentUnheld t r.line = true then
           goesOn r.line (sendingAt r.line t)
         else evalIntake t))

/-- R14, R15, R68, R100, R165: MOVE. A line out of range or the job's own line is BADPARAM, before the job's state is tested.
A PENDING job has its line changed; a QUEUED job joins the tail of its class on the new line; a CURRENT job leaves a PAUSED
or FAULT line and joins the head of its class there, and both lines then apply the take rule. -/
def Obligations.MoveCommand : Prop :=
  ∀ (job line : Byte) (s : State), Taking s →
    exec (.move job line) s = .next (onLine line (begun s) fun l => onJob job (begun s) fun j r =>
      let e := engineAt s r.line
      if r.line = l then answered [0x03#8] (begun s)
      else if r.output = .pending then answered [0x01#8] (setJob j { r with line := l } (begun s))
      else if r.output = .queued then
        let t := setJob j { r with line := l } { begun s with
          queues := setTab s.queues r.line (without j (queueAt s r.line)) }
        goesOn l (answered [0x01#8] (queuedLast l r.urgent j t))
      else if r.output = .current ∧ (e.state = .paused ∨ e.state = .fault) then
        let t := setJob j { r with line := l, output := .queued }
          (setEngine r.line { e with current := none, state := if e.state = .paused then .idle else .fault } (begun s))
        goesOn r.line (goesOn l (answered [0x01#8] (queuedFirst l r.urgent j t)))
      else answered [0x05#8] (begun s))

/-- R40, R41, R43, R166, R148: VERIFY. A FINISHED job is GONE with the results of a scan that read nothing; a job whose chain
is empty has them with OK; any other has its scan started at offset 0 of its head block, and the port is EXECUTING. -/
def Obligations.VerifyCommand : Prop :=
  ∀ (job : Byte) (s : State), Taking s → (∀ err, s.spool.access ≠ some (.verify err)) →
    exec (.verify job) s = .next (onJob job (begun s) fun j r =>
      let start : Option Pos := r.head.map (fun b => { block := b, off := 0 })
      let scan : Verify :=
        { running := true, job := j, pos := start, bytesChecked := 0, errors := 0, firstBad := none, firstBadOff := 0,
          moved := false }
      let nothing : List Byte := [0x00#8, 0xFF#8, 0x00#8, 0x00#8, 0x00#8]
      if r.output = .finished then answered (0x09#8 :: nothing) (begun s)
      else if r.tail = none ∨ start = r.tail.map (fun b => { block := b, off := r.tailFill }) then
        answered (0x01#8 :: nothing) { begun s with verify := { scan with running := false } }
      else executing { begun s with verify := scan })

/-- R167, R183, R184: QUERY JOB answers any occupied slot with the twelve bytes of its record and changes no job. -/
def Obligations.QueryJobCommand : Prop :=
  ∀ (job : Byte) (s : State), Taking s →
    exec (.queryJob job) s = .next (onJob job (begun s) fun _ r =>
      let intake : Byte := match r.intake with | .opened => 0#8 | .closing => 1#8 | .closed => 2#8
      let output : Byte := match r.output with | .pending => 0#8 | .queued => 1#8 | .current => 2#8 | .finished => 3#8
      let options := r.urgent.toNat + 2 * r.early.toNat + 4 * r.retain.toNat + 8 * r.separate.toNat
      answered ([0x01#8, intake, output, one r.line.val, one options, one (r.held.toNat + 2 * r.truncated.toNat),
        one r.copies, one r.copiesDone] ++ three r.stored ++ [one r.chainLen, one r.checkErrors]) (begun s))

/-- R138, R134, R135, R23, R168: TAKE. An empty queue is EMPTY; otherwise the oldest record leaves the queue as the results,
its slot is freed, and the job at the head of the Post-Wait List is posted with the counter's value, DONEQ raised. -/
def Obligations.TakeCommand : Prop :=
  ∀ s : State, Taking s →
    (s.completion.queue = [] → exec .take s = .next (answered [0x08#8] (begun s))) ∧
    (∀ rec rest, s.completion.queue = rec :: rest →
      let outcome : Byte := match rec.outcome with | .complete => 1#8 | .cancelled => 2#8 | .aborted => 3#8
      let cause : Byte := match rec.cause with
        | .none => 0#8 | .device => 1#8 | .media => 2#8 | .offline => 3#8 | .noack => 4#8 | .holdtime => 5#8
        | .starve => 6#8 | .check => 7#8
      let bytes := [rec.seq, one rec.job.val, one rec.line.val, outcome, one rec.truncated.toNat, one rec.copiesDone]
        ++ three rec.total ++ [one rec.checkErrors, cause]
      let t := answered (0x01#8 :: bytes) { begun s with
        jobs := setTab s.jobs rec.job none, completion := { s.completion with queue := rest } }
      (s.completion.postWait = [] → exec .take s = .next t) ∧
      (∀ j more r o, s.completion.postWait = j :: more → j ≠ rec.job → jobAt s j = some r → r.outcome = some o →
        exec .take s = .next (flagged 0x04#8 (setJob j { r with posted := true } { t with
          completion := { queue := rest ++ [recordFor s.completion.seq j r o r.cause], postWait := more,
                          seq := s.completion.seq + 1#8 } }))))

/-- R177: STORE QUERY has no refusal and returns the length of the Free List, the stall, the number of entries in the FIFO, the
target or 0xFF, and the sequence counter, all of one moment; it changes no state of any unit but the port that answers. -/
def Obligations.StoreQueryCommand : Prop :=
  ∀ s : State, Taking s →
    exec .storeQuery s = .next (answered
      [0x01#8, one s.spool.freeList.length, one s.intake.stall.toNat, one s.intake.fifo.length,
        (match s.intake.target with | none => 0xFF#8 | some j => one j.val), s.completion.seq] (begun s))

/-! ## Commands on lines -/

/-- R103, R119, R131, R169, R184: LINE SET. On an OFF line it writes the Drain Engine's fields and the Line Unit's: mode bit 0
HOLD-cycle, bits 2..1 the strobe code and a non-zero ack limit on a parallel line; rate in bits 2..0, 7 data bits in bit 3,
parity in bits 5..4, 2 stop bits in bit 6 and the flow on a serial line. A byte that names none of these is BADPARAM, tested
before the line's state. -/
def Obligations.LineSetCommand : Prop :=
  ∀ (line mode second holdLimit starveLimit separator policy substitute : Byte) (s : State), Taking s →
    let row := Instr.lineSet line mode second holdLimit starveLimit separator policy substitute
    let drain : DrainConfig :=
      { holdLimit := holdLimit, starveLimit := starveLimit, separator := separator,
        policy := if policy = 0#8 then .halt else .substitute, substitute := substitute }
    let par : ParConfig :=
      { holdCycle := mode.getLsbD 0, strobeCode := Fin.ofNat 4 (mode.toNat / 2), ackLimit := second }
    let ser : SerConfig :=
      { rate := Fin.ofNat 8 mode.toNat, seven := mode.getLsbD 3
        parity := if mode.getLsbD 4 then .odd else if mode.getLsbD 5 then .even else .none
        twoStop := mode.getLsbD 6
        flow := if second = 0#8 then .none else if second = 1#8 then .go else .xonxoff }
    let badPar := 8 ≤ mode.toNat ∨ second = 0#8
    let badSer := 128 ≤ mode.toNat ∨ (mode.getLsbD 4 = true ∧ mode.getLsbD 5 = true) ∨ 2 < second.toNat
    (4 ≤ line.toNat ∨ 1 < policy.toNat ∨ (line.toNat < 2 ∧ badPar) ∨ (2 ≤ line.toNat ∧ badSer) →
      exec row s = .next (answered [0x03#8] (begun s))) ∧
    (∀ x : Fin 2, line.toNat = x.val → policy.toNat ≤ 1 → ¬badPar →
      exec row s = .next (
        if (engineAt s (parLine x)).state ≠ .off then answered [0x05#8] (begun s)
        else answered [0x01#8] (setPar x { parAt s x with config := par }
          (setEngine (parLine x) { engineAt s (parLine x) with config := drain } (begun s))))) ∧
    (∀ y : Fin 2, line.toNat = y.val + 2 → policy.toNat ≤ 1 → ¬badSer →
      exec row s = .next (
        if (engineAt s (serLine y)).state ≠ .off then answered [0x05#8] (begun s)
        else answered [0x01#8] (setSer y { serAt s y with config := ser }
          (setEngine (serLine y) { engineAt s (serLine y) with config := drain } (begun s)))))

/-- R101, R102, R129, R130, R170, R171: LINE ENABLE takes an OFF line to IDLE, clears the xoff flag and starts the receiver of a
serial line in XON/XOFF mode, and the take rule is applied; LINE DISABLE takes an IDLE line to OFF and stops its receiver. -/
def Obligations.LineEnableAndDisable : Prop :=
  ∀ (line : Byte) (s : State), Taking s →
    exec (.lineEnable line) s = .next (onLine line (begun s) fun l =>
      if (engineAt s l).state ≠ .off then answered [0x05#8] (begun s)
      else
        let t := answered [0x01#8] (setEngine l { engineAt s l with state := .idle } (begun s))
        if l.val < 2 then goesOn l t
        else
          let y : Fin 2 := Fin.ofNat 2 (l.val - 2)
          goesOn l (setSer y (if (serAt s y).config.flow = .xonxoff then
            { serAt s y with xoff := false, receiver := .markwait, startSeen := false }
            else { serAt s y with xoff := false }) t)) ∧
    exec (.lineDisable line) s = .next (onLine line (begun s) fun l =>
      if (engineAt s l).state ≠ .idle then answered [0x05#8] (begun s)
      else
        let t := answered [0x01#8] (setEngine l { engineAt s l with state := .off } (begun s))
        if l.val < 2 then t
        else
          let y : Fin 2 := Fin.ofNat 2 (l.val - 2)
          setSer y { serAt s y with receiver := .stopped, startSeen := false } t)

/-- R90, R91, R92, R172: LINE STOP sets the stop flag and the line pauses at once where it can; LINE GO clears it, an IDLE line
applies the take rule and a PAUSED line whose job is not held resumes. A flag that stands so already is answered OK. -/
def Obligations.LineStopAndGo : Prop :=
  ∀ (line : Byte) (s : State), Taking s →
    exec (.lineStop line) s = .next (onLine line (begun s) fun l =>
      if (engineAt s l).stop then answered [0x01#8] (begun s)
      else
        let t := answered [0x01#8] (setEngine l { engineAt s l with stop := true } (begun s))
        if pausesNow s l then paused l t else t) ∧
    exec (.lineGo line) s = .next (onLine line (begun s) fun l =>
      let e := engineAt s l
      if e.stop = false then answered [0x01#8] (begun s)
      else
        let t := answered [0x01#8] (setEngine l { e with stop := false } (begun s))
        if e.state = .idle then goesOn l t
        else if e.state = .paused then
          if currentUnheld s l then goesOn l (sendingAt l t) else evalIntake t
        else t)

/-- R89, R95, R96, R110, R173: LINE RESUME. Out of FAULT it is BADSTATE, and with the failing input still active NOTREADY; the
cause is then cleared, and the line recovers. A retry leaves the job as it stands; a skip passes the byte at the cursor, a
separator that is pending completes the copy, and at the stored end a skip acts as a retry. After a STARVE fault a skip acts as a
retry too, and a byte stored since is sent (the model's reading of R173 against R96, log 23). After a skip of a byte the line
decides from test 1 of R80 (the model's reading, log 12). -/
def Obligations.LineResumeCommand : Prop :=
  ∀ (line choice : Byte) (s : State), Taking s →
    (4 ≤ line.toNat ∨ 1 < choice.toNat → exec (.lineResume line choice) s = .next (answered [0x03#8] (begun s))) ∧
    (∀ l : Fin 4, line.toNat = l.val → choice.toNat ≤ 1 →
      ((engineAt s l).state ≠ .fault → exec (.lineResume line choice) s = .next (answered [0x05#8] (begun s))) ∧
      ((engineAt s l).state = .fault → stillFailing l s →
        exec (.lineResume line choice) s = .next (answered [0x07#8] (begun s))) ∧
      ((engineAt s l).state = .fault → ¬stillFailing l s →
        let t := answered [0x01#8] (setEngine l { engineAt s l with cause := .none } (begun s))
        (currentJob s l = none → exec (.lineResume line choice) s = .next (recovered l none t)) ∧
        (∀ j r, currentJob s l = some (j, r) →
          let starved := (engineAt s l).cause = .starve
          (choice = 0#8 ∨ starved ∨ (r.sepPending = false ∧ atStoredEnd s r r.cursor = true) →
            exec (.lineResume line choice) s = .next (recovered l (some r.held) t)) ∧
          (choice = 1#8 → ¬starved → r.sepPending = false → atStoredEnd s r r.cursor = false → ∀ p, readPos s r.cursor = some p →
            exec (.lineResume line choice) s = .next (goesOn l (sendingAt l (passByte j r p t)))) ∧
          (choice = 1#8 → ¬starved → r.sepPending = true → r.copiesDone + 1 < r.copies →
            exec (.lineResume line choice) s = .next (recovered l (some r.held)
              (completeCopy l j { r with sepPending := false } t))) ∧
          (choice = 1#8 → ¬starved → r.sepPending = true → r.copies ≤ r.copiesDone + 1 →
            exec (.lineResume line choice) s = .next (goesOn l
              (completeCopy l j { r with sepPending := false } t))))))

/-- R95, R97, R98, R174, R175: LINE RESTART sends the cursor of the current job of a line in FAULT back to the head block, its copy
position to 0 and separator pending to clear, and the line recovers; it is BADSTATE without a current job or once a block of
the job has been released, and NOTREADY while the failing input is active. LINE ABORT retires the current job, if there is one,
ABORTED with the line's cause, an intake access of the job having ended first (R39, log 13); the line becomes IDLE with its cause
cleared and applies the take rule. -/
def Obligations.LineRestartAndAbort : Prop :=
  (∀ (line : Byte) (s : State), Taking s →
     (4 ≤ line.toNat → exec (.lineRestart line) s = .next (answered [0x03#8] (begun s))) ∧
     (∀ l : Fin 4, line.toNat = l.val →
       ((engineAt s l).state ≠ .fault ∨ currentJob s l = none →
         exec (.lineRestart line) s = .next (answered [0x05#8] (begun s))) ∧
       (∀ j r, (engineAt s l).state = .fault → currentJob s l = some (j, r) →
         (r.anyReleased = true → exec (.lineRestart line) s = .next (answered [0x05#8] (begun s))) ∧
         (r.anyReleased = false → stillFailing l s → exec (.lineRestart line) s = .next (answered [0x07#8] (begun s))) ∧
         (r.anyReleased = false → ¬stillFailing l s →
           let r' := { r with
             cursor := r.head.map (fun b => { block := b, off := 0 }), copyPos := 0, sepPending := false }
           exec (.lineRestart line) s = .next (recovered l (some r.held)
             (answered [0x01#8] (setJob j r' (setEngine l { engineAt s l with cause := .none } (begun s))))))))) ∧
  (∀ (line : Byte) (s : State), Taking s →
     (4 ≤ line.toNat → exec (.lineAbort line) s = .next (answered [0x03#8] (begun s))) ∧
     (∀ l : Fin 4, line.toNat = l.val →
       ((engineAt s l).state ≠ .fault → exec (.lineAbort line) s = .next (answered [0x05#8] (begun s))) ∧
       ((engineAt s l).state = .fault → (engineAt s l).current = none →
         exec (.lineAbort line) s = .next (goesOn l (answered [0x01#8]
           (setEngine l { engineAt s l with state := .idle, cause := .none } (begun s))))) ∧
       (∀ j r, (engineAt s l).state = .fault → (engineAt s l).current = some j →
         let t := stored j (executing (begun s))
         jobAt t j = some r → r.output = .current → r.line = l → (engineAt t l).current = some j → NoAccessOf j t →
         exec (.lineAbort line) s = .next (goesOn l (answered [0x01#8]
           (setEngine l { engineAt t l with state := .idle, cause := .none, current := none }
             (retired j r .aborted (engineAt t l).cause t)))))))

/-- R105, R120, R132, R176, R183, R184: LINE QUERY answers every line with its nine bytes and changes no line. -/
def Obligations.LineQueryCommand : Prop :=
  ∀ (line : Byte) (s : State), Taking s →
    exec (.lineQuery line) s = .next (onLine line (begun s) fun l =>
      let e := engineAt s l
      let state : Byte := match e.state with
        | .off => 0#8 | .idle => 1#8 | .sending => 2#8 | .starved => 3#8 | .paused => 4#8 | .fault => 5#8
      let cause : Byte := match e.cause with
        | .none => 0#8 | .device => 1#8 | .media => 2#8 | .offline => 3#8 | .noack => 4#8 | .holdtime => 5#8
        | .starve => 6#8 | .check => 7#8
      let held := (currentJob s l).any (fun x => x.2.held)
      let p := (parAt s (Fin.ofNat 2 l.val)).snapshot
      let u := serAt s (Fin.ofNat 2 (l.val - 2))
      let inputs := if l.val < 2 then
          p.on.toNat + 2 * (!p.fail).toNat + 4 * p.out.toNat + 8 * p.hold.toNat + 16 * (!p.took).toNat
        else (!u.snapshot.go).toNat + 2 * u.xoff.toNat + 4 * u.snapshot.rxd.toNat
      let position := ((currentJob s l).map (fun x => x.2.copyPos)).getD 0
      answered ([0x01#8, state, cause, (match e.current with | none => 0xFF#8 | some j => one j.val),
        one (e.stop.toNat + 2 * held.toNat), one inputs,
        one ((queueAt s l).urgent.length + (queueAt s l).normal.length)] ++ three position) (begun s))

/-! ## The spool store -/

/-- R37, R38, R39: the Intake Unit's request is waiting when its head entry is to be stored, a Drain Engine's at its fetch step
with its cursor not at the stored end, the Verify Unit's while its scan runs and is not at the stored end (a request without
a place in the store, which no run reaches, is none: log 17). While an access is in progress or no request is waiting a grant
does nothing (log 10); otherwise the first waiting requester in the cyclic order after the pointer is granted, and the pointer
then names it. -/
def Obligations.StoreGrantRoundRobin : Prop :=
  ∀ s : State,
    (∀ j b rest r, s.intake.fifo = (j, b) :: rest → jobAt s j = some r →
      (requesting s .intake = true ↔ s.intake.headReq = .waiting ∧
        ((r.tail ≠ none ∧ r.tailFill < 256) ∨ s.spool.freeList ≠ []))) ∧
    (∀ (l : Fin 4) j r, currentJob s l = some (j, r) →
      (requesting s (drainOf l) = true ↔ (engineAt s l).step = .fetching ∧ atStoredEnd s r r.cursor = false ∧
        ∃ q, readsAt s r.cursor q)) ∧
    (∀ r, jobAt s s.verify.job = some r →
      (requesting s .verify = true ↔ s.verify.running = true ∧ atStoredEnd s r s.verify.pos = false ∧
        ∃ q, readsAt s s.verify.pos q)) ∧
    (s.spool.access ≠ none → exec .storeGrant s = .next s) ∧
    ((∀ q, requesting s q = false) → exec .storeGrant s = .next s) ∧
    (∀ q, isNext s q ↔ nextRequester s = some q) ∧
    (∀ q, s.spool.access = none → isNext s q →
      ∃ t, exec .storeGrant s = .next t ∧ t.spool.pointer = q ∧ t.spool.access ≠ none)

/-- R33, R39, R54, R81, R41, R27, R28: what a grant begins. An intake access into a tail block with room allocates nothing; into a
full or absent one it takes the block at the head of the Free List, which is in the record from the grant on (log 21), and a
position that was at the stored end before the grant, or was not, is so still until the access ends. A fetch records its byte,
kind and position; a scan's read stands at the position it reads. -/
def Obligations.StoreGrantAccess : Prop :=
  ∀ s : State, s.spool.access = none →
    (∀ j b rest r, isNext s .intake → s.intake.fifo = (j, b) :: rest → jobAt s j = some r →
      let granted := fun t : State => { t with
        intake := { t.intake with headReq := .granted }
        spool := { t.spool with pointer := .intake, access := some (.intake (checkBit s.window.invchk b)) } }
      (∀ tb, r.tail = some tb → r.tailFill < 256 → exec .storeGrant s = .next (granted s)) ∧
      (∀ tb nb more, r.tail = some tb → 256 ≤ r.tailFill → s.spool.freeList = nb :: more →
        let r' := { r with tail := some nb, tailFill := 0, chainLen := r.chainLen + 1 }
        let t := granted (setJob j r' (setLink nb none (setLink tb (some nb) { s with
          spool := { s.spool with freeList := more } })))
        exec .storeGrant s = .next t ∧
        (r.tailFill = 256 → nb ≠ tb → (∀ b, linkAt s b ≠ some nb) →
          ∀ q : Pos, q.off ≤ 256 → q.block ≠ nb → atStoredEnd t r' (some q) = atStoredEnd s r (some q))) ∧
      (∀ nb more, r.tail = none → s.spool.freeList = nb :: more →
        let r' := { r with
          head := some nb, tail := some nb, tailFill := 0, chainLen := r.chainLen + 1
          cursor := some { block := nb, off := 0 } }
        exec .storeGrant s = .next (granted (setJob j r' (setLink nb none { s with
          spool := { s.spool with freeList := more } }))))) ∧
    (∀ (l : Fin 4) j r p, isNext s (drainOf l) → currentJob s l = some (j, r) → readsAt s r.cursor p →
      let f : Fetched :=
        { value := Memory.read s.spool.bytes (p.block.val * 256 + p.off), kind := .stored, pos := some p }
      exec .storeGrant s = .next (setEngine l { engineAt s l with fetched := some f } { s with
        spool := { s.spool with pointer := drainOf l, access := some (.drain l (foundBad s p)) } })) ∧
    (∀ p, isNext s .verify → readsAt s s.verify.pos p →
      exec .storeGrant s = .next { s with
        verify := { s.verify with pos := some p }
        spool := { s.spool with pointer := .verify, access := some (.verify (foundBad s p)) } })

/-- R27: every byte is written together with its check bit: the grant of an intake access computes it from the byte and from
CONTROL.INVCHK as it stands, odd parity with INVCHK clear and its inverse with INVCHK set; a write to CONTROL leaves the access
in progress as it is; and the end of the access stores the byte and that bit at one position. -/
def Obligations.CheckBitOfTheGrant : Prop :=
  (∀ (s t : State) (k : BitVec 1), s.spool.access = none → exec .storeGrant s = .next t →
    t.spool.access = some (.intake k) →
    ∃ j b rest, s.intake.fifo = (j, b) :: rest ∧ (onesIn b + k.toNat) % 2 = (if s.window.invchk then 0 else 1)) ∧
  (∀ (b : Byte) (s : State), b.getLsbD 0 = false → ∃ t, exec (.invchk b) s = .next t ∧ t.spool = s.spool) ∧
  (∀ (s : State) (k : BitVec 1) (j : Fin 16) (b : Byte) (rest : List (Fin 16 × Byte)) (r : Job) (tb : Fin 128),
    storeLaw s = true → s.spool.access = some (.intake k) → s.intake.fifo = (j, b) :: rest → jobAt s j = some r →
    r.tail = some tb → r.tailFill < 256 →
    ∃ t, exec .intakeAccessEnd s = .next t ∧
      Memory.read t.spool.bytes (tb.val * 256 + r.tailFill) = b ∧
      Memory.read t.spool.checks (tb.val * 256 + r.tailFill) = k ∧
      ∀ a, a ≠ tb.val * 256 + r.tailFill →
        Memory.read t.spool.bytes a = Memory.read s.spool.bytes a ∧
        Memory.read t.spool.checks a = Memory.read s.spool.checks a)

/-- R54, R55, R61, R5, R89: at the end of an intake access tail fill and stored count rise by one, the entry leaves the FIFO and
the head request returns to none; a CLOSING job with no entry left becomes CLOSED with the hand-offs of that change, a STARVED
line of the job goes on, and the next head entry is evaluated. Without such an access nothing happens (log 10). -/
def Obligations.IntakeAccessEnd : Prop :=
  ∀ s : State,
    (NotStoring s → exec .intakeAccessEnd s = .next s) ∧
    (∀ k j b rest r tb, s.spool.access = some (.intake k) → s.intake.fifo = (j, b) :: rest → jobAt s j = some r →
      r.tail = some tb →
      let r' := { r with tailFill := r.tailFill + 1, stored := r.stored + 1 }
      let a := tb.val * 256 + r.tailFill
      let u := fun q : Job => setJob j q { s with
        intake := { s.intake with fifo := rest, headReq := .none }
        spool := { s.spool with
          access := none, bytes := Memory.write s.spool.bytes a b, checks := Memory.write s.spool.checks a k } }
      let closes : Prop := r.intake = .closing ∧ ∀ e ∈ rest, e.1 ≠ j
      let e := engineAt s r.line
      let starved : Prop := e.state = .starved ∧ e.current = some j
      let goes := fun t : State => goesOn r.line (setEngine r.line { e with
        state := .sending, step := .boundary, starve := none } t)
      (¬closes → r.output = .current → starved → exec .intakeAccessEnd s = .next (goes (u r'))) ∧
      (¬closes → ¬(r.output = .current ∧ starved) → exec .intakeAccessEnd s = .next (evalIntake (u r'))) ∧
      (closes → r.output = .pending → exec .intakeAccessEnd s = .next (goesOn r.line
        (queuedLast r.line r.urgent j (u { r' with intake := .closed, output := .queued })))) ∧
      (closes → r.output = .current → starved → exec .intakeAccessEnd s = .next (goes (u { r' with intake := .closed }))) ∧
      (closes → r.output = .current → ¬starved →
        exec .intakeAccessEnd s = .next (evalIntake (u { r' with intake := .closed }))) ∧
      (closes → r.output = .queued → exec .intakeAccessEnd s = .next (evalIntake (u { r' with intake := .closed }))))

/-- R53, R54, R56, R57, R59: the storing engine's look at the head entry. With no entry no stall remains; a head entry that has its
request, waiting or granted, is not evaluated again. Otherwise the six tests decide, in order: the entry of a truncated job, of
one at the greatest stored count and of one at its quota is discarded, the last two marking the job truncated; a full or absent
tail with the Free List empty stalls the unit, raising STOREFULL on entry; in every other case a store access is requested. R61,
R9, R89: after a discard, a CLOSING job with no entry left becomes CLOSED: a PENDING job joins its queue and the take rule is
applied, and the STARVED line of a current job goes on. -/
def Obligations.HeadEvaluation : Prop :=
  (∀ s : State, s.intake.fifo = [] → evalIntake s = { s with intake := { s.intake with stall := false } }) ∧
  (∀ s : State, s.intake.fifo ≠ [] → s.intake.headReq ≠ .none → evalIntake s = s) ∧
  (∀ (s : State) j b rest r, s.intake.fifo = (j, b) :: rest → s.intake.headReq = .none → jobAt s j = some r →
    let room : Prop := r.tail ≠ none ∧ r.tailFill < 256
    let atQuota : Prop := r.quota ≠ 0 ∧ r.chainLen = r.quota
    let discarded := fun t : State =>
      evalIntake (closeIfDrained j { t with intake := { t.intake with fifo := rest, stall := false } })
    let marked := setJob j { r with truncated := true } s
    let requested := { s with intake := { s.intake with headReq := .waiting, stall := false } }
    let stalled := { s with intake := { s.intake with stall := true } }
    (r.truncated = true → evalIntake s = discarded s) ∧
    (r.truncated = false → 16777215 ≤ r.stored → evalIntake s = discarded marked) ∧
    (r.truncated = false → r.stored < 16777215 → room → evalIntake s = requested) ∧
    (r.truncated = false → r.stored < 16777215 → ¬room → atQuota → evalIntake s = discarded marked) ∧
    (r.truncated = false → r.stored < 16777215 → ¬room → ¬atQuota → s.spool.freeList = [] →
      evalIntake s = if s.intake.stall then s else flagged 0x10#8 stalled) ∧
    (r.truncated = false → r.stored < 16777215 → ¬room → ¬atQuota → s.spool.freeList ≠ [] → evalIntake s = requested)) ∧
  (∀ (s : State) j r, jobAt s j = some r →
    let closes : Prop := r.intake = .closing ∧ ∀ e ∈ s.intake.fifo, e.1 ≠ j
    let closed := setJob j { r with intake := .closed } s
    let e := engineAt s r.line
    let starved : Prop := e.state = .starved ∧ e.current = some j
    (¬closes → closeIfDrained j s = s) ∧
    (closes → r.output = .pending → closeIfDrained j s =
      decideLine r.line (queuedLast r.line r.urgent j (setJob j { r with intake := .closed, output := .queued } s))) ∧
    (closes → r.output = .current → starved → closeIfDrained j s =
      decideLine r.line (setEngine r.line { e with state := .sending, step := .boundary, starve := none } closed)) ∧
    (closes → r.output = .current → ¬starved → closeIfDrained j s = closed) ∧
    (closes → r.output = .queued → closeIfDrained j s = closed))

/-- R82, R91, R93: the end of a fetch. Without a check error the engine asks for readiness with the byte; with one the job's
count rises, CHECK is raised, and HALT puts the line into FAULT with cause CHECK where SUBSTITUTE sends the line's substitute at
the position of the stored byte. A line that is to pause pauses and drops the byte. Without such a fetch nothing happens
(log 10). -/
def Obligations.FetchEnd : Prop :=
  ∀ (l : Fin 4) (s : State),
    ((∀ err, s.spool.access ≠ some (.drain l err)) → exec (.fetchEnd l) s = .next s) ∧
    (∀ j r f err, s.spool.access = some (.drain l err) → (engineAt s l).state = .sending →
      (engineAt s l).fetched = some f → currentJob s l = some (j, r) →
      let e := engineAt s l
      let free := { s with spool := { s.spool with access := none } }
      let counted := flagged 0x80#8 (setJob j { r with
        checkErrors := if r.checkErrors < 255 then r.checkErrors + 1 else r.checkErrors } free)
      let pauses := e.stop || r.held
      let dropped := setEngine l { e with state := .paused, step := .boundary, fetched := none }
      (err = false → pauses = true → exec (.fetchEnd l) s = .next (dropped free)) ∧
      (err = false → pauses = false → exec (.fetchEnd l) s = .next (askReady l f free)) ∧
      (err = true → e.config.policy = .halt → exec (.fetchEnd l) s = .next (faulted l .check counted)) ∧
      (err = true → e.config.policy = .substitute → pauses = true → exec (.fetchEnd l) s = .next (dropped counted)) ∧
      (err = true → e.config.policy = .substitute → pauses = false →
        exec (.fetchEnd l) s =
          .next (askReady l { value := e.config.substitute, kind := .substitute, pos := f.pos } counted)))

/-- R41, R42, R43: the end of a read of the scan. The byte is counted and the position advances, an error is counted with the
first bad position kept and CHECK raised, a scan whose block was released goes to the head block, and at the stored end VERIFY
completes with OK. Without such a read nothing happens (log 10). -/
def Obligations.VerifyReadEnd : Prop :=
  ∀ s : State,
    ((∀ err, s.spool.access ≠ some (.verify err)) → exec .verifyReadEnd s = .next s) ∧
    (∀ err r p, s.spool.access = some (.verify err) → s.verify.running = true → jobAt s s.verify.job = some r →
      s.verify.pos = some p →
      let t := scanRead err s
      let pos : Option Pos :=
        if s.verify.moved then r.head.map (fun b => { block := b, off := 0 }) else some { block := p.block, off := p.off + 1 }
      let v := { t.verify with pos := pos, moved := false }
      exec .verifyReadEnd s = .next (
        if atStoredEnd s r pos then answered (0x01#8 :: scanResults v) { t with verify := { v with running := false } }
        else { t with verify := v }))

/-! ## The lines -/

/-- R83, R110, R125: a line asks for readiness with a byte. A parallel unit makes its four checks in order: offline, fault and
media out fail the byte, hold makes it wait; a serial unit tests its flow condition. A unit that is ready takes the byte. -/
def Obligations.Readiness : Prop :=
  (∀ (x : Fin 2) (f : Fetched) (s : State), (parAt s x).handshake = .rest →
    let p := (parAt s x).snapshot
    let l := parLine x
    (p.on = false → askReady l f s = faulted l .offline s) ∧
    (p.on = true → p.fail = false → askReady l f s = faulted l .device s) ∧
    (p.on = true → p.fail = true → p.out = true → askReady l f s = faulted l .media s) ∧
    (p.on = true → p.fail = true → p.out = false → p.hold = true →
      askReady l f s = setPar x { parAt s x with handshake := .waiting } (waitsFor l f s)) ∧
    (p.on = true → p.fail = true → p.out = false → p.hold = false →
      askReady l f s = setPar x (putPar (parAt s x) f.value) (inFlight l f s))) ∧
  (∀ (y : Fin 2) (f : Fetched) (s : State), (serAt s y).transmit = .rest →
    let u := serAt s y
    let l := serLine y
    let blocked := (u.config.flow = .go ∧ u.snapshot.go = true) ∨ (u.config.flow = .xonxoff ∧ u.xoff = true)
    (blocked → askReady l f s = setSer y { u with transmit := .waiting } (waitsFor l f s)) ∧
    (¬blocked → askReady l f s = setSer y (putSer u f.value) (inFlight l f s)))

/-- R107, R112, R115, R116: SETUP, STROBE and TRAIL follow one another, the ack timer armed at the fall of xPUT; at the end of the
trail a decided outcome is reported, and an undecided byte waits in ACKWAIT. xDAT holds the byte from SETUP to the end of ACKWAIT
and is 0x00 otherwise, and xPUT is low in STROBE alone. Out of its phase an end does nothing (log 10), and
a report that retires a cancelled job comes after an intake access of the job (log 13). -/
def Obligations.HandshakePhases : Prop :=
  ∀ (x : Fin 2) (s : State),
    let u := parAt s x
    (exec (.setupEnd x) s = .next (
      if u.handshake = .setup then setPar x { u with handshake := .strobe, ack := some 0, phaseClks := 0 } s else s)) ∧
    (exec (.strobeEnd x) s = .next (
      if u.handshake = .strobe then setPar x { u with handshake := .trail, phaseClks := 0 } s else s)) ∧
    (u.handshake ≠ .trail → exec (.trailEnd x) s = .next s) ∧
    (u.handshake = .trail → u.decided = none →
      exec (.trailEnd x) s = .next (setPar x { u with handshake := .ackwait, phaseClks := 0 } s)) ∧
    (u.handshake = .trail → u.decided = some .delivered →
      exec (.trailEnd x) s = .next (evalIntake (delivered (parLine x) (parEnded x (reporting (parLine x) s))))) ∧
    (u.handshake = .trail → u.decided = some .noack →
      exec (.trailEnd x) s = .next (evalIntake (failedNoack (parLine x) (parEnded x (reporting (parLine x) s))))) ∧
    (u.handshake ∈ [.setup, .strobe, .trail, .ackwait] → xDat u = u.byte) ∧
    (u.handshake ∈ [.rest, .waiting] → xDat u = 0x00#8) ∧
    (xPut u = false ↔ u.handshake = .strobe)

/-- R109, R111, R113, R114, R117, R118, R93: a change of a parallel line's inputs. Under a reset only the pins change (log 6). At rest
the snapshot follows. With a byte in flight the fall of xTOOK, in TOOK-pulse mode, or the fall of xHOLD after it has been seen
busy, in HOLD-cycle mode, decides the byte delivered, at once in ACKWAIT and otherwise at the end of its trail; a decided byte
is not decided again. A change of xHOLD, xFAIL, xOUT or xON ends a readiness wait when the checks no longer make it wait: by
the fault that the first failing check names, or by the put. A report that retires a cancelled job comes after an intake access of
the job (log 13). -/
def Obligations.InputChange : Prop :=
  (∀ (x : Fin 2) (new : ParPins) (s : State),
     let u := parAt s x
     let flying := u.handshake = .setup ∨ u.handshake = .strobe ∨ u.handshake = .trail ∨ u.handshake = .ackwait
     let seen := { u with pins := new, snapshot := new }
     let acknowledged :=
       if u.config.holdCycle then u.snapshot.hold = true ∧ new.hold = false ∧ u.busySeen = true
       else u.snapshot.took = true ∧ new.took = false
     (inReset s = true → exec (.inputChange x new) s = .next (setPar x { u with pins := new } s)) ∧
     (inReset s = false → u.handshake = .rest → exec (.inputChange x new) s = .next (setPar x seen s)) ∧
     (inReset s = false → flying → acknowledged → u.decided = none → u.handshake ≠ .ackwait →
       exec (.inputChange x new) s = .next (setPar x { seen with decided := some .delivered, ack := none } s)) ∧
     (inReset s = false → u.handshake = .ackwait → acknowledged → u.decided = none →
       exec (.inputChange x new) s = .next (evalIntake (delivered (parLine x) (parEnded x (reporting (parLine x)
         (setPar x { seen with decided := some .delivered, ack := none } s)))))) ∧
     (inReset s = false → flying → acknowledged → u.decided ≠ none →
       exec (.inputChange x new) s = .next (setPar x seen s)) ∧
     (inReset s = false → flying → ¬acknowledged →
       exec (.inputChange x new) s = .next (setPar x { seen with
         busySeen := u.busySeen || (u.config.holdCycle && new.hold && !u.snapshot.hold) } s))) ∧
  (∀ (x : Fin 2) (new : ParPins) (f : Fetched) (s : State), inReset s = false → (parAt s x).handshake = .waiting →
     (engineAt s (parLine x)).fetched = some f →
     let u := parAt s x
     let l := parLine x
     let seen := { u with pins := new, snapshot := new }
     let t := setPar x seen s
     let differ := new.hold ≠ u.snapshot.hold ∨ new.fail ≠ u.snapshot.fail ∨ new.out ≠ u.snapshot.out ∨ new.on ≠ u.snapshot.on
     (¬differ → exec (.inputChange x new) s = .next t) ∧
     (differ → new.on = false → exec (.inputChange x new) s = .next (faulted l .offline t)) ∧
     (differ → new.on = true → new.fail = false → exec (.inputChange x new) s = .next (faulted l .device t)) ∧
     (differ → new.on = true → new.fail = true → new.out = true →
       exec (.inputChange x new) s = .next (faulted l .media t)) ∧
     (differ → new.on = true → new.fail = true → new.out = false → new.hold = true →
       exec (.inputChange x new) s = .next t) ∧
     (differ → new.on = true → new.fail = true → new.out = false → new.hold = false →
       exec (.inputChange x new) s = .next (setPar x (putPar seen f.value) (inFlight l f s))))

/-- R84, R85, R86, R21, R99: the report of a byte's end. Delivered, a stored or substitute byte is passed and counted and the
line decides; a separator completes the copy. Failed, the line enters FAULT with cause NOACK and the byte is not counted. A
job that CANCEL waits for retires CANCELLED in place of the next step, its byte having been counted and passed and a copy that
it completes counted, the line becomes IDLE, or FAULT on failure, without a job, and CANCEL completes with OK. -/
def Obligations.ByteEnds : Prop :=
  ∀ (l : Fin 4) (j : Fin 16) (r : Job) (s : State), currentJob s l = some (j, r) →
    let counted := { r with total := if r.total < 16777215 then r.total + 1 else r.total }
    let t := setEngine l { engineAt s l with step := .boundary, fetched := none } s
    let ends := fun (q : Job) (u : State) => decideLine l (answered [0x01#8] (setEngine l { engineAt u l with
      state := .idle, cause := .none, current := none } (retired j q .cancelled .none u)))
    (∀ f p, (engineAt s l).fetched = some f → f.kind ≠ .separator → f.pos = some p → r.cancelPending = false →
      delivered l s = decideLine l (passByte j counted p t)) ∧
    (∀ f p q, (engineAt s l).fetched = some f → f.kind ≠ .separator → f.pos = some p → r.cancelPending = true →
      let u := passByte j counted p t
      jobAt u j = some q → q.output = .current → q.line = l → NoAccessOf j u →
      let copyEnds := q.sepPending = false ∧ atStoredEnd u q q.cursor = true ∧ q.intake = .closed ∧ q.separate = false
      (copyEnds → delivered l s = ends { q with copiesDone := q.copiesDone + 1 } u) ∧
      (¬copyEnds → delivered l s = ends q u)) ∧
    (∀ f, (engineAt s l).fetched = some f → f.kind = .separator → r.cancelPending = false →
      delivered l s = decideLine l (completeCopy l j { counted with sepPending := false } t)) ∧
    (∀ f, (engineAt s l).fetched = some f → f.kind = .separator → r.cancelPending = true →
      r.output = .current → r.line = l → NoAccessOf j s →
      let r' := { counted with sepPending := false, copiesDone := r.copiesDone + 1 }
      delivered l s = ends r' t) ∧
    (r.cancelPending = false → failedNoack l s = faulted l .noack s) ∧
    (r.cancelPending = true → r.output = .current → r.line = l → NoAccessOf j s →
      let e := { engineAt s l with step := .boundary, fetched := none, hold := none, starve := none }
      failedNoack l s = flagged 0x08#8 (answered [0x01#8] (setEngine l { e with
        state := .fault, cause := .noack, current := none } (retired j r .cancelled .none
          (setEngine l e (withdraw l s))))))

/-- R35, R42, R84, R85, R30: passing a byte raises the copy position, puts the cursor just after the byte, and, when it is the
first of a block in the last copy of a job that is not retained, releases the block before it. A scan that stands in the
released block goes to the new head block, at once or, with its read in progress, at its next step. A copy that completes
below the last rewinds the engine; the last retires the job COMPLETE and the line becomes IDLE. A release is taken
at once, also while an intake access of the job is in progress (the model's reading of R39, log 13). -/
def Obligations.PassingAByteAndCompletingACopy : Prop :=
  (∀ (j : Fin 16) (r : Job) (p : Pos) (h : Fin 128) (s : State), r.head = some h →
     let r' := { r with copyPos := r.copyPos + 1, cursor := some { block := p.block, off := p.off + 1 } }
     let releases := p.off = 0 ∧ r.retain = false ∧ r.copiesDone + 1 = r.copies ∧ h ≠ p.block
     (¬releases → passByte j r p s = setJob j r' s) ∧
     (releases →
       let q := { r' with head := some p.block, chainLen := r.chainLen - 1, anyReleased := true }
       let u := setJob j q { s with spool := { s.spool with
         freeList := s.spool.freeList ++ [h], links := setTab s.spool.links h none } }
       let inIt := s.verify.running = true ∧ s.verify.job = j ∧ s.verify.pos.map Pos.block = some h
       let start : Option Pos := some { block := p.block, off := 0 }
       let v := { s.verify with pos := start, moved := false }
       (¬inIt → passByte j r p s = u) ∧
       (∀ err, inIt → s.spool.access = some (.verify err) →
         passByte j r p s = { u with verify := { s.verify with moved := true } }) ∧
       (inIt → (∀ err, s.spool.access ≠ some (.verify err)) → atStoredEnd u q start = false →
         passByte j r p s = { u with verify := v }) ∧
       (inIt → (∀ err, s.spool.access ≠ some (.verify err)) → atStoredEnd u q start = true →
         passByte j r p s = answered (0x01#8 :: scanResults v) { u with verify := { v with running := false } }))) ∧
  (∀ (l : Fin 4) (j : Fin 16) (r : Job) (s : State),
     (r.copiesDone + 1 < r.copies →
       completeCopy l j r s = setJob j { r with
         copiesDone := r.copiesDone + 1, cursor := r.head.map (fun b => { block := b, off := 0 }), copyPos := 0 } s) ∧
     (r.copies ≤ r.copiesDone + 1 → r.output = .current → r.line = l → NoAccessOf j s →
       completeCopy l j r s = setEngine l { engineAt s l with state := .idle, current := none }
         (retired j { r with copiesDone := r.copiesDone + 1 } .complete .none
           (setJob j { r with copiesDone := r.copiesDone + 1 } s))))

/-- R71, R72, R73, R74, R80, R94: the take rule. The job a line would take is the first URGENT entry that is not held, or failing that the
first NORMAL one. An IDLE line with its stop flag set, or with no entry to take, stays as it is; otherwise the job leaves its
queue, becomes CURRENT, and the line, now SENDING, makes its boundary decision. A CLOSED job without a stored byte and without a
separator completes all its copies and retires COMPLETE in the act of the take, and the line decides again (R87). A line that is OFF,
STARVED, PAUSED or in FAULT, or SENDING with a byte under way, takes and decides nothing. -/
def Obligations.TakeRule : Prop :=
  (∀ (s : State) (l : Fin 4) (j : Fin 16),
     let takes := fun k : Fin 16 => ∃ r, jobAt s k = some r ∧ r.held = false
     eligible s l = some j ↔
       (∃ a b, (queueAt s l).urgent = a ++ j :: b ∧ takes j ∧ ∀ k ∈ a, ¬takes k) ∨
       ((∀ k ∈ (queueAt s l).urgent, ¬takes k) ∧
         ∃ a b, (queueAt s l).normal = a ++ j :: b ∧ takes j ∧ ∀ k ∈ a, ¬takes k)) ∧
  (∀ (l : Fin 4) (s : State), (engineAt s l).state = .idle →
     ((engineAt s l).stop = true ∨ eligible s l = none → decideLine l s = s) ∧
     (∀ j r, (engineAt s l).stop = false → eligible s l = some j → jobAt s j = some r →
       let r' := { r with output := .current }
       let t := setEngine l { engineAt s l with state := .sending, current := some j, step := .boundary }
         (setJob j r' { s with queues := setTab s.queues l (without j (queueAt s l)) })
       (Bounded l s → decideLine l s = decideLine l t) ∧
       (¬(r.sepPending = false ∧ atStoredEnd s r r.cursor = true ∧ r.intake = .closed) →
         decideLine l s = boundaryTests l r' t) ∧
       (r.sepPending = false → atStoredEnd s r r.cursor = true → r.intake = .closed → r.separate = true →
         decideLine l s = boundaryTests l { r' with sepPending := true } (setJob j { r' with sepPending := true } t)) ∧
       (Bounded l s → r.sepPending = false → r.separate = false → r.intake = .closed → r.head = none → r.tail = none →
         r.cursor = none → r.copyPos = 0 → r.copiesDone < r.copies → r.line = l → NoAccessOf j s →
         let done := { r' with copiesDone := r.copies }
         decideLine l s = decideLine l (setEngine l { engineAt t l with state := .idle, current := none }
           (retired j done .complete .none (setJob j done t)))))) ∧
  (∀ (l : Fin 4) (s : State),
     (engineAt s l).state ∈ [.off, .starved, .paused, .fault] ∨
       ((engineAt s l).state = .sending ∧ (engineAt s l).step ≠ .boundary) → decideLine l s = s)

/-- R80, R85, R86: the decision of a line at a byte boundary: the copy end first, then pause, separator, starve and fetch. A copy
end with a separator sets separator pending and goes on; one without completes the copy: an earlier copy is followed by the
decision for the next, and the last by the take rule of the line, now IDLE. -/
def Obligations.ByteBoundary : Prop :=
  ∀ (l : Fin 4) (j : Fin 16) (r : Job) (s : State), (engineAt s l).state = .sending → (engineAt s l).step = .boundary →
    currentJob s l = some (j, r) →
    let ended := r.sepPending = false ∧ atStoredEnd s r r.cursor = true ∧ r.intake = .closed
    (¬ended → decideLine l s = boundaryTests l r s) ∧
    (ended → r.separate = true →
      decideLine l s = boundaryTests l { r with sepPending := true } (setJob j { r with sepPending := true } s)) ∧
    (ended → r.separate = false → r.copiesDone + 1 < r.copies →
      let r' := { r with
        copiesDone := r.copiesDone + 1, cursor := r.head.map (fun b => { block := b, off := 0 }), copyPos := 0 }
      (Bounded l s → decideLine l s = decideLine l (setJob j r' s)) ∧
      (atStoredEnd s r' r'.cursor = false → decideLine l s = boundaryTests l r' (setJob j r' s))) ∧
    (ended → r.separate = false → r.copies ≤ r.copiesDone + 1 → r.output = .current → r.line = l → NoAccessOf j s →
      let t := setEngine l { engineAt s l with state := .idle, current := none }
        (retired j { r with copiesDone := r.copiesDone + 1 } .complete .none
          (setJob j { r with copiesDone := r.copiesDone + 1 } s))
      (Bounded l s → decideLine l s = decideLine l t) ∧
      ((engineAt s l).stop = true ∨ eligible s l = none → decideLine l s = t))

/-- R16, R17, R34, R36, R44, R63, R69, R134, R135, R137: retirement carries out its seven steps in one act: outcome and cause, the
purge of the job's entries, the target, the queue or the line, the blocks to the tail of the Free List head first, the
phases, and the hand-over: a record with the counter's value while the Completion Queue holds fewer than eight, else the
Post-Wait List. A scan of the job ends with GONE, a read of it in progress having been counted (log 13); a scan of another job
goes on. -/
def Obligations.Retirement : Prop :=
  ∀ (j : Fin 16) (r : Job) (o : JobOutcome) (c : Cause) (s : State), jobAt s j = some r →
    (NoAccessOf j s → retire j o c s = retired j r o c s) ∧
    (∀ err, s.spool.access = some (.verify err) → s.verify.job = j → retire j o c s = retired j r o c (scanRead err s))

/-- R156, R104, R115, R83, R89: a tick is counted by every armed timer, up to its limit (log 14), and the Time Base starts again
at 0; under a reset the row does nothing (log 7). An expiry is an event of its own (log 14): a hold timer at its limit × 16 and a
starve timer at its limit × 64 put their line into FAULT; an ack timer at its limit decides an undecided byte NOACK and is
disarmed (log 15), and in ACKWAIT it is reported, after an intake access of a cancelled job (log 13). The expiry of a timer that is disarmed, below its limit, or whose wait is over has no effect (log 10). -/
def Obligations.Timers : Prop :=
  (∀ s : State, inReset s = false → ∃ t, exec .tick s = .next t ∧
    (∀ l, engineAt t l = { engineAt s l with
      hold := (engineAt s l).hold.map (fun n => min (n + 1) ((engineAt s l).config.holdLimit.toNat * 16))
      starve := (engineAt s l).starve.map (fun n => min (n + 1) ((engineAt s l).config.starveLimit.toNat * 64)) }) ∧
    (∀ x, parAt t x = { parAt s x with
      ack := (parAt s x).ack.map (fun n => min (n + 1) (parAt s x).config.ackLimit.toNat) }) ∧
    { t with engines := s.engines, par := s.par, timeBase := s.timeBase } = s ∧
    t.timeBase = { s.timeBase with count := 0 }) ∧
  (∀ s : State, inReset s = true → exec .tick s = .next s) ∧
  (∀ (l : Fin 4) (s : State),
    let e := engineAt s l
    let holdDue := e.state = .sending ∧ e.step = .waiting ∧ ∃ n, e.hold = some n ∧ e.config.holdLimit.toNat * 16 ≤ n
    let starveDue := e.state = .starved ∧ ∃ n, e.starve = some n ∧ e.config.starveLimit.toNat * 64 ≤ n
    (holdDue → exec (.holdTimerExpiry l) s = .next (faulted l .holdtime s)) ∧
    (¬holdDue → exec (.holdTimerExpiry l) s = .next s) ∧
    (starveDue → exec (.starveTimerExpiry l) s = .next (faulted l .starve s)) ∧
    (¬starveDue → exec (.starveTimerExpiry l) s = .next s)) ∧
  (∀ (x : Fin 2) (s : State),
    let u := parAt s x
    let due := (∃ n, u.ack = some n ∧ u.config.ackLimit.toNat ≤ n) ∧ u.decided = none ∧
      u.handshake ≠ .rest ∧ u.handshake ≠ .waiting
    (due → u.handshake ≠ .ackwait →
      exec (.ackTimerExpiry x) s = .next (setPar x { u with decided := some .noack, ack := none } s)) ∧
    (due → u.handshake = .ackwait →
      exec (.ackTimerExpiry x) s = .next (evalIntake (failedNoack (parLine x) (parEnded x (reporting (parLine x)
        (setPar x { u with decided := some .noack, ack := none } s)))))) ∧
    (¬due → exec (.ackTimerExpiry x) s = .next s))

/-- R124, R126, R128: yGO changes the snapshot, and in GO mode it ends a wait when it goes active; a frame's last stop bit
delivers its byte. Under a reset only the pin changes (log 6), out of SHIFTING FRAME_END does nothing (log 10), and a report that
retires a cancelled job comes after an intake access of the job (log 13). -/
def Obligations.SerialTransmit : Prop :=
  ∀ (y : Fin 2) (s : State),
    let u := serAt s y
    let l := serLine y
    (∀ level, inReset s = true →
      exec (.goChange y level) s = .next (setSer y { u with pins := { u.pins with go := level } } s)) ∧
    (∀ level, inReset s = false →
      let seen := { u with pins := { u.pins with go := level }, snapshot := { u.snapshot with go := level } }
      (¬(u.config.flow = .go ∧ u.transmit = .waiting ∧ level = false) →
        exec (.goChange y level) s = .next (setSer y seen s)) ∧
      (∀ f, u.config.flow = .go → u.transmit = .waiting → level = false → (engineAt s l).fetched = some f →
        exec (.goChange y level) s = .next (setSer y (putSer seen f.value) (inFlight l f s)))) ∧
    (u.transmit ≠ .shifting → exec (.frameEnd y) s = .next s) ∧
    (u.transmit = .shifting → exec (.frameEnd y) s =
      let t := reporting l s
      .next (evalIntake (delivered l (setSer y { serAt t y with transmit := .rest, bitIndex := 0, bitClks := 0 } t))))

/-- R129, R130, R124: the receiver. Each row gives the level at yRXD, which the snapshot follows after two CLK periods and not
before; a level that has changed is counted from 0 (log 6). MARKWAIT ends at mark; in HUNT a fall to space begins a character and half
a bit later mark was noise and space begins the bits; at the stop bit a framing error goes to MARKWAIT, a parity error is
discarded, XOFF sets the xoff flag and any other good character but XON is discarded. A row out of its receiver state gives
the level alone (log 10). The receiver moves by these rows alone, out of MARKWAIT by RXD_MARK (log 22). -/
def Obligations.Receiver : Prop :=
  ∀ (y : Fin 2) (s : State),
    let u := serAt s y
    let seen := fun level : Bool =>
      { u with pins := { u.pins with rxd := level }, rxdClks := if u.pins.rxd = level then u.rxdClks else 0 }
    (exec (.rxdMark y) s = .next (setSer y (
      if u.receiver = .markwait then { seen true with receiver := .hunt, startSeen := false } else seen true) s)) ∧
    (exec (.startBit y) s = .next (setSer y (
      if u.receiver = .hunt then { seen false with startSeen := true } else seen false) s)) ∧
    (∀ level, exec (.startBitSample y level) s = .next (setSer y (
      if u.receiver = .hunt ∧ u.startSeen = true then
        { seen level with startSeen := false, receiver := if level then .hunt else .receiving }
      else seen level) s)) ∧
    (∀ data parity stop,
      let sent := if u.config.seven then data &&& 0x7F#8 else data
      let ended := { seen stop with rxData := sent, rxParity := parity, startSeen := false }
      let ones := (onesIn sent + parity.toNat) % 2
      let good := u.config.parity = .none ∨ (u.config.parity = .odd ∧ ones = 1) ∨ (u.config.parity = .even ∧ ones = 0)
      (u.receiver ≠ .receiving → exec (.receivedCharacter y data parity stop) s = .next (setSer y (seen stop) s)) ∧
      (u.receiver = .receiving → stop = false →
        exec (.receivedCharacter y data parity stop) s = .next (setSer y { ended with receiver := .markwait } s)) ∧
      (u.receiver = .receiving → stop = true → ¬good ∨ (sent ≠ 0x13#8 ∧ sent ≠ 0x11#8) →
        exec (.receivedCharacter y data parity stop) s = .next (setSer y { ended with receiver := .hunt } s)) ∧
      (u.receiver = .receiving → stop = true → good → sent = 0x13#8 →
        exec (.receivedCharacter y data parity stop) s = .next (setSer y { ended with receiver := .hunt, xoff := true } s)) ∧
      (u.receiver = .receiving → stop = true → good → sent = 0x11#8 →
        ¬(u.config.flow = .xonxoff ∧ u.transmit = .waiting) →
        exec (.receivedCharacter y data parity stop) s = .next (setSer y { ended with receiver := .hunt, xoff := false } s)) ∧
      (∀ f, u.receiver = .receiving → stop = true → good → sent = 0x11#8 → u.config.flow = .xonxoff →
        u.transmit = .waiting → (engineAt s (serLine y)).fetched = some f →
        exec (.receivedCharacter y data parity stop) s = .next (setSer y
          (putSer { ended with receiver := .hunt, xoff := false } f.value) (inFlight (serLine y) f s))))

/-- R127: a frame is one start bit at space, the data bits least significant first, a parity bit that makes the ones odd or even
when the line has parity, and one or two stop bits at mark: 9 to 12 bits, with yTXD at mark outside a frame. -/
def Obligations.FrameFormat : Prop :=
  ∀ (c : SerConfig) (b : Byte),
    let d := if c.seven then 7 else 8
    let p := if c.parity = .none then 0 else 1
    let f := frameLevels c b
    f.length = 1 + d + p + (if c.twoStop then 2 else 1) ∧
    f.getD 0 true = false ∧
    (∀ i, i < d → f.getD (1 + i) true = b.getLsbD i) ∧
    (c.parity ≠ .none → ((f.drop 1).take (d + 1)).count true % 2 = (if c.parity = .odd then 1 else 0)) ∧
    (∀ i, 1 + d + p ≤ i → f.getD i true = true) ∧
    (∀ u : SerUnit, (u.transmit ≠ .shifting → yTxd u = true) ∧
      (u.transmit = .shifting → yTxd u = (frameLevels u.config u.frameByte).getD u.bitIndex true))

/-! ## What holds of every step -/

/-- R26, R31, R54: the store's contents stay in canonical form and are written only where the store has a place. -/
def Obligations.StepKeepsStoreSafe : Prop :=
  ∀ s t : State, StoreSafe s → step s = .next t → StoreSafe t

/-- R6, R8, R16, R30, R31, R32, R48, R51, R66, R79, R108, R123, R136, R137: whatever a step takes, a command or a CLK period, the laws
of the part are kept, with the facts about chains, cursors and fetched bytes that hold them up (Safety.lean names each): the
Intake FIFO and its jobs, the target, CLOSING jobs and their entries, the counts of a job, the queues, the current jobs and their
lines, the engines and their units, the blocks, the FINISHED jobs, the completion reports, and on its own that the records
carry consecutive sequence numbers. -/
def Obligations.StepKeepsTheLaws : Prop :=
  ∀ s t : State, step s = .next t → (Kept s → Kept t) ∧ (recordsLaw s.completion = true → recordsLaw t.completion = true)

/-- R152, R153, R154, R156, R103, R119, R131: whatever a step takes, a command or a CLK period, but for the resets: a flag that is
set stays set unless a write to EVENT names it; ENABLE, the TICK setting and INVCHK change only by the commands that write
them; and the configurations of the lines only by LINE SET, as a row or by the write of its last parameter. -/
def Obligations.HostOwnsItsSettings : Prop :=
  ∀ s t : State, (∀ c, s.pending.head? = some c → c.wf = true ∧ resets c = false) → step s = .next t →
    let front := s.pending.head?
    (∀ i, (∀ b, front = some (.eventWrite b) → b.getLsbD i = false) →
      s.events.flags.getLsbD i = true → t.events.flags.getLsbD i = true) ∧
    ((∀ b, front ≠ some (.enableWrite b)) → t.events.enable = s.events.enable) ∧
    ((∀ b, front ≠ some (.tickWrite b)) → t.timeBase.setting = s.timeBase.setting) ∧
    ((∀ b, front ≠ some (.invchk b)) → t.window.invchk = s.window.invchk) ∧
    ((∀ a b c d e f g h, front ≠ some (.lineSet a b c d e f g h)) →
      ((∀ b, front ≠ some (.parameterWrite b)) ∨ s.port.state ≠ .collecting ∨ s.port.staged ≠ some .lineSet ∨
        s.port.staging.length < 7) →
      (∀ l, (engineAt t l).config = (engineAt s l).config) ∧ (∀ x, (parAt t x).config = (parAt s x).config) ∧
      (∀ y, (serAt t y).config = (serAt s y).config))

/-- R1, R5, R6, R13, R23: whatever a step takes, a command or a CLK period, a slot is freed only by TAKE, as a row or by its code,
and the resets. While it stays occupied its job's options, copies and quota stay as OPEN gave them, its intake phase does not go
back, its stored count, copies done, total delivered and check errors do not fall, and truncated and any released stay set. -/
def Obligations.JobsOnlyAdvance : Prop :=
  ∀ (s t : State) (j : Fin 16) (r : Job),
    (∀ c, s.pending.head? = some c → c.wf = true ∧ resets c = false ∧ c ≠ .take ∧ c ≠ .commandWrite 0x1A#8) →
    portLaw s.port = true → step s = .next t → jobAt s j = some r →
    ∃ r', jobAt t j = some r' ∧
      r'.urgent = r.urgent ∧ r'.early = r.early ∧ r'.retain = r.retain ∧ r'.separate = r.separate ∧
      r'.copies = r.copies ∧ r'.quota = r.quota ∧
      (r.intake = .closed → r'.intake = .closed) ∧ (r.intake = .closing → r'.intake ≠ .opened) ∧
      r.stored ≤ r'.stored ∧ r.copiesDone ≤ r'.copiesDone ∧ r.total ≤ r'.total ∧ r.checkErrors ≤ r'.checkErrors ∧
      (r.truncated = true → r'.truncated = true) ∧ (r.anyReleased = true → r'.anyReleased = true)

/-- R26, R33, R34, R38: whatever a step takes, a command or a CLK period: the store's contents change only while an intake access is
in progress, or by a power-on reset; and but for the resets and the end of a build, a block leaves the Free List, and the
pointer moves, only at a grant, and blocks that join the list join it at its tail. -/
def Obligations.StoreChangesOnlyAtAccesses : Prop :=
  ∀ s t : State, (∀ c, s.pending.head? = some c → c.wf = true) → step s = .next t →
    let front := s.pending.head?
    (NotStoring s → front ≠ some .powerOnReset → t.spool.bytes = s.spool.bytes ∧ t.spool.checks = s.spool.checks) ∧
    ((∀ c, front = some c → resets c = false) → front ≠ some .storeGrant → t.window.ready = s.window.ready →
      s.spool.freeList <+: t.spool.freeList ∧ t.spool.pointer = s.spool.pointer)
end

