-- ==== Sys2Proof/Laws/Memory.lean ====
section
/-! SUPPORT. The store's contents: a read after a write, and the canonical form, which every write keeps. -/

namespace Sys2Proof.Machine

-- One after another: side by side the proofs would each wait in a thread of their own.
set_option Elab.async false

/-- A read below every entry finds what an unlisted position reads as. -/
theorem Memory.read_below {w : Nat} (m : Memory w) (lo a : Nat) (h : Memory.wfFrom lo m = true) (ha : a < lo) :
    Memory.read m a = Memory.unlisted w := by
  induction m generalizing lo with
  | nil => rfl
  | cons e m ih =>
    obtain ⟨k, v⟩ := e
    simp only [Memory.wfFrom, Bool.and_eq_true, decide_eq_true_eq] at h
    have : k ≠ a := by omega
    simp only [Memory.read, this, if_false]
    exact ih (k + 1) h.2 (by omega)

/-- A canonical form above one bound is one above any lower bound. -/
theorem Memory.wfFrom_mono {w : Nat} (m : Memory w) (lo lo' : Nat) (h : Memory.wfFrom lo m = true) (hl : lo' ≤ lo) :
    Memory.wfFrom lo' m = true := by
  cases m with
  | nil => rfl
  | cons e m =>
    obtain ⟨k, v⟩ := e
    simp only [Memory.wfFrom, Bool.and_eq_true, decide_eq_true_eq] at h ⊢
    exact ⟨⟨⟨by omega, h.1.1.2⟩, h.1.2⟩, h.2⟩

/-- A read of the address written gives the value written. -/
theorem Memory.read_write_same {w : Nat} (m : Memory w) (lo a : Nat) (v : BitVec w) (h : Memory.wfFrom lo m = true) :
    Memory.read (Memory.write m a v) a = v := by
  induction m generalizing lo with
  | nil =>
    by_cases hv : v = Memory.unlisted w
    · simp [Memory.write, hv, Memory.read]
    · simp [Memory.write, hv, Memory.read]
  | cons e m ih =>
    obtain ⟨k, x⟩ := e
    simp only [Memory.wfFrom, Bool.and_eq_true, decide_eq_true_eq] at h
    have htail := h.2
    by_cases h1 : a < k
    · by_cases hv : v = Memory.unlisted w
      · have : k ≠ a := by omega
        simp only [Memory.write, h1, hv, if_true, Memory.read, this, if_false]
        exact Memory.read_below m (k + 1) a htail (by omega)
      · simp [Memory.write, h1, hv, Memory.read]
    · by_cases h2 : a = k
      · by_cases hv : v = Memory.unlisted w
        · simp only [Memory.write, h2, hv, if_true, if_false, lt_irrefl]
          exact Memory.read_below m (k + 1) k htail (by omega)
        · simp [Memory.write, h2, hv, Memory.read]
      · have h3 : k ≠ a := fun e => h2 e.symm
        simp only [Memory.write, h1, h2, if_false, Memory.read, h3]
        exact ih (k + 1) htail

/-- A read of any other address gives what it gave before the write. -/
theorem Memory.read_write_other {w : Nat} (m : Memory w) (lo a b : Nat) (v : BitVec w) (h : Memory.wfFrom lo m = true)
    (hab : b ≠ a) : Memory.read (Memory.write m a v) b = Memory.read m b := by
  induction m generalizing lo with
  | nil =>
    by_cases hv : v = Memory.unlisted w
    · simp [Memory.write, hv]
    · have : a ≠ b := fun e => hab e.symm
      simp [Memory.write, hv, Memory.read, this]
  | cons e m ih =>
    obtain ⟨k, x⟩ := e
    simp only [Memory.wfFrom, Bool.and_eq_true, decide_eq_true_eq] at h
    have htail := h.2
    have hba : a ≠ b := fun e => hab e.symm
    by_cases h1 : a < k
    · by_cases hv : v = Memory.unlisted w
      · simp only [Memory.write, h1, hv, if_true]
      · simp only [Memory.write, h1, hv, if_true, if_false, Memory.read, hba]
    · by_cases h2 : a = k
      · have hkb : k ≠ b := fun e => hba (h2.trans e)
        by_cases hv : v = Memory.unlisted w
        · simp only [Memory.write, h2, hv, if_true, if_false, lt_irrefl, Memory.read, hkb]
        · simp only [Memory.write, h2, hv, if_true, if_false, lt_irrefl, Memory.read, hkb]
      · simp only [Memory.write, h1, h2, if_false, Memory.read]
        rw [ih (k + 1) htail]

/-- A write inside the store keeps the canonical form above any bound at or below the address. -/
theorem Memory.write_keeps_wfFrom {w : Nat} (m : Memory w) (lo a : Nat) (v : BitVec w) (h : Memory.wfFrom lo m = true)
    (hlo : lo ≤ a) (ha : a < Memory.size) : Memory.wfFrom lo (Memory.write m a v) = true := by
  induction m generalizing lo with
  | nil =>
    by_cases hv : v = Memory.unlisted w
    · simp [Memory.write, hv, Memory.wfFrom]
    · simp [Memory.write, hv, Memory.wfFrom, hlo, ha]
  | cons e m ih =>
    obtain ⟨k, x⟩ := e
    simp only [Memory.wfFrom, Bool.and_eq_true, decide_eq_true_eq] at h
    obtain ⟨⟨⟨hk, hks⟩, hx⟩, htail⟩ := h
    by_cases h1 : a < k
    · by_cases hv : v = Memory.unlisted w
      · simp [Memory.write, h1, hv, Memory.wfFrom, hk, hks, hx, htail]
      · have hak : a + 1 ≤ k := h1
        simp [Memory.write, h1, hv, Memory.wfFrom, hks, hx, htail, hlo, ha, hak]
    · by_cases h2 : a = k
      · by_cases hv : v = Memory.unlisted w
        · simp only [Memory.write, h2, hv, if_true, if_false, lt_irrefl]
          exact Memory.wfFrom_mono m (k + 1) lo htail (by omega)
        · simp [Memory.write, h2, hv, Memory.wfFrom, hk, hks, htail]
      · simp only [Memory.write, h1, h2, if_false, Memory.wfFrom, Bool.and_eq_true, decide_eq_true_eq]
        exact ⟨⟨⟨hk, hks⟩, hx⟩, ih (k + 1) htail (by omega)⟩

/-- A write inside the store keeps the canonical form. -/
theorem Memory.write_keeps_wf {w : Nat} (m : Memory w) (a : Nat) (v : BitVec w) (h : Memory.wf m = true)
    (ha : a < Memory.size) : Memory.wf (Memory.write m a v) = true :=
  Memory.write_keeps_wfFrom m 0 a v h (Nat.zero_le a) ha

/-- The contents at reset have the canonical form. -/
theorem Spool.reset_wf : Memory.wf Spool.reset.bytes = true ∧ Memory.wf Spool.reset.checks = true := by decide

/-- An offset below 256 has an address inside the store. -/
theorem Pos.addr_lt_size (p : Pos) (h : p.off < Config.blockBytes) : p.addr < Memory.size := by
  have hb := p.block.isLt
  simp only [Pos.addr, Memory.size, Config.blocks, Config.blockBytes] at *
  omega

/-- Two positions with offsets below 256 and one address are one position. -/
theorem Pos.addr_inj (p q : Pos) (hp : p.off < Config.blockBytes) (hq : q.off < Config.blockBytes) (h : p.addr = q.addr) :
    p = q := by
  obtain ⟨pb, po⟩ := p
  obtain ⟨qb, qo⟩ := q
  simp only [Pos.addr, Config.blockBytes] at *
  have : pb.val = qb.val := by omega
  have hb : pb = qb := Fin.ext this
  subst hb
  simp only [Pos.mk.injEq, true_and]
  omega

end Sys2Proof.Machine
end

