-- ==== Sys2Proof/Laws/State.lean ====
section
/-! SUPPORT. The small lemmas of the named updates: what each leaves as it was, field by field, and what a table reads
after an entry is written. -/

namespace Sys2Proof.Machine

-- One after another: side by side the proofs would each wait in a thread of their own.
set_option Elab.async false

@[simp] theorem tab_setTab_same {α : Type} {n : Nat} (v : Vector α n) (i : Fin n) (x : α) : tab (setTab v i x) i = x := by
  simp [tab, setTab]

@[simp] theorem tab_setTab {α : Type} {n : Nat} (v : Vector α n) (i k : Fin n) (x : α) :
    tab (setTab v i x) k = if k = i then x else tab v k := by
  unfold tab setTab
  by_cases h : k = i
  · simp [h]
  · have : i.val ≠ k.val := fun e => h (Fin.ext e.symm)
    simp [h, this]

theorem tab_setTab_ne {α : Type} {n : Nat} {v : Vector α n} {i k : Fin n} (h : k ≠ i) (x : α) :
    tab (setTab v i x) k = tab v k := by
  simp [h]

/-- Writing back what a table holds changes nothing. -/
theorem setTab_tab {α : Type} {n : Nat} (v : Vector α n) (i : Fin n) : setTab v i (tab v i) = v := by
  simp [tab, setTab]

@[simp] theorem raise_pending (e : Ev) (s : State) : (raise e s).pending = s.pending := rfl
@[simp] theorem raise_window (e : Ev) (s : State) : (raise e s).window = s.window := rfl
@[simp] theorem raise_jobs (e : Ev) (s : State) : (raise e s).jobs = s.jobs := rfl
@[simp] theorem raise_spool (e : Ev) (s : State) : (raise e s).spool = s.spool := rfl
@[simp] theorem raise_verify (e : Ev) (s : State) : (raise e s).verify = s.verify := rfl
@[simp] theorem raise_intake (e : Ev) (s : State) : (raise e s).intake = s.intake := rfl
@[simp] theorem raise_queues (e : Ev) (s : State) : (raise e s).queues = s.queues := rfl
@[simp] theorem raise_engines (e : Ev) (s : State) : (raise e s).engines = s.engines := rfl
@[simp] theorem raise_par (e : Ev) (s : State) : (raise e s).par = s.par := rfl
@[simp] theorem raise_ser (e : Ev) (s : State) : (raise e s).ser = s.ser := rfl
@[simp] theorem raise_completion (e : Ev) (s : State) : (raise e s).completion = s.completion := rfl
@[simp] theorem raise_port (e : Ev) (s : State) : (raise e s).port = s.port := rfl
@[simp] theorem raise_timeBase (e : Ev) (s : State) : (raise e s).timeBase = s.timeBase := rfl
@[simp] theorem raise_fresh (e : Ev) (s : State) : (raise e s).fresh = s.fresh := rfl

@[simp] theorem setJob_pending (j : Fin 16) (r : Job) (s : State) : (setJob j r s).pending = s.pending := rfl
@[simp] theorem setJob_window (j : Fin 16) (r : Job) (s : State) : (setJob j r s).window = s.window := rfl
@[simp] theorem setJob_spool (j : Fin 16) (r : Job) (s : State) : (setJob j r s).spool = s.spool := rfl
@[simp] theorem setJob_verify (j : Fin 16) (r : Job) (s : State) : (setJob j r s).verify = s.verify := rfl
@[simp] theorem setJob_intake (j : Fin 16) (r : Job) (s : State) : (setJob j r s).intake = s.intake := rfl
@[simp] theorem setJob_queues (j : Fin 16) (r : Job) (s : State) : (setJob j r s).queues = s.queues := rfl
@[simp] theorem setJob_engines (j : Fin 16) (r : Job) (s : State) : (setJob j r s).engines = s.engines := rfl
@[simp] theorem setJob_par (j : Fin 16) (r : Job) (s : State) : (setJob j r s).par = s.par := rfl
@[simp] theorem setJob_ser (j : Fin 16) (r : Job) (s : State) : (setJob j r s).ser = s.ser := rfl
@[simp] theorem setJob_completion (j : Fin 16) (r : Job) (s : State) : (setJob j r s).completion = s.completion := rfl
@[simp] theorem setJob_port (j : Fin 16) (r : Job) (s : State) : (setJob j r s).port = s.port := rfl
@[simp] theorem setJob_events (j : Fin 16) (r : Job) (s : State) : (setJob j r s).events = s.events := rfl
@[simp] theorem setJob_timeBase (j : Fin 16) (r : Job) (s : State) : (setJob j r s).timeBase = s.timeBase := rfl
@[simp] theorem setJob_fresh (j : Fin 16) (r : Job) (s : State) : (setJob j r s).fresh = s.fresh := rfl

@[simp] theorem freeSlot_pending (j : Fin 16) (s : State) : (freeSlot j s).pending = s.pending := rfl
@[simp] theorem freeSlot_window (j : Fin 16) (s : State) : (freeSlot j s).window = s.window := rfl
@[simp] theorem freeSlot_spool (j : Fin 16) (s : State) : (freeSlot j s).spool = s.spool := rfl
@[simp] theorem freeSlot_verify (j : Fin 16) (s : State) : (freeSlot j s).verify = s.verify := rfl
@[simp] theorem freeSlot_intake (j : Fin 16) (s : State) : (freeSlot j s).intake = s.intake := rfl
@[simp] theorem freeSlot_queues (j : Fin 16) (s : State) : (freeSlot j s).queues = s.queues := rfl
@[simp] theorem freeSlot_engines (j : Fin 16) (s : State) : (freeSlot j s).engines = s.engines := rfl
@[simp] theorem freeSlot_par (j : Fin 16) (s : State) : (freeSlot j s).par = s.par := rfl
@[simp] theorem freeSlot_ser (j : Fin 16) (s : State) : (freeSlot j s).ser = s.ser := rfl
@[simp] theorem freeSlot_completion (j : Fin 16) (s : State) : (freeSlot j s).completion = s.completion := rfl
@[simp] theorem freeSlot_port (j : Fin 16) (s : State) : (freeSlot j s).port = s.port := rfl
@[simp] theorem freeSlot_events (j : Fin 16) (s : State) : (freeSlot j s).events = s.events := rfl
@[simp] theorem freeSlot_timeBase (j : Fin 16) (s : State) : (freeSlot j s).timeBase = s.timeBase := rfl
@[simp] theorem freeSlot_fresh (j : Fin 16) (s : State) : (freeSlot j s).fresh = s.fresh := rfl

@[simp] theorem setEngine_pending (l : Fin 4) (e : Engine) (s : State) : (setEngine l e s).pending = s.pending := rfl
@[simp] theorem setEngine_window (l : Fin 4) (e : Engine) (s : State) : (setEngine l e s).window = s.window := rfl
@[simp] theorem setEngine_jobs (l : Fin 4) (e : Engine) (s : State) : (setEngine l e s).jobs = s.jobs := rfl
@[simp] theorem setEngine_spool (l : Fin 4) (e : Engine) (s : State) : (setEngine l e s).spool = s.spool := rfl
@[simp] theorem setEngine_verify (l : Fin 4) (e : Engine) (s : State) : (setEngine l e s).verify = s.verify := rfl
@[simp] theorem setEngine_intake (l : Fin 4) (e : Engine) (s : State) : (setEngine l e s).intake = s.intake := rfl
@[simp] theorem setEngine_queues (l : Fin 4) (e : Engine) (s : State) : (setEngine l e s).queues = s.queues := rfl
@[simp] theorem setEngine_par (l : Fin 4) (e : Engine) (s : State) : (setEngine l e s).par = s.par := rfl
@[simp] theorem setEngine_ser (l : Fin 4) (e : Engine) (s : State) : (setEngine l e s).ser = s.ser := rfl
@[simp] theorem setEngine_completion (l : Fin 4) (e : Engine) (s : State) : (setEngine l e s).completion = s.completion := rfl
@[simp] theorem setEngine_port (l : Fin 4) (e : Engine) (s : State) : (setEngine l e s).port = s.port := rfl
@[simp] theorem setEngine_events (l : Fin 4) (e : Engine) (s : State) : (setEngine l e s).events = s.events := rfl
@[simp] theorem setEngine_timeBase (l : Fin 4) (e : Engine) (s : State) : (setEngine l e s).timeBase = s.timeBase := rfl
@[simp] theorem setEngine_fresh (l : Fin 4) (e : Engine) (s : State) : (setEngine l e s).fresh = s.fresh := rfl

@[simp] theorem setQueue_pending (l : Fin 4) (q : LineQueue) (s : State) : (setQueue l q s).pending = s.pending := rfl
@[simp] theorem setQueue_window (l : Fin 4) (q : LineQueue) (s : State) : (setQueue l q s).window = s.window := rfl
@[simp] theorem setQueue_jobs (l : Fin 4) (q : LineQueue) (s : State) : (setQueue l q s).jobs = s.jobs := rfl
@[simp] theorem setQueue_spool (l : Fin 4) (q : LineQueue) (s : State) : (setQueue l q s).spool = s.spool := rfl
@[simp] theorem setQueue_verify (l : Fin 4) (q : LineQueue) (s : State) : (setQueue l q s).verify = s.verify := rfl
@[simp] theorem setQueue_intake (l : Fin 4) (q : LineQueue) (s : State) : (setQueue l q s).intake = s.intake := rfl
@[simp] theorem setQueue_engines (l : Fin 4) (q : LineQueue) (s : State) : (setQueue l q s).engines = s.engines := rfl
@[simp] theorem setQueue_par (l : Fin 4) (q : LineQueue) (s : State) : (setQueue l q s).par = s.par := rfl
@[simp] theorem setQueue_ser (l : Fin 4) (q : LineQueue) (s : State) : (setQueue l q s).ser = s.ser := rfl
@[simp] theorem setQueue_completion (l : Fin 4) (q : LineQueue) (s : State) : (setQueue l q s).completion = s.completion := rfl
@[simp] theorem setQueue_port (l : Fin 4) (q : LineQueue) (s : State) : (setQueue l q s).port = s.port := rfl
@[simp] theorem setQueue_events (l : Fin 4) (q : LineQueue) (s : State) : (setQueue l q s).events = s.events := rfl
@[simp] theorem setQueue_timeBase (l : Fin 4) (q : LineQueue) (s : State) : (setQueue l q s).timeBase = s.timeBase := rfl
@[simp] theorem setQueue_fresh (l : Fin 4) (q : LineQueue) (s : State) : (setQueue l q s).fresh = s.fresh := rfl

@[simp] theorem setPar_pending (x : Fin 2) (u : ParUnit) (s : State) : (setPar x u s).pending = s.pending := rfl
@[simp] theorem setPar_window (x : Fin 2) (u : ParUnit) (s : State) : (setPar x u s).window = s.window := rfl
@[simp] theorem setPar_jobs (x : Fin 2) (u : ParUnit) (s : State) : (setPar x u s).jobs = s.jobs := rfl
@[simp] theorem setPar_spool (x : Fin 2) (u : ParUnit) (s : State) : (setPar x u s).spool = s.spool := rfl
@[simp] theorem setPar_verify (x : Fin 2) (u : ParUnit) (s : State) : (setPar x u s).verify = s.verify := rfl
@[simp] theorem setPar_intake (x : Fin 2) (u : ParUnit) (s : State) : (setPar x u s).intake = s.intake := rfl
@[simp] theorem setPar_queues (x : Fin 2) (u : ParUnit) (s : State) : (setPar x u s).queues = s.queues := rfl
@[simp] theorem setPar_engines (x : Fin 2) (u : ParUnit) (s : State) : (setPar x u s).engines = s.engines := rfl
@[simp] theorem setPar_ser (x : Fin 2) (u : ParUnit) (s : State) : (setPar x u s).ser = s.ser := rfl
@[simp] theorem setPar_completion (x : Fin 2) (u : ParUnit) (s : State) : (setPar x u s).completion = s.completion := rfl
@[simp] theorem setPar_port (x : Fin 2) (u : ParUnit) (s : State) : (setPar x u s).port = s.port := rfl
@[simp] theorem setPar_events (x : Fin 2) (u : ParUnit) (s : State) : (setPar x u s).events = s.events := rfl
@[simp] theorem setPar_timeBase (x : Fin 2) (u : ParUnit) (s : State) : (setPar x u s).timeBase = s.timeBase := rfl
@[simp] theorem setPar_fresh (x : Fin 2) (u : ParUnit) (s : State) : (setPar x u s).fresh = s.fresh := rfl

@[simp] theorem setSer_pending (y : Fin 2) (u : SerUnit) (s : State) : (setSer y u s).pending = s.pending := rfl
@[simp] theorem setSer_window (y : Fin 2) (u : SerUnit) (s : State) : (setSer y u s).window = s.window := rfl
@[simp] theorem setSer_jobs (y : Fin 2) (u : SerUnit) (s : State) : (setSer y u s).jobs = s.jobs := rfl
@[simp] theorem setSer_spool (y : Fin 2) (u : SerUnit) (s : State) : (setSer y u s).spool = s.spool := rfl
@[simp] theorem setSer_verify (y : Fin 2) (u : SerUnit) (s : State) : (setSer y u s).verify = s.verify := rfl
@[simp] theorem setSer_intake (y : Fin 2) (u : SerUnit) (s : State) : (setSer y u s).intake = s.intake := rfl
@[simp] theorem setSer_queues (y : Fin 2) (u : SerUnit) (s : State) : (setSer y u s).queues = s.queues := rfl
@[simp] theorem setSer_engines (y : Fin 2) (u : SerUnit) (s : State) : (setSer y u s).engines = s.engines := rfl
@[simp] theorem setSer_par (y : Fin 2) (u : SerUnit) (s : State) : (setSer y u s).par = s.par := rfl
@[simp] theorem setSer_completion (y : Fin 2) (u : SerUnit) (s : State) : (setSer y u s).completion = s.completion := rfl
@[simp] theorem setSer_port (y : Fin 2) (u : SerUnit) (s : State) : (setSer y u s).port = s.port := rfl
@[simp] theorem setSer_events (y : Fin 2) (u : SerUnit) (s : State) : (setSer y u s).events = s.events := rfl
@[simp] theorem setSer_timeBase (y : Fin 2) (u : SerUnit) (s : State) : (setSer y u s).timeBase = s.timeBase := rfl
@[simp] theorem setSer_fresh (y : Fin 2) (u : SerUnit) (s : State) : (setSer y u s).fresh = s.fresh := rfl

@[simp] theorem setLink_pending (b : Fin 128) (x : Option (Fin 128)) (s : State) : (setLink b x s).pending = s.pending := rfl
@[simp] theorem setLink_window (b : Fin 128) (x : Option (Fin 128)) (s : State) : (setLink b x s).window = s.window := rfl
@[simp] theorem setLink_jobs (b : Fin 128) (x : Option (Fin 128)) (s : State) : (setLink b x s).jobs = s.jobs := rfl
@[simp] theorem setLink_verify (b : Fin 128) (x : Option (Fin 128)) (s : State) : (setLink b x s).verify = s.verify := rfl
@[simp] theorem setLink_intake (b : Fin 128) (x : Option (Fin 128)) (s : State) : (setLink b x s).intake = s.intake := rfl
@[simp] theorem setLink_queues (b : Fin 128) (x : Option (Fin 128)) (s : State) : (setLink b x s).queues = s.queues := rfl
@[simp] theorem setLink_engines (b : Fin 128) (x : Option (Fin 128)) (s : State) : (setLink b x s).engines = s.engines := rfl
@[simp] theorem setLink_par (b : Fin 128) (x : Option (Fin 128)) (s : State) : (setLink b x s).par = s.par := rfl
@[simp] theorem setLink_ser (b : Fin 128) (x : Option (Fin 128)) (s : State) : (setLink b x s).ser = s.ser := rfl
@[simp] theorem setLink_completion (b : Fin 128) (x : Option (Fin 128)) (s : State) : (setLink b x s).completion = s.completion := rfl
@[simp] theorem setLink_port (b : Fin 128) (x : Option (Fin 128)) (s : State) : (setLink b x s).port = s.port := rfl
@[simp] theorem setLink_events (b : Fin 128) (x : Option (Fin 128)) (s : State) : (setLink b x s).events = s.events := rfl
@[simp] theorem setLink_timeBase (b : Fin 128) (x : Option (Fin 128)) (s : State) : (setLink b x s).timeBase = s.timeBase := rfl
@[simp] theorem setLink_fresh (b : Fin 128) (x : Option (Fin 128)) (s : State) : (setLink b x s).fresh = s.fresh := rfl

@[simp] theorem finish_pending (bs : List Byte) (s : State) : (finish bs s).pending = s.pending := rfl
@[simp] theorem finish_window (bs : List Byte) (s : State) : (finish bs s).window = s.window := rfl
@[simp] theorem finish_jobs (bs : List Byte) (s : State) : (finish bs s).jobs = s.jobs := rfl
@[simp] theorem finish_spool (bs : List Byte) (s : State) : (finish bs s).spool = s.spool := rfl
@[simp] theorem finish_verify (bs : List Byte) (s : State) : (finish bs s).verify = s.verify := rfl
@[simp] theorem finish_intake (bs : List Byte) (s : State) : (finish bs s).intake = s.intake := rfl
@[simp] theorem finish_queues (bs : List Byte) (s : State) : (finish bs s).queues = s.queues := rfl
@[simp] theorem finish_engines (bs : List Byte) (s : State) : (finish bs s).engines = s.engines := rfl
@[simp] theorem finish_par (bs : List Byte) (s : State) : (finish bs s).par = s.par := rfl
@[simp] theorem finish_ser (bs : List Byte) (s : State) : (finish bs s).ser = s.ser := rfl
@[simp] theorem finish_completion (bs : List Byte) (s : State) : (finish bs s).completion = s.completion := rfl
@[simp] theorem finish_timeBase (bs : List Byte) (s : State) : (finish bs s).timeBase = s.timeBase := rfl
@[simp] theorem finish_fresh (bs : List Byte) (s : State) : (finish bs s).fresh = s.fresh := rfl

@[simp] theorem finishCode_pending (c : Code) (s : State) : (finishCode c s).pending = s.pending := rfl
@[simp] theorem finishCode_window (c : Code) (s : State) : (finishCode c s).window = s.window := rfl
@[simp] theorem finishCode_jobs (c : Code) (s : State) : (finishCode c s).jobs = s.jobs := rfl
@[simp] theorem finishCode_spool (c : Code) (s : State) : (finishCode c s).spool = s.spool := rfl
@[simp] theorem finishCode_verify (c : Code) (s : State) : (finishCode c s).verify = s.verify := rfl
@[simp] theorem finishCode_intake (c : Code) (s : State) : (finishCode c s).intake = s.intake := rfl
@[simp] theorem finishCode_queues (c : Code) (s : State) : (finishCode c s).queues = s.queues := rfl
@[simp] theorem finishCode_engines (c : Code) (s : State) : (finishCode c s).engines = s.engines := rfl
@[simp] theorem finishCode_par (c : Code) (s : State) : (finishCode c s).par = s.par := rfl
@[simp] theorem finishCode_ser (c : Code) (s : State) : (finishCode c s).ser = s.ser := rfl
@[simp] theorem finishCode_completion (c : Code) (s : State) : (finishCode c s).completion = s.completion := rfl
@[simp] theorem finishCode_timeBase (c : Code) (s : State) : (finishCode c s).timeBase = s.timeBase := rfl
@[simp] theorem finishCode_fresh (c : Code) (s : State) : (finishCode c s).fresh = s.fresh := rfl

@[simp] theorem portExecuting_pending (s : State) : (portExecuting s).pending = s.pending := rfl
@[simp] theorem portExecuting_window (s : State) : (portExecuting s).window = s.window := rfl
@[simp] theorem portExecuting_jobs (s : State) : (portExecuting s).jobs = s.jobs := rfl
@[simp] theorem portExecuting_spool (s : State) : (portExecuting s).spool = s.spool := rfl
@[simp] theorem portExecuting_verify (s : State) : (portExecuting s).verify = s.verify := rfl
@[simp] theorem portExecuting_intake (s : State) : (portExecuting s).intake = s.intake := rfl
@[simp] theorem portExecuting_queues (s : State) : (portExecuting s).queues = s.queues := rfl
@[simp] theorem portExecuting_engines (s : State) : (portExecuting s).engines = s.engines := rfl
@[simp] theorem portExecuting_par (s : State) : (portExecuting s).par = s.par := rfl
@[simp] theorem portExecuting_ser (s : State) : (portExecuting s).ser = s.ser := rfl
@[simp] theorem portExecuting_completion (s : State) : (portExecuting s).completion = s.completion := rfl
@[simp] theorem portExecuting_events (s : State) : (portExecuting s).events = s.events := rfl
@[simp] theorem portExecuting_timeBase (s : State) : (portExecuting s).timeBase = s.timeBase := rfl
@[simp] theorem portExecuting_fresh (s : State) : (portExecuting s).fresh = s.fresh := rfl

@[simp] theorem jobAt_raise (e : Ev) (s : State) (k : Fin 16) : jobAt (raise e s) k = jobAt s k := rfl
@[simp] theorem jobAt_setEngine (l : Fin 4) (e : Engine) (s : State) (k : Fin 16) : jobAt (setEngine l e s) k = jobAt s k := rfl
@[simp] theorem jobAt_setQueue (l : Fin 4) (q : LineQueue) (s : State) (k : Fin 16) : jobAt (setQueue l q s) k = jobAt s k := rfl
@[simp] theorem jobAt_setPar (x : Fin 2) (u : ParUnit) (s : State) (k : Fin 16) : jobAt (setPar x u s) k = jobAt s k := rfl
@[simp] theorem jobAt_setSer (y : Fin 2) (u : SerUnit) (s : State) (k : Fin 16) : jobAt (setSer y u s) k = jobAt s k := rfl
@[simp] theorem jobAt_setLink (b : Fin 128) (x : Option (Fin 128)) (s : State) (k : Fin 16) : jobAt (setLink b x s) k = jobAt s k := rfl
@[simp] theorem jobAt_finish (bs : List Byte) (s : State) (k : Fin 16) : jobAt (finish bs s) k = jobAt s k := rfl
@[simp] theorem jobAt_finishCode (c : Code) (s : State) (k : Fin 16) : jobAt (finishCode c s) k = jobAt s k := rfl
@[simp] theorem jobAt_portExecuting (s : State) (k : Fin 16) : jobAt (portExecuting s) k = jobAt s k := rfl

@[simp] theorem engineAt_raise (e : Ev) (s : State) (k : Fin 4) : engineAt (raise e s) k = engineAt s k := rfl
@[simp] theorem engineAt_setJob (j : Fin 16) (r : Job) (s : State) (k : Fin 4) : engineAt (setJob j r s) k = engineAt s k := rfl
@[simp] theorem engineAt_freeSlot (j : Fin 16) (s : State) (k : Fin 4) : engineAt (freeSlot j s) k = engineAt s k := rfl
@[simp] theorem engineAt_setQueue (l : Fin 4) (q : LineQueue) (s : State) (k : Fin 4) : engineAt (setQueue l q s) k = engineAt s k := rfl
@[simp] theorem engineAt_setPar (x : Fin 2) (u : ParUnit) (s : State) (k : Fin 4) : engineAt (setPar x u s) k = engineAt s k := rfl
@[simp] theorem engineAt_setSer (y : Fin 2) (u : SerUnit) (s : State) (k : Fin 4) : engineAt (setSer y u s) k = engineAt s k := rfl
@[simp] theorem engineAt_setLink (b : Fin 128) (x : Option (Fin 128)) (s : State) (k : Fin 4) : engineAt (setLink b x s) k = engineAt s k := rfl
@[simp] theorem engineAt_finish (bs : List Byte) (s : State) (k : Fin 4) : engineAt (finish bs s) k = engineAt s k := rfl
@[simp] theorem engineAt_finishCode (c : Code) (s : State) (k : Fin 4) : engineAt (finishCode c s) k = engineAt s k := rfl
@[simp] theorem engineAt_portExecuting (s : State) (k : Fin 4) : engineAt (portExecuting s) k = engineAt s k := rfl

@[simp] theorem queueAt_raise (e : Ev) (s : State) (k : Fin 4) : queueAt (raise e s) k = queueAt s k := rfl
@[simp] theorem queueAt_setJob (j : Fin 16) (r : Job) (s : State) (k : Fin 4) : queueAt (setJob j r s) k = queueAt s k := rfl
@[simp] theorem queueAt_freeSlot (j : Fin 16) (s : State) (k : Fin 4) : queueAt (freeSlot j s) k = queueAt s k := rfl
@[simp] theorem queueAt_setEngine (l : Fin 4) (e : Engine) (s : State) (k : Fin 4) : queueAt (setEngine l e s) k = queueAt s k := rfl
@[simp] theorem queueAt_setPar (x : Fin 2) (u : ParUnit) (s : State) (k : Fin 4) : queueAt (setPar x u s) k = queueAt s k := rfl
@[simp] theorem queueAt_setSer (y : Fin 2) (u : SerUnit) (s : State) (k : Fin 4) : queueAt (setSer y u s) k = queueAt s k := rfl
@[simp] theorem queueAt_setLink (b : Fin 128) (x : Option (Fin 128)) (s : State) (k : Fin 4) : queueAt (setLink b x s) k = queueAt s k := rfl
@[simp] theorem queueAt_finish (bs : List Byte) (s : State) (k : Fin 4) : queueAt (finish bs s) k = queueAt s k := rfl
@[simp] theorem queueAt_finishCode (c : Code) (s : State) (k : Fin 4) : queueAt (finishCode c s) k = queueAt s k := rfl
@[simp] theorem queueAt_portExecuting (s : State) (k : Fin 4) : queueAt (portExecuting s) k = queueAt s k := rfl

@[simp] theorem parAt_raise (e : Ev) (s : State) (k : Fin 2) : parAt (raise e s) k = parAt s k := rfl
@[simp] theorem parAt_setJob (j : Fin 16) (r : Job) (s : State) (k : Fin 2) : parAt (setJob j r s) k = parAt s k := rfl
@[simp] theorem parAt_freeSlot (j : Fin 16) (s : State) (k : Fin 2) : parAt (freeSlot j s) k = parAt s k := rfl
@[simp] theorem parAt_setEngine (l : Fin 4) (e : Engine) (s : State) (k : Fin 2) : parAt (setEngine l e s) k = parAt s k := rfl
@[simp] theorem parAt_setQueue (l : Fin 4) (q : LineQueue) (s : State) (k : Fin 2) : parAt (setQueue l q s) k = parAt s k := rfl
@[simp] theorem parAt_setSer (y : Fin 2) (u : SerUnit) (s : State) (k : Fin 2) : parAt (setSer y u s) k = parAt s k := rfl
@[simp] theorem parAt_setLink (b : Fin 128) (x : Option (Fin 128)) (s : State) (k : Fin 2) : parAt (setLink b x s) k = parAt s k := rfl
@[simp] theorem parAt_finish (bs : List Byte) (s : State) (k : Fin 2) : parAt (finish bs s) k = parAt s k := rfl
@[simp] theorem parAt_finishCode (c : Code) (s : State) (k : Fin 2) : parAt (finishCode c s) k = parAt s k := rfl
@[simp] theorem parAt_portExecuting (s : State) (k : Fin 2) : parAt (portExecuting s) k = parAt s k := rfl

@[simp] theorem serAt_raise (e : Ev) (s : State) (k : Fin 2) : serAt (raise e s) k = serAt s k := rfl
@[simp] theorem serAt_setJob (j : Fin 16) (r : Job) (s : State) (k : Fin 2) : serAt (setJob j r s) k = serAt s k := rfl
@[simp] theorem serAt_freeSlot (j : Fin 16) (s : State) (k : Fin 2) : serAt (freeSlot j s) k = serAt s k := rfl
@[simp] theorem serAt_setEngine (l : Fin 4) (e : Engine) (s : State) (k : Fin 2) : serAt (setEngine l e s) k = serAt s k := rfl
@[simp] theorem serAt_setQueue (l : Fin 4) (q : LineQueue) (s : State) (k : Fin 2) : serAt (setQueue l q s) k = serAt s k := rfl
@[simp] theorem serAt_setPar (x : Fin 2) (u : ParUnit) (s : State) (k : Fin 2) : serAt (setPar x u s) k = serAt s k := rfl
@[simp] theorem serAt_setLink (b : Fin 128) (x : Option (Fin 128)) (s : State) (k : Fin 2) : serAt (setLink b x s) k = serAt s k := rfl
@[simp] theorem serAt_finish (bs : List Byte) (s : State) (k : Fin 2) : serAt (finish bs s) k = serAt s k := rfl
@[simp] theorem serAt_finishCode (c : Code) (s : State) (k : Fin 2) : serAt (finishCode c s) k = serAt s k := rfl
@[simp] theorem serAt_portExecuting (s : State) (k : Fin 2) : serAt (portExecuting s) k = serAt s k := rfl

@[simp] theorem linkAt_raise (e : Ev) (s : State) (k : Fin 128) : linkAt (raise e s) k = linkAt s k := rfl
@[simp] theorem linkAt_setJob (j : Fin 16) (r : Job) (s : State) (k : Fin 128) : linkAt (setJob j r s) k = linkAt s k := rfl
@[simp] theorem linkAt_freeSlot (j : Fin 16) (s : State) (k : Fin 128) : linkAt (freeSlot j s) k = linkAt s k := rfl
@[simp] theorem linkAt_setEngine (l : Fin 4) (e : Engine) (s : State) (k : Fin 128) : linkAt (setEngine l e s) k = linkAt s k := rfl
@[simp] theorem linkAt_setQueue (l : Fin 4) (q : LineQueue) (s : State) (k : Fin 128) : linkAt (setQueue l q s) k = linkAt s k := rfl
@[simp] theorem linkAt_setPar (x : Fin 2) (u : ParUnit) (s : State) (k : Fin 128) : linkAt (setPar x u s) k = linkAt s k := rfl
@[simp] theorem linkAt_setSer (y : Fin 2) (u : SerUnit) (s : State) (k : Fin 128) : linkAt (setSer y u s) k = linkAt s k := rfl
@[simp] theorem linkAt_finish (bs : List Byte) (s : State) (k : Fin 128) : linkAt (finish bs s) k = linkAt s k := rfl
@[simp] theorem linkAt_finishCode (c : Code) (s : State) (k : Fin 128) : linkAt (finishCode c s) k = linkAt s k := rfl
@[simp] theorem linkAt_portExecuting (s : State) (k : Fin 128) : linkAt (portExecuting s) k = linkAt s k := rfl

@[simp] theorem jobAt_setJob (j : Fin 16) (r : Job) (s : State) (k : Fin 16) :
    jobAt (setJob j r s) k = if k = j then some r else jobAt s k := by
  simp [jobAt, setJob]

@[simp] theorem jobAt_freeSlot (j : Fin 16) (s : State) (k : Fin 16) :
    jobAt (freeSlot j s) k = if k = j then none else jobAt s k := by
  simp [jobAt, freeSlot]

@[simp] theorem engineAt_setEngine (l : Fin 4) (e : Engine) (s : State) (k : Fin 4) :
    engineAt (setEngine l e s) k = if k = l then e else engineAt s k := by
  simp [engineAt, setEngine]

@[simp] theorem queueAt_setQueue (l : Fin 4) (q : LineQueue) (s : State) (k : Fin 4) :
    queueAt (setQueue l q s) k = if k = l then q else queueAt s k := by
  simp [queueAt, setQueue]

@[simp] theorem parAt_setPar (x : Fin 2) (u : ParUnit) (s : State) (k : Fin 2) :
    parAt (setPar x u s) k = if k = x then u else parAt s k := by
  simp [parAt, setPar]

@[simp] theorem serAt_setSer (y : Fin 2) (u : SerUnit) (s : State) (k : Fin 2) :
    serAt (setSer y u s) k = if k = y then u else serAt s k := by
  simp [serAt, setSer]

@[simp] theorem linkAt_setLink (b : Fin 128) (x : Option (Fin 128)) (s : State) (k : Fin 128) :
    linkAt (setLink b x s) k = if k = b then x else linkAt s k := by
  simp [linkAt, setLink]

@[simp] theorem raise_flags (e : Ev) (s : State) : (raise e s).events.flags = s.events.flags ||| evMask e := rfl
@[simp] theorem raise_enable (e : Ev) (s : State) : (raise e s).events.enable = s.events.enable := rfl
@[simp] theorem finish_flags (bs : List Byte) (s : State) : (finish bs s).events.flags = s.events.flags ||| evMask .cmdDone := rfl
@[simp] theorem finish_enable (bs : List Byte) (s : State) : (finish bs s).events.enable = s.events.enable := rfl
@[simp] theorem setLink_bytes (b : Fin 128) (x : Option (Fin 128)) (s : State) : (setLink b x s).spool.bytes = s.spool.bytes := rfl
@[simp] theorem setLink_checks (b : Fin 128) (x : Option (Fin 128)) (s : State) : (setLink b x s).spool.checks = s.spool.checks := rfl
@[simp] theorem setLink_freeList (b : Fin 128) (x : Option (Fin 128)) (s : State) : (setLink b x s).spool.freeList = s.spool.freeList := rfl
@[simp] theorem setLink_pointer (b : Fin 128) (x : Option (Fin 128)) (s : State) : (setLink b x s).spool.pointer = s.spool.pointer := rfl
@[simp] theorem setLink_access (b : Fin 128) (x : Option (Fin 128)) (s : State) : (setLink b x s).spool.access = s.spool.access := rfl

end Sys2Proof.Machine
end

