-- ==== Sys2Proof/Laws/Acts.lean ====
section
/-! SUPPORT. What an act of the part's units can do, said once: `Acts s t` holds when `t` differs from `s` only as the units'
shared operations may make it differ. It is proved here of each update, and in the files that follow of each operation. -/

namespace Sys2Proof.Machine

-- One after another: side by side the proofs would each wait in a thread of their own.
set_option Elab.async false

/-- How far a job's intake has come: OPEN, CLOSING, CLOSED. -/
def IntakePhase.rank : IntakePhase → Nat
  | .opened => 0
  | .closing => 1
  | .closed => 2

/-- What may become of a job's record while its slot stays occupied: its options, copies and quota stay, its intake phase
does not go back, its counts do not fall, and truncated and any released stay set (section 1.1, R5, R6, R13). -/
structure Later (r r' : Job) : Prop where
  options : r'.urgent = r.urgent ∧ r'.early = r.early ∧ r'.retain = r.retain ∧ r'.separate = r.separate := by
    exact ⟨rfl, rfl, rfl, rfl⟩
  copies : r'.copies = r.copies := by rfl
  quota : r'.quota = r.quota := by rfl
  phase : r.intake.rank ≤ r'.intake.rank := by exact Nat.le_refl _
  stored : r.stored ≤ r'.stored := by exact Nat.le_refl _
  truncated : r.truncated = true → r'.truncated = true := by exact id
  released : r.anyReleased = true → r'.anyReleased = true := by exact id
  copiesDone : r.copiesDone ≤ r'.copiesDone := by exact Nat.le_refl _
  total : r.total ≤ r'.total := by exact Nat.le_refl _
  checkErrors : r.checkErrors ≤ r'.checkErrors := by exact Nat.le_refl _

theorem Later.refl (r : Job) : Later r r := {}

theorem Later.trans {a b c : Job} (h : Later a b) (k : Later b c) : Later a c where
  options := ⟨k.options.1.trans h.options.1, k.options.2.1.trans h.options.2.1, k.options.2.2.1.trans h.options.2.2.1,
    k.options.2.2.2.trans h.options.2.2.2⟩
  copies := k.copies.trans h.copies
  quota := k.quota.trans h.quota
  phase := Nat.le_trans h.phase k.phase
  stored := Nat.le_trans h.stored k.stored
  truncated := k.truncated ∘ h.truncated
  released := k.released ∘ h.released
  copiesDone := Nat.le_trans h.copiesDone k.copiesDone
  total := Nat.le_trans h.total k.total
  checkErrors := Nat.le_trans h.checkErrors k.checkErrors

/-- A saturating count does not fall. -/
theorem le_satSucc (top n : Nat) : n ≤ satSucc top n := by unfold satSucc; split <;> omega

/-- CLOSED is the last intake phase. -/
theorem IntakePhase.rank_le_closed (p : IntakePhase) : p.rank ≤ IntakePhase.closed.rank := by cases p <;> decide

/-- No intake access is in progress. -/
def NoIntakeAccess (s : State) : Prop := ∀ k, s.spool.access ≠ some (.intake k)

/-- What the shared operations of the units can do to a state. -/
structure Acts (s t : State) : Prop where
  pending : t.pending = s.pending := by rfl
  window : t.window = s.window := by rfl
  timeBase : t.timeBase = s.timeBase := by rfl
  fresh : t.fresh = s.fresh := by rfl
  enable : t.events.enable = s.events.enable := by rfl
  flags : s.events.flags ||| t.events.flags = t.events.flags := by exact BitVec.or_self
  pointer : t.spool.pointer = s.spool.pointer := by rfl
  written : NoIntakeAccess s →
      t.spool.bytes = s.spool.bytes ∧ t.spool.checks = s.spool.checks ∧ NoIntakeAccess t := by
    exact fun h => ⟨rfl, rfl, h⟩
  freeList : s.spool.freeList <+: t.spool.freeList := by exact List.prefix_rfl
  drain : ∀ l, (engineAt t l).config = (engineAt s l).config := by exact fun _ => rfl
  par : ∀ x, (parAt t x).config = (parAt s x).config := by exact fun _ => rfl
  ser : ∀ y, (serAt t y).config = (serAt s y).config := by exact fun _ => rfl
  jobs : ∀ j r, jobAt s j = some r → ∃ r', jobAt t j = some r' ∧ Later r r' := by
    exact fun _ r h => ⟨r, h, Later.refl r⟩
  free : ∀ j, jobAt s j = none → jobAt t j = none := by exact fun _ h => h
  fifo : t.intake.fifo.Sublist s.intake.fifo := by exact List.Sublist.refl _
  records : recordsLaw s.completion = true → recordsLaw t.completion = true := by exact id
  port : portLaw s.port = true → portLaw t.port = true := by exact id
  store : StoreSafe s → StoreSafe t := by exact id

theorem Acts.refl (s : State) : Acts s s := {}

theorem Acts.trans {a b c : State} (h : Acts a b) (k : Acts b c) : Acts a c where
  pending := k.pending.trans h.pending
  window := k.window.trans h.window
  timeBase := k.timeBase.trans h.timeBase
  fresh := k.fresh.trans h.fresh
  enable := k.enable.trans h.enable
  flags := by rw [← k.flags, ← BitVec.or_assoc, h.flags]
  pointer := k.pointer.trans h.pointer
  written := fun n => by
    obtain ⟨b1, c1, n1⟩ := h.written n
    obtain ⟨b2, c2, n2⟩ := k.written n1
    exact ⟨b2.trans b1, c2.trans c1, n2⟩
  freeList := h.freeList.trans k.freeList
  drain := fun l => (k.drain l).trans (h.drain l)
  par := fun x => (k.par x).trans (h.par x)
  ser := fun y => (k.ser y).trans (h.ser y)
  jobs := fun j r e => by
    obtain ⟨r1, e1, l1⟩ := h.jobs j r e
    obtain ⟨r2, e2, l2⟩ := k.jobs j r1 e1
    exact ⟨r2, e2, l1.trans l2⟩
  free := fun j e => k.free j (h.free j e)
  fifo := k.fifo.trans h.fifo
  records := k.records ∘ h.records
  port := k.port ∘ h.port
  store := k.store ∘ h.store

/-! The laws of the store as facts about each job. -/

theorem fillLaw_iff (s : State) :
    fillLaw s = true ↔ ∀ j r, jobAt s j = some r → r.tailFill ≤ Config.blockBytes := by
  have all : ∀ j : Fin 16, j ∈ slots := by decide
  simp only [fillLaw, List.all_eq_true]
  constructor
  · intro h j r e
    have := h j (all j)
    rw [e] at this
    simpa using this
  · intro h j _
    cases e : jobAt s j with
    | none => rfl
    | some r => simpa using h j r e

theorem accessLaw_iff (s : State) :
    accessLaw s = true ↔ ∀ c, s.spool.access = some (.intake c) → s.intake.headReq = .granted ∧
      ∃ e es, s.intake.fifo = e :: es ∧ ∀ r, jobAt s e.1 = some r → r.tailFill < Config.blockBytes := by
  unfold accessLaw
  cases ha : s.spool.access with
  | none => simp
  | some a =>
    cases a with
    | drain _ _ => simp
    | verify _ => simp
    | intake c =>
      cases hq : s.intake.fifo with
      | nil => simp
      | cons e es => cases hj : jobAt s e.1 <;> simp [hj]

theorem accessLaw_of_none {s : State} (h : NoIntakeAccess s) : accessLaw s = true :=
  (accessLaw_iff s).2 (fun c hc => absurd hc (h c))

/-- The laws of the store read the contents, the access, the head of the FIFO, the head request and the tail fills alone. -/
theorem StoreSafe.congr {s t : State} (hb : t.spool.bytes = s.spool.bytes) (hc : t.spool.checks = s.spool.checks)
    (ha : t.spool.access = s.spool.access) (hi : t.intake = s.intake) (hj : t.jobs = s.jobs) (h : StoreSafe s) :
    StoreSafe t := by
  obtain ⟨h1, h2, h3⟩ := h
  refine ⟨?_, ?_, ?_⟩
  · simpa [storeLaw, hb, hc] using h1
  · simpa [fillLaw, jobAt, hj] using h2
  · simpa [accessLaw, jobAt, hj, ha, hi] using h3

/-! The updates. -/

theorem acts_raise (e : Ev) (s : State) : Acts s (raise e s) where
  flags := by simp [raise, ← BitVec.or_assoc]

theorem acts_setEngine (l : Fin 4) (e : Engine) (s : State) (h : e.config = (engineAt s l).config) :
    Acts s (setEngine l e s) where
  drain := fun k => by
    by_cases hk : k = l
    · subst hk; simp [h]
    · simp [hk]

theorem acts_setQueue (l : Fin 4) (q : LineQueue) (s : State) : Acts s (setQueue l q s) where

theorem acts_setPar (x : Fin 2) (u : ParUnit) (s : State)
    (h : u.config = (parAt s x).config) : Acts s (setPar x u s) where
  par := fun k => by
    by_cases hk : k = x
    · subst hk; simp [h]
    · simp [hk]

theorem acts_setSer (y : Fin 2) (u : SerUnit) (s : State)
    (h : u.config = (serAt s y).config) : Acts s (setSer y u s) where
  ser := fun k => by
    by_cases hk : k = y
    · subst hk; simp [h]
    · simp [hk]

/-- A job's record is written over with a later one whose tail is no fuller. -/
theorem acts_setJob (j : Fin 16) (r r' : Job) (s : State) (e : jobAt s j = some r) (h : Later r r')
    (hf : r'.tailFill ≤ r.tailFill) : Acts s (setJob j r' s) where
  jobs := fun k q hk => by
    by_cases hkj : k = j
    · subst hkj
      rw [e] at hk
      cases hk
      exact ⟨r', by simp, h⟩
    · exact ⟨q, by simp [hkj, hk], Later.refl q⟩
  free := fun k hk => by
    by_cases hkj : k = j
    · subst hkj; rw [e] at hk; cases hk
    · simp [hkj, hk]
  store := fun ⟨h1, h2, h3⟩ => by
    rw [fillLaw_iff] at h2
    refine ⟨h1, ?_, ?_⟩
    · rw [fillLaw_iff]
      intro k q hk
      by_cases hkj : k = j
      · subst hkj
        rw [jobAt_setJob, if_pos rfl] at hk
        cases hk
        exact Nat.le_trans hf (h2 _ _ e)
      · rw [jobAt_setJob, if_neg hkj] at hk
        exact h2 _ _ hk
    · rw [accessLaw_iff] at h3 ⊢
      intro c hc
      obtain ⟨hg, a, as, ha, hr⟩ := h3 c hc
      refine ⟨hg, a, as, ha, fun q hq => ?_⟩
      by_cases hkj : a.1 = j
      · rw [jobAt_setJob, if_pos hkj] at hq
        cases hq
        exact Nat.lt_of_le_of_lt hf (hr r (hkj ▸ e))
      · rw [jobAt_setJob, if_neg hkj] at hq
        exact hr q hq

/-- The spool changes, but neither its contents nor its access nor its pointer, and its Free List only grows. -/
theorem acts_spool (s : State) (p : Spool) (hb : p.bytes = s.spool.bytes) (hc : p.checks = s.spool.checks)
    (ha : p.access = s.spool.access) (hp : p.pointer = s.spool.pointer) (hf : s.spool.freeList <+: p.freeList) :
    Acts s { s with spool := p } where
  pointer := hp
  written := fun n => ⟨hb, hc, fun k => by simpa [ha] using n k⟩
  freeList := hf
  store := StoreSafe.congr hb hc ha rfl rfl

theorem acts_setLink (b : Fin 128) (x : Option (Fin 128)) (s : State) : Acts s (setLink b x s) :=
  acts_spool s _ rfl rfl rfl rfl List.prefix_rfl

/-- A store access that is not the Intake Unit's ends. -/
theorem acts_endAccess (s : State) : Acts s { s with spool.access := none } where
  written := fun _ => ⟨rfl, rfl, fun _ => by simp⟩
  store := fun ⟨h1, h2, _⟩ => ⟨h1, h2, accessLaw_of_none (fun _ => by simp)⟩

theorem acts_verify (s : State) (v : Verify) : Acts s { s with verify := v } where

/-- A command ends with at least one result byte (R146). -/
theorem acts_finish (bs : List Byte) (s : State) (h : bs ≠ []) : Acts s (finish bs s) where
  flags := by simp [finish, raise, ← BitVec.or_assoc]
  port := fun _ => by simp [finish, raise, portLaw, h]

theorem acts_finishCode (c : Code) (s : State) : Acts s (finishCode c s) := acts_finish _ s (by simp)

end Sys2Proof.Machine
end

