-- ==== Sys2Proof/Laws/ActsJobTable.lean ====
section
/-! SUPPORT. Each operation of the queues, the Free List, the store's accesses, the scan and retirement is an act. -/

namespace Sys2Proof.Machine

-- One after another: side by side the proofs would each wait in a thread of their own.
set_option Elab.async false

/-! Release and the queues. -/

@[simp] theorem releaseBlock_jobs (b : Fin 128) (s : State) : (releaseBlock b s).jobs = s.jobs := rfl
@[simp] theorem releaseBlock_intake (b : Fin 128) (s : State) : (releaseBlock b s).intake = s.intake := rfl
@[simp] theorem releaseBlock_access (b : Fin 128) (s : State) : (releaseBlock b s).spool.access = s.spool.access := rfl
@[simp] theorem releaseBlock_engines (b : Fin 128) (s : State) : (releaseBlock b s).engines = s.engines := rfl
@[simp] theorem releaseBlock_verify (b : Fin 128) (s : State) : (releaseBlock b s).verify = s.verify := rfl
@[simp] theorem releaseBlock_freeList (b : Fin 128) (s : State) :
    (releaseBlock b s).spool.freeList = s.spool.freeList ++ [b] := rfl
@[simp] theorem jobAt_releaseBlock (b : Fin 128) (s : State) (k : Fin 16) : jobAt (releaseBlock b s) k = jobAt s k := rfl

@[simp] theorem releaseAll_jobs (bs : List (Fin 128)) (s : State) : (releaseAll bs s).jobs = s.jobs := by
  induction bs generalizing s with
  | nil => rfl
  | cons b bs ih => simp [releaseAll, ih]

@[simp] theorem releaseAll_freeList (bs : List (Fin 128)) (s : State) :
    (releaseAll bs s).spool.freeList = s.spool.freeList ++ bs := by
  induction bs generalizing s with
  | nil => simp [releaseAll]
  | cons b bs ih => simp [releaseAll, ih]

@[simp] theorem jobAt_releaseAll (bs : List (Fin 128)) (s : State) (k : Fin 16) :
    jobAt (releaseAll bs s) k = jobAt s k := by
  simp [jobAt]

theorem acts_releaseBlock (b : Fin 128) (s : State) : Acts s (releaseBlock b s) :=
  acts_spool s _ rfl rfl rfl rfl (List.prefix_append _ _)

theorem acts_releaseAll (bs : List (Fin 128)) (s : State) : Acts s (releaseAll bs s) := by
  induction bs generalizing s with
  | nil => exact Acts.refl s
  | cons b bs ih => exact (acts_releaseBlock b s).trans (ih _)

theorem acts_joinTail (l : Fin 4) (u : Bool) (j : Fin 16) (s : State) : Acts s (joinTail l u j s) := acts_setQueue _ _ _

theorem acts_joinHead (l : Fin 4) (u : Bool) (j : Fin 16) (s : State) : Acts s (joinHead l u j s) := acts_setQueue _ _ _

theorem acts_leaveQueue (l : Fin 4) (j : Fin 16) (s : State) : Acts s (leaveQueue l j s) := acts_setQueue _ _ _

@[simp] theorem jobAt_joinTail (l : Fin 4) (u : Bool) (j : Fin 16) (s : State) (k : Fin 16) :
    jobAt (joinTail l u j s) k = jobAt s k := rfl
@[simp] theorem jobAt_joinHead (l : Fin 4) (u : Bool) (j : Fin 16) (s : State) (k : Fin 16) :
    jobAt (joinHead l u j s) k = jobAt s k := rfl
@[simp] theorem jobAt_leaveQueue (l : Fin 4) (j : Fin 16) (s : State) (k : Fin 16) :
    jobAt (leaveQueue l j s) k = jobAt s k := rfl

/-! Posting. -/

theorem seqLaw_append (seq : Byte) (q : List Record) (r : Record) (h : seqLaw seq q = true) (hr : r.seq = seq) :
    seqLaw (seq + 1#8) (q ++ [r]) = true := by
  induction q with
  | nil => simp [seqLaw, hr, byteOf]
  | cons a q ih =>
    simp only [seqLaw, Bool.and_eq_true, decide_eq_true_eq] at h
    simp only [List.cons_append, seqLaw, Bool.and_eq_true, decide_eq_true_eq]
    refine ⟨?_, ih h.2⟩
    rw [h.1]
    simp only [byteOf, List.length_append, List.length_singleton, BitVec.ofNat_add]
    bv_omega

theorem acts_post (j : Fin 16) (s : State) (h : s.completion.queue.length < Config.completionDepth) :
    Acts s (post j s) := by
  unfold post
  cases e : jobAt s j with
  | none => exact Acts.refl s
  | some r =>
    refine Acts.trans ?_ (acts_raise _ _)
    refine (acts_setJob j r { r with posted := true } s e {} (Nat.le_refl _)).trans ?_
    exact { records := fun hl => by
              simp only [recordsLaw, Bool.and_eq_true, decide_eq_true_eq] at hl ⊢
              refine ⟨?_, seqLaw_append _ _ _ hl.2 rfl⟩
              simp only [List.length_append, List.length_singleton]
              exact h }

theorem acts_handOver (j : Fin 16) (s : State) : Acts s (handOver j s) := by
  unfold handOver
  split
  · rename_i h; exact acts_post j s h
  · exact {}

/-! The scan. -/

theorem acts_endScan (c : Code) (s : State) : Acts s (endScan c s) :=
  (acts_verify s { s.verify with running := false }).trans (acts_finish _ _ (by simp))

theorem acts_countRead (err : Bool) (s : State) : Acts s (countRead err s) := by
  unfold countRead
  have base : ∀ v : Verify, Acts s { s with verify := v, spool.access := none } :=
    fun v => (acts_verify s v).trans (acts_endAccess _)
  simp only
  split
  · exact (base _).trans (acts_raise _ _)
  · exact base _

theorem acts_scanStep (s : State) : Acts s (scanStep s) := by
  unfold scanStep
  split
  · exact Acts.refl s
  · split
    · exact Acts.refl s
    · split
      · exact acts_endScan _ s
      · rename_i r _
        generalize (if s.verify.moved then { s.verify with pos := chainStart r, moved := false } else s.verify) = v
        simp only
        split
        · exact (acts_verify s v).trans (acts_endScan _ _)
        · exact acts_verify s v

@[simp] theorem jobAt_finish' (bs : List Byte) (s : State) (k : Fin 16) : jobAt (finish bs s) k = jobAt s k := rfl
@[simp] theorem jobAt_endScan (c : Code) (s : State) (k : Fin 16) : jobAt (endScan c s) k = jobAt s k := rfl
@[simp] theorem endScan_jobs (c : Code) (s : State) : (endScan c s).jobs = s.jobs := rfl

@[simp] theorem countRead_jobs (err : Bool) (s : State) : (countRead err s).jobs = s.jobs := by
  cases err <;> rfl

@[simp] theorem scanStep_jobs (s : State) : (scanStep s).jobs = s.jobs := by
  unfold scanStep
  split
  · rfl
  · split
    · rfl
    · split
      · rfl
      · rename_i r _
        generalize (if s.verify.moved then { s.verify with pos := chainStart r, moved := false } else s.verify) = v
        simp only
        split <;> rfl

theorem acts_endScanOf (j : Fin 16) (s : State) : Acts s (endScanOf j s) := by
  unfold endScanOf
  split
  · exact acts_endScan _ s
  · exact Acts.refl s

@[simp] theorem endScanOf_jobs (j : Fin 16) (s : State) : (endScanOf j s).jobs = s.jobs := by
  unfold endScanOf; split <;> rfl

/-! The intake's access and the purge. -/

/-- The end of an intake access that is in progress. -/
theorem acts_storeHead (c k : BitVec 1) (s : State) (h : s.spool.access = some (.intake k)) : Acts s (storeHead c s) := by
  have busy : ¬ NoIntakeAccess s := fun n => n k h
  have off : ∀ t : State, t.spool.access = none → NoIntakeAccess t := fun t e q => by simp [e]
  unfold storeHead
  cases hq : s.intake.fifo with
  | nil =>
    exact { written := fun n => absurd n busy
            store := fun ⟨h1, h2, _⟩ => ⟨h1, h2, accessLaw_of_none (off _ rfl)⟩ }
  | cons e es =>
    obtain ⟨j, b⟩ := e
    have drop : Acts s { s with spool.access := none, intake.headReq := .none, intake.fifo := es } :=
      { written := fun n => absurd n busy
        fifo := by rw [hq]; exact List.sublist_cons_self _ _
        store := fun ⟨h1, h2, _⟩ => ⟨h1, h2, accessLaw_of_none (off _ rfl)⟩ }
    simp only
    cases hj : jobAt { s with spool.access := none, intake.headReq := .none, intake.fifo := es } j with
    | none => exact drop
    | some r =>
      simp only
      have hr : jobAt s j = some r := hj
      cases hp : tailPos r with
      | none => exact drop
      | some p =>
        simp only
        have hoff : p.off = r.tailFill := by
          unfold tailPos at hp
          cases ht : r.tail with
          | none => rw [ht] at hp; cases hp
          | some t => rw [ht] at hp; cases hp; rfl
        exact
          { written := fun n => absurd n busy
            fifo := by simp only [setJob_intake]; rw [hq]; exact List.sublist_cons_self _ _
            jobs := fun k q hk => by
              by_cases hkj : k = j
              · subst hkj
                rw [hr] at hk
                cases hk
                exact ⟨_, by rw [jobAt_setJob, if_pos rfl], { stored := Nat.le_succ _ }⟩
              · exact ⟨q, by rw [jobAt_setJob, if_neg hkj]; exact hk, Later.refl q⟩
            free := fun k hk => by
              by_cases hkj : k = j
              · subst hkj; rw [hr] at hk; cases hk
              · rw [jobAt_setJob, if_neg hkj]; exact hk
            store := fun ⟨h1, h2, h3⟩ => by
              obtain ⟨_, a, as, ha, hfit⟩ := (accessLaw_iff s).1 h3 k h
              rw [hq] at ha
              cases ha
              have hlt : r.tailFill < Config.blockBytes := hfit r hr
              have haddr : p.addr < Memory.size := Pos.addr_lt_size p (by rw [hoff]; exact hlt)
              simp only [storeLaw, Bool.and_eq_true] at h1
              refine ⟨?_, ?_, accessLaw_of_none (off _ rfl)⟩
              · simp only [storeLaw, setJob_spool, Bool.and_eq_true]
                exact ⟨Memory.write_keeps_wf _ _ _ h1.1 haddr, Memory.write_keeps_wf _ _ _ h1.2 haddr⟩
              · rw [fillLaw_iff] at h2 ⊢
                intro k' q hk'
                by_cases hkj : k' = j
                · rw [jobAt_setJob, if_pos hkj] at hk'
                  cases hk'
                  exact hlt
                · rw [jobAt_setJob, if_neg hkj] at hk'
                  exact h2 k' q hk' }

/-- No intake access of the job is in progress. -/
def AccessEnded (j : Fin 16) (s : State) : Prop :=
  ∀ k e es, s.spool.access = some (.intake k) → s.intake.fifo = e :: es → e.1 ≠ j

/-- An intake access that ends leaves no access in progress. -/
theorem storeHead_access (c : BitVec 1) (s : State) : (storeHead c s).spool.access = none := by
  unfold storeHead
  cases s.intake.fifo with
  | nil => rfl
  | cons e es =>
    obtain ⟨j, b⟩ := e
    simp only
    split
    · rfl
    · split <;> rfl

theorem countRead_access (err : Bool) (s : State) : (countRead err s).spool.access = none := by cases err <;> rfl

theorem acts_endAccessOf (j : Fin 16) (s : State) : Acts s (endAccessOf j s) := by
  unfold endAccessOf
  cases ha : s.spool.access with
  | none => exact Acts.refl s
  | some a =>
    cases a with
    | drain _ _ => exact Acts.refl s
    | intake c =>
      simp only
      cases s.intake.fifo with
      | nil => exact Acts.refl s
      | cons e es =>
        simp only
        split
        · exact acts_storeHead c c s ha
        · exact Acts.refl s
    | verify err =>
      simp only
      split
      · exact acts_countRead err s
      · exact Acts.refl s

/-- After a job's access has been let end, none of its intake accesses is in progress. -/
theorem endAccessOf_ended (j : Fin 16) (s : State) : AccessEnded j (endAccessOf j s) := by
  intro k e es h1 h2
  unfold endAccessOf at h1 h2
  cases ha : s.spool.access with
  | none => rw [ha] at h1; simp [ha] at h1
  | some a =>
    rw [ha] at h1 h2
    cases a with
    | drain _ _ => simp [ha] at h1
    | intake c =>
      simp only at h1 h2
      cases hq : s.intake.fifo with
      | nil => rw [hq] at h2; simp only at h2; rw [hq] at h2; cases h2
      | cons a as =>
        rw [hq] at h1 h2
        simp only at h1 h2
        by_cases hj : a.1 = j
        · rw [if_pos hj, storeHead_access] at h1; cases h1
        · rw [if_neg hj, hq] at h2; cases h2; exact hj
    | verify err =>
      simp only at h1 h2
      by_cases hj : s.verify.job = j
      · rw [if_pos hj, countRead_access] at h1; cases h1
      · rw [if_neg hj, ha] at h1; cases h1

theorem acts_purge (j : Fin 16) (s : State) (h : AccessEnded j s) : Acts s (purge j s) where
  fifo := List.filter_sublist
  store := fun ⟨h1, h2, h3⟩ => by
    refine ⟨h1, h2, ?_⟩
    rw [accessLaw_iff] at h3 ⊢
    intro k hk
    obtain ⟨hg, e, es, he, hr⟩ := h3 k hk
    have hne : e.1 ≠ j := h k e es hk he
    refine ⟨?_, e, es.filter (fun e => e.1 ≠ j), ?_, hr⟩
    · simp [purge, he, hne, hg]
    · simp [purge, he, hne]

@[simp] theorem purge_jobs (j : Fin 16) (s : State) : (purge j s).jobs = s.jobs := rfl

/-! Retirement. -/

theorem acts_retireNow (j : Fin 16) (r : Job) (o : JobOutcome) (c : Cause) (s : State) (e : jobAt s j = some r)
    (h : AccessEnded j s) : Acts s (retireNow j r o c s) := by
  unfold retireNow
  simp only
  have h1 : Acts s (purge j s) := acts_purge j s h
  have h2 : Acts (purge j s)
      { purge j s with intake.target := if (purge j s).intake.target = some j then none else (purge j s).intake.target } :=
    { store := fun ⟨a, b, d⟩ => ⟨a, b, d⟩ }
  generalize ht : ({ purge j s with intake.target := if (purge j s).intake.target = some j then none
    else (purge j s).intake.target } : State) = t at h2 ⊢
  have hjt : jobAt t j = some r := by rw [← ht]; exact e
  have h3 : ∀ u, (u = match r.output with
      | .queued => leaveQueue r.line j t
      | .current => setEngine r.line { engineAt t r.line with current := none } t
      | .pending => t
      | .finished => t) → Acts t u ∧ jobAt u j = some r := by
    intro u hu
    cases ho : r.output <;> rw [ho] at hu <;> simp only at hu <;> subst hu
    · exact ⟨Acts.refl _, hjt⟩
    · exact ⟨acts_leaveQueue _ _ _, hjt⟩
    · exact ⟨acts_setEngine _ _ _ rfl, hjt⟩
    · exact ⟨Acts.refl _, hjt⟩
  have hU := h3 _ rfl
  refine h1.trans (h2.trans (hU.1.trans ((acts_releaseAll (chainOf s r) _).trans ?_)))
  refine Acts.trans ?_ ((acts_endScanOf j _).trans (acts_handOver j _))
  apply acts_setJob j r
  · rw [jobAt_releaseAll]; exact hU.2
  · exact { phase := IntakePhase.rank_le_closed _ }
  · exact Nat.zero_le _

/-- R16: retirement. -/
theorem acts_retire (j : Fin 16) (o : JobOutcome) (c : Cause) (s : State) : Acts s (retire j o c s) := by
  unfold retire
  simp only
  refine (acts_endAccessOf j s).trans ?_
  cases e : jobAt (endAccessOf j s) j with
  | none => exact Acts.refl _
  | some r => exact acts_retireNow j r o c _ e (endAccessOf_ended j s)

end Sys2Proof.Machine
end

