-- ==== Sys2Proof/Laws/ActsLines.lean ====
section
/-! SUPPORT. Each operation of the Drain Engines, the Line Units and the intake path is an act. -/

namespace Sys2Proof.Machine

-- One after another: side by side the proofs would each wait in a thread of their own.
set_option Elab.async false

/-- The current job of a line is an occupied slot with this record. -/
theorem currentJob_jobAt {s : State} {l : Fin 4} {j : Fin 16} {r : Job} (h : currentJob s l = some (j, r)) :
    jobAt s j = some r := by
  unfold currentJob at h
  split at h
  · cases h
  · rename_i k _
    cases hk : jobAt s k with
    | none => rw [hk] at h; cases h
    | some q => rw [hk] at h; cases h; exact hk

/-! Between a Drain Engine and its Line Unit. -/

theorem acts_withdraw (l : Fin 4) (s : State) : Acts s (withdraw l s) := by
  unfold withdraw
  split
  · split
    · exact acts_setPar _ _ _ (by rfl)
    · exact Acts.refl s
  · split
    · exact acts_setSer _ _ _ (by rfl)
    · exact Acts.refl s

theorem acts_unitPut (l : Fin 4) (b : Byte) (s : State) : Acts s (unitPut l b s) := by
  unfold unitPut
  split
  · exact acts_setPar _ _ _ (by rfl)
  · exact acts_setSer _ _ _ (by rfl)

theorem acts_putByte (l : Fin 4) (s : State) : Acts s (putByte l s) := by
  unfold putByte
  simp only
  split
  · exact Acts.refl s
  · exact (acts_setEngine l _ s (by rfl)).trans (acts_unitPut l _ _)

theorem acts_clearCycle (l : Fin 4) (s : State) : Acts s (clearCycle l s) :=
  (acts_setEngine l _ s (by rfl)).trans (acts_withdraw l _)

theorem acts_enterFault (l : Fin 4) (c : Cause) (s : State) : Acts s (enterFault l c s) :=
  (acts_clearCycle l s).trans ((acts_setEngine l _ _ (by rfl)).trans (acts_raise _ _))

theorem acts_answerReady (l : Fin 4) (s : State) : Acts s (answerReady l s) := by
  unfold answerReady
  split
  · exact acts_putByte l s
  · exact acts_enterFault l _ s
  · exact Acts.refl s

theorem acts_unitWait (l : Fin 4) (s : State) : Acts s (unitWait l s) := by
  unfold unitWait
  split
  · exact acts_setPar _ _ _ (by rfl)
  · exact acts_setSer _ _ _ (by rfl)

theorem acts_askReady (l : Fin 4) (f : Fetched) (s : State) : Acts s (askReady l f s) := by
  unfold askReady
  simp only
  have h1 : Acts s (setEngine l { engineAt s l with step := .waiting, fetched := some f } s) := acts_setEngine l _ s (by rfl)
  split
  · exact h1.trans ((acts_setEngine l _ _ (by simp)).trans (acts_unitWait l _))
  · exact h1.trans (acts_answerReady l _)
  · exact h1.trans (acts_answerReady l _)

/-! The byte boundary. -/

theorem acts_takeJob (l : Fin 4) (j : Fin 16) (s : State) : Acts s (takeJob l j s) := by
  unfold takeJob
  cases e : jobAt s j with
  | none => exact Acts.refl s
  | some r =>
    refine (acts_leaveQueue l j s).trans ?_
    refine Acts.trans ?_ (acts_setEngine l _ _ (by rfl))
    exact acts_setJob j r _ _ e {} (by exact Nat.le_refl _)

/-- A copy completes for a job whose record as it stands is `r0`. -/
theorem acts_completeCopy (l : Fin 4) (j : Fin 16) (r r0 : Job) (s : State) (e : jobAt s j = some r0) (h : Later r0 r)
    (hf : r.tailFill ≤ r0.tailFill) : Acts s (completeCopy l j r s) := by
  unfold completeCopy
  have h1 : Later r0 { r with copiesDone := r.copiesDone + 1, cursor := chainStart r, copyPos := 0 } :=
    h.trans { copiesDone := Nat.le_succ _ }
  have h2 : Later r0 { r with copiesDone := r.copiesDone + 1 } := h.trans { copiesDone := Nat.le_succ _ }
  split
  · exact acts_setJob j r0 _ s e h1 hf
  · exact (acts_setJob j r0 _ s e h2 hf).trans ((acts_retire j _ _ _).trans (acts_setEngine l _ _ (by rfl)))

theorem acts_starveLine (l : Fin 4) (s : State) : Acts s (starveLine l s) :=
  (acts_setEngine l _ s (by rfl)).trans (acts_raise _ _)

theorem acts_afterCopyEnd (l : Fin 4) (r : Job) (s : State) : Acts s (afterCopyEnd l r s) := by
  unfold afterCopyEnd
  simp only
  split
  · exact acts_setEngine l _ s (by rfl)
  · split
    · exact acts_askReady l _ s
    · split
      · exact acts_starveLine l s
      · exact acts_setEngine l _ s (by rfl)

/-- R71, R72, R80: what a line does at once. -/
theorem acts_runLine (n : Nat) (l : Fin 4) (s : State) : Acts s (runLine n l s) := by
  induction n generalizing s with
  | zero => exact Acts.refl s
  | succ n ih =>
    unfold runLine
    split
    · split
      · exact Acts.refl s
      · split
        · exact Acts.refl s
        · exact (acts_takeJob l _ s).trans (ih _)
    · split
      · exact Acts.refl s
      · split
        · exact Acts.refl s
        · rename_i j r hc
          have e := currentJob_jobAt hc
          split
          · split
            · exact (acts_setJob j r { r with sepPending := true } s e {} (by exact Nat.le_refl _)).trans (acts_afterCopyEnd l _ _)
            · exact (acts_completeCopy l j r r s e (Later.refl r) (by exact Nat.le_refl _)).trans (ih _)
          · exact acts_afterCopyEnd l r s
    · exact Acts.refl s
    · exact Acts.refl s
    · exact Acts.refl s
    · exact Acts.refl s

theorem acts_decideLine (l : Fin 4) (s : State) : Acts s (decideLine l s) := acts_runLine _ l s

/-! Passing, pausing and resuming. -/

theorem acts_drainRelease (j : Fin 16) (r r0 : Job) (h nb : Fin 128) (s : State) (e : jobAt s j = some r0) (hl : Later r0 r)
    (hf : r.tailFill ≤ r0.tailFill) : Acts s (drainRelease j r h nb s) := by
  unfold drainRelease
  have h1 : Acts s
      (setJob j { r with head := some nb, chainLen := r.chainLen - 1, anyReleased := true } (releaseBlock h s)) :=
    (acts_releaseBlock h s).trans
      (acts_setJob j r0 _ _ e (hl.trans { released := fun _ => rfl }) hf)
  simp only
  split
  · exact h1.trans ((acts_verify _ _).trans (acts_scanStep _))
  · exact h1

/-- A byte is passed, for a job whose record as it stands is `r0`. -/
theorem acts_passByte (j : Fin 16) (r r0 : Job) (p : Pos) (s : State) (e : jobAt s j = some r0) (hl : Later r0 r)
    (hf : r.tailFill ≤ r0.tailFill) : Acts s (passByte j r p s) := by
  unfold passByte
  simp only
  have h1 : Acts s (setJob j { r with copyPos := r.copyPos + 1, cursor := some { block := p.block, off := p.off + 1 } } s) :=
    acts_setJob j r0 _ s e (hl.trans {}) hf
  split
  · exact h1
  · split
    · exact h1.trans (acts_drainRelease j _ _ _ _ _ (by simp) (Later.refl _) (by exact Nat.le_refl _))
    · exact h1

theorem acts_pauseLine (l : Fin 4) (s : State) : Acts s (pauseLine l s) := by
  have h : ∀ now : Bool, Acts s
      (if now then setEngine l { engineAt (clearCycle l s) l with state := .paused } (clearCycle l s) else s) := by
    intro now
    split
    · exact (acts_clearCycle l s).trans (acts_setEngine l _ _ (by rfl))
    · exact Acts.refl s
  exact h _

theorem acts_resumeLine (l : Fin 4) (s : State) : Acts s (resumeLine l s) := by
  unfold resumeLine
  simp only
  split
  · exact Acts.refl s
  · split
    · exact (acts_setEngine l _ s (by rfl)).trans (acts_decideLine l _)
    · exact Acts.refl s

theorem acts_endStarvation (l : Fin 4) (j : Fin 16) (s : State) : Acts s (endStarvation l j s) := by
  unfold endStarvation
  simp only
  split
  · exact (acts_setEngine l _ s (by rfl)).trans (acts_decideLine l _)
  · exact Acts.refl s

/-! The end of a byte and of a fetch. -/

theorem acts_cancelEnds (l : Fin 4) (j : Fin 16) (st : LineState) (c : Cause) (s : State) :
    Acts s (cancelEnds l j st c s) :=
  (acts_retire j _ _ s).trans ((acts_setEngine l _ _ (by rfl)).trans (acts_finishCode _ _))

theorem acts_delivered (l : Fin 4) (s : State) : Acts s (delivered l s) := by
  unfold delivered
  simp only
  split
  · rename_i f j r _ hc
    have e := currentJob_jobAt hc
    have h1 : Acts s (setEngine l { engineAt s l with step := .boundary, fetched := none } s) := acts_setEngine l _ s (by rfl)
    refine h1.trans ?_
    have e1 : jobAt (setEngine l { engineAt s l with step := .boundary, fetched := none } s) j = some r := e
    generalize setEngine l { engineAt s l with step := .boundary, fetched := none } s = t at e1 ⊢
    have ht : Later r { r with total := satSucc Config.countTop r.total } := { total := le_satSucc _ _ }
    have hs : Later r { r with total := satSucc Config.countTop r.total, sepPending := false } := ht.trans {}
    have sep : Acts t
        (if r.cancelPending = true then
          decideLine l (cancelEnds l j .idle .none
            (setJob j { r with total := satSucc Config.countTop r.total, sepPending := false,
                               copiesDone := r.copiesDone + 1 } t))
        else decideLine l (completeCopy l j { r with total := satSucc Config.countTop r.total, sepPending := false } t)) := by
      split
      · exact (acts_setJob j r _ t e1 (by exact hs.trans { copiesDone := Nat.le_succ _ }) (by exact Nat.le_refl _)).trans
          ((acts_cancelEnds l j _ _ _).trans (acts_decideLine l _))
      · exact (acts_completeCopy l j _ r t e1 (by exact hs) (by exact Nat.le_refl _)).trans (acts_decideLine l _)
    split
    · exact sep
    · exact sep
    · rename_i p _ _
      have hp : Acts t (passByte j { r with total := satSucc Config.countTop r.total } p t) :=
        acts_passByte j _ r p t e1 ht (by exact Nat.le_refl _)
      refine hp.trans ?_
      split
      · split
        · exact Acts.refl _
        · rename_i q hq
          refine Acts.trans ?_ ((acts_cancelEnds l j _ _ _).trans (acts_decideLine l _))
          split
          · exact acts_setJob j q _ _ hq { copiesDone := Nat.le_succ _ } (by exact Nat.le_refl _)
          · exact acts_setJob j q q _ hq (Later.refl q) (by exact Nat.le_refl _)
      · exact acts_decideLine l _
  · exact Acts.refl s

theorem acts_failedNoack (l : Fin 4) (s : State) : Acts s (failedNoack l s) := by
  unfold failedNoack
  split
  · exact Acts.refl s
  · split
    · exact (acts_clearCycle l s).trans ((acts_cancelEnds l _ _ _ _).trans (acts_raise _ _))
    · exact acts_enterFault l _ s

theorem acts_fetchResult (l : Fin 4) (err : Bool) (s : State) : Acts s (fetchResult l err s) := by
  unfold fetchResult
  simp only
  refine (acts_endAccess s).trans ?_
  generalize ({ s with spool.access := none } : State) = t
  split
  · exact Acts.refl t
  · refine (acts_raise .check t).trans ?_
    generalize raise .check t = u
    have policy : ∀ v : State, Acts v
        (match (engineAt v l).config.policy with
        | .halt => enterFault l .check v
        | .substitute => setEngine l { engineAt v l with fetched := (engineAt v l).fetched.map fun f : Fetched =>
            { f with value := (engineAt v l).config.substitute, kind := .substitute } } v) := by
      intro v
      split
      · exact acts_enterFault l _ v
      · exact acts_setEngine l _ v (by rfl)
    cases hc : currentJob u l with
    | none => exact policy u
    | some jr =>
      obtain ⟨j, r⟩ := jr
      refine Acts.trans ?_ (policy _)
      exact acts_setJob j r _ u (currentJob_jobAt hc) (by exact { checkErrors := le_satSucc _ _ }) (by exact Nat.le_refl _)

theorem acts_fetchDone (l : Fin 4) (err : Bool) (s : State) : Acts s (fetchDone l err s) := by
  unfold fetchDone
  simp only
  refine (acts_fetchResult l err s).trans ?_
  split
  · split
    · exact acts_setEngine l _ _ (by rfl)
    · exact acts_askReady l _ _
  · exact Acts.refl _

/-! The intake path. -/

theorem acts_becomeClosed (j : Fin 16) (s : State) : Acts s (becomeClosed j s) := by
  unfold becomeClosed
  cases e : jobAt s j with
  | none => exact Acts.refl s
  | some r =>
    have hq : Later r { r with intake := .closed, output := .queued } := { phase := IntakePhase.rank_le_closed _ }
    have hc : Later r { r with intake := .closed } := { phase := IntakePhase.rank_le_closed _ }
    simp only
    split
    · exact (acts_setJob j r _ s e hq (by exact Nat.le_refl _)).trans ((acts_joinTail _ _ _ _).trans (acts_decideLine _ _))
    · exact (acts_setJob j r _ s e hc (by exact Nat.le_refl _)).trans (acts_endStarvation _ _ _)
    · exact acts_setJob j r _ s e hc (by exact Nat.le_refl _)
    · exact acts_setJob j r _ s e hc (by exact Nat.le_refl _)

theorem acts_closeIfDrained (j : Fin 16) (s : State) : Acts s (closeIfDrained j s) := by
  unfold closeIfDrained
  split
  · exact Acts.refl s
  · split
    · exact acts_becomeClosed j s
    · exact Acts.refl s

/-- The head request is none: a head entry that leaves is not one whose access is in progress. -/
def HeadIdle (s : State) : Prop := s.intake.headReq = .none

theorem noIntakeAccess_of_headIdle {s : State} (h : HeadIdle s) (k : StoreSafe s) : NoIntakeAccess s := fun c hc => by
  have := ((accessLaw_iff s).1 k.2.2 c hc).1
  rw [h] at this
  cases this

theorem acts_discardHead (j : Fin 16) (e : Fin 16 × Byte) (rest : List (Fin 16 × Byte)) (s : State)
    (hq : s.intake.fifo = e :: rest) (h : HeadIdle s) : Acts s (discardHead j rest s) := by
  unfold discardHead
  refine Acts.trans ?_ (acts_closeIfDrained j _)
  exact
    { fifo := by rw [hq]; exact List.sublist_cons_self _ _
      store := fun k => ⟨k.1, k.2.1, accessLaw_of_none (s := { s with intake.fifo := rest, intake.stall := false })
        (fun c hc => noIntakeAccess_of_headIdle h k c hc)⟩ }

theorem acts_markTruncated (j : Fin 16) (r : Job) (s : State) (e : jobAt s j = some r) : Acts s (markTruncated j r s) :=
  acts_setJob j r _ s e { truncated := fun _ => rfl } (by exact Nat.le_refl _)

theorem acts_requestHead (s : State) (h : HeadIdle s) : Acts s (requestHead s) where
  store := fun k => ⟨k.1, k.2.1, accessLaw_of_none (s := requestHead s) (fun c hc => noIntakeAccess_of_headIdle h k c hc)⟩

theorem acts_stall (s : State) (b : Bool) : Acts s { s with intake.stall := b } where
  store := fun ⟨a, b, d⟩ => ⟨a, b, d⟩

theorem acts_stallHead (s : State) : Acts s (stallHead s) := by
  unfold stallHead
  split
  · exact Acts.refl s
  · exact (acts_stall s true).trans (acts_raise _ _)

/-! The head request under the operations that may follow a discard. -/

theorem acts_evalHead (n : Nat) (s : State) : Acts s (evalHead n s) := by
  induction n generalizing s with
  | zero => exact Acts.refl s
  | succ n ih =>
    unfold evalHead
    split
    · exact acts_stall s false
    · rename_i j b rest hq
      split
      · exact Acts.refl s
      · rename_i hne
        have hi : HeadIdle s := Classical.not_not.mp hne
        split
        · exact (acts_discardHead j _ rest s hq hi).trans (ih _)
        · rename_i r e
          have hm : Acts s (discardHead j rest (markTruncated j r s)) :=
            (acts_markTruncated j r s e).trans (acts_discardHead j _ rest _ hq hi)
          split
          · exact (acts_discardHead j _ rest s hq hi).trans (ih _)
          · split
            · exact hm.trans (ih _)
            · split
              · exact acts_requestHead s hi
              · split
                · exact hm.trans (ih _)
                · split
                  · exact acts_stallHead s
                  · exact acts_requestHead s hi

theorem acts_evalIntake (s : State) : Acts s (evalIntake s) := acts_evalHead _ s

theorem acts_settle (l : Fin 4) (s : State) : Acts s (settle l s) := (acts_decideLine l s).trans (acts_evalIntake _)

theorem acts_byteStored (j : Fin 16) (s : State) : Acts s (byteStored j s) := by
  unfold byteStored
  split
  · exact Acts.refl s
  · split
    · exact acts_becomeClosed j s
    · split
      · exact acts_endStarvation _ _ s
      · exact Acts.refl s

/-- R54: the end of the intake access in progress. -/
theorem acts_intakeEnd (c k : BitVec 1) (s : State) (h : s.spool.access = some (.intake k)) : Acts s (intakeEnd c s) := by
  unfold intakeEnd
  split
  · exact (acts_storeHead c k s h).trans (acts_evalIntake _)
  · exact (acts_storeHead c k s h).trans ((acts_byteStored _ _).trans (acts_evalIntake _))

/-- R39, R63: an intake access of a job is let end. -/
theorem acts_endIntakeAccessOf (j : Fin 16) (s : State) : Acts s (endIntakeAccessOf j s) := by
  unfold endIntakeAccessOf
  split
  · rename_i c e _ ha _
    split
    · exact acts_intakeEnd c c s ha
    · exact Acts.refl s
  · exact Acts.refl s

end Sys2Proof.Machine
end

