-- ==== Sys2Proof/Laws/ActsCommands.lean ====
section
/-! SUPPORT. The commands of the Command Port and the events of the Line Units that are acts: all but OPEN, TAKE, TARGET and
LINE SET, of which the last lemmas say what they do beside an act. -/

namespace Sys2Proof.Machine

-- One after another: side by side the proofs would each wait in a thread of their own.
set_option Elab.async false

/-! Commands on jobs. -/

/-- A job command is an act if it is one on an occupied slot. -/
theorem acts_withJob (b : Byte) (s : State) (k : Fin 16 → Job → State) (h : ∀ j r, jobAt s j = some r → Acts s (k j r)) :
    Acts s (withJob b s k) := by
  unfold withJob
  cases jobOf b with
  | none => exact acts_finishCode _ s
  | some j =>
    simp only
    cases e : jobAt s j with
    | none => exact acts_finishCode _ s
    | some r => exact h j r e

/-- A line command is an act if it is one on each line. -/
theorem acts_withLine (b : Byte) (s : State) (k : Fin 4 → State) (h : ∀ l, Acts s (k l)) : Acts s (withLine b s k) := by
  unfold withLine
  split
  · exact acts_finishCode _ s
  · exact h _

/-- The target goes to a job or to none. -/
theorem acts_target (s : State) (t : Option (Fin 16)) : Acts s { s with intake.target := t } where
  store := fun ⟨a, b, d⟩ => ⟨a, b, d⟩

theorem acts_actTarget (b : Byte) (s : State) : Acts s (actTarget b s) := by
  unfold actTarget
  split
  · exact (acts_target s none).trans (acts_finishCode _ _)
  · refine acts_withJob b s _ (fun j r _ => ?_)
    split
    · exact acts_finishCode _ s
    · exact (acts_target s (some j)).trans (acts_finishCode _ _)

theorem acts_actClose (b : Byte) (s : State) : Acts s (actClose b s) := by
  unfold actClose
  refine acts_withJob b s _ (fun j r e => ?_)
  split
  · exact acts_finishCode _ s
  · rename_i ho
    have ho : r.intake = .opened := Classical.not_not.mp ho
    have h1 : ∀ t, Acts s (finishCode .ok { s with intake.target := t }) :=
      fun t => (acts_target s t).trans (acts_finishCode _ _)
    simp only
    generalize (if s.intake.target = some j then none else s.intake.target) = tg
    split
    · refine (h1 tg).trans (acts_setJob j r _ _ e ?_ (by exact Nat.le_refl _))
      exact { phase := by rw [ho]; exact Nat.zero_le _ }
    · exact (h1 tg).trans ((acts_becomeClosed j _).trans (acts_evalIntake _))

theorem acts_cancelCurrent (l : Fin 4) (j : Fin 16) (s : State) : Acts s (cancelCurrent l j s) := by
  unfold cancelCurrent
  have tail : ∀ t, Acts t
      (settle l (finishCode .ok (setEngine l
        { engineAt (retire j .cancelled .none (clearCycle l t)) l with state := .idle, cause := .none }
        (retire j .cancelled .none (clearCycle l t))))) := fun t =>
    (acts_clearCycle l t).trans ((acts_retire j _ _ _).trans ((acts_setEngine l _ _ (by rfl)).trans
      ((acts_finishCode _ _).trans (acts_settle l _))))
  refine Acts.trans ?_ (tail _)
  split
  · split
    · exact acts_fetchResult l _ s
    · exact Acts.refl s
  · exact Acts.refl s

theorem acts_cancelJob (b : Byte) (s : State) : Acts s (cancelJob b s) := by
  unfold cancelJob
  refine acts_withJob b s _ (fun j r e => ?_)
  have quiet : Acts s (evalIntake (finishCode .ok (retire j .cancelled .none s))) :=
    (acts_retire j _ _ _).trans ((acts_finishCode _ _).trans (acts_evalIntake _))
  split
  · exact quiet
  · exact quiet
  · split
    · exact acts_setJob j r _ _ e (by exact {}) (by exact Nat.le_refl _)
    · exact acts_cancelCurrent _ j _
  · exact acts_finishCode _ _

theorem acts_actCancel (b : Byte) (s : State) : Acts s (actCancel b s) := by
  unfold actCancel
  refine Acts.trans ?_ (acts_cancelJob b _)
  split
  · exact Acts.refl s
  · exact acts_endIntakeAccessOf _ s

theorem acts_actHold (b : Byte) (s : State) : Acts s (actHold b s) := by
  unfold actHold
  refine acts_withJob b s _ (fun j r e => ?_)
  split
  · exact acts_finishCode _ s
  · split
    · exact acts_finishCode _ s
    · have h : Acts s (finishCode .ok (setJob j { r with held := true } s)) :=
        (acts_setJob j r _ s e (by exact {}) (by exact Nat.le_refl _)).trans (acts_finishCode _ _)
      simp only
      split
      · exact h.trans (acts_pauseLine _ _)
      · exact h

theorem acts_actRelease (b : Byte) (s : State) : Acts s (actRelease b s) := by
  unfold actRelease
  refine acts_withJob b s _ (fun j r e => ?_)
  split
  · exact acts_finishCode _ s
  · split
    · exact acts_finishCode _ s
    · have h : Acts s (finishCode .ok (setJob j { r with held := false } s)) :=
        (acts_setJob j r _ s e (by exact {}) (by exact Nat.le_refl _)).trans (acts_finishCode _ _)
      simp only
      split
      · exact h.trans (acts_settle _ _)
      · exact h.trans ((acts_resumeLine _ _).trans (acts_evalIntake _))
      · exact h
      · exact h

theorem acts_moveCurrent (j : Fin 16) (r : Job) (l : Fin 4) (s : State) (e : jobAt s j = some r) :
    Acts s (moveCurrent j r l s) := by
  unfold moveCurrent
  simp only
  refine Acts.trans ?_ (acts_settle _ _)
  refine Acts.trans ?_ (acts_settle _ _)
  refine Acts.trans ?_ (acts_finishCode _ _)
  refine Acts.trans ?_ (acts_joinHead _ _ _ _)
  refine (acts_setEngine r.line _ s ?_).trans (acts_setJob j r _ _ ?_ (by exact {}) (by exact Nat.le_refl _))
  · rfl
  · exact e

theorem acts_actMove (b line : Byte) (s : State) : Acts s (actMove b line s) := by
  unfold actMove
  split
  · exact acts_finishCode _ s
  · refine acts_withJob b s _ (fun j r e => ?_)
    split
    · exact acts_finishCode _ s
    · split
      · exact acts_finishCode _ s
      · exact (acts_setJob j r _ s e (by exact {}) (by exact Nat.le_refl _)).trans (acts_finishCode _ _)
      · refine (acts_leaveQueue r.line j s).trans ?_
        refine Acts.trans ?_ (acts_settle _ _)
        refine Acts.trans ?_ (acts_finishCode _ _)
        refine Acts.trans ?_ (acts_joinTail _ _ _ _)
        apply acts_setJob j r
        · exact e
        · exact {}
        · exact Nat.le_refl _
      · split
        · exact acts_moveCurrent j r _ s e
        · exact acts_finishCode _ s

theorem acts_actVerify (b : Byte) (s : State) : Acts s (actVerify b s) := by
  unfold actVerify
  refine acts_withJob b s _ (fun j r _ => ?_)
  split
  · exact acts_finish _ s (by simp)
  · exact (acts_verify s _).trans (acts_scanStep _)

theorem acts_actQueryJob (b : Byte) (s : State) : Acts s (actQueryJob b s) := by
  unfold actQueryJob
  exact acts_withJob b s _ (fun j r _ => acts_finish _ s (by simp))

theorem acts_actStoreQuery (s : State) : Acts s (actStoreQuery s) := acts_finish _ s (by simp)

/-! Commands on lines. -/

theorem acts_actLineEnable (b : Byte) (s : State) : Acts s (actLineEnable b s) := by
  unfold actLineEnable
  refine acts_withLine b s _ (fun l => ?_)
  split
  · exact acts_finishCode _ s
  · simp only
    have h : Acts s (finishCode .ok (setEngine l { engineAt s l with state := .idle } s)) :=
      (acts_setEngine l _ s (by rfl)).trans (acts_finishCode _ _)
    refine h.trans ?_
    refine Acts.trans ?_ (acts_settle l _)
    split
    · exact Acts.refl _
    · unfold startReceiver
      simp only
      split
      · exact acts_setSer _ _ _ (by rfl)
      · exact acts_setSer _ _ _ (by rfl)

theorem acts_actLineDisable (b : Byte) (s : State) : Acts s (actLineDisable b s) := by
  unfold actLineDisable
  refine acts_withLine b s _ (fun l => ?_)
  split
  · exact acts_finishCode _ s
  · simp only
    have h : Acts s (finishCode .ok (setEngine l { engineAt s l with state := .off } s)) :=
      (acts_setEngine l _ s (by rfl)).trans (acts_finishCode _ _)
    refine h.trans ?_
    split
    · exact Acts.refl _
    · exact acts_setSer _ _ _ (by rfl)

theorem acts_actLineStop (b : Byte) (s : State) : Acts s (actLineStop b s) := by
  unfold actLineStop
  refine acts_withLine b s _ (fun l => ?_)
  split
  · exact acts_finishCode _ s
  · exact (acts_setEngine l _ s (by rfl)).trans ((acts_finishCode _ _).trans (acts_pauseLine l _))

theorem acts_actLineGo (b : Byte) (s : State) : Acts s (actLineGo b s) := by
  unfold actLineGo
  refine acts_withLine b s _ (fun l => ?_)
  split
  · exact acts_finishCode _ s
  · simp only
    have h : Acts s (finishCode .ok (setEngine l { engineAt s l with stop := false } s)) :=
      (acts_setEngine l _ s (by rfl)).trans (acts_finishCode _ _)
    refine h.trans ?_
    split
    · exact acts_settle l _
    · exact (acts_resumeLine l _).trans (acts_evalIntake _)
    · exact Acts.refl _
    · exact Acts.refl _
    · exact Acts.refl _
    · exact Acts.refl _

theorem acts_recoverLine (l : Fin 4) (s : State) : Acts s (recoverLine l s) := by
  unfold recoverLine
  simp only
  split
  · exact (acts_setEngine l _ s (by rfl)).trans (acts_settle l _)
  · split
    · exact (acts_setEngine l _ s (by rfl)).trans (acts_evalIntake _)
    · exact (acts_setEngine l _ s (by rfl)).trans (acts_settle l _)

theorem acts_resumeChoice (l : Fin 4) (skip : Bool) (s : State) : Acts s (resumeChoice l skip s) := by
  unfold resumeChoice
  split
  · exact acts_recoverLine l s
  · rename_i j r hc
    have e := currentJob_jobAt hc
    split
    · refine (acts_completeCopy l j { r with sepPending := false } r s e (by exact {}) (by exact Nat.le_refl _)).trans ?_
      simp only
      split
      · exact acts_settle l _
      · exact acts_recoverLine l _
    · split
      · split
        · exact acts_recoverLine l s
        · rename_i p _
          have hp : Acts s (passByte j r p s) := acts_passByte j r r p s e (Later.refl r) (Nat.le_refl _)
          have he : Acts (passByte j r p s)
              (setEngine l { engineAt s l with state := .sending, step := .boundary } (passByte j r p s)) :=
            acts_setEngine l _ _ (by exact (hp.drain l).symm)
          exact hp.trans (he.trans (acts_settle l _))
      · exact acts_recoverLine l s

theorem acts_actLineResume (b c : Byte) (s : State) : Acts s (actLineResume b c s) := by
  unfold actLineResume
  refine acts_withLine b s _ (fun l => ?_)
  split
  · exact acts_finishCode _ s
  · simp only
    split
    · exact acts_finishCode _ s
    · split
      · exact acts_finishCode _ s
      · exact (acts_setEngine l _ s (by rfl)).trans ((acts_finishCode _ _).trans (acts_resumeChoice l _ _))

theorem acts_actLineRestart (b : Byte) (s : State) : Acts s (actLineRestart b s) := by
  unfold actLineRestart
  refine acts_withLine b s _ (fun l => ?_)
  simp only
  split
  · exact acts_finishCode _ s
  · split
    · exact acts_finishCode _ s
    · rename_i j r hc
      split
      · exact acts_finishCode _ s
      · split
        · exact acts_finishCode _ s
        · refine Acts.trans ?_ (acts_recoverLine l _)
          refine Acts.trans ?_ (acts_finishCode _ _)
          have h : Acts s (setEngine l { engineAt s l with cause := .none } s) := acts_setEngine l _ s (by rfl)
          refine h.trans ?_
          apply acts_setJob j r
          · exact (currentJob_jobAt hc : jobAt s j = some r)
          · exact {}
          · exact Nat.le_refl _

theorem acts_abortLine (l : Fin 4) (s : State) : Acts s (abortLine l s) := by
  unfold abortLine
  simp only
  refine Acts.trans ?_ (acts_settle l _)
  refine Acts.trans ?_ (acts_finishCode _ _)
  refine Acts.trans ?_ (acts_setEngine l _ _ (by rfl))
  split
  · exact Acts.refl s
  · exact acts_retire _ _ _ s

theorem acts_actLineAbort (b : Byte) (s : State) : Acts s (actLineAbort b s) := by
  unfold actLineAbort
  refine acts_withLine b s _ (fun l => ?_)
  simp only
  split
  · exact acts_finishCode _ s
  · refine Acts.trans ?_ (acts_abortLine l _)
    split
    · exact Acts.refl s
    · exact acts_endIntakeAccessOf _ s

theorem acts_actLineQuery (b : Byte) (s : State) : Acts s (actLineQuery b s) := by
  unfold actLineQuery
  exact acts_withLine b s _ (fun l => acts_finish _ s (by simp))

/-! Events of the Line Units and of the store's accesses. -/

theorem acts_beforeReport (l : Fin 4) (s : State) : Acts s (beforeReport l s) := by
  unfold beforeReport
  split
  · exact Acts.refl s
  · split
    · exact acts_endIntakeAccessOf _ s
    · exact Acts.refl s

theorem acts_reportEnd (x : Fin 2) (o : ByteEnd) (s : State) : Acts s (reportEnd x o s) := by
  unfold reportEnd
  refine (acts_beforeReport (parLine x) s).trans ?_
  refine (acts_setPar x { parAt (beforeReport (parLine x) s) x with
    handshake := .rest, busySeen := false, ack := none, decided := none, phaseClks := 0 } _ (by rfl)).trans ?_
  split
  · exact (acts_delivered _ _).trans (acts_evalIntake _)
  · exact (acts_failedNoack _ _).trans (acts_evalIntake _)

theorem acts_decideByte (x : Fin 2) (o : ByteEnd) (s : State) : Acts s (decideByte x o s) := by
  unfold decideByte
  simp only
  split
  · have h : Acts s (setPar x { parAt s x with decided := some o, ack := none } s) := acts_setPar x _ s (by rfl)
    refine h.trans ?_
    split
    · exact acts_reportEnd x o _
    · exact Acts.refl _
  · exact Acts.refl s

theorem acts_endSetup (x : Fin 2) (s : State) : Acts s (endSetup x s) := by
  unfold endSetup
  simp only
  split
  · exact acts_setPar x _ s (by rfl)
  · exact Acts.refl s

theorem acts_endStrobe (x : Fin 2) (s : State) : Acts s (endStrobe x s) := by
  unfold endStrobe
  simp only
  split
  · exact acts_setPar x _ s (by rfl)
  · exact Acts.refl s

theorem acts_endTrail (x : Fin 2) (s : State) : Acts s (endTrail x s) := by
  unfold endTrail
  simp only
  split
  · split
    · exact acts_reportEnd x _ s
    · exact acts_setPar x _ s (by rfl)
  · exact Acts.refl s

theorem acts_examineInFlight (x : Fin 2) (a b : ParPins) (s : State) : Acts s (examineInFlight x a b s) := by
  unfold examineInFlight
  simp only
  split
  · split
    · exact acts_setPar x _ s (by rfl)
    · split
      · exact acts_decideByte x _ s
      · exact Acts.refl s
  · split
    · exact acts_decideByte x _ s
    · exact Acts.refl s

theorem acts_changeInputs (x : Fin 2) (p : ParPins) (s : State) : Acts s (changeInputs x p s) := by
  unfold changeInputs
  simp only
  split
  · exact acts_setPar x _ s (by rfl)
  · have h : Acts s (setPar x { parAt s x with pins := p, snapshot := p } s) := acts_setPar x _ s (by rfl)
    refine h.trans ?_
    split
    · exact Acts.refl _
    · split
      · exact acts_answerReady _ _
      · exact Acts.refl _
    · exact acts_examineInFlight x _ _ _
    · exact acts_examineInFlight x _ _ _
    · exact acts_examineInFlight x _ _ _
    · exact acts_examineInFlight x _ _ _

theorem acts_retestFlow (y : Fin 2) (s : State) : Acts s (retestFlow y s) := by
  unfold retestFlow
  split
  · exact acts_answerReady _ s
  · exact Acts.refl s

theorem acts_changeGo (y : Fin 2) (v : Bool) (s : State) : Acts s (changeGo y v s) := by
  unfold changeGo
  simp only
  split
  · exact acts_setSer y _ s (by rfl)
  · have h : Acts s (setSer y { serAt s y with pins.go := v, snapshot.go := v } s) := acts_setSer y _ s (by rfl)
    refine h.trans ?_
    split
    · exact acts_retestFlow y _
    · exact Acts.refl _

theorem acts_endFrame (y : Fin 2) (s : State) : Acts s (endFrame y s) := by
  unfold endFrame
  simp only
  split
  · refine (acts_beforeReport (serLine y) s).trans ?_
    exact (acts_setSer y { serAt (beforeReport (serLine y) s) y with transmit := .rest, bitIndex := 0, bitClks := 0 } _
      (by rfl)).trans ((acts_delivered _ _).trans (acts_evalIntake _))
  · exact Acts.refl s

theorem acts_setRxd (y : Fin 2) (v : Bool) (s : State) : Acts s (setRxd y v s) := acts_setSer y _ s (by rfl)

theorem acts_sampleRxd (y : Fin 2) (s : State) : Acts s (sampleRxd y s) := by
  unfold sampleRxd
  simp only
  split
  · exact acts_setSer y _ s (by rfl)
  · split
    · exact acts_setSer y _ s (by rfl)
    · exact acts_setSer y _ s (by rfl)

theorem acts_actOnCharacter (y : Fin 2) (d : Byte) (s : State) : Acts s (actOnCharacter y d s) := by
  unfold actOnCharacter
  simp only
  split
  · exact acts_setSer y _ s (by rfl)
  · split
    · have h : Acts s (setSer y { serAt s y with xoff := false } s) := acts_setSer y _ s (by rfl)
      refine h.trans ?_
      split
      · exact acts_retestFlow y _
      · exact Acts.refl _
    · exact Acts.refl s

theorem acts_receiveCharacter (y : Fin 2) (d : Byte) (p v : Bool) (s : State) : Acts s (receiveCharacter y d p v s) := by
  unfold receiveCharacter
  simp only
  refine (acts_setRxd y v s).trans ?_
  generalize setRxd y v s = t
  split
  · split
    · exact acts_setSer y _ _ (by rfl)
    · have h : ∀ rx : Byte, Acts t
          (setSer y { serAt t y with rxData := rx, rxParity := p, startSeen := false, receiver := .hunt } t) :=
        fun rx => acts_setSer y _ t (by rfl)
      refine (h (comparedData (serAt t y).config d)).trans ?_
      split
      · exact acts_actOnCharacter y d _
      · exact Acts.refl _
  · exact Acts.refl _

theorem acts_rxdAtMark (y : Fin 2) (s : State) : Acts s (rxdAtMark y s) := by
  unfold rxdAtMark
  simp only
  refine (acts_setRxd y true s).trans ?_
  split
  · exact acts_setSer y _ _ (by rfl)
  · exact Acts.refl _

theorem acts_rxdFalls (y : Fin 2) (s : State) : Acts s (rxdFalls y s) := by
  unfold rxdFalls
  simp only
  refine (acts_setRxd y false s).trans ?_
  split
  · exact acts_setSer y _ _ (by rfl)
  · exact Acts.refl _

theorem acts_sampleStartBit (y : Fin 2) (v : Bool) (s : State) : Acts s (sampleStartBit y v s) := by
  unfold sampleStartBit
  simp only
  refine (acts_setRxd y v s).trans ?_
  split
  · exact acts_setSer y _ _ (by rfl)
  · exact Acts.refl _

theorem acts_expireHold (l : Fin 4) (s : State) : Acts s (expireHold l s) := by
  unfold expireHold
  simp only
  split
  · exact acts_enterFault l _ s
  · exact Acts.refl s

theorem acts_expireStarve (l : Fin 4) (s : State) : Acts s (expireStarve l s) := by
  unfold expireStarve
  simp only
  split
  · exact acts_enterFault l _ s
  · exact Acts.refl s

theorem acts_expireAck (x : Fin 2) (s : State) : Acts s (expireAck x s) := by
  unfold expireAck
  simp only
  split
  · exact acts_decideByte x _ s
  · exact Acts.refl s

theorem acts_endFetch (l : Fin 4) (s : State) : Acts s (endFetch l s) := by
  unfold endFetch
  split
  · split
    · exact acts_fetchDone l _ s
    · exact Acts.refl s
  · exact Acts.refl s

theorem acts_endVerifyRead (s : State) : Acts s (endVerifyRead s) := by
  unfold endVerifyRead
  split
  · exact (acts_countRead _ s).trans (acts_scanStep _)
  · exact Acts.refl s

theorem acts_endIntakeAccess (s : State) : Acts s (endIntakeAccess s) := by
  unfold endIntakeAccess
  split
  · rename_i c ha; exact acts_intakeEnd c c s ha
  · exact Acts.refl s

/-- R153 aside, a tick changes the count of the Time Base and the counts of timers alone. -/
theorem takeTick_config (s : State) :
    (∀ l, (engineAt (takeTick s) l).config = (engineAt s l).config) ∧
    (∀ x, (parAt (takeTick s) x).config = (parAt s x).config) := by
  unfold takeTick
  split
  · exact ⟨fun _ => rfl, fun _ => rfl⟩
  · refine ⟨fun l => ?_, fun x => ?_⟩
    · fin_cases l <;> rfl
    · fin_cases x <;> rfl

end Sys2Proof.Machine
end

