-- ==== Sys2Proof/Laws/CommandPort.lean ====
section
/-! SUPPORT. What a command written whole comes to: carried out at once when the port can take its code, refused while the
port is EXECUTING, and nothing while STATUS.READY reads 0. -/

namespace Sys2Proof.Machine

-- One after another: side by side the proofs would each wait in a thread of their own.
set_option Elab.async false

/-- The code of a command names it. -/
@[simp] theorem ofCode_code (c : Cmd) : Cmd.ofCode c.code = some c := by cases c <;> rfl

/-- A code that names a command is that command's code. -/
theorem code_of_ofCode {b : Byte} {c : Cmd} (h : Cmd.ofCode b = some c) : c.code = b := by
  unfold Cmd.ofCode at h
  split at h <;> first
    | (cases h; simp only [Cmd.code]; apply BitVec.eq_of_toNat_eq; simp_all)
    | cases h

/-- A command takes at most eight parameters. -/
theorem Cmd.params_le (c : Cmd) : c.params ≤ 8 := by cases c <;> decide

theorem acts_portExecuting (s : State) : Acts s (portExecuting s) where
  port := fun _ => by simp [portExecuting, portLaw]

theorem writeParameter_not_ready (b : Byte) (s : State) (h : s.window.ready = false) : writeParameter b s = s := by
  simp [writeParameter, h]

theorem writeCommand_not_ready (b : Byte) (s : State) (h : s.window.ready = false) : writeCommand b s = s := by
  simp [writeCommand, h]

/-- R179: while READY reads 0 a command reaches no unit. -/
theorem hostCommand_not_ready (c : Cmd) (ps : List Byte) (s : State) (h : s.window.ready = false) :
    hostCommand c ps s = s := by
  unfold hostCommand
  rw [writeCommand_not_ready _ _ h]
  induction ps with
  | nil => rfl
  | cons b ps ih => rw [List.foldl_cons, writeParameter_not_ready _ _ h]; exact ih

/-- R145: the parameters still to come are collected, and the last carries the command out. -/
theorem collect (c : Cmd) (rest : List Byte) (pre : List Byte) (s : State) (hr : s.window.ready = true)
    (h1 : s.port.state = .collecting) (h2 : s.port.staged = some c) (h3 : s.port.staging = pre)
    (hl : pre.length + rest.length = c.params) (hne : rest ≠ []) :
    rest.foldl (fun t b => writeParameter b t) s = carryOut c (pre ++ rest) (portExecuting s) := by
  induction rest generalizing pre s with
  | nil => exact absurd rfl hne
  | cons b rest ih =>
    rw [List.foldl_cons]
    simp only [List.length_cons] at hl
    cases rest with
    | nil =>
      have hle : c.params ≤ pre.length + 1 := by simp only [List.length_nil] at hl; omega
      simp only [List.foldl_nil, writeParameter, hr, h1, h2, h3, List.length_append, List.length_singleton, hle, if_true]
      rfl
    | cons a rest =>
      have hlt : ¬ c.params ≤ pre.length + 1 := by simp only [List.length_cons] at hl; omega
      have hw : writeParameter b s = { s with port.staging := pre ++ [b] } := by
        simp [writeParameter, hr, h1, h2, h3, hlt]
      have hlen : (pre ++ [b]).length + (a :: rest).length = c.params := by
        simp only [List.length_append, List.length_cons, List.length_nil] at hl ⊢; omega
      have hih := ih (pre ++ [b]) { s with port.staging := pre ++ [b] } hr h1 h2 rfl hlen (by simp)
      rw [hw, hih, List.append_assoc]
      rfl

/-- R144 to R146: a command written whole to a port that is IDLE or in RESULTS is carried out. -/
theorem hostCommand_admitted (c : Cmd) (ps : List Byte) (s : State) (hr : s.window.ready = true)
    (hp : s.port.state = .idle ∨ s.port.state = .results) (hl : ps.length = c.params) :
    hostCommand c ps s = carryOut c ps (portExecuting s) := by
  have hw : writeCommand c.code s = acceptCode c.code s := by
    rcases hp with hp | hp <;> simp [writeCommand, hr, hp]
  unfold hostCommand
  rw [hw]
  unfold acceptCode
  rw [ofCode_code]
  simp only
  by_cases h0 : c.params = 0
  · rw [if_pos h0]
    have : ps = [] := List.length_eq_zero_iff.1 (by omega)
    subst this
    rfl
  · rw [if_neg h0]
    have hne : ps ≠ [] := fun e => by subst e; simp only [List.length_nil] at hl; omega
    exact collect c ps [] _ hr rfl rfl rfl (by simpa using hl) hne

/-- R144: a command written whole to a port that is COLLECTING drops the staged command first. -/
theorem hostCommand_collecting (c : Cmd) (ps : List Byte) (s : State) (hr : s.window.ready = true)
    (hp : s.port.state = .collecting) (hl : ps.length = c.params) :
    hostCommand c ps s = carryOut c ps (portExecuting (raise .cmdErr { s with port.abandoned := true })) := by
  have hw : writeCommand c.code s = acceptCode c.code (raise .cmdErr { s with port.abandoned := true }) := by
    simp [writeCommand, hr, hp]
  unfold hostCommand
  rw [hw]
  unfold acceptCode
  rw [ofCode_code]
  simp only
  by_cases h0 : c.params = 0
  · rw [if_pos h0]
    have : ps = [] := List.length_eq_zero_iff.1 (by omega)
    subst this
    rfl
  · rw [if_neg h0]
    have hne : ps ≠ [] := fun e => by subst e; simp only [List.length_nil] at hl; omega
    exact collect c ps [] _ hr rfl rfl rfl (by simpa using hl) hne

end Sys2Proof.Machine
end

