-- ==== Sys2Proof/Laws/ActsPort.lean ====
section
/-! SUPPORT. What an access to the Command Port can do, said once: `Effect jobs config s t` is what `Acts s t` says, but that a
free slot may be filled, and that a slot may be freed or a line's configuration written where `jobs` or `config` fails. -/

namespace Sys2Proof.Machine

-- One after another: side by side the proofs would each wait in a thread of their own.
set_option Elab.async false

/-- What a command carried out for the host can do to a state. -/
structure Effect (jobs config : Prop) (s t : State) : Prop where
  pending : t.pending = s.pending := by rfl
  window : t.window = s.window := by rfl
  timeBase : t.timeBase = s.timeBase := by rfl
  fresh : t.fresh = s.fresh := by rfl
  enable : t.events.enable = s.events.enable := by rfl
  flags : s.events.flags ||| t.events.flags = t.events.flags := by exact BitVec.or_self
  pointer : t.spool.pointer = s.spool.pointer := by rfl
  written : NoIntakeAccess s →
      t.spool.bytes = s.spool.bytes ∧ t.spool.checks = s.spool.checks ∧ NoIntakeAccess t := by
    exact fun h => ⟨rfl, rfl, h⟩
  freeList : s.spool.freeList <+: t.spool.freeList := by exact List.prefix_rfl
  config : config → (∀ l, (engineAt t l).config = (engineAt s l).config) ∧
      (∀ x, (parAt t x).config = (parAt s x).config) ∧ (∀ y, (serAt t y).config = (serAt s y).config) := by
    exact fun _ => ⟨fun _ => rfl, fun _ => rfl, fun _ => rfl⟩
  jobs : jobs → ∀ j r, jobAt s j = some r → ∃ r', jobAt t j = some r' ∧ Later r r' := by
    exact fun _ _ r h => ⟨r, h, Later.refl r⟩
  records : recordsLaw s.completion = true → recordsLaw t.completion = true := by exact id
  port : portLaw s.port = true → portLaw t.port = true := by exact id
  store : StoreSafe s → StoreSafe t := by exact id

/-- An act is an effect that frees no slot and writes no configuration. -/
theorem Acts.effect {s t : State} (j c : Prop) (h : Acts s t) : Effect j c s t where
  pending := h.pending
  window := h.window
  timeBase := h.timeBase
  fresh := h.fresh
  enable := h.enable
  flags := h.flags
  pointer := h.pointer
  written := h.written
  freeList := h.freeList
  config := fun _ => ⟨h.drain, h.par, h.ser⟩
  jobs := fun _ => h.jobs
  records := h.records
  port := h.port
  store := h.store

theorem Effect.trans {j c : Prop} {a b d : State} (h : Effect j c a b) (k : Effect j c b d) : Effect j c a d where
  pending := k.pending.trans h.pending
  window := k.window.trans h.window
  timeBase := k.timeBase.trans h.timeBase
  fresh := k.fresh.trans h.fresh
  enable := k.enable.trans h.enable
  flags := by rw [← k.flags, ← BitVec.or_assoc, h.flags]
  pointer := k.pointer.trans h.pointer
  written := fun n => by
    obtain ⟨b1, c1, n1⟩ := h.written n
    obtain ⟨b2, c2, n2⟩ := k.written n1
    exact ⟨b2.trans b1, c2.trans c1, n2⟩
  freeList := h.freeList.trans k.freeList
  config := fun w => ⟨fun l => ((k.config w).1 l).trans ((h.config w).1 l), fun x => ((k.config w).2.1 x).trans ((h.config w).2.1 x),
    fun y => ((k.config w).2.2 y).trans ((h.config w).2.2 y)⟩
  jobs := fun w i r e => by
    obtain ⟨r1, e1, l1⟩ := h.jobs w i r e
    obtain ⟨r2, e2, l2⟩ := k.jobs w i r1 e1
    exact ⟨r2, e2, l1.trans l2⟩
  records := k.records ∘ h.records
  port := k.port ∘ h.port
  store := k.store ∘ h.store

/-- R3: a free slot is filled with a record that holds no block. -/
theorem effect_fillSlot (j : Fin 16) (r : Job) (s : State) (e : jobAt s j = none) (hr : r.tailFill = 0) (p c : Prop) :
    Effect p c s (setJob j r s) where
  jobs := fun _ k q hk => by
    have : k ≠ j := fun h => by subst h; rw [e] at hk; cases hk
    exact ⟨q, by simp [this, hk], Later.refl q⟩
  store := fun ⟨h1, h2, h3⟩ => by
    refine ⟨h1, ?_, ?_⟩
    · rw [fillLaw_iff] at h2 ⊢
      intro k q hk
      by_cases hkj : k = j
      · subst hkj
        rw [jobAt_setJob, if_pos rfl] at hk
        cases hk
        rw [hr]
        exact Nat.zero_le _
      · rw [jobAt_setJob, if_neg hkj] at hk
        exact h2 _ _ hk
    · rw [accessLaw_iff] at h3 ⊢
      intro w hw
      obtain ⟨hg, a, as, ha, hq⟩ := h3 w hw
      refine ⟨hg, a, as, ha, fun q hk => ?_⟩
      by_cases hkj : a.1 = j
      · rw [jobAt_setJob, if_pos hkj] at hk
        cases hk
        rw [hr]
        decide
      · rw [jobAt_setJob, if_neg hkj] at hk
        exact hq q hk

/-- R23: a slot is freed. -/
theorem effect_freeSlot (j : Fin 16) (s : State) (c : Prop) : Effect False c s (freeSlot j s) where
  jobs := fun h => h.elim
  store := fun ⟨h1, h2, h3⟩ => by
    have sub : ∀ k q, jobAt (freeSlot j s) k = some q → jobAt s k = some q := fun k q hk => by
      by_cases hkj : k = j
      · subst hkj; simp [jobAt, freeSlot] at hk
      · have : jobAt (freeSlot j s) k = jobAt s k := tab_setTab_ne hkj _
        rw [← this]; exact hk
    refine ⟨h1, ?_, ?_⟩
    · rw [fillLaw_iff] at h2 ⊢
      exact fun k q hk => h2 k q (sub k q hk)
    · rw [accessLaw_iff] at h3 ⊢
      intro w hw
      obtain ⟨hg, a, as, ha, hq⟩ := h3 w hw
      exact ⟨hg, a, as, ha, fun q hk => hq q (sub _ _ hk)⟩

theorem firstFree_none {s : State} {j : Fin 16} (h : firstFree s = some j) : jobAt s j = none := by
  have := List.find?_some h
  simpa using this

/-- R2, R3: OPEN frees no slot and writes no configuration. -/
theorem effect_actOpen (l o n q : Byte) (s : State) (p c : Prop) : Effect p c s (actOpen l o n q s) := by
  unfold actOpen
  split
  · exact (acts_finishCode _ s).effect p c
  · split
    · exact (acts_finishCode _ s).effect p c
    · split
      · exact (acts_finishCode _ s).effect p c
      · rename_i j hj
        have h : ∀ r : Job, r.tailFill = 0 →
            Effect p c s (finish [codeByte .ok, byteOf j.val] { setJob j r s with intake.target := some j }) := fun r hr =>
          (effect_fillSlot j r s (firstFree_none hj) hr p c).trans
            (((acts_target _ _).trans (acts_finish _ _ (by simp))).effect p c)
        simp only
        split
        · exact (h _ rfl).trans (((acts_joinTail _ _ _ _).trans (acts_settle _ _)).effect p c)
        · exact h _ rfl

/-- The records without the oldest keep their law. -/
theorem recordsLaw_rest {q : Completion} {a : Record} {rest : List Record} (h : q.queue = a :: rest)
    (k : recordsLaw q = true) : recordsLaw { q with queue := rest } = true ∧ rest.length < Config.completionDepth := by
  simp only [recordsLaw, h, seqLaw, List.length_cons, Bool.and_eq_true, decide_eq_true_eq] at k ⊢
  exact ⟨⟨by omega, k.2.2⟩, by omega⟩

/-- R135: a posting as an effect, where its record finds room when the records keep their law. -/
theorem effect_post {p c : Prop} {s t : State} (j : Fin 16) (h : Effect p c s t)
    (hr : recordsLaw s.completion = true → t.completion.queue.length < Config.completionDepth) : Effect p c s (post j t) := by
  by_cases hl : t.completion.queue.length < Config.completionDepth
  · exact h.trans ((acts_post j t hl).effect p c)
  · unfold post
    cases e : jobAt t j with
    | none => exact h
    | some r =>
      have a : Effect p c s (raise .doneQ (setJob j { r with posted := true } t)) :=
        h.trans (((acts_setJob j r _ t e (by exact {}) (by exact Nat.le_refl _)).trans (acts_raise _ _)).effect p c)
      exact { a with records := fun k => absurd (hr k) hl }

/-- R138: TAKE writes no configuration. -/
theorem effect_actTake (s : State) (c : Prop) : Effect False c s (actTake s) := by
  unfold actTake
  split
  · exact (acts_finishCode _ s).effect _ c
  · rename_i rec rest hq
    simp only
    have h1 : Effect False c s { s with completion.queue := rest } := { records := fun k => (recordsLaw_rest hq k).1 }
    have h2 : Effect False c s
        (finish (codeByte .ok :: recordBytes rec) (freeSlot rec.job { s with completion.queue := rest })) :=
      h1.trans ((effect_freeSlot _ _ c).trans ((acts_finish _ _ (by simp)).effect _ c))
    split
    · exact h2
    · rename_i j more _
      exact effect_post j (h2.trans {}) (fun k => (recordsLaw_rest hq k).2)

/-- R103, R119, R131: LINE SET frees no slot. -/
theorem effect_actLineSet (l m n h w e o u : Byte) (s : State) (p : Prop) : Effect p False s (actLineSet l m n h w e o u s) := by
  unfold actLineSet withLine
  have fc : ∀ c, Effect p False s (finishCode c s) := fun c => (acts_finishCode c s).effect p _
  have par : ∀ (x : Fin 2) (a : ParUnit) (t : State), Effect p False t (setPar x a t) := fun _ _ _ => { config := False.elim }
  have ser : ∀ (y : Fin 2) (a : SerUnit) (t : State), Effect p False t (setSer y a t) := fun _ _ _ => { config := False.elim }
  have eng : ∀ (k : Fin 4) (a : Engine) (t : State), Effect p False t (setEngine k a t) := fun _ _ _ => { config := False.elim }
  split
  · exact fc _
  · split
    · exact fc _
    · simp only
      split
      · split
        · exact fc _
        · split
          · exact fc _
          · exact (eng _ _ s).trans ((par _ _ _).trans ((acts_finishCode _ _).effect p _))
      · split
        · exact fc _
        · split
          · exact fc _
          · exact (eng _ _ s).trans ((ser _ _ _).trans ((acts_finishCode _ _).effect p _))

/-- R146: what a command that is carried out can do. -/
theorem effect_carryOut (c : Cmd) (ps : List Byte) (s : State) : Effect (c ≠ .take) (c ≠ .lineSet) s (carryOut c ps s) := by
  unfold carryOut
  cases c with
  | openJob => exact effect_actOpen _ _ _ _ s _ _
  | target => exact (acts_actTarget _ s).effect _ _
  | closeJob => exact (acts_actClose _ s).effect _ _
  | cancel => exact (acts_actCancel _ s).effect _ _
  | hold => exact (acts_actHold _ s).effect _ _
  | release => exact (acts_actRelease _ s).effect _ _
  | move => exact (acts_actMove _ _ s).effect _ _
  | verify => exact (acts_actVerify _ s).effect _ _
  | queryJob => exact (acts_actQueryJob _ s).effect _ _
  | take =>
    have h := effect_actTake s (Cmd.take ≠ .lineSet)
    exact { h with jobs := fun k => absurd rfl k }
  | storeQuery => exact (acts_actStoreQuery s).effect _ _
  | lineSet =>
    have h := effect_actLineSet (ps.getD 0 0#8) (ps.getD 1 0#8) (ps.getD 2 0#8) (ps.getD 3 0#8) (ps.getD 4 0#8) (ps.getD 5 0#8)
      (ps.getD 6 0#8) (ps.getD 7 0#8) s (Cmd.lineSet ≠ .take)
    exact { h with config := fun k => absurd rfl k }
  | lineEnable => exact (acts_actLineEnable _ s).effect _ _
  | lineDisable => exact (acts_actLineDisable _ s).effect _ _
  | lineStop => exact (acts_actLineStop _ s).effect _ _
  | lineGo => exact (acts_actLineGo _ s).effect _ _
  | lineResume => exact (acts_actLineResume _ _ s).effect _ _
  | lineRestart => exact (acts_actLineRestart _ s).effect _ _
  | lineAbort => exact (acts_actLineAbort _ s).effect _ _
  | lineQuery => exact (acts_actLineQuery _ s).effect _ _

/-- R144: what an accepted code can do: no code but TAKE's frees a slot. -/
theorem effect_acceptCode (code : Byte) (s : State) : Effect (Cmd.ofCode code ≠ some .take) True s (acceptCode code s) := by
  unfold acceptCode
  split
  · exact (acts_finishCode _ s).effect _ _
  · rename_i c e
    split
    · rename_i h0
      have h := effect_carryOut c [] (portExecuting s)
      have a := (acts_portExecuting s).effect (c ≠ .take) (c ≠ .lineSet)
      have b := a.trans h
      exact { b with
        jobs := fun k => b.jobs (fun q => k (by rw [e, q]))
        config := fun _ => b.config (fun q => by subst q; cases h0) }
    · rename_i h0
      exact { port := fun _ => by simp [portLaw]; omega }

/-- R144: what a code written to COMMAND can do. -/
theorem effect_writeCommand (code : Byte) (s : State) :
    Effect (Cmd.ofCode code ≠ some .take) True s (writeCommand code s) := by
  have abandon : Acts s (raise .cmdErr { s with port.abandoned := true }) :=
    (show Acts s { s with port.abandoned := true } from {}).trans (acts_raise _ _)
  have collide : Acts s (raise .cmdErr { s with port.collided := true }) :=
    (show Acts s { s with port.collided := true } from {}).trans (acts_raise _ _)
  unfold writeCommand
  split
  · exact (Acts.refl s).effect _ _
  · split
    · exact effect_acceptCode code s
    · exact (abandon.effect _ _).trans (effect_acceptCode code _)
    · exact collide.effect _ _
    · exact effect_acceptCode code s

/-- R145: what a byte written to PARAMETER can do. While the law of the port holds no slot is freed, for TAKE has no parameter. -/
theorem effect_writeParameter (b : Byte) (s : State) :
    Effect (portLaw s.port = true) (s.port.staged ≠ some .lineSet) s (writeParameter b s) := by
  have stray : Acts s (strayParameter s) := (show Acts s { s with port.strayParam := true } from {}).trans (acts_raise _ _)
  unfold writeParameter
  split
  · exact (Acts.refl s).effect _ _
  · split
    · rename_i c e1 e2
      simp only
      split
      · have h := effect_carryOut c (s.port.staging ++ [b]) (portExecuting s)
        have a := ((acts_portExecuting s).effect (c ≠ .take) (c ≠ .lineSet)).trans h
        refine { a with jobs := fun k => a.jobs (fun q => ?_), config := fun k => a.config (fun q => k (by rw [e2, q])) }
        subst q
        simp [portLaw, e1, e2, Cmd.params] at k
      · rename_i hlt
        exact { port := fun k => by
                  simp only [portLaw, e1, e2, Bool.and_eq_true, decide_eq_true_eq] at k ⊢
                  exact ⟨k.1, by omega⟩ }
    · exact stray.effect _ _

/-- R144, R145: to a port that is EXECUTING a command written whole is lost. -/
theorem hostCommand_executing (c : Cmd) (ps : List Byte) (s : State) (h : s.port.state = .executing) (hr : s.window.ready = true) :
    Acts s (hostCommand c ps s) := by
  unfold hostCommand
  have h1 : Acts s (writeCommand c.code s) ∧ (writeCommand c.code s).port.state = .executing := by
    have e : writeCommand c.code s = raise .cmdErr { s with port.collided := true } := by
      unfold writeCommand
      rw [hr, if_neg (by decide)]
      split
      · rename_i e; rw [h] at e; cases e
      · rename_i e; rw [h] at e; cases e
      · rfl
      · rename_i e; rw [h] at e; cases e
    rw [e]
    exact ⟨(show Acts s { s with port.collided := true } from {}).trans (acts_raise _ _), h⟩
  generalize writeCommand c.code s = t at h1
  induction ps generalizing t with
  | nil => exact h1.1
  | cons b ps ih =>
    rw [List.foldl_cons]
    refine ih (writeParameter b t) ⟨h1.1.trans ?_, ?_⟩
    · unfold writeParameter
      split
      · exact Acts.refl t
      · split
        · rename_i e _; rw [h1.2] at e; cases e
        · exact (show Acts t { t with port.strayParam := true } from {}).trans (acts_raise _ _)
    · unfold writeParameter
      split
      · exact h1.2
      · split
        · rename_i e _; rw [h1.2] at e; cases e
        · exact h1.2

/-- R146: what a command written whole can do. -/
theorem effect_hostCommand (c : Cmd) (ps : List Byte) (s : State) (hl : ps.length = c.params) :
    Effect (c ≠ .take) (c ≠ .lineSet) s (hostCommand c ps s) := by
  cases hr : s.window.ready with
  | false => rw [hostCommand_not_ready c ps s hr]; exact (Acts.refl s).effect _ _
  | true =>
    have abandon : Acts s (raise .cmdErr { s with port.abandoned := true }) :=
      (show Acts s { s with port.abandoned := true } from {}).trans (acts_raise _ _)
    cases hp : s.port.state with
    | executing => exact (hostCommand_executing c ps s hp hr).effect _ _
    | idle =>
      rw [hostCommand_admitted c ps s hr (Or.inl hp) hl]
      exact ((acts_portExecuting s).effect _ _).trans (effect_carryOut c ps _)
    | results =>
      rw [hostCommand_admitted c ps s hr (Or.inr hp) hl]
      exact ((acts_portExecuting s).effect _ _).trans (effect_carryOut c ps _)
    | collecting =>
      rw [hostCommand_collecting c ps s hr hp hl]
      exact (abandon.effect _ _).trans (((acts_portExecuting _).effect _ _).trans (effect_carryOut c ps _))

end Sys2Proof.Machine
end

