-- ==== Sys2Proof/Laws/Kept.lean ====
section
/-! SUPPORT. What `Kept` says, job by job and line by line, and the updates that keep it. `Sound own ex cl s` is `Kept s` with
the chain of each slot named by `own`, in the middle of an act: the line `ex` need not keep its law, the job `cl.closing`, if
CLOSING, need not have an entry, and the job `cl.ending` may have all its copies done. -/

namespace Sys2Proof.Machine

-- One after another: side by side the proofs would each wait in a thread of their own.
set_option Elab.async false

/-- The blocks follow one another by their links, and the last link is none. -/
def Linked (f : Fin 128 → Option (Fin 128)) : List (Fin 128) → Prop
  | [] => True
  | [b] => f b = none
  | b :: c :: bs => f b = some c ∧ Linked f (c :: bs)

/-- What an engine's Line Unit is doing, as the engine sees it (R108, R123). -/
def Handshake.phase : Handshake → CycleStep
  | .rest => .boundary
  | .waiting => .waiting
  | .setup | .strobe | .trail | .ackwait => .inFlight

/-- What an engine's Line Unit is doing, as the engine sees it. -/
def Transmit.phase : Transmit → CycleStep
  | .rest => .boundary
  | .waiting => .waiting
  | .shifting => .inFlight

/-- What a line's unit is doing, as the engine sees it. -/
def unitPhase (s : State) (l : Fin 4) : CycleStep :=
  match unitOf l with
  | .par x => (parAt s x).handshake.phase
  | .ser y => (serAt s y).transmit.phase

/-- `engineLaw`, clause by clause. -/
structure EngineOk (e : Engine) : Prop where
  cause : e.cause = .none ↔ e.state ≠ .fault
  hasJob : e.state = .sending ∨ e.state = .starved ∨ e.state = .paused → e.current ≠ none
  noJob : e.state = .off ∨ e.state = .idle → e.current = none
  rests : e.state ≠ .sending → e.step = .boundary ∧ e.fetched = none ∧ e.hold = none
  starve : e.state ≠ .starved → e.starve = none
  hold : e.step ≠ .waiting → e.hold = none
  bound : e.step = .boundary → e.fetched = none
  holds : e.step = .waiting ∨ e.step = .inFlight → e.fetched ≠ none

/-- What a line keeps: its engine's law, the agreement with its unit, and a fetch in progress at its fetch step. -/
structure LineOk (l : Fin 4) (e : Engine) (phase : CycleStep) (access : Option Access) : Prop where
  engine : EngineOk e
  waits : phase = .waiting ↔ e.step = .waiting
  flies : phase = .inFlight ↔ e.step = .inFlight
  fetch : ∀ err, access = some (.drain l err) → e.state = .sending ∧ e.step = .fetching ∧ e.fetched ≠ none

/-- A job's chain `bs`. -/
structure ChainOk (s : State) (j : Fin 16) (r : Job) (bs : List (Fin 128)) : Prop where
  head : bs.head? = r.head
  last : bs.getLast? = r.tail
  length : bs.length = r.chainLen
  linked : Linked (linkAt s) bs
  fill : r.tailFill ≤ 256
  empty : bs = [] → r.tailFill = 0
  byte : bs ≠ [] → 1 ≤ r.tailFill ∨ storingFor s j = true

/-- How far a job that is not FINISHED has come in its chain `bs`. -/
structure CursorOk (r : Job) (bs : List (Fin 128)) : Prop where
  copies : r.copiesDone ≤ r.copies
  start : bs = [] → r.cursor = none ∧ r.copyPos = 0 ∧ r.stored = 0 ∧ r.anyReleased = false
  stands : bs ≠ [] → ∃ c i, r.cursor = some c ∧ bs[i]? = some c.block ∧ c.off ≤ 256 ∧ r.copyPos ≤ r.stored ∧
    r.copyPos + chainBytes r = r.stored + 256 * i + c.off
  whole : r.anyReleased = false → bs ≠ [] → r.stored = chainBytes r

/-- A job with the chain `bs` has copies to go, blocks are released only in the last of them, and in the last copy of a job that
is not retained the cursor stands in the head block (R6, R35). -/
def Going (r : Job) (bs : List (Fin 128)) : Prop :=
  r.copiesDone < r.copies ∧ (r.anyReleased = true → r.copiesDone + 1 = r.copies) ∧
    (r.retain = false → r.copiesDone + 1 = r.copies → ∀ c, r.cursor = some c → bs.head? = some c.block)

/-- A stored byte's position is the one at the cursor, in the chain `bs`. -/
def ReadsAt (r : Job) (bs : List (Fin 128)) (p : Pos) : Prop :=
  ∃ i, bs[i]? = some p.block ∧ p.off < 256 ∧ r.copyPos + chainBytes r = r.stored + 256 * i + p.off ∧ r.copyPos < r.stored

/-- The byte an engine has fetched is the one at the cursor of its current job. -/
def FetchedOk (s : State) (own : Fin 16 → List (Fin 128)) (e : Engine) : Prop :=
  ∀ j r f p, e.current = some j → jobAt s j = some r → e.fetched = some f → f.pos = some p →
    ReadsAt r (own j) p

/-- The jobs that are excepted in the middle of an act. -/
structure Spare where
  closing : Option (Fin 16) := none
  ending : Option (Fin 16) := none

/-- No job is excepted. -/
def Spare.nobody : Spare := {}

/-- What `Kept` says, with exceptions in the middle of an act. -/
structure Sound (own : Fin 16 → List (Fin 128)) (ex : Option (Fin 4)) (cl : Spare) (s : State) : Prop where
  fifoLen : s.intake.fifo.length ≤ 16
  fifo : ∀ e, e ∈ s.intake.fifo → ∃ r, jobAt s e.1 = some r ∧ r.intake ≠ .closed
  target : ∀ j, s.intake.target = some j → ∃ r, jobAt s j = some r ∧ r.intake = .opened
  closing : ∀ j r, jobAt s j = some r → r.intake = .closing → cl.closing ≠ some j → hasEntry s j = true
  queue : ∀ l u j, (queueEntries s l u).count j =
    (match jobAt s j with
    | some r => if r.output = .queued ∧ r.line = l ∧ r.urgent = u then 1 else 0
    | none => 0)
  current : ∀ l j, (engineAt s l).current = some j ↔ ∃ r, jobAt s j = some r ∧ r.output = .current ∧ r.line = l
  finished : ∀ j r, jobAt s j = some r → r.output = .finished →
    r.intake = .closed ∧ r.copyPos ≤ r.stored ∧ r.copiesDone ≤ r.copies ∧ own j = []
  recordsLen : s.completion.queue.length ≤ 8
  waiting : s.completion.postWait = [] ∨ s.completion.queue.length = 8
  records : ∀ j, (s.completion.queue.map Record.job).count j =
      (match jobAt s j with
      | some r => if r.output = .finished ∧ r.posted = true then 1 else 0
      | none => 0) ∧
    s.completion.postWait.count j =
      (match jobAt s j with
      | some r => if r.output = .finished ∧ r.posted = false then 1 else 0
      | none => 0)
  freeSlot : ∀ j, jobAt s j = none → own j = []
  chain : ∀ j r, jobAt s j = some r → ChainOk s j r (own j)
  cursor : ∀ j r, jobAt s j = some r → r.output ≠ .finished → CursorOk r (own j)
  going : ∀ j r, jobAt s j = some r → r.output ≠ .finished → cl.ending ≠ some j → Going r (own j)
  blocks : s.window.ready = true → ∀ b, s.spool.freeList.count b + ∑ j, (own j).count b = 1
  freeLinks : ∀ b, b ∈ s.spool.freeList → linkAt s b = none
  emptySlots : s.window.ready = false → ∀ j, jobAt s j = none
  line : ∀ l, ex ≠ some l → LineOk l (engineAt s l) (unitPhase s l) s.spool.access
  fetched : ∀ l, FetchedOk s own (engineAt s l)
  access : ∀ c, s.spool.access = some (.intake c) → s.intake.headReq = .granted ∧
    ∃ e es, s.intake.fifo = e :: es ∧ ∀ r, jobAt s e.1 = some r → r.tailFill < 256

/-! Chains. -/

theorem Linked.congr {f g : Fin 128 → Option (Fin 128)} {bs : List (Fin 128)} (h : Linked f bs)
    (e : ∀ b, b ∈ bs → g b = f b) : Linked g bs := by
  induction bs with
  | nil => trivial
  | cons b bs ih =>
    cases bs with
    | nil => exact (e b (by simp)).trans h
    | cons c bs => exact ⟨(e b (by simp)).trans h.1, ih h.2 (fun d hd => e d (List.mem_cons_of_mem _ hd))⟩

theorem chainFrom_of_linked (s : State) (bs : List (Fin 128)) (h : Linked (linkAt s) bs) :
    chainFrom s bs.length bs.head? = bs := by
  induction bs with
  | nil => rfl
  | cons b bs ih =>
    cases bs with
    | nil => simp [chainFrom]
    | cons c bs =>
      have := ih h.2
      simp only [List.length_cons, List.head?_cons, chainFrom] at this ⊢
      simp only [h.1, chainFrom]
      rw [this]

theorem linked_of_chainFrom (s : State) (n : Nat) (h : Option (Fin 128)) (hn : (chainFrom s n h).length = n)
    (hl : ∀ t, (chainFrom s n h).getLast? = some t → linkAt s t = none) : Linked (linkAt s) (chainFrom s n h) := by
  induction n generalizing h with
  | zero => simp [chainFrom, Linked]
  | succ n ih =>
    cases h with
    | none => simp [chainFrom] at hn
    | some b =>
      simp only [chainFrom, List.length_cons, Nat.add_right_cancel_iff] at hn ⊢
      have h2 := ih (linkAt s b) hn
      cases n with
      | zero => simp only [chainFrom, Linked]; exact hl b (by simp [chainFrom])
      | succ n =>
        cases hb : linkAt s b with
        | none => rw [hb] at hn; simp [chainFrom] at hn
        | some c =>
          simp only [hb, chainFrom] at h2 hl ⊢
          refine ⟨hb, h2 (fun t ht => hl t ?_)⟩
          rw [List.getLast?_cons_cons]
          exact ht

/-- The chain the record and the links spell is the one named. -/
theorem ChainOk.eq {s : State} {j : Fin 16} {r : Job} {bs : List (Fin 128)} (h : ChainOk s j r bs) : chainOf s r = bs := by
  unfold chainOf
  rw [← h.length, ← h.head]
  exact chainFrom_of_linked s bs h.linked

theorem ChainOk.empty_iff {s : State} {j : Fin 16} {r : Job} {bs : List (Fin 128)} (h : ChainOk s j r bs) :
    (bs = [] ↔ r.chainLen = 0) ∧ (bs = [] ↔ r.head = none) ∧ (bs = [] ↔ r.tail = none) := by
  rw [← h.length, ← h.head, ← h.last]
  cases bs <;> simp

/-! Updates that change nothing the laws read. -/

/-- Two states agree in the intake, the reports, the Block Table, the Free List and the store's access. -/
structure SameRest (s t : State) : Prop where
  fifo : t.intake.fifo = s.intake.fifo := by rfl
  target : t.intake.target = s.intake.target := by rfl
  headReq : t.intake.headReq = s.intake.headReq := by rfl
  records : t.completion.queue = s.completion.queue := by rfl
  waits : t.completion.postWait = s.completion.postWait := by rfl
  links : t.spool.links = s.spool.links := by rfl
  freeList : t.spool.freeList = s.spool.freeList := by rfl
  access : t.spool.access = s.spool.access := by rfl
  ready : t.window.ready = s.window.ready := by rfl

/-- Two states agree in all that `Sound` reads but the lines. -/
structure SameJobs (s t : State) : Prop extends SameRest s t where
  jobs : t.jobs = s.jobs := by rfl
  queues : t.queues = s.queues := by rfl

theorem SameJobs.jobAt {s t : State} (h : SameJobs s t) (j : Fin 16) : Machine.jobAt t j = Machine.jobAt s j := by
  unfold Machine.jobAt; rw [h.jobs]

theorem SameRest.linkAt {s t : State} (h : SameRest s t) (b : Fin 128) : Machine.linkAt t b = Machine.linkAt s b := by
  unfold Machine.linkAt; rw [h.links]

theorem SameRest.storingFor {s t : State} (h : SameRest s t) (j : Fin 16) :
    Machine.storingFor t j = Machine.storingFor s j := by
  unfold Machine.storingFor; rw [h.access, h.fifo]

theorem SameRest.chain {s t : State} (h : SameRest s t) {j : Fin 16} {r : Job} {bs : List (Fin 128)} (k : ChainOk s j r bs) :
    ChainOk t j r bs where
  head := k.head
  last := k.last
  length := k.length
  linked := k.linked.congr (fun b _ => h.linkAt b)
  fill := k.fill
  empty := k.empty
  byte := fun n => by rw [h.storingFor]; exact k.byte n

/-- The lines change: each changed line keeps its current job, and its law unless it is excepted. -/
theorem Sound.lines {own : Fin 16 → List (Fin 128)} {ex ex' : Option (Fin 4)} {cl : Spare} {s t : State}
    (h : Sound own ex cl s) (k : SameJobs s t) (hc : ∀ l, (engineAt t l).current = (engineAt s l).current)
    (hl : ∀ l, ex' ≠ some l → LineOk l (engineAt t l) (unitPhase t l) t.spool.access)
    (hf : ∀ l, FetchedOk s own (engineAt t l)) : Sound own ex' cl t where
  fifoLen := by rw [k.fifo]; exact h.fifoLen
  fifo := fun e he => by rw [k.jobAt]; exact h.fifo e (k.fifo ▸ he)
  target := fun j hj => by rw [k.jobAt]; exact h.target j (k.target ▸ hj)
  closing := fun j r hj => by
    rw [k.jobAt] at hj
    unfold hasEntry; rw [k.fifo]; exact h.closing j r hj
  queue := fun l u j => by
    have := h.queue l u j
    unfold queueEntries queueAt at this ⊢
    rw [k.queues, k.jobAt]; exact this
  current := fun l j => by rw [hc, k.jobAt]; exact h.current l j
  finished := fun j r hj => h.finished j r (k.jobAt j ▸ hj)
  recordsLen := by rw [k.records]; exact h.recordsLen
  waiting := by rw [k.records, k.waits]; exact h.waiting
  records := fun j => by rw [k.records, k.waits, k.jobAt]; exact h.records j
  freeSlot := fun j hj => h.freeSlot j (k.jobAt j ▸ hj)
  chain := fun j r hj => k.chain (h.chain j r (k.jobAt j ▸ hj))
  cursor := fun j r hj => h.cursor j r (k.jobAt j ▸ hj)
  going := fun j r hj => h.going j r (k.jobAt j ▸ hj)
  blocks := fun hr b => by rw [k.freeList]; exact h.blocks (k.ready ▸ hr) b
  freeLinks := fun b hb => by
    have := h.freeLinks b (k.freeList ▸ hb)
    unfold linkAt at this ⊢; rw [k.links]; exact this
  emptySlots := fun hr j => by rw [k.jobAt]; exact h.emptySlots (k.ready ▸ hr) j
  line := hl
  fetched := fun l j r f p h1 h2 h3 h4 => hf l j r f p h1 (k.jobAt j ▸ h2) h3 h4
  access := fun c hc => by
    obtain ⟨g, e, es, he, hr⟩ := h.access c (k.access ▸ hc)
    exact ⟨k.headReq.trans g, e, es, k.fifo.trans he, fun r hj => hr r (k.jobAt e.1 ▸ hj)⟩

/-- Nothing the laws read changes. -/
theorem Sound.same {own : Fin 16 → List (Fin 128)} {ex : Option (Fin 4)} {cl : Spare} {s t : State}
    (h : Sound own ex cl s) (k : SameJobs s t := by exact {}) (he : t.engines = s.engines := by rfl)
    (hp : ∀ l, unitPhase t l = unitPhase s l := by exact fun _ => rfl) : Sound own ex cl t := by
  have e : ∀ l, engineAt t l = engineAt s l := fun l => by unfold engineAt; rw [he]
  exact h.lines k (fun l => by rw [e]) (fun l hl => by rw [e, hp, k.access]; exact h.line l hl)
    (fun l => by rw [e]; exact h.fetched l)

/-- One line is written over. -/
theorem Sound.setEngine {own : Fin 16 → List (Fin 128)} {ex ex' : Option (Fin 4)} {cl : Spare} {s : State}
    (h : Sound own ex cl s) (l : Fin 4) (e : Engine) (hc : e.current = (engineAt s l).current)
    (hx : ∀ k, k ≠ l → ex' ≠ some k → ex ≠ some k)
    (hl : ex' ≠ some l → LineOk l e (unitPhase s l) s.spool.access)
    (hf : FetchedOk s own e) : Sound own ex' cl (Machine.setEngine l e s) := by
  refine h.lines {} (fun k => ?_) (fun k hk => ?_) (fun k => ?_)
  · by_cases hkl : k = l
    · subst hkl; simpa using hc
    · simp [hkl]
  · by_cases hkl : k = l
    · subst hkl; rw [engineAt_setEngine, if_pos rfl]; exact hl hk
    · rw [engineAt_setEngine, if_neg hkl]; exact h.line k (hx k hkl hk)
  · by_cases hkl : k = l
    · subst hkl; rw [engineAt_setEngine, if_pos rfl]; exact hf
    · rw [engineAt_setEngine, if_neg hkl]; exact h.fetched k

/-- One job's record is written over, and with it the queues and the lines may change. -/
theorem Sound.job {own : Fin 16 → List (Fin 128)} {ex ex' : Option (Fin 4)} {cl cl' : Spare} {s t : State}
    (h : Sound own ex cl s) {j : Fin 16} {r r' : Job} (e : jobAt s j = some r)
    (hj : ∀ k, jobAt t k = if k = j then some r' else jobAt s k) (k : SameRest s t)
    (hi : r'.intake = r.intake ∨ s.intake.target ≠ some j ∧ (r'.intake = .closed → hasEntry s j = false))
    (hcl : ∀ i, i ≠ j → (cl'.closing ≠ some i → cl.closing ≠ some i) ∧ (cl'.ending ≠ some i → cl.ending ≠ some i))
    (hclosing : r'.intake = .closing → cl'.closing ≠ some j → hasEntry s j = true)
    (hp : r'.posted = r.posted) (ht : r'.tailFill = r.tailFill) (ho : r'.output = .finished ↔ r.output = .finished)
    (hfin : r'.output = .finished → r'.intake = .closed ∧ r'.copyPos ≤ r'.stored ∧ r'.copiesDone ≤ r'.copies)
    (hch : ChainOk s j r' (own j)) (hcur : r'.output ≠ .finished → CursorOk r' (own j))
    (hgo : r'.output ≠ .finished → cl'.ending ≠ some j → Going r' (own j))
    (hq : ∀ l u i, (queueEntries t l u).count i =
      (match jobAt t i with
      | some r => if r.output = .queued ∧ r.line = l ∧ r.urgent = u then 1 else 0
      | none => 0))
    (hc : ∀ l i, (engineAt t l).current = some i ↔ ∃ r, jobAt t i = some r ∧ r.output = .current ∧ r.line = l)
    (hl : ∀ l, ex' ≠ some l → LineOk l (engineAt t l) (unitPhase t l) s.spool.access)
    (hf : ∀ l, FetchedOk t own (engineAt t l)) : Sound own ex' cl' t := by
  have hother : ∀ i, i ≠ j → jobAt t i = jobAt s i := fun i hi => by rw [hj, if_neg hi]
  have hself : jobAt t j = some r' := by rw [hj, if_pos rfl]
  have noEntry : hasEntry s j = false → ∀ a, a ∈ s.intake.fifo → a.1 ≠ j := fun hn a ha haj => by
    unfold hasEntry at hn
    rw [List.any_eq_false] at hn
    exact hn a ha (by simp [haj])
  exact
  { fifoLen := by rw [k.fifo]; exact h.fifoLen
    fifo := fun a ha => by
      rw [k.fifo] at ha
      obtain ⟨q, hq1, hq2⟩ := h.fifo a ha
      by_cases haj : a.1 = j
      · refine ⟨r', by rw [haj, hself], fun hcl => ?_⟩
        rcases hi with hi | ⟨_, hi⟩
        · rw [haj, e] at hq1; cases hq1; exact hq2 (hi ▸ hcl)
        · exact noEntry (hi hcl) a ha haj
      · exact ⟨q, by rw [hother _ haj]; exact hq1, hq2⟩
    target := fun i hti => by
      rw [k.target] at hti
      obtain ⟨q, hq1, hq2⟩ := h.target i hti
      by_cases hij : i = j
      · subst hij
        rw [e] at hq1; cases hq1
        rcases hi with hi | ⟨hi, _⟩
        · exact ⟨r', hself, hi.trans hq2⟩
        · exact absurd hti hi
      · exact ⟨q, by rw [hother _ hij]; exact hq1, hq2⟩
    closing := fun i q hiq hcq hne => by
      have hh : hasEntry t i = hasEntry s i := by unfold hasEntry; rw [k.fifo]
      rw [hh]
      by_cases hij : i = j
      · subst hij; rw [hself] at hiq; cases hiq; exact hclosing hcq hne
      · rw [hother _ hij] at hiq; exact h.closing i q hiq hcq ((hcl i hij).1 hne)
    queue := hq
    current := hc
    finished := fun i q hiq hof => by
      by_cases hij : i = j
      · subst hij; rw [hself] at hiq; cases hiq
        obtain ⟨a, b, c⟩ := hfin hof
        exact ⟨a, b, c, (h.finished i r e (ho.1 hof)).2.2.2⟩
      · rw [hother _ hij] at hiq; exact h.finished i q hiq hof
    recordsLen := by rw [k.records]; exact h.recordsLen
    waiting := by rw [k.records, k.waits]; exact h.waiting
    records := fun i => by
      rw [k.records, k.waits]
      have := h.records i
      by_cases hij : i = j
      · subst hij; rw [hself]; rw [e] at this; simp only [ho, hp] at this ⊢; exact this
      · rw [hother _ hij]; exact this
    freeSlot := fun i hin => by
      by_cases hij : i = j
      · subst hij; rw [hself] at hin; cases hin
      · rw [hother _ hij] at hin; exact h.freeSlot i hin
    chain := fun i q hiq => by
      by_cases hij : i = j
      · subst hij; rw [hself] at hiq; cases hiq; exact k.chain hch
      · rw [hother _ hij] at hiq; exact k.chain (h.chain i q hiq)
    cursor := fun i q hiq hne => by
      by_cases hij : i = j
      · subst hij; rw [hself] at hiq; cases hiq; exact hcur hne
      · rw [hother _ hij] at hiq; exact h.cursor i q hiq hne
    going := fun i q hiq hne hn => by
      by_cases hij : i = j
      · subst hij; rw [hself] at hiq; cases hiq; exact hgo hne hn
      · rw [hother _ hij] at hiq; exact h.going i q hiq hne ((hcl i hij).2 hn)
    blocks := fun hr b => by rw [k.freeList]; exact h.blocks (k.ready ▸ hr) b
    freeLinks := fun b hb => by rw [k.linkAt]; exact h.freeLinks b (k.freeList ▸ hb)
    emptySlots := fun hr i => by
      have := h.emptySlots (k.ready ▸ hr) j
      rw [e] at this; cases this
    line := fun l hne => by rw [k.access]; exact hl l hne
    fetched := hf
    access := fun c hac => by
      obtain ⟨g, a, as, ha, hr⟩ := h.access c (k.access ▸ hac)
      refine ⟨k.headReq.trans g, a, as, k.fifo.trans ha, fun q hq => ?_⟩
      by_cases haj : a.1 = j
      · rw [haj, hself] at hq; cases hq; rw [ht]; exact hr r (haj ▸ e)
      · rw [hother _ haj] at hq; exact hr q hq }

/-- One job's record is written over where it stands. -/
theorem Sound.setJob {own : Fin 16 → List (Fin 128)} {ex : Option (Fin 4)} {cl cl' : Spare} {s : State}
    (h : Sound own ex cl s) {j : Fin 16} {r r' : Job} (e : jobAt s j = some r)
    (hs : r'.line = r.line ∧ r'.output = r.output ∧ r'.urgent = r.urgent ∧ r'.posted = r.posted ∧ r'.tailFill = r.tailFill)
    (hi : r'.intake = r.intake ∨ s.intake.target ≠ some j ∧ (r'.intake = .closed → hasEntry s j = false))
    (hcl : ∀ i, i ≠ j → (cl'.closing ≠ some i → cl.closing ≠ some i) ∧ (cl'.ending ≠ some i → cl.ending ≠ some i))
    (hclosing : r'.intake = .closing → cl'.closing ≠ some j → hasEntry s j = true)
    (hfin : r.output = .finished → r'.intake = .closed ∧ r'.copyPos ≤ r'.stored ∧ r'.copiesDone ≤ r'.copies)
    (hch : ChainOk s j r' (own j)) (hcur : r.output ≠ .finished → CursorOk r' (own j))
    (hgo : r.output ≠ .finished → cl'.ending ≠ some j → Going r' (own j))
    (hf : ∀ l f p, (engineAt s l).current = some j → (engineAt s l).fetched = some f → f.pos = some p →
      ReadsAt r (own j) p → ReadsAt r' (own j) p) : Sound own ex cl' (Machine.setJob j r' s) := by
  obtain ⟨h1, h2, h3, h4, h5⟩ := hs
  refine h.job e (fun k => jobAt_setJob j r' s k) {} hi hcl hclosing h4 h5 (by rw [h2]) (fun n => hfin (h2 ▸ n)) hch
    (fun n => hcur (h2 ▸ n)) (fun n => hgo (h2 ▸ n)) (fun l u i => ?_) (fun l i => ?_) h.line (fun l i q f p c1 c2 c3 c4 => ?_)
  · rw [jobAt_setJob]
    have := h.queue l u i
    by_cases hij : i = j
    · subst hij; rw [if_pos rfl]; rw [e] at this; simp only [h1, h2, h3]; exact this
    · rw [if_neg hij]; exact this
  · rw [jobAt_setJob]
    have := h.current l i
    rw [engineAt_setJob]
    by_cases hij : i = j
    · subst hij
      rw [if_pos rfl, this, e]
      constructor
      · rintro ⟨q, hq, ho, hl⟩; cases hq; exact ⟨r', rfl, h2.trans ho, h1.trans hl⟩
      · rintro ⟨q, hq, ho, hl⟩; cases hq; exact ⟨r, rfl, h2.symm.trans ho, h1.symm.trans hl⟩
    · rw [if_neg hij]; exact this
  · rw [engineAt_setJob] at c1 c3
    rw [jobAt_setJob] at c2
    by_cases hij : i = j
    · subst hij; rw [if_pos rfl] at c2; cases c2; exact hf l f p c1 c3 c4 (h.fetched l i r f p c1 e c3 c4)
    · rw [if_neg hij] at c2; exact h.fetched l i q f p c1 c2 c3 c4

/-- Two records of a job agree in what `Sound` reads. -/
structure SameRecord (r r' : Job) : Prop where
  line : r'.line = r.line := by rfl
  urgent : r'.urgent = r.urgent := by rfl
  retain : r'.retain = r.retain := by rfl
  copies : r'.copies = r.copies := by rfl
  copiesDone : r'.copiesDone = r.copiesDone := by rfl
  intake : r'.intake = r.intake := by rfl
  output : r'.output = r.output := by rfl
  head : r'.head = r.head := by rfl
  tail : r'.tail = r.tail := by rfl
  tailFill : r'.tailFill = r.tailFill := by rfl
  chainLen : r'.chainLen = r.chainLen := by rfl
  stored : r'.stored = r.stored := by rfl
  cursor : r'.cursor = r.cursor := by rfl
  copyPos : r'.copyPos = r.copyPos := by rfl
  anyReleased : r'.anyReleased = r.anyReleased := by rfl
  posted : r'.posted = r.posted := by rfl

theorem ChainOk.same {s : State} {j : Fin 16} {r r' : Job} {bs : List (Fin 128)} (h : ChainOk s j r bs)
    (h1 : r'.head = r.head) (h2 : r'.tail = r.tail) (h3 : r'.chainLen = r.chainLen) (h4 : r'.tailFill = r.tailFill) :
    ChainOk s j r' bs where
  head := h.head.trans h1.symm
  last := h.last.trans h2.symm
  length := h.length.trans h3.symm
  linked := h.linked
  fill := h4 ▸ h.fill
  empty := fun n => h4.trans (h.empty n)
  byte := fun n => h4 ▸ h.byte n

theorem chainBytes_same {r r' : Job} (h3 : r'.chainLen = r.chainLen) (h4 : r'.tailFill = r.tailFill) :
    chainBytes r' = chainBytes r := by unfold chainBytes; rw [h3, h4]

theorem CursorOk.same {r r' : Job} {bs : List (Fin 128)} (h : CursorOk r bs) (k : SameRecord r r') : CursorOk r' bs where
  copies := by rw [k.copies, k.copiesDone]; exact h.copies
  start := by rw [k.cursor, k.copyPos, k.stored, k.anyReleased]; exact h.start
  stands := by
    rw [k.cursor, k.copyPos, k.stored, chainBytes_same k.chainLen k.tailFill]
    exact h.stands
  whole := by rw [k.anyReleased, k.stored, chainBytes_same k.chainLen k.tailFill]; exact h.whole

/-- A record is written over in fields that `Sound` does not read. -/
theorem Sound.setJob_same {own : Fin 16 → List (Fin 128)} {ex : Option (Fin 4)} {cl : Spare} {s : State}
    (h : Sound own ex cl s) {j : Fin 16} {r r' : Job} (e : jobAt s j = some r) (k : SameRecord r r') :
    Sound own ex cl (Machine.setJob j r' s) := by
  refine h.setJob e ⟨k.line, k.output, k.urgent, k.posted, k.tailFill⟩ (Or.inl k.intake) (fun _ _ => ⟨id, id⟩)
    (fun n m => h.closing j r e (k.intake ▸ n) m) (fun n => ?_)
    ((h.chain j r e).same k.head k.tail k.chainLen k.tailFill) (fun n => (h.cursor j r e n).same k)
    (fun n m => by unfold Going; rw [k.copies, k.copiesDone, k.anyReleased, k.retain, k.cursor]; exact h.going j r e n m) (fun l f p _ _ _ hr => ?_)
  · obtain ⟨a, b, c, _⟩ := h.finished j r e n
    rw [k.intake, k.copyPos, k.stored, k.copiesDone, k.copies]
    exact ⟨a, b, c⟩
  · unfold ReadsAt at hr ⊢
    rw [k.copyPos, k.stored, chainBytes_same k.chainLen k.tailFill]
    exact hr

theorem FetchedOk.none {s : State} {own : Fin 16 → List (Fin 128)} {e : Engine} (h : e.fetched = none) :
    FetchedOk s own e := fun j r f p _ _ h3 => by rw [h] at h3; cases h3

/-! The phases of the units. -/

@[simp] theorem unitPhase_setEngine (l : Fin 4) (e : Engine) (s : State) (k : Fin 4) :
    unitPhase (Machine.setEngine l e s) k = unitPhase s k := rfl
@[simp] theorem unitPhase_setJob (j : Fin 16) (r : Job) (s : State) (k : Fin 4) :
    unitPhase (Machine.setJob j r s) k = unitPhase s k := rfl
@[simp] theorem unitPhase_raise (e : Ev) (s : State) (k : Fin 4) : unitPhase (raise e s) k = unitPhase s k := rfl
@[simp] theorem unitPhase_finish (bs : List Byte) (s : State) (k : Fin 4) : unitPhase (finish bs s) k = unitPhase s k := rfl

@[simp] theorem unitOf_parLine (x : Fin 2) : unitOf (parLine x) = .par x := by
  revert x; decide
@[simp] theorem unitOf_serLine (y : Fin 2) : unitOf (serLine y) = .ser y := by
  revert y; decide
theorem unitOf_par {l : Fin 4} {x : Fin 2} (h : unitOf l = .par x) : l = parLine x := by
  revert l x; decide
theorem unitOf_ser {l : Fin 4} {y : Fin 2} (h : unitOf l = .ser y) : l = serLine y := by
  revert l y; decide

theorem unitPhase_setPar (x : Fin 2) (u : ParUnit) (s : State) (l : Fin 4) :
    unitPhase (setPar x u s) l = if l = parLine x then u.handshake.phase else unitPhase s l := by
  unfold unitPhase
  cases h : unitOf l with
  | par z =>
    have := unitOf_par h
    subst this
    by_cases hz : z = x
    · subst hz; simp
    · have : parLine z ≠ parLine x := fun e => hz (by simpa [parLine, Fin.ext_iff] using e)
      simp [hz, this]
  | ser z =>
    have := unitOf_ser h
    subst this
    have : serLine z ≠ parLine x := by revert z x; decide
    simp [this]

theorem unitPhase_setSer (y : Fin 2) (u : SerUnit) (s : State) (l : Fin 4) :
    unitPhase (setSer y u s) l = if l = serLine y then u.transmit.phase else unitPhase s l := by
  unfold unitPhase
  cases h : unitOf l with
  | par z =>
    have := unitOf_par h
    subst this
    have : parLine z ≠ serLine y := by revert z y; decide
    simp [this]
  | ser z =>
    have := unitOf_ser h
    subst this
    by_cases hz : z = y
    · subst hz; simp
    · have : serLine z ≠ serLine y := fun e => hz (by simpa [serLine, Fin.ext_iff] using e)
      simp [hz, this]

end Sys2Proof.Machine
end

