-- ==== Sys2Proof/Laws/KeptLines.lean ====
section
/-! SUPPORT. The operations between a Drain Engine and its Line Unit keep the laws: each changes one line alone. -/

namespace Sys2Proof.Machine

-- One after another: side by side the proofs would each wait in a thread of their own.
set_option Elab.async false

variable {own : Fin 16 → List (Fin 128)} {ex : Option (Fin 4)} {cl : Spare}

/-- No line but this one is excepted. -/
def OnlyEx (ex : Option (Fin 4)) (l : Fin 4) : Prop := ∀ k, k ≠ l → ex ≠ some k

theorem onlyEx_none (l : Fin 4) : OnlyEx none l := fun _ _ => by simp
theorem onlyEx_some (l : Fin 4) : OnlyEx (some l) l := fun k hk => by simp [Ne.symm hk]

/-- Only one line changes, and it keeps its current job. -/
structure OnlyLine (l : Fin 4) (s t : State) : Prop extends SameJobs s t where
  other : ∀ k, k ≠ l → engineAt t k = engineAt s k := by exact fun _ _ => rfl
  phase : ∀ k, k ≠ l → unitPhase t k = unitPhase s k := by exact fun _ _ => rfl
  current : (engineAt t l).current = (engineAt s l).current := by rfl

theorem OnlyLine.refl (l : Fin 4) (s : State) : OnlyLine l s s := {}

theorem OnlyLine.trans {l : Fin 4} {a b c : State} (h : OnlyLine l a b) (k : OnlyLine l b c) : OnlyLine l a c where
  fifo := k.fifo.trans h.fifo
  target := k.target.trans h.target
  headReq := k.headReq.trans h.headReq
  records := k.records.trans h.records
  waits := k.waits.trans h.waits
  links := k.links.trans h.links
  freeList := k.freeList.trans h.freeList
  access := k.access.trans h.access
  ready := k.ready.trans h.ready
  jobs := k.jobs.trans h.jobs
  queues := k.queues.trans h.queues
  other := fun i hi => (k.other i hi).trans (h.other i hi)
  phase := fun i hi => (k.phase i hi).trans (h.phase i hi)
  current := k.current.trans h.current

/-- One line changes and keeps its law. -/
theorem Sound.line' {ex' : Option (Fin 4)} {l : Fin 4} {s t : State} (h : Sound own ex cl s) (k : OnlyLine l s t)
    (hx : ∀ i, i ≠ l → ex' ≠ some i → ex ≠ some i)
    (hl : ex' ≠ some l → LineOk l (engineAt t l) (unitPhase t l) s.spool.access)
    (hf : FetchedOk s own (engineAt t l)) : Sound own ex' cl t := by
  refine h.lines k.toSameJobs (fun i => ?_) (fun i hi => ?_) (fun i => ?_)
  · by_cases hil : i = l
    · subst hil; exact k.current
    · rw [k.other i hil]
  · rw [k.access]
    by_cases hil : i = l
    · subst hil; exact hl hi
    · rw [k.other i hil, k.phase i hil]; exact h.line i (hx i hil hi)
  · by_cases hil : i = l
    · subst hil; exact hf
    · rw [k.other i hil]; exact h.fetched i

theorem onlyLine_setEngine (l : Fin 4) (e : Engine) (s : State) (h : e.current = (engineAt s l).current) :
    OnlyLine l s (setEngine l e s) where
  other := fun k hk => by simp [hk]
  current := by simpa using h

theorem onlyLine_raise (l : Fin 4) (e : Ev) (s : State) : OnlyLine l s (raise e s) := {}

theorem onlyLine_setPar (l : Fin 4) (x : Fin 2) (u : ParUnit) (s : State) (h : unitOf l = .par x) :
    OnlyLine l s (setPar x u s) where
  phase := fun k hk => by rw [unitPhase_setPar, if_neg]; rw [← unitOf_par h]; exact hk

theorem onlyLine_setSer (l : Fin 4) (y : Fin 2) (u : SerUnit) (s : State) (h : unitOf l = .ser y) :
    OnlyLine l s (setSer y u s) where
  phase := fun k hk => by rw [unitPhase_setSer, if_neg]; rw [← unitOf_ser h]; exact hk

theorem unitPhase_ne_fetching (s : State) (l : Fin 4) : unitPhase s l ≠ .fetching := by
  unfold unitPhase
  cases unitOf l with
  | par x => simp only; cases (parAt s x).handshake <;> simp [Handshake.phase]
  | ser y => simp only; cases (serAt s y).transmit <;> simp [Transmit.phase]

/-! Withdrawal and the entry into FAULT. -/

theorem onlyLine_withdraw (l : Fin 4) (s : State) : OnlyLine l s (withdraw l s) := by
  unfold withdraw
  split
  · rename_i x hx
    split
    · exact onlyLine_setPar l x _ s hx
    · exact OnlyLine.refl l s
  · rename_i y hy
    split
    · exact onlyLine_setSer l y _ s hy
    · exact OnlyLine.refl l s

@[simp] theorem withdraw_engines (l : Fin 4) (s : State) : (withdraw l s).engines = s.engines := by
  unfold withdraw
  split
  · split <;> rfl
  · split <;> rfl

@[simp] theorem engineAt_withdraw (l k : Fin 4) (s : State) : engineAt (withdraw l s) k = engineAt s k := by
  unfold engineAt; rw [withdraw_engines]

theorem unitPhase_withdraw (l : Fin 4) (s : State) :
    unitPhase (withdraw l s) l = if unitPhase s l = .waiting then .boundary else unitPhase s l := by
  unfold withdraw
  split
  · rename_i x hx
    have := unitOf_par hx
    subst this
    have hp : unitPhase s (parLine x) = (parAt s x).handshake.phase := by unfold unitPhase; rw [hx]
    by_cases hw : (parAt s x).handshake = .waiting
    · rw [if_pos hw, unitPhase_setPar, if_pos rfl, hp, hw]; rfl
    · rw [if_neg hw, hp, if_neg]
      intro h
      apply hw
      revert h
      cases (parAt s x).handshake <;> simp [Handshake.phase]
  · rename_i y hy
    have := unitOf_ser hy
    subst this
    have hp : unitPhase s (serLine y) = (serAt s y).transmit.phase := by unfold unitPhase; rw [hy]
    by_cases hw : (serAt s y).transmit = .waiting
    · rw [if_pos hw, unitPhase_setSer, if_pos rfl, hp, hw]; rfl
    · rw [if_neg hw, hp, if_neg]
      intro h
      apply hw
      revert h
      cases (serAt s y).transmit <;> simp [Transmit.phase]

/-- A unit whose byte is not in flight is at rest once its request is withdrawn. -/
theorem unitPhase_withdraw_rest {l : Fin 4} {s : State} (h : unitPhase s l ≠ .inFlight) :
    unitPhase (withdraw l s) l = .boundary := by
  rw [unitPhase_withdraw]
  split
  · rfl
  · have h2 := unitPhase_ne_fetching s l
    cases hp : unitPhase s l with
    | boundary => rfl
    | fetching => exact absurd hp h2
    | waiting => rename_i hw; exact absurd hp hw
    | inFlight => exact absurd hp h

theorem onlyLine_clearCycle (l : Fin 4) (s : State) : OnlyLine l s (clearCycle l s) :=
  (onlyLine_setEngine l { engineAt s l with step := .boundary, fetched := none, hold := none, starve := none } s rfl).trans
    (onlyLine_withdraw l _)

theorem engineAt_clearCycle (l : Fin 4) (s : State) : engineAt (clearCycle l s) l =
    { engineAt s l with step := .boundary, fetched := none, hold := none, starve := none } := by
  simp [clearCycle]

theorem unitPhase_clearCycle {l : Fin 4} {s : State} (h : unitPhase s l ≠ .inFlight) :
    unitPhase (clearCycle l s) l = .boundary := unitPhase_withdraw_rest (s := setEngine l _ s) h

/-- A line that gives up its byte cycle and takes a state that is not SENDING. -/
theorem sound_clearTo (l : Fin 4) (st : LineState) (c : Cause) (s : State) (h : Sound own ex cl s) (hx : OnlyEx ex l)
    (hp : unitPhase s l ≠ .inFlight) (ha : ∀ err, s.spool.access ≠ some (.drain l err)) (hs : st ≠ .sending)
    (hc : c = .none ↔ st ≠ .fault) (hj : st = .starved ∨ st = .paused → (engineAt s l).current ≠ none)
    (hn : st = .off ∨ st = .idle → (engineAt s l).current = none) :
    Sound own none cl (setEngine l { engineAt (clearCycle l s) l with state := st, cause := c } (clearCycle l s)) := by
  refine h.line' ((onlyLine_clearCycle l s).trans (onlyLine_setEngine l _ _ rfl)) (fun i hi _ => hx i hi) (fun _ => ?_) ?_
  · rw [engineAt_setEngine, if_pos rfl, engineAt_clearCycle, unitPhase_setEngine, unitPhase_clearCycle hp]
    exact
      { engine :=
          { cause := hc
            hasJob := fun k => by
              rcases k with k | k | k
              · exact absurd k hs
              · exact hj (Or.inl k)
              · exact hj (Or.inr k)
            noJob := hn
            rests := fun _ => ⟨rfl, rfl, rfl⟩
            starve := fun _ => rfl
            hold := fun _ => rfl
            bound := fun _ => rfl
            holds := fun k => by simp at k }
        waits := by simp
        flies := by simp
        fetch := fun err hf => absurd hf (ha err) }
  · refine FetchedOk.none ?_
    simp [engineAt_clearCycle]

theorem sound_raise (e : Ev) (s : State) (h : Sound own ex cl s) : Sound own ex cl (raise e s) := h.same

theorem sound_enterFault (l : Fin 4) (c : Cause) (s : State) (h : Sound own ex cl s) (hx : OnlyEx ex l)
    (hp : unitPhase s l ≠ .inFlight) (ha : ∀ err, s.spool.access ≠ some (.drain l err)) (hc : c ≠ .none) :
    Sound own none cl (enterFault l c s) :=
  sound_raise _ _ (sound_clearTo l .fault c s h hx hp ha (by simp) (by simp [hc]) (by simp) (by simp))

/-! The put, and the request for readiness. -/

theorem onlyLine_unitPut (l : Fin 4) (b : Byte) (s : State) : OnlyLine l s (unitPut l b s) := by
  unfold unitPut
  split
  · rename_i x hx; exact onlyLine_setPar l x _ s hx
  · rename_i y hy; exact onlyLine_setSer l y _ s hy

@[simp] theorem engineAt_unitPut (l k : Fin 4) (b : Byte) (s : State) : engineAt (unitPut l b s) k = engineAt s k := by
  unfold unitPut; split <;> rfl

theorem unitPhase_unitPut (l : Fin 4) (b : Byte) (s : State) : unitPhase (unitPut l b s) l = .inFlight := by
  unfold unitPut
  split
  · rename_i x hx; have := unitOf_par hx; subst this; simp [unitPhase_setPar, Handshake.phase]
  · rename_i y hy; have := unitOf_ser hy; subst this; simp [unitPhase_setSer, Transmit.phase]

theorem onlyLine_unitWait (l : Fin 4) (s : State) : OnlyLine l s (unitWait l s) := by
  unfold unitWait
  split
  · rename_i x hx; exact onlyLine_setPar l x _ s hx
  · rename_i y hy; exact onlyLine_setSer l y _ s hy

@[simp] theorem engineAt_unitWait (l k : Fin 4) (s : State) : engineAt (unitWait l s) k = engineAt s k := by
  unfold unitWait; split <;> rfl

theorem unitPhase_unitWait (l : Fin 4) (s : State) : unitPhase (unitWait l s) l = .waiting := by
  unfold unitWait
  split
  · rename_i x hx; have := unitOf_par hx; subst this; simp [unitPhase_setPar, Handshake.phase]
  · rename_i y hy; have := unitOf_ser hy; subst this; simp [unitPhase_setSer, Transmit.phase]

/-- A line that is SENDING with a job, and whose timers other than the hold timer are off. -/
structure SendOk (e : Engine) : Prop where
  state : e.state = .sending
  current : e.current ≠ none
  cause : e.cause = .none
  starve : e.starve = none

theorem EngineOk.send {e : Engine} (h : EngineOk e) (hs : e.state = .sending) : SendOk e where
  state := hs
  current := h.hasJob (Or.inl hs)
  cause := h.cause.2 (by rw [hs]; simp)
  starve := h.starve (by rw [hs]; simp)

/-- A SENDING line that holds its law. -/
theorem SendOk.ok {e : Engine} (h : SendOk e) (h1 : e.step ≠ .waiting → e.hold = none) (h2 : e.step = .boundary → e.fetched = none)
    (h3 : e.step = .waiting ∨ e.step = .inFlight → e.fetched ≠ none) : EngineOk e where
  cause := by simp [h.state, h.cause]
  hasJob := fun _ => h.current
  noJob := by simp [h.state]
  rests := by simp [h.state]
  starve := fun _ => h.starve
  hold := h1
  bound := h2
  holds := h3

theorem sound_putByte (l : Fin 4) (f : Fetched) (s : State) (h : Sound own ex cl s) (hx : OnlyEx ex l)
    (hs : SendOk (engineAt s l)) (hf : (engineAt s l).fetched = some f) (ha : ∀ err, s.spool.access ≠ some (.drain l err)) :
    Sound own none cl (putByte l s) := by
  unfold putByte
  simp only [hf]
  refine h.line' ((onlyLine_setEngine l { engineAt s l with step := .inFlight, fetched := some f, hold := none } s rfl).trans
    (onlyLine_unitPut l _ _)) (fun i hi _ => hx i hi) (fun _ => ?_) ?_
  · rw [engineAt_unitPut, engineAt_setEngine, if_pos rfl, unitPhase_unitPut]
    exact
      { engine := SendOk.ok ⟨hs.state, hs.current, hs.cause, hs.starve⟩ (fun _ => rfl) (by simp) (fun _ => by simp)
        waits := by simp
        flies := by simp
        fetch := fun err hk => absurd hk (ha err) }
  · rw [engineAt_unitPut, engineAt_setEngine, if_pos rfl]
    exact fun j r g p c1 c2 c3 c4 => h.fetched l j r g p c1 c2 (hf.trans c3) c4

theorem parReady_cause {p : ParPins} {c : Cause} (h : parReady p = .failure c) : c ≠ .none := by
  unfold parReady at h
  split at h
  · cases h; simp
  · split at h
    · cases h; simp
    · split at h
      · cases h; simp
      · split at h <;> cases h

theorem unitReady_cause {s : State} {l : Fin 4} {c : Cause} (h : unitReady s l = .failure c) : c ≠ .none := by
  unfold unitReady at h
  split at h
  · exact parReady_cause h
  · unfold serReady at h
    split at h
    · cases h
    · split at h <;> cases h
    · split at h <;> cases h

/-- R83: an answer other than a wait. -/
theorem sound_answer (l : Fin 4) (f : Fetched) (s : State) (h : Sound own ex cl s) (hx : OnlyEx ex l)
    (hs : SendOk (engineAt s l)) (hf : (engineAt s l).fetched = some f) (hp : unitPhase s l ≠ .inFlight)
    (ha : ∀ err, s.spool.access ≠ some (.drain l err)) (hr : unitReady s l ≠ .notReady) :
    Sound own none cl (answerReady l s) := by
  unfold answerReady
  split
  · exact sound_putByte l f s h hx hs hf ha
  · rename_i c hc; exact sound_enterFault l c s h hx hp ha (unitReady_cause hc)
  · rename_i hn; exact absurd hn hr

/-- R83, R111: a waiting line answers. -/
theorem sound_answerReady (l : Fin 4) (s : State) (h : Sound own none cl s) (hw : unitPhase s l = .waiting) :
    Sound own none cl (answerReady l s) := by
  have hl := h.line l (by simp)
  have hstep := hl.waits.1 hw
  have hsend : (engineAt s l).state = .sending := by
    by_contra hne
    have := (hl.engine.rests hne).1
    rw [hstep] at this; cases this
  have hfetched := hl.engine.holds (Or.inl hstep)
  obtain ⟨f, hf⟩ := Option.ne_none_iff_exists'.1 hfetched
  by_cases hr : unitReady s l = .notReady
  · unfold answerReady; rw [hr]; exact h
  · refine sound_answer l f s h (onlyEx_none l) (hl.engine.send hsend) hf (by rw [hw]; simp) (fun err ha => ?_) hr
    have := (hl.fetch err ha).2.1
    rw [hstep] at this; cases this

theorem unitReady_setEngine (l k : Fin 4) (e : Engine) (s : State) : unitReady (setEngine l e s) k = unitReady s k := rfl

/-- R83: the engine asks for readiness for a byte. -/
theorem sound_askReady (l : Fin 4) (f : Fetched) (s : State) (h : Sound own ex cl s) (hx : OnlyEx ex l)
    (hs : SendOk (engineAt s l)) (hp : unitPhase s l ≠ .inFlight) (ha : ∀ err, s.spool.access ≠ some (.drain l err))
    (hf : FetchedOk s own { engineAt s l with fetched := some f }) : Sound own none cl (askReady l f s) := by
  unfold askReady
  simp only
  have hf' : ∀ o st, FetchedOk s own { engineAt s l with step := st, fetched := some f, hold := o } := fun o st => hf
  have h1 : Sound own (some l) cl (setEngine l { engineAt s l with step := .waiting, fetched := some f } s) :=
    h.setEngine l _ rfl (fun i hi _ => hx i hi) (fun n => absurd rfl n) hf
  have hs1 : SendOk (engineAt (setEngine l { engineAt s l with step := .waiting, fetched := some f } s) l) := by
    rw [engineAt_setEngine, if_pos rfl]; exact ⟨hs.state, hs.current, hs.cause, hs.starve⟩
  have go : unitReady s l ≠ .notReady →
      Sound own none cl (answerReady l (setEngine l { engineAt s l with step := .waiting, fetched := some f } s)) := fun hr =>
    sound_answer l f _ h1 (onlyEx_some l) hs1 (by simp) hp ha hr
  rw [unitReady_setEngine]
  split
  · refine h1.line' ((onlyLine_setEngine l _ _ (by simp)).trans (onlyLine_unitWait l _)) (fun i hi _ => onlyEx_some l i hi)
      (fun _ => ?_) ?_
    · rw [engineAt_unitWait, engineAt_setEngine, if_pos rfl, unitPhase_unitWait]
      exact
        { engine := SendOk.ok ⟨hs.state, hs.current, hs.cause, hs.starve⟩ (by simp) (by simp) (by simp)
          waits := by simp
          flies := by simp
          fetch := fun err hk => absurd hk (ha err) }
    · rw [engineAt_unitWait, engineAt_setEngine, if_pos rfl]; exact hf' _ _
  · rename_i hr; exact go (by rw [hr]; simp)
  · rename_i c hr; exact go (by rw [hr]; simp)

/-! The tests of the byte boundary. -/

/-- What a SENDING line at a byte boundary holds. -/
structure AtBoundary (l : Fin 4) (s : State) : Prop where
  send : SendOk (engineAt s l)
  step : (engineAt s l).step = .boundary
  fetched : (engineAt s l).fetched = none
  hold : (engineAt s l).hold = none
  phase : unitPhase s l ≠ .waiting ∧ unitPhase s l ≠ .inFlight
  access : ∀ err, s.spool.access ≠ some (.drain l err)

theorem Sound.atBoundary {s : State} (h : Sound own none cl s) {l : Fin 4} (hs : (engineAt s l).state = .sending)
    (hb : (engineAt s l).step = .boundary) : AtBoundary l s where
  send := (h.line l (by simp)).engine.send hs
  step := hb
  fetched := (h.line l (by simp)).engine.bound hb
  hold := (h.line l (by simp)).engine.hold (by rw [hb]; simp)
  phase := by
    refine ⟨fun k => ?_, fun k => ?_⟩
    · have := (h.line l (by simp)).waits.1 k
      rw [hb] at this; cases this
    · have := (h.line l (by simp)).flies.1 k
      rw [hb] at this; cases this
  access := fun err k => by
    have := ((h.line l (by simp)).fetch err k).2.1
    rw [hb] at this; cases this

theorem sound_starveLine (l : Fin 4) (s : State) (h : Sound own none cl s) (hb : AtBoundary l s) :
    Sound own none cl (starveLine l s) := by
  refine sound_raise _ _ (h.setEngine l _ rfl (fun _ _ _ => by simp) (fun _ => ?_) ?_)
  · exact
      { engine :=
          { cause := by simp [hb.send.cause]
            hasJob := fun _ => hb.send.current
            noJob := by simp
            rests := fun _ => ⟨hb.step, hb.fetched, hb.hold⟩
            starve := by simp
            hold := fun _ => hb.hold
            bound := fun _ => hb.fetched
            holds := by simp [hb.step] }
        waits := by simp [hb.phase.1, hb.step]
        flies := by simp [hb.phase.2, hb.step]
        fetch := fun err hk => absurd hk (hb.access err) }
  · exact FetchedOk.none hb.fetched

theorem sound_afterCopyEnd (l : Fin 4) (r : Job) (s : State) (h : Sound own none cl s) (hb : AtBoundary l s) :
    Sound own none cl (afterCopyEnd l r s) := by
  unfold afterCopyEnd
  simp only
  split
  · refine h.setEngine l _ rfl (fun _ _ _ => by simp) (fun _ => ?_) (FetchedOk.none hb.fetched)
    exact
      { engine :=
          { cause := by simp [hb.send.cause]
            hasJob := fun _ => hb.send.current
            noJob := by simp
            rests := fun _ => ⟨hb.step, hb.fetched, hb.hold⟩
            starve := fun _ => hb.send.starve
            hold := fun _ => hb.hold
            bound := fun _ => hb.fetched
            holds := by simp [hb.step] }
        waits := by simp [hb.phase.1, hb.step]
        flies := by simp [hb.phase.2, hb.step]
        fetch := fun err hk => absurd hk (hb.access err) }
  · split
    · refine sound_askReady l _ s h (onlyEx_none l) hb.send hb.phase.2 hb.access ?_
      intro j r f p _ _ h3 h4
      cases h3
      cases h4
    · split
      · exact sound_starveLine l s h hb
      · refine h.setEngine l _ rfl (fun _ _ _ => by simp) (fun _ => ?_) (FetchedOk.none hb.fetched)
        exact
          { engine := SendOk.ok ⟨hb.send.state, hb.send.current, hb.send.cause, hb.send.starve⟩ (fun _ => hb.hold) (by simp)
              (by simp)
            waits := by simp [hb.phase.1]
            flies := by simp [hb.phase.2]
            fetch := fun err hk => absurd hk (hb.access err) }

end Sys2Proof.Machine
end

