-- ==== Sys2Proof/Laws/KeptJobs.lean ====
section
/-! SUPPORT. Retirement, the take, the end of a copy and the end of an intake access keep the laws. -/

namespace Sys2Proof.Machine

-- One after another: side by side the proofs would each wait in a thread of their own.
set_option Elab.async false

variable {own : Fin 16 → List (Fin 128)} {ex : Option (Fin 4)} {cl : Spare}

/-! The blocks. -/

theorem sum_count_update (own : Fin 16 → List (Fin 128)) (j : Fin 16) (bs : List (Fin 128)) (b : Fin 128) :
    ∑ i, (Function.update own j bs i).count b + (own j).count b = ∑ i, (own i).count b + bs.count b := by
  rw [← Finset.add_sum_erase _ (fun i => (Function.update own j bs i).count b) (Finset.mem_univ j),
    ← Finset.add_sum_erase _ (fun i => (own i).count b) (Finset.mem_univ j)]
  have : ∑ i ∈ Finset.univ.erase j, (Function.update own j bs i).count b = ∑ i ∈ Finset.univ.erase j, (own i).count b := by
    refine Finset.sum_congr rfl (fun i hi => ?_)
    rw [Function.update_of_ne (Finset.ne_of_mem_erase hi)]
  rw [this, Function.update_self]
  omega

theorem count_le_sum (own : Fin 16 → List (Fin 128)) (j : Fin 16) (b : Fin 128) :
    (own j).count b ≤ ∑ i, (own i).count b :=
  Finset.single_le_sum (f := fun i => (own i).count b) (fun _ _ => Nat.zero_le _) (Finset.mem_univ j)

theorem Sound.ready {s : State} (h : Sound own ex cl s) {j : Fin 16} {r : Job} (e : jobAt s j = some r) :
    s.window.ready = true := by
  by_contra hn
  have := h.emptySlots (by simpa using hn) j
  rw [e] at this; cases this

/-- A block in one chain is on no other chain, not on the Free List, and once in its chain (R32). -/
theorem Sound.disjoint {s : State} (h : Sound own ex cl s) (hr : s.window.ready = true) {i j : Fin 16} (hij : i ≠ j)
    {b : Fin 128} (hi : b ∈ own i) : b ∉ own j := fun hj => by
  have hb := h.blocks hr b
  have h1 : 1 ≤ (own i).count b := List.count_pos_iff.2 hi
  have h2 : 1 ≤ (own j).count b := List.count_pos_iff.2 hj
  have h3 : ∑ k ∈ {i, j}, (own k).count b ≤ ∑ k, (own k).count b :=
    Finset.sum_le_sum_of_subset (Finset.subset_univ _)
  rw [Finset.sum_pair hij] at h3
  omega

theorem Sound.notFree {s : State} (h : Sound own ex cl s) (hr : s.window.ready = true) {j : Fin 16} {b : Fin 128}
    (hj : b ∈ own j) : b ∉ s.spool.freeList := fun hf => by
  have hb := h.blocks hr b
  have h1 : 1 ≤ (own j).count b := List.count_pos_iff.2 hj
  have h2 : 1 ≤ s.spool.freeList.count b := List.count_pos_iff.2 hf
  have := count_le_sum own j b
  omega

theorem Sound.nodup {s : State} (h : Sound own ex cl s) (hr : s.window.ready = true) (j : Fin 16) : (own j).Nodup := by
  rw [List.nodup_iff_count_le_one]
  intro b
  have hb := h.blocks hr b
  have := count_le_sum own j b
  omega

/-! Retirement. -/

theorem hasEntry_filter (s t : State) (i j : Fin 16) (hij : i ≠ j)
    (hf : t.intake.fifo = s.intake.fifo.filter (fun e => e.1 ≠ j)) : hasEntry t i = hasEntry s i := by
  unfold hasEntry
  rw [hf, Bool.eq_iff_iff, List.any_eq_true, List.any_eq_true]
  constructor
  · rintro ⟨a, ha, hai⟩; exact ⟨a, (List.mem_filter.1 ha).1, hai⟩
  · rintro ⟨a, ha, hai⟩
    refine ⟨a, List.mem_filter.2 ⟨ha, ?_⟩, hai⟩
    have : a.1 = i := by simpa using hai
    simp [this, hij]

/-- R16: what a state looks like once a job has retired. -/
structure RetiredTo (own : Fin 16 → List (Fin 128)) (j : Fin 16) (r r' : Job) (s t : State) : Prop where
  jobs : ∀ k, jobAt t k = if k = j then some r' else jobAt s k
  output : r'.output = .finished
  intake : r'.intake = .closed
  counts : r'.copyPos = r.copyPos ∧ r'.stored = r.stored ∧ r'.copiesDone = r.copiesDone ∧ r'.copies = r.copies
  noChain : r'.head = none ∧ r'.tail = none ∧ r'.chainLen = 0 ∧ r'.tailFill = 0
  fifo : t.intake.fifo = s.intake.fifo.filter (fun e => e.1 ≠ j)
  headReq : (∀ e es, s.intake.fifo = e :: es → e.1 ≠ j) → t.intake.headReq = s.intake.headReq
  target : t.intake.target = if s.intake.target = some j then none else s.intake.target
  queue : ∀ l u, queueEntries t l u =
    if r.output = .queued ∧ l = r.line then (queueEntries s l u).filter (· ≠ j) else queueEntries s l u
  engines : ∀ l, engineAt t l =
    if r.output = .current ∧ l = r.line then { engineAt s l with current := none } else engineAt s l
  phases : ∀ l, unitPhase t l = unitPhase s l
  records : s.completion.queue.length < 8 ∧ r'.posted = true ∧ t.completion.postWait = s.completion.postWait ∧
      (∃ rec : Record, rec.job = j ∧ t.completion.queue = s.completion.queue ++ [rec]) ∨
    ¬ s.completion.queue.length < 8 ∧ r'.posted = false ∧ t.completion.postWait = s.completion.postWait ++ [j] ∧
      t.completion.queue = s.completion.queue
  freeList : t.spool.freeList = s.spool.freeList ++ own j
  links : ∀ b, linkAt t b = if b ∈ own j then none else linkAt s b
  access : t.spool.access = s.spool.access
  ready : t.window.ready = s.window.ready

theorem count_filter_ne (q : List (Fin 16)) (i j : Fin 16) :
    (q.filter (· ≠ j)).count i = if i = j then 0 else q.count i := by
  by_cases h : i = j
  · subst h; rw [if_pos rfl, List.count_eq_zero]; simp
  · rw [if_neg h, List.count_filter]; simpa using h

theorem Sound.retired {ex' : Option (Fin 4)} {cl' : Spare} {s t : State} (h : Sound own ex cl s) {j : Fin 16}
    {r r' : Job} (e : jobAt s j = some r) (hne : r.output ≠ .finished) (acc : AccessEnded j s)
    (k : RetiredTo own j r r' s t) (hcl : ∀ i, i ≠ j → (cl'.closing ≠ some i → cl.closing ≠ some i) ∧ (cl'.ending ≠ some i → cl.ending ≠ some i))
    (hex : ∀ l, ex' ≠ some l → ex ≠ some l ∧ ¬ (r.output = .current ∧ l = r.line)) :
    Sound (Function.update own j []) ex' cl' t := by
  have hr := h.ready e
  have hother : ∀ i, i ≠ j → jobAt t i = jobAt s i := fun i hi => by rw [k.jobs, if_neg hi]
  have hself : jobAt t j = some r' := by rw [k.jobs, if_pos rfl]
  have hcur := h.cursor j r e hne
  have headNe : ∀ c, s.spool.access = some (.intake c) → ∀ a as, s.intake.fifo = a :: as → a.1 ≠ j :=
    fun c hc a as ha => acc c a as hc ha
  have storing : ∀ i, i ≠ j → storingFor t i = storingFor s i := fun i hi => by
    unfold storingFor
    rw [k.access, k.fifo]
    cases ha : s.spool.access with
    | none => rfl
    | some x =>
      cases x with
      | drain _ _ => rfl
      | verify _ => rfl
      | intake c =>
        cases hq : s.intake.fifo with
        | nil => rfl
        | cons a as =>
          have := headNe c ha a as hq
          simp [this]
  have hchain : ∀ i q, i ≠ j → ChainOk s i q (own i) → ChainOk t i q (own i) := fun i q hi hc =>
    { head := hc.head
      last := hc.last
      length := hc.length
      linked := hc.linked.congr (fun b hb => by rw [k.links, if_neg (h.disjoint hr hi hb)])
      fill := hc.fill
      empty := hc.empty
      byte := fun n => by rw [storing i hi]; exact hc.byte n }
  exact
  { fifoLen := by rw [k.fifo]; exact Nat.le_trans (List.length_filter_le _ _) h.fifoLen
    fifo := fun a ha => by
      rw [k.fifo, List.mem_filter] at ha
      have hne : a.1 ≠ j := by simpa using ha.2
      rw [hother _ hne]; exact h.fifo a ha.1
    target := fun i hi => by
      rw [k.target] at hi
      split at hi
      · cases hi
      · rename_i hnj
        have hij : i ≠ j := fun q => hnj (by rw [hi, q])
        rw [hother _ hij]; exact h.target i hi
    closing := fun i q hi hc hn => by
      by_cases hij : i = j
      · subst hij; rw [hself] at hi; cases hi; rw [k.intake] at hc; cases hc
      · rw [hasEntry_filter s t i j hij k.fifo]
        rw [hother _ hij] at hi; exact h.closing i q hi hc ((hcl i hij).1 hn)
    queue := fun l u i => by
      have hq := h.queue l u i
      rw [k.queue]
      by_cases hij : i = j
      · subst hij
        rw [hself]
        simp only [k.output]
        rw [e] at hq
        simp only at hq
        split
        · rw [count_filter_ne, if_pos rfl]; simp
        · rename_i hn
          rw [hq, if_neg]
          · simp
          · rintro ⟨h1, h2, _⟩; exact hn ⟨h1, h2.symm⟩
      · rw [hother _ hij, ← hq]
        split
        · rw [count_filter_ne, if_neg hij]
        · rfl
    current := fun l i => by
      have hc := h.current l i
      rw [k.engines]
      by_cases hij : i = j
      · subst hij
        rw [hself]
        constructor
        · intro hcu
          split at hcu
          · cases hcu
          · rename_i hn
            obtain ⟨q, hq, ho, hl⟩ := hc.1 hcu
            rw [e] at hq; cases hq
            exact absurd ⟨ho, hl.symm⟩ hn
        · rintro ⟨q, hq, ho, _⟩; cases hq; rw [k.output] at ho; cases ho
      · rw [hother _ hij, ← hc]
        split
        · rename_i hy
          have hj := (h.current l j).2 ⟨r, e, hy.1, hy.2.symm⟩
          rw [hj]
          constructor
          · intro n; cases n
          · intro n; cases n; exact absurd rfl hij
        · rfl
    finished := fun i q hi ho => by
      by_cases hij : i = j
      · subst hij; rw [hself] at hi; cases hi
        obtain ⟨a, b, c, d⟩ := k.counts
        refine ⟨k.intake, ?_, ?_, by simp⟩
        · rw [a, b]
          by_cases hb : own i = []
          · have := hcur.start hb; omega
          · obtain ⟨_, _, _, _, _, hle, _⟩ := hcur.stands hb; exact hle
        · rw [c, d]; exact hcur.copies
      · rw [hother _ hij] at hi
        rw [Function.update_of_ne hij]; exact h.finished i q hi ho
    recordsLen := by
      rcases k.records with ⟨hl, _, _, rec, _, hq⟩ | ⟨_, _, _, hq⟩
      · rw [hq]; simp; omega
      · rw [hq]; exact h.recordsLen
    waiting := by
      rcases k.records with ⟨hl, _, hw, rec, _, hq⟩ | ⟨hl, _, _, hq⟩
      · left; rw [hw]
        rcases h.waiting with hw | hw
        · exact hw
        · omega
      · right; rw [hq]; have := h.recordsLen; omega
    records := fun i => by
      have hrec := h.records i
      have hrj := h.records j
      rw [e] at hrj
      simp only [hne, false_and, if_false] at hrj
      rcases k.records with ⟨hl, hp, hw, rec, hrec2, hq⟩ | ⟨hl, hp, hw, hq⟩
      · rw [hq, hw]
        by_cases hij : i = j
        · subst hij; rw [hself]; simp [k.output, hp, hrj, hrec2, List.count_append]
        · have hij' : j ≠ i := Ne.symm hij
          rw [hother _ hij]
          refine ⟨?_, hrec.2⟩
          rw [← hrec.1]
          simp [List.count_append, hrec2, hij']
      · rw [hq, hw]
        by_cases hij : i = j
        · subst hij; rw [hself]; simp [k.output, hp, hrj, List.count_append]
        · have hij' : j ≠ i := Ne.symm hij
          rw [hother _ hij]
          refine ⟨hrec.1, ?_⟩
          rw [← hrec.2]
          simp [List.count_append, hij']
    freeSlot := fun i hi => by
      by_cases hij : i = j
      · subst hij; simp
      · rw [Function.update_of_ne hij]; exact h.freeSlot i (hother i hij ▸ hi)
    chain := fun i q hi => by
      by_cases hij : i = j
      · subst hij; rw [hself] at hi; cases hi
        obtain ⟨a, b, c, d⟩ := k.noChain
        rw [Function.update_self]
        exact
          { head := by rw [a]; rfl
            last := by rw [b]; rfl
            length := by rw [c]; rfl
            linked := trivial
            fill := by rw [d]; omega
            empty := fun _ => d
            byte := fun n => absurd rfl n }
      · rw [Function.update_of_ne hij]
        rw [hother _ hij] at hi
        exact hchain i q hij (h.chain i q hi)
    cursor := fun i q hi ho => by
      by_cases hij : i = j
      · subst hij; rw [hself] at hi; cases hi; exact absurd k.output ho
      · rw [Function.update_of_ne hij]; rw [hother _ hij] at hi; exact h.cursor i q hi ho
    going := fun i q hi ho hn => by
      by_cases hij : i = j
      · subst hij; rw [hself] at hi; cases hi; exact absurd k.output ho
      · rw [hother _ hij] at hi; rw [Function.update_of_ne hij]; exact h.going i q hi ho ((hcl i hij).2 hn)
    blocks := fun hrt b => by
      have h1 := h.blocks hr b
      have h2 := sum_count_update own j [] b
      rw [k.freeList, List.count_append]
      simp only [List.count_nil] at h2
      omega
    freeLinks := fun b hb => by
      rw [k.links]
      split
      · rfl
      · rename_i hn
        rw [k.freeList, List.mem_append] at hb
        rcases hb with hb | hb
        · exact h.freeLinks b hb
        · exact absurd hb hn
    emptySlots := fun hrt => by rw [k.ready, hr] at hrt; cases hrt
    line := fun l hl => by
      obtain ⟨h1, h2⟩ := hex l hl
      rw [k.engines, if_neg h2, k.phases, k.access]
      exact h.line l h1
    fetched := fun l i q f p c1 c2 c3 c4 => by
      rw [k.engines] at c1 c3
      have hij : i ≠ j := fun hij => by
        subst hij
        split at c1
        · cases c1
        · rename_i hn
          obtain ⟨q, hq, ho, hl⟩ := (h.current l i).1 c1
          rw [e] at hq; cases hq
          exact hn ⟨ho, hl.symm⟩
      rw [Function.update_of_ne hij]
      rw [hother _ hij] at c2
      split at c1
      · cases c1
      · rename_i hn
        rw [if_neg hn] at c3
        exact h.fetched l i q f p c1 c2 c3 c4
    access := fun c hc => by
      rw [k.access] at hc
      obtain ⟨hg, a, as, ha, hfit⟩ := h.access c hc
      have hn := headNe c hc a as ha
      refine ⟨(k.headReq (fun a' as' ha' => headNe c hc a' as' ha')).trans hg, a, as.filter (fun e => e.1 ≠ j), ?_, fun q hq => ?_⟩
      · rw [k.fifo, ha]; simp [hn]
      · rw [hother _ hn] at hq; exact hfit q hq }

/-! What retirement leaves in each table. -/

theorem releaseAll_window (bs : List (Fin 128)) (s : State) : (releaseAll bs s).window = s.window := by
  induction bs generalizing s with
  | nil => rfl
  | cons b bs ih => rw [releaseAll, ih]; rfl
theorem releaseAll_intake (bs : List (Fin 128)) (s : State) : (releaseAll bs s).intake = s.intake := by
  induction bs generalizing s with
  | nil => rfl
  | cons b bs ih => rw [releaseAll, ih]; rfl
theorem releaseAll_queues (bs : List (Fin 128)) (s : State) : (releaseAll bs s).queues = s.queues := by
  induction bs generalizing s with
  | nil => rfl
  | cons b bs ih => rw [releaseAll, ih]; rfl
theorem releaseAll_engines (bs : List (Fin 128)) (s : State) : (releaseAll bs s).engines = s.engines := by
  induction bs generalizing s with
  | nil => rfl
  | cons b bs ih => rw [releaseAll, ih]; rfl
theorem releaseAll_par (bs : List (Fin 128)) (s : State) : (releaseAll bs s).par = s.par := by
  induction bs generalizing s with
  | nil => rfl
  | cons b bs ih => rw [releaseAll, ih]; rfl
theorem releaseAll_ser (bs : List (Fin 128)) (s : State) : (releaseAll bs s).ser = s.ser := by
  induction bs generalizing s with
  | nil => rfl
  | cons b bs ih => rw [releaseAll, ih]; rfl
theorem releaseAll_completion (bs : List (Fin 128)) (s : State) : (releaseAll bs s).completion = s.completion := by
  induction bs generalizing s with
  | nil => rfl
  | cons b bs ih => rw [releaseAll, ih]; rfl
theorem releaseAll_verify (bs : List (Fin 128)) (s : State) : (releaseAll bs s).verify = s.verify := by
  induction bs generalizing s with
  | nil => rfl
  | cons b bs ih => rw [releaseAll, ih]; rfl
theorem releaseAll_access (bs : List (Fin 128)) (s : State) : (releaseAll bs s).spool.access = s.spool.access := by
  induction bs generalizing s with
  | nil => rfl
  | cons b bs ih => rw [releaseAll, ih]; rfl

theorem linkAt_releaseAll (bs : List (Fin 128)) (s : State) (c : Fin 128) :
    linkAt (releaseAll bs s) c = if c ∈ bs then none else linkAt s c := by
  induction bs generalizing s with
  | nil => simp [releaseAll]
  | cons b bs ih =>
    rw [releaseAll, ih]
    have hb : linkAt (releaseBlock b s) c = if c = b then none else linkAt s c := linkAt_setLink b none _ c
    rw [hb]
    by_cases h1 : c ∈ bs <;> by_cases h2 : c = b <;> simp [h1, h2]

/-- What retirement does to the queues and the line of its job. -/
theorem RetiredTo.of_retireNow {s : State} {j : Fin 16} {r : Job} (hown : chainOf s r = own j)
    (o : JobOutcome) (c : Cause) : ∃ r', RetiredTo own j r r' s (retireNow j r o c s) := by
  let s1 := purge j s
  let s2 : State := { s1 with intake.target := if s1.intake.target = some j then none else s1.intake.target }
  let s3 : State := match r.output with
    | .queued => leaveQueue r.line j s2
    | .current => setEngine r.line { engineAt s2 r.line with current := none } s2
    | .pending => s2
    | .finished => s2
  let r1 : Job := { r with outcome := some o, cause := c, intake := .closed, output := .finished, head := none, tail := none,
                           tailFill := 0, chainLen := 0, cancelPending := false, posted := false }
  let u := endScanOf j (setJob j r1 (releaseAll (chainOf s r) s3))
  have hdef : retireNow j r o c s = handOver j u := rfl
  have scan : ∀ t : State, (endScanOf j t).jobs = t.jobs ∧ (endScanOf j t).intake = t.intake ∧
      (endScanOf j t).queues = t.queues ∧ (endScanOf j t).engines = t.engines ∧ (endScanOf j t).par = t.par ∧
      (endScanOf j t).ser = t.ser ∧ (endScanOf j t).completion = t.completion ∧ (endScanOf j t).spool = t.spool ∧
      (endScanOf j t).window = t.window := fun t => by
    unfold endScanOf; split <;> exact ⟨rfl, rfl, rfl, rfl, rfl, rfl, rfl, rfl, rfl⟩
  obtain ⟨u1, u2, u3, u4, u5, u6, u7, u8, u9⟩ := scan (setJob j r1 (releaseAll (chainOf s r) s3))
  have s3s : s3.jobs = s.jobs ∧ s3.intake = s2.intake ∧ s3.par = s.par ∧ s3.ser = s.ser ∧ s3.completion = s.completion ∧
      s3.spool = s.spool ∧ s3.window = s.window ∧
      (∀ l, queueAt s3 l = if r.output = .queued ∧ l = r.line then
        { urgent := (queueAt s l).urgent.filter (· ≠ j), normal := (queueAt s l).normal.filter (· ≠ j) } else queueAt s l) ∧
      (∀ l, engineAt s3 l = if r.output = .current ∧ l = r.line then { engineAt s l with current := none } else engineAt s l) := by
    have q2 : ∀ l, queueAt s2 l = queueAt s l := fun _ => rfl
    have e2 : ∀ l, engineAt s2 l = engineAt s l := fun _ => rfl
    cases ho : r.output
    · have : s3 = s2 := by simp only [s3, ho]
      rw [this]; exact ⟨rfl, rfl, rfl, rfl, rfl, rfl, rfl, fun l => by simp [q2], fun l => by simp [e2]⟩
    · have : s3 = leaveQueue r.line j s2 := by simp only [s3, ho]
      rw [this]
      refine ⟨rfl, rfl, rfl, rfl, rfl, rfl, rfl, fun l => ?_, fun l => ?_⟩
      · unfold leaveQueue
        rw [queueAt_setQueue]
        by_cases hl : l = r.line
        · subst hl; simp [q2]
        · simp [hl, q2]
      · simp only [reduceCtorEq, false_and, if_false]; rfl
    · have : s3 = setEngine r.line { engineAt s2 r.line with current := none } s2 := by simp only [s3, ho]
      rw [this]
      refine ⟨rfl, rfl, rfl, rfl, rfl, rfl, rfl, fun l => ?_, fun l => ?_⟩
      · simp only [reduceCtorEq, false_and, if_false]; rfl
      · rw [engineAt_setEngine]
        by_cases hl : l = r.line
        · subst hl; simp [e2]
        · simp [hl, e2]
    · have : s3 = s2 := by simp only [s3, ho]
      rw [this]; exact ⟨rfl, rfl, rfl, rfl, rfl, rfl, rfl, fun l => by simp [q2], fun l => by simp [e2]⟩
  obtain ⟨v1, v2, v3, v4, v5, v6, v7, v8, v9⟩ := s3s
  have uj : ∀ k, jobAt u k = if k = j then some r1 else jobAt s k := fun k => by
    have : jobAt u k = jobAt (setJob j r1 (releaseAll (chainOf s r) s3)) k := by unfold jobAt; rw [u1]
    rw [this, jobAt_setJob, jobAt_releaseAll]
    unfold jobAt; rw [v1]
  have ui : u.intake = s2.intake := by rw [u2, setJob_intake, releaseAll_intake, v2]
  have uq : ∀ l, queueAt u l = queueAt s3 l := fun l => by
    unfold queueAt; rw [u3, setJob_queues, releaseAll_queues]
  have ue : ∀ l, engineAt u l = engineAt s3 l := fun l => by
    unfold engineAt; rw [u4, setJob_engines, releaseAll_engines]
  have up : u.par = s.par := by rw [u5, setJob_par, releaseAll_par, v3]
  have us : u.ser = s.ser := by rw [u6, setJob_ser, releaseAll_ser, v4]
  have uc : u.completion = s.completion := by rw [u7, setJob_completion, releaseAll_completion, v5]
  have uf : u.spool.freeList = s.spool.freeList ++ own j := by
    rw [u8, setJob_spool, releaseAll_freeList, v6, hown]
  have ul : ∀ b, linkAt u b = if b ∈ own j then none else linkAt s b := fun b => by
    have h1 : linkAt u b = linkAt (releaseAll (chainOf s r) s3) b := by unfold linkAt; rw [u8]; rfl
    rw [h1, linkAt_releaseAll, hown]
    unfold linkAt; rw [v6]
  have ua : u.spool.access = s.spool.access := by rw [u8, setJob_spool, releaseAll_access, v6]
  have uw : u.window = s.window := by rw [u9, setJob_window, releaseAll_window, v7]
  -- what the hand-over leaves
  have hand : ∃ t : State, handOver j u = t ∧ ∃ r', r' = { r1 with posted := r'.posted } ∧
      (∀ k, jobAt t k = if k = j then some r' else jobAt s k) ∧ t.intake = u.intake ∧ t.queues = u.queues ∧
      t.engines = u.engines ∧ t.par = u.par ∧ t.ser = u.ser ∧ t.spool = u.spool ∧ t.window = u.window ∧
      (s.completion.queue.length < 8 ∧ r'.posted = true ∧ t.completion.postWait = s.completion.postWait ∧
          (∃ rec : Record, rec.job = j ∧ t.completion.queue = s.completion.queue ++ [rec]) ∨
        ¬ s.completion.queue.length < 8 ∧ r'.posted = false ∧ t.completion.postWait = s.completion.postWait ++ [j] ∧
          t.completion.queue = s.completion.queue) := by
    refine ⟨_, rfl, ?_⟩
    unfold handOver
    rw [uc]
    by_cases hl : s.completion.queue.length < 8
    · rw [if_pos (show s.completion.queue.length < Config.completionDepth from hl)]
      have hself : jobAt u j = some r1 := by rw [uj, if_pos rfl]
      unfold post
      simp only [hself]
      refine ⟨{ r1 with posted := true }, rfl, fun k => ?_, rfl, rfl, rfl, rfl, rfl, rfl, rfl, Or.inl ⟨hl, rfl, ?_, ?_⟩⟩
      · have : jobAt (setJob j { r1 with posted := true } u) k =
            if k = j then some { r1 with posted := true } else jobAt s k := by
          rw [jobAt_setJob, uj]
          by_cases hk : k = j <;> simp [hk]
        exact this
      · simp [uc]
      · exact ⟨recordOf j r1 s.completion.seq, rfl, by simp [uc]⟩
    · rw [if_neg (show ¬ s.completion.queue.length < Config.completionDepth from hl)]
      exact ⟨r1, rfl, uj, rfl, rfl, rfl, rfl, rfl, rfl, rfl, Or.inr ⟨hl, rfl, rfl, by rw [← uc]⟩⟩
  obtain ⟨t, ht, r', hr', w1, w2, w3, w4, w5, w6, w7, w8, w9⟩ := hand
  rw [hdef, ht]
  exact ⟨r',
    { jobs := w1
      output := by rw [hr']
      intake := by rw [hr']
      counts := by rw [hr']; exact ⟨rfl, rfl, rfl, rfl⟩
      noChain := by rw [hr']; exact ⟨rfl, rfl, rfl, rfl⟩
      fifo := by rw [w2, ui]; rfl
      headReq := fun hh => by
        rw [w2, ui]
        change (purge j s).intake.headReq = _
        unfold purge
        cases hq : s.intake.fifo with
        | nil => simp
        | cons a as => simp [hh a as hq]
      target := by rw [w2, ui]; rfl
      queue := fun l q => by
        have hq : queueAt t l = queueAt s3 l := by rw [← uq]; unfold queueAt; rw [w3]
        unfold queueEntries
        rw [hq, v8]
        by_cases hc : r.output = .queued ∧ l = r.line
        · rw [if_pos hc, if_pos hc]; cases q <;> rfl
        · rw [if_neg hc, if_neg hc]
      engines := fun l => by
        have hq : engineAt t l = engineAt s3 l := by rw [← ue]; unfold engineAt; rw [w4]
        rw [hq, v9]
      phases := fun l => by unfold unitPhase parAt serAt; rw [w5, w6, up, us]
      records := w9
      freeList := by rw [w7]; exact uf
      links := fun b => by
        have : linkAt t b = linkAt u b := by unfold linkAt; rw [w7]
        rw [this]; exact ul b
      access := by rw [w7]; exact ua
      ready := by rw [w8, uw] }⟩

/-! The ends of accesses. -/

/-- A store access that is not the Intake Unit's ends. -/
theorem Sound.endAccess {s : State} (h : Sound own ex cl s) (hn : NoIntakeAccess s) :
    Sound own ex cl { s with spool.access := none } :=
  { h with
    chain := fun i q hi =>
      have hc := h.chain i q hi
      { hc with
        byte := fun n => by
          rcases hc.byte n with hb | hb
          · exact Or.inl hb
          · unfold storingFor at hb
            split at hb
            · rename_i c a as ha _; exact absurd ha (hn c)
            · cases hb }
    line := fun l hl =>
      have hk := h.line l hl
      { hk with fetch := fun err hf => by cases hf }
    access := fun c hc => by cases hc }

theorem sound_countRead (err k : Bool) (s : State) (h : Sound own ex cl s) (ha : s.spool.access = some (.verify k)) :
    Sound own ex cl (countRead err s) := by
  have h1 := h.endAccess (fun c hc => by rw [ha] at hc; cases hc)
  unfold countRead
  simp only
  split
  · exact sound_raise _ _ h1.same
  · exact h1.same

theorem CursorOk.stored {r : Job} {bs : List (Fin 128)} (h : CursorOk r bs) (hb : bs ≠ []) :
    CursorOk { r with tailFill := r.tailFill + 1, stored := r.stored + 1 } bs where
  copies := h.copies
  start := fun n => absurd n hb
  stands := fun _ => by
    obtain ⟨c, i, h1, h2, h3, h4, h5⟩ := h.stands hb
    refine ⟨c, i, h1, h2, h3, ?_, ?_⟩
    · simp only; omega
    · simp only [chainBytes] at h5 ⊢; omega
  whole := fun n _ => by
    have := h.whole n hb
    simp only [chainBytes] at this ⊢; omega

/-- R54: the byte of the head entry is stored, and its job may have no entry left. -/
theorem sound_storeHead (c k : BitVec 1) (s : State) (h : Sound own ex cl s) (ha : s.spool.access = some (.intake k))
    (j : Fin 16) (b : Byte) (rest : List (Fin 16 × Byte)) (hq : s.intake.fifo = (j, b) :: rest)
    (hcl : ∀ i, i ≠ j → cl.closing ≠ some i) : Sound own ex { cl with closing := some j } (storeHead c s) := by
  obtain ⟨_, a, as, haq, hfit⟩ := h.access k ha
  rw [hq] at haq
  cases haq
  obtain ⟨r, hr, hopen⟩ := h.fifo (j, b) (by rw [hq]; exact List.mem_cons_self)
  have hr : jobAt s j = some r := hr
  have hlt := hfit r hr
  have hne : r.output ≠ .finished := fun n => hopen (h.finished j r hr n).1
  have hstore : ∀ i, i ≠ j → storingFor s i = false := fun i hi => by
    unfold storingFor
    rw [ha, hq]
    simpa using Ne.symm hi
  have entry : ∀ t : State, t.intake.fifo = rest → ∀ i, i ≠ j → hasEntry s i = true → hasEntry t i = true :=
    fun t ht i hi he => by
      unfold hasEntry at he ⊢
      rw [hq, List.any_cons] at he
      rw [ht]
      have : ((j == i) = false) := by simpa using Ne.symm hi
      simpa [this] using he
  -- the state once the entry has left and the store is free
  have drop : own j = [] → Sound own ex { cl with closing := some j } { s with spool.access := none, intake.headReq := .none, intake.fifo := rest } :=
    fun hemp =>
      { h with
        fifoLen := by have := h.fifoLen; rw [hq, List.length_cons] at this; exact (by omega : rest.length ≤ 16)
        fifo := fun x hx => h.fifo x (by rw [hq]; exact List.mem_cons_of_mem _ hx)
        closing := fun i q hi hcq hn => entry _ rfl i (fun he => hn (by rw [he])) (h.closing i q hi hcq (hcl i (fun he => hn (by rw [he]))))
        chain := fun i q hi =>
          have hc := h.chain i q hi
          { hc with
            byte := fun n => by
              by_cases hij : i = j
              · subst hij; exact absurd hemp n
              · rcases hc.byte n with hb | hb
                · exact Or.inl hb
                · rw [hstore i hij] at hb; cases hb }
        line := fun l hl =>
          have hk := h.line l hl
          { hk with fetch := fun err hf => by cases hf }
        access := fun c hc => by cases hc }
  unfold storeHead
  rw [hq]
  simp only
  have hr' : jobAt { s with spool.access := none, intake.headReq := .none, intake.fifo := rest } j = some r := hr
  rw [hr']
  simp only
  have hc := h.chain j r hr
  obtain ht | ⟨t, ht⟩ := Option.eq_none_or_eq_some r.tail
  · have : tailPos r = none := by unfold tailPos; rw [ht]; rfl
    rw [this]
    exact drop (hc.empty_iff.2.2.2 ht)
  · have : tailPos r = some { block := t, off := r.tailFill } := by unfold tailPos; rw [ht]; rfl
    rw [this]
    simp only
    have hne' : own j ≠ [] := fun n => by rw [hc.empty_iff.2.2.1 n] at ht; cases ht
    generalize hT : setJob j { r with tailFill := r.tailFill + 1, stored := r.stored + 1 }
      { s with
        spool.bytes := Memory.write s.spool.bytes (Pos.addr { block := t, off := r.tailFill }) b
        spool.checks := Memory.write s.spool.checks (Pos.addr { block := t, off := r.tailFill }) c
        spool.access := none
        intake.headReq := .none
        intake.fifo := rest } = T
    have tj : ∀ i, jobAt T i = if i = j then some { r with tailFill := r.tailFill + 1, stored := r.stored + 1 } else jobAt s i := by
      intro i; rw [← hT, jobAt_setJob]; rfl
    have tother : ∀ i, i ≠ j → jobAt T i = jobAt s i := fun i hi => by rw [tj, if_neg hi]
    have tself : jobAt T j = some { r with tailFill := r.tailFill + 1, stored := r.stored + 1 } := by rw [tj, if_pos rfl]
    have tf : T.intake.fifo = rest := by rw [← hT]; rfl
    have ta : T.spool.access = none := by rw [← hT]; rfl
    have te : ∀ l, engineAt T l = engineAt s l := fun l => by rw [← hT]; rfl
    have tl : ∀ b, linkAt T b = linkAt s b := fun b => by rw [← hT]; rfl
    exact
    { fifoLen := by have := h.fifoLen; rw [hq, List.length_cons] at this; rw [tf]; omega
      fifo := fun x hx => by
        rw [tf] at hx
        obtain ⟨q, h1, h2⟩ := h.fifo x (by rw [hq]; exact List.mem_cons_of_mem _ hx)
        by_cases hxj : x.1 = j
        · rw [hxj, hr] at h1; cases h1
          exact ⟨{ r with tailFill := r.tailFill + 1, stored := r.stored + 1 }, by rw [hxj]; exact tself, h2⟩
        · exact ⟨q, by rw [tother _ hxj]; exact h1, h2⟩
      target := fun i hi => by
        have hi : s.intake.target = some i := by rw [← hT] at hi; exact hi
        obtain ⟨q, h1, h2⟩ := h.target i hi
        by_cases hij : i = j
        · subst hij; rw [hr] at h1; cases h1; exact ⟨_, tself, h2⟩
        · exact ⟨q, by rw [tother _ hij]; exact h1, h2⟩
      closing := fun i q hi hcq hn => by
        have hij : i ≠ j := fun he => hn (by rw [he])
        rw [tother _ hij] at hi
        exact entry T tf i hij (h.closing i q hi hcq (hcl i hij))
      queue := fun l u i => by
        have hq' := h.queue l u i
        have : queueEntries T l u = queueEntries s l u := by rw [← hT]; rfl
        rw [this, hq']
        by_cases hij : i = j
        · subst hij; rw [hr, tself]
        · rw [tother _ hij]
      current := fun l i => by
        rw [te, h.current l i]
        by_cases hij : i = j
        · subst hij; rw [hr, tself]
          constructor
          · rintro ⟨q, h1, h2, h3⟩; cases h1; exact ⟨_, rfl, h2, h3⟩
          · rintro ⟨q, h1, h2, h3⟩; cases h1; exact ⟨_, rfl, h2, h3⟩
        · rw [tother _ hij]
      finished := fun i q hi ho => by
        by_cases hij : i = j
        · subst hij; rw [tself] at hi; cases hi; exact absurd ho hne
        · rw [tother _ hij] at hi; exact h.finished i q hi ho
      recordsLen := by rw [← hT]; exact h.recordsLen
      waiting := by rw [← hT]; exact h.waiting
      records := fun i => by
        have hrec := h.records i
        have h1 : T.completion = s.completion := by rw [← hT]; rfl
        rw [h1]
        by_cases hij : i = j
        · subst hij; rw [hr] at hrec; rw [tself]; exact hrec
        · rw [tother _ hij]; exact hrec
      freeSlot := fun i hi => by
        by_cases hij : i = j
        · subst hij; rw [tself] at hi; cases hi
        · exact h.freeSlot i (tother i hij ▸ hi)
      chain := fun i q hi => by
        by_cases hij : i = j
        · subst hij; rw [tself] at hi; cases hi
          exact
            { head := hc.head
              last := hc.last
              length := hc.length
              linked := hc.linked.congr (fun b _ => tl b)
              fill := hlt
              empty := fun n => absurd n hne'
              byte := fun _ => Or.inl (Nat.succ_le_succ (Nat.zero_le _)) }
        · rw [tother _ hij] at hi
          have hk := h.chain i q hi
          exact
            { head := hk.head
              last := hk.last
              length := hk.length
              linked := hk.linked.congr (fun b _ => tl b)
              fill := hk.fill
              empty := hk.empty
              byte := fun n => by
                rcases hk.byte n with hb | hb
                · exact Or.inl hb
                · rw [hstore i hij] at hb; cases hb }
      cursor := fun i q hi ho => by
        by_cases hij : i = j
        · subst hij; rw [tself] at hi; cases hi; exact (h.cursor i r hr hne).stored hne'
        · rw [tother _ hij] at hi; exact h.cursor i q hi ho
      going := fun i q hi ho hn => by
        by_cases hij : i = j
        · subst hij; rw [tself] at hi; cases hi; exact h.going i r hr hne hn
        · rw [tother _ hij] at hi; exact h.going i q hi ho hn
      blocks := by rw [← hT]; exact h.blocks
      freeLinks := fun b hb => by rw [tl]; exact h.freeLinks b (by rw [← hT] at hb; exact hb)
      emptySlots := fun hn => by
        have := h.ready hr
        rw [← hT] at hn
        exact absurd (this.symm.trans hn) (by simp)
      line := fun l hl => by
        have hk := h.line l hl
        have hp : unitPhase T l = unitPhase s l := by rw [← hT]; rfl
        rw [te, hp, ta]
        exact { hk with fetch := fun err hf => by cases hf }
      fetched := fun l i q f p c1 c2 c3 c4 => by
        rw [te] at c1 c3
        by_cases hij : i = j
        · subst hij; rw [tself] at c2; cases c2
          obtain ⟨n, h1, h2, h3, h4⟩ := h.fetched l i r f p c1 hr c3 c4
          refine ⟨n, h1, h2, ?_, ?_⟩
          · simp only [chainBytes] at h3 ⊢; omega
          · simp only; omega
        · rw [tother _ hij] at c2; exact h.fetched l i q f p c1 c2 c3 c4
      access := fun c hcc => by rw [ta] at hcc; cases hcc }

theorem Sound.closingFor {s : State} (h : Sound own ex cl s) (j : Fin 16) (hcl : ∀ i, i ≠ j → cl.closing ≠ some i) :
    Sound own ex { cl with closing := some j } s :=
  { h with closing := fun i q hi hc hn => h.closing i q hi hc (hcl i (fun he => hn (by rw [he]))) }

/-- What the lines keep while an act changes jobs alone. -/
structure SameLines (s t : State) : Prop where
  engines : t.engines = s.engines := by rfl
  phases : ∀ l, unitPhase t l = unitPhase s l := by exact fun _ => rfl
  access : t.spool.access = none ∨ t.spool.access = s.spool.access := by exact Or.inr rfl

theorem storeHead_lines (c : BitVec 1) (s : State) : SameLines s (storeHead c s) := by
  have h : (storeHead c s).engines = s.engines ∧ (storeHead c s).par = s.par ∧ (storeHead c s).ser = s.ser := by
    unfold storeHead
    cases s.intake.fifo with
    | nil => exact ⟨rfl, rfl, rfl⟩
    | cons a as =>
      obtain ⟨j, b⟩ := a
      simp only
      split
      · exact ⟨rfl, rfl, rfl⟩
      · split <;> exact ⟨rfl, rfl, rfl⟩
  exact
    { engines := h.1
      phases := fun l => by unfold unitPhase parAt serAt; rw [h.2.1, h.2.2]
      access := Or.inl (storeHead_access c s) }

theorem countRead_lines (err : Bool) (s : State) : SameLines s (countRead err s) := by
  cases err <;> exact { access := Or.inl rfl }

/-- A byte stored for a job leaves its place. -/
theorem storeHead_job (c : BitVec 1) (s : State) (j : Fin 16) (r : Job) (e : jobAt s j = some r) :
    ∃ r', jobAt (storeHead c s) j = some r' ∧ r'.output = r.output ∧ r'.line = r.line := by
  unfold storeHead
  cases s.intake.fifo with
  | nil => exact ⟨r, e, rfl, rfl⟩
  | cons a as =>
    obtain ⟨k, b⟩ := a
    simp only
    split
    · exact ⟨r, e, rfl, rfl⟩
    · rename_i q hq
      have hq : jobAt s k = some q := hq
      split
      · exact ⟨r, e, rfl, rfl⟩
      · rw [jobAt_setJob]
        by_cases hk : j = k
        · subst hk; rw [e] at hq; cases hq; rw [if_pos rfl]; exact ⟨_, rfl, rfl, rfl⟩
        · rw [if_neg hk]; exact ⟨r, e, rfl, rfl⟩

theorem sound_endAccessOf (j : Fin 16) (r : Job) (s : State) (h : Sound own ex cl s) (hcl : ∀ i, i ≠ j → cl.closing ≠ some i)
    (e : jobAt s j = some r) :
    Sound own ex { cl with closing := some j } (endAccessOf j s) ∧ SameLines s (endAccessOf j s) ∧
      ∃ r', jobAt (endAccessOf j s) j = some r' ∧ r'.output = r.output ∧ r'.line = r.line := by
  have same := h.closingFor j hcl
  unfold endAccessOf
  cases ha : s.spool.access with
  | none => exact ⟨same, {}, r, e, rfl, rfl⟩
  | some a =>
    cases a with
    | drain _ _ => exact ⟨same, {}, r, e, rfl, rfl⟩
    | intake c =>
      simp only
      cases hq : s.intake.fifo with
      | nil => exact ⟨same, {}, r, e, rfl, rfl⟩
      | cons a as =>
        obtain ⟨k, b⟩ := a
        simp only
        split
        · rename_i hk
          subst hk
          exact ⟨sound_storeHead c c s h ha k b as hq hcl, storeHead_lines c s, storeHead_job c s k r e⟩
        · exact ⟨same, {}, r, e, rfl, rfl⟩
    | verify err =>
      simp only
      split
      · refine ⟨(sound_countRead err err s h ha).closingFor j hcl, countRead_lines err s, r, ?_, rfl, rfl⟩
        unfold jobAt; rw [countRead_jobs]; exact e
      · exact ⟨same, {}, r, e, rfl, rfl⟩

/-- R16: retirement of a job that is not FINISHED keeps the laws, but that its line is left without a job. -/
theorem sound_retire {ex' : Option (Fin 4)} (j : Fin 16) (o : JobOutcome) (c : Cause) (r : Job) (s : State)
    (h : Sound own ex cl s) (hcl : ∀ i, i ≠ j → cl.closing ≠ some i ∧ cl.ending ≠ some i) (e : jobAt s j = some r)
    (hne : r.output ≠ .finished)
    (hex : ∀ l, ex' ≠ some l → ex ≠ some l ∧ ¬ (r.output = .current ∧ l = r.line)) :
    (∃ own', Sound own' ex' .nobody (retire j o c s)) ∧
      (∀ l, engineAt (retire j o c s) l =
        if r.output = .current ∧ l = r.line then { engineAt s l with current := none } else engineAt s l) ∧
      (∀ l, unitPhase (retire j o c s) l = unitPhase s l) ∧
      ((retire j o c s).spool.access = none ∨ (retire j o c s).spool.access = s.spool.access) := by
  obtain ⟨h1, k, r', e', ho, hl⟩ := sound_endAccessOf j r s h (fun i hi => (hcl i hi).1) e
  unfold retire
  simp only
  rw [e']
  simp only
  have hown : chainOf (endAccessOf j s) r' = own j := (h1.chain j r' e').eq
  obtain ⟨r2, hr⟩ := RetiredTo.of_retireNow (j := j) (r := r') hown o c
  have hk : ∀ l, engineAt (endAccessOf j s) l = engineAt s l := fun l => by unfold engineAt; rw [k.engines]
  refine ⟨⟨_, h1.retired e' (ho ▸ hne) (endAccessOf_ended j s) hr (fun i hi => ⟨fun _ => by simp [Ne.symm hi], fun _ => (hcl i hi).2⟩)
    (fun l hn => ?_)⟩,
    fun l => ?_, fun l => ?_, ?_⟩
  · rw [ho, hl]; exact hex l hn
  · rw [hr.engines, ho, hl, hk]
  · rw [hr.phases, k.phases]
  · rw [hr.access]; exact k.access

end Sys2Proof.Machine
end

