-- ==== Sys2Proof/Laws/KeptDrain.lean ====
section
/-! SUPPORT. The Drain Engines keep the laws: the take, copies, passing and releasing blocks, pausing and resuming, the ends of
bytes and of fetches. -/

namespace Sys2Proof.Machine

-- One after another: side by side the proofs would each wait in a thread of their own.
set_option Elab.async false

variable {own : Fin 16 → List (Fin 128)} {ex : Option (Fin 4)} {cl : Spare}

/-- A state keeps the laws with the exceptions named. -/
def Sounds (ex : Option (Fin 4)) (cl : Spare) (s : State) : Prop := ∃ own, Sound own ex cl s

/-- A job's chain changes, and the Free List and the links with it. -/
theorem Sound.rechain {s t : State} (h : Sound own ex cl s) {j : Fin 16} {r r' : Job} {bs : List (Fin 128)}
    (e : jobAt s j = some r) (hj : ∀ k, jobAt t k = if k = j then some r' else jobAt s k) (hne : r.output ≠ .finished)
    (hs : r'.line = r.line ∧ r'.output = r.output ∧ r'.urgent = r.urgent ∧ r'.intake = r.intake)
    (hfifo : t.intake.fifo = s.intake.fifo) (htarget : t.intake.target = s.intake.target)
    (hrec : t.completion = s.completion) (hready : t.window.ready = s.window.ready)
    (hq : t.queues = s.queues) (he : t.engines = s.engines) (hp : ∀ l, unitPhase t l = unitPhase s l)
    (hdrain : ∀ l err, t.spool.access = some (.drain l err) → s.spool.access = some (.drain l err))
    (hstore : ∀ i, i ≠ j → storingFor s i = true → storingFor t i = true)
    (hlinks : ∀ i, i ≠ j → ∀ b, b ∈ own i → linkAt t b = linkAt s b)
    (hch : ChainOk t j r' bs) (hcur : CursorOk r' bs) (hgo : cl.ending ≠ some j → Going r' bs)
    (hfet : ∀ l f p, (engineAt s l).current = some j → (engineAt s l).fetched = some f → f.pos = some p → ReadsAt r (own j) p → ReadsAt r' bs p)
    (hblocks : ∀ b, t.spool.freeList.count b + bs.count b = s.spool.freeList.count b + (own j).count b)
    (hfree : ∀ b, b ∈ t.spool.freeList → linkAt t b = none)
    (hacc : ∀ c, t.spool.access = some (.intake c) → t.intake.headReq = .granted ∧
      ∃ e es, t.intake.fifo = e :: es ∧ ∀ r, jobAt t e.1 = some r → r.tailFill < 256) :
    Sound (Function.update own j bs) ex cl t := by
  obtain ⟨h1, h2, h3, h4⟩ := hs
  have hother : ∀ i, i ≠ j → jobAt t i = jobAt s i := fun i hi => by rw [hj, if_neg hi]
  have hself : jobAt t j = some r' := by rw [hj, if_pos rfl]
  have hE : ∀ l, engineAt t l = engineAt s l := fun l => by unfold engineAt; rw [he]
  have hentry : ∀ i, hasEntry t i = hasEntry s i := fun i => by unfold hasEntry; rw [hfifo]
  exact
  { fifoLen := by rw [hfifo]; exact h.fifoLen
    fifo := fun a ha => by
      obtain ⟨q, c1, c2⟩ := h.fifo a (hfifo ▸ ha)
      by_cases haj : a.1 = j
      · rw [haj, e] at c1; cases c1; exact ⟨r', by rw [haj]; exact hself, h4 ▸ c2⟩
      · exact ⟨q, by rw [hother _ haj]; exact c1, c2⟩
    target := fun i hi => by
      obtain ⟨q, c1, c2⟩ := h.target i (htarget ▸ hi)
      by_cases hij : i = j
      · subst hij; rw [e] at c1; cases c1; exact ⟨r', hself, h4.trans c2⟩
      · exact ⟨q, by rw [hother _ hij]; exact c1, c2⟩
    closing := fun i q hi hc hn => by
      rw [hentry]
      by_cases hij : i = j
      · subst hij; rw [hself] at hi; cases hi; exact h.closing i r e (h4 ▸ hc) hn
      · rw [hother _ hij] at hi; exact h.closing i q hi hc hn
    queue := fun l u i => by
      have c := h.queue l u i
      have : queueEntries t l u = queueEntries s l u := by unfold queueEntries queueAt; rw [hq]
      rw [this, c]
      by_cases hij : i = j
      · subst hij; rw [hself, e]; simp only [h1, h2, h3]
      · rw [hother _ hij]
    current := fun l i => by
      rw [hE, h.current l i]
      by_cases hij : i = j
      · subst hij; rw [hself, e]
        constructor
        · rintro ⟨q, c1, c2, c3⟩; cases c1; exact ⟨r', rfl, h2.trans c2, h1.trans c3⟩
        · rintro ⟨q, c1, c2, c3⟩; cases c1; exact ⟨r, rfl, h2.symm.trans c2, h1.symm.trans c3⟩
      · rw [hother _ hij]
    finished := fun i q hi ho => by
      by_cases hij : i = j
      · subst hij; rw [hself] at hi; cases hi; exact absurd (h2.symm.trans ho) hne
      · rw [hother _ hij] at hi; rw [Function.update_of_ne hij]; exact h.finished i q hi ho
    recordsLen := by rw [hrec]; exact h.recordsLen
    waiting := by rw [hrec]; exact h.waiting
    records := fun i => by
      rw [hrec]
      have c := h.records i
      by_cases hij : i = j
      · subst hij; rw [hself]; rw [e] at c; simpa [h2, hne] using c
      · rw [hother _ hij]; exact c
    freeSlot := fun i hi => by
      by_cases hij : i = j
      · subst hij; rw [hself] at hi; cases hi
      · rw [Function.update_of_ne hij]; exact h.freeSlot i (hother i hij ▸ hi)
    chain := fun i q hi => by
      by_cases hij : i = j
      · subst hij; rw [hself] at hi; cases hi; rw [Function.update_self]; exact hch
      · rw [hother _ hij] at hi
        rw [Function.update_of_ne hij]
        have c := h.chain i q hi
        exact
          { head := c.head
            last := c.last
            length := c.length
            linked := c.linked.congr (fun b hb => hlinks i hij b hb)
            fill := c.fill
            empty := c.empty
            byte := fun n => (c.byte n).imp id (hstore i hij) }
    cursor := fun i q hi ho => by
      by_cases hij : i = j
      · subst hij; rw [hself] at hi; cases hi; rw [Function.update_self]; exact hcur
      · rw [hother _ hij] at hi; rw [Function.update_of_ne hij]; exact h.cursor i q hi ho
    going := fun i q hi ho hn => by
      by_cases hij : i = j
      · subst hij; rw [hself] at hi; cases hi; rw [Function.update_self]; exact hgo hn
      · rw [hother _ hij] at hi; rw [Function.update_of_ne hij]; exact h.going i q hi ho hn
    blocks := fun hr b => by
      have c1 := h.blocks (hready ▸ hr) b
      have c2 := sum_count_update own j bs b
      have c3 := hblocks b
      omega
    freeLinks := hfree
    emptySlots := fun hr => by have := h.ready e; rw [hready, this] at hr; cases hr
    line := fun l hl => by
      rw [hE, hp]
      have c := h.line l hl
      exact { c with fetch := fun err ha => c.fetch err (hdrain l err ha) }
    fetched := fun l i q f p c1 c2 c3 c4 => by
      rw [hE] at c1 c3
      by_cases hij : i = j
      · subst hij; rw [hself] at c2; cases c2; rw [Function.update_self]
        exact hfet l f p c1 c3 c4 (h.fetched l i r f p c1 e c3 c4)
      · rw [hother _ hij] at c2; rw [Function.update_of_ne hij]; exact h.fetched l i q f p c1 c2 c3 c4
    access := hacc }

/-! The take. -/

/-- R73: an IDLE line takes a job that is QUEUED on it. -/
theorem sound_takeJob (l : Fin 4) (j : Fin 16) (r : Job) (s : State) (h : Sound own none .nobody s)
    (hi : (engineAt s l).state = .idle) (e : jobAt s j = some r) (ho : r.output = .queued) (hl : r.line = l) :
    Sound own none .nobody (takeJob l j s) := by
  have hk := h.line l (by simp)
  have hcur := hk.engine.noJob (Or.inr hi)
  obtain ⟨q1, q2, q3⟩ := hk.engine.rests (by rw [hi]; simp)
  unfold takeJob
  rw [e]
  simp only
  have hne : r.output ≠ .finished := by rw [ho]; simp
  have eng : ∀ k, engineAt (setEngine l { engineAt (setJob j { r with output := .current } (leaveQueue l j s)) l with
      state := .sending, current := some j, step := .boundary } (setJob j { r with output := .current } (leaveQueue l j s))) k =
      if k = l then { engineAt s l with state := .sending, current := some j, step := .boundary } else engineAt s k := fun k => by
    rw [engineAt_setEngine]; rfl
  refine h.job (r' := { r with output := .current }) e (fun k => ?_) {} (Or.inl rfl) (fun _ _ => ⟨id, id⟩) (fun n _ => h.closing j r e n (by simp [Spare.nobody])) rfl rfl
    (by simp [hne]) (by simp) ((h.chain j r e).same rfl rfl rfl rfl) (fun _ => ?_)
    (fun _ _ => h.going j r e hne (by simp [Spare.nobody])) (fun k u i => ?_) (fun k i => ?_) (fun k _ => ?_)
    (fun k i q f p c1 c2 c3 c4 => ?_)
  · rw [jobAt_setEngine, jobAt_setJob]; rfl
  · have c := h.cursor j r e hne
    exact ⟨c.copies, c.start, c.stands, c.whole⟩
  · rw [jobAt_setEngine, jobAt_setJob]
    have hq := h.queue k u i
    have hqe : queueEntries (setEngine l { engineAt (setJob j { r with output := .current } (leaveQueue l j s)) l with
        state := .sending, current := some j, step := .boundary } (setJob j { r with output := .current } (leaveQueue l j s))) k u =
        if k = l then (queueEntries s k u).filter (· ≠ j) else queueEntries s k u := by
      unfold queueEntries
      rw [queueAt_setEngine, queueAt_setJob]
      unfold leaveQueue
      rw [queueAt_setQueue]
      by_cases hkl : k = l
      · subst hkl; cases u <;> simp
      · simp [hkl]
    rw [hqe]
    by_cases hij : i = j
    · subst hij
      rw [if_pos rfl]
      simp only [reduceCtorEq, false_and, if_false]
      split
      · rw [count_filter_ne, if_pos rfl]
      · rename_i hkl
        rw [hq, e]
        simp only
        rw [if_neg]
        rintro ⟨_, h2, _⟩
        exact hkl (h2.symm.trans hl)
    · rw [if_neg hij, jobAt_leaveQueue, ← hq]
      split
      · rw [count_filter_ne, if_neg hij]
      · rfl
  · rw [jobAt_setEngine, jobAt_setJob, eng]
    have hc := h.current k i
    by_cases hkl : k = l
    · subst hkl
      rw [if_pos rfl]
      by_cases hij : i = j
      · subst hij; rw [if_pos rfl]; simp [hl]
      · rw [if_neg hij, jobAt_leaveQueue, ← hc, hcur]
        simp [Ne.symm hij]
    · rw [if_neg hkl, hc]
      by_cases hij : i = j
      · subst hij
        rw [if_pos rfl, e]
        constructor
        · rintro ⟨q, c1, c2, c3⟩; cases c1; rw [ho] at c2; cases c2
        · rintro ⟨q, c1, c2, c3⟩; cases c1; exact absurd (c3.symm.trans hl) hkl
      · rw [if_neg hij, jobAt_leaveQueue]
  · rw [eng]
    by_cases hkl : k = l
    · subst hkl
      rw [if_pos rfl]
      have hw : unitPhase s k ≠ .waiting := fun n => by have := hk.waits.1 n; rw [q1] at this; cases this
      have hf : unitPhase s k ≠ .inFlight := fun n => by have := hk.flies.1 n; rw [q1] at this; cases this
      exact
        { engine :=
            { cause := by simpa [hi] using hk.engine.cause
              hasJob := fun _ => by simp
              noJob := by simp
              rests := by simp
              starve := fun _ => hk.engine.starve (by rw [hi]; simp)
              hold := fun _ => q3
              bound := fun _ => q2
              holds := by simp }
          waits := by
            constructor
            · exact fun n => absurd n hw
            · simp
          flies := by
            constructor
            · exact fun n => absurd n hf
            · simp
          fetch := fun err ha => by have := (hk.fetch err ha).1; rw [hi] at this; cases this }
    · rw [if_neg hkl]; exact h.line k (by simp)
  · rw [eng] at c1 c3
    by_cases hkl : k = l
    · subst hkl
      rw [if_pos rfl] at c3
      rw [q2] at c3; cases c3
    · rw [if_neg hkl] at c1 c3
      rw [jobAt_setEngine, jobAt_setJob] at c2
      by_cases hij : i = j
      · subst hij
        obtain ⟨q', d1, d2, d3⟩ := (h.current k i).1 c1
        rw [e] at d1; cases d1; rw [ho] at d2; cases d2
      · rw [if_neg hij] at c2; exact h.fetched k i q f p c1 c2 c3 c4

/-- R66, R71: the job a line would take is QUEUED on it. -/
theorem Sound.eligible {s : State} (h : Sound own ex cl s) {l : Fin 4} {j : Fin 16} (he : Machine.eligible s l = some j) :
    ∃ r, jobAt s j = some r ∧ r.output = .queued ∧ r.line = l := by
  have key : ∀ u, j ∈ queueEntries s l u → ∃ r, jobAt s j = some r ∧ r.output = .queued ∧ r.line = l := fun u hm => by
    have hq := h.queue l u j
    have hp : 0 < (queueEntries s l u).count j := List.count_pos_iff.2 hm
    cases hj : jobAt s j with
    | none => rw [hj] at hq; simp only at hq; omega
    | some r =>
      rw [hj] at hq
      simp only at hq
      by_cases hc : r.output = .queued ∧ r.line = l ∧ r.urgent = u
      · exact ⟨r, rfl, hc.1, hc.2.1⟩
      · rw [if_neg hc] at hq; omega
  unfold Machine.eligible at he
  simp only at he
  split at he
  · rename_i i hi
    cases he
    exact key true (List.mem_of_find?_eq_some hi)
  · exact key false (List.mem_of_find?_eq_some he)

/-! The end of a copy. -/

/-- A line whose byte cycle rests, whatever its state. -/
structure Quiet (l : Fin 4) (s : State) : Prop where
  step : (engineAt s l).step = .boundary
  fetched : (engineAt s l).fetched = none
  hold : (engineAt s l).hold = none
  starve : (engineAt s l).starve = none
  phase : unitPhase s l ≠ .waiting ∧ unitPhase s l ≠ .inFlight
  access : ∀ err, s.spool.access ≠ some (.drain l err)

theorem AtBoundary.quiet {l : Fin 4} {s : State} (h : AtBoundary l s) : Quiet l s where
  step := h.step
  fetched := h.fetched
  hold := h.hold
  starve := h.send.starve
  phase := h.phase
  access := h.access

/-- A line whose byte cycle rests keeps its law in a state that is not SENDING. -/
theorem Quiet.line {l : Fin 4} {s : State} (h : Quiet l s) (st : LineState) (c : Option (Fin 16)) (o : Cause) (stop : Bool)
    (hs : st ≠ .sending) (ho : o = .none ↔ st ≠ .fault) (h1 : st = .starved ∨ st = .paused → c ≠ none)
    (h2 : st = .off ∨ st = .idle → c = none) {acc : Option Access} (ha : ∀ err, acc ≠ some (.drain l err)) :
    LineOk l { engineAt s l with state := st, current := c, cause := o, stop := stop } (unitPhase s l) acc where
  engine :=
    { cause := ho
      hasJob := fun k => by
        rcases k with k | k | k
        · exact absurd k hs
        · exact h1 (Or.inl k)
        · exact h1 (Or.inr k)
      noJob := h2
      rests := fun _ => ⟨h.step, h.fetched, h.hold⟩
      starve := fun _ => h.starve
      hold := fun _ => h.hold
      bound := fun _ => h.fetched
      holds := by simp [h.step] }
  waits := by simp [h.phase.1, h.step]
  flies := by simp [h.phase.2, h.step]
  fetch := fun err k => absurd k (ha err)

theorem Sound.unfinished {s : State} (h : Sound own ex cl s) {l : Fin 4} {j : Fin 16} {r : Job}
    (hc : (engineAt s l).current = some j) (e : jobAt s j = some r) : r.output = .current ∧ r.line = l := by
  obtain ⟨q, c1, c2, c3⟩ := (h.current l j).1 hc
  rw [e] at c1; cases c1; exact ⟨c2, c3⟩

/-- A line without a fetched byte holds none of its current job's. -/
theorem Sound.noFetch {s : State} (h : Sound own ex cl s) {l : Fin 4} {j : Fin 16} (hc : (engineAt s l).current = some j)
    (hf : (engineAt s l).fetched = none) (k : Fin 4) (hk : (engineAt s k).current = some j) (f : Fetched)
    (hkf : (engineAt s k).fetched = some f) : False := by
  obtain ⟨r, e, _, h1⟩ := (h.current l j).1 hc
  obtain ⟨r', e', _, h2⟩ := (h.current k j).1 hk
  rw [e] at e'; cases e'
  have : k = l := h2.symm.trans h1
  subst this
  rw [hf] at hkf; cases hkf

/-- R85, R97: the engine goes back to the start of the chain, with a number of copies done. -/
theorem sound_toStart (l : Fin 4) (j : Fin 16) (r r0 : Job) (n : Nat) (s : State) (h : Sound own ex .nobody s)
    (hf : (engineAt s l).fetched = none) (hc : (engineAt s l).current = some j) (e : jobAt s j = some r0) (k : SameRecord r0 r)
    (hrel : r.anyReleased = false) (hm : n < r.copies) :
    Sound own ex .nobody (setJob j { r with copiesDone := n, cursor := chainStart r, copyPos := 0 } s) := by
  obtain ⟨ho, hl⟩ := h.unfinished hc e
  have hne : r0.output ≠ .finished := by rw [ho]; simp
  have hk := (h.cursor j r0 e hne).same k
  have hch := h.chain j r0 e
  refine h.setJob e ⟨k.line, k.output, k.urgent, k.posted, k.tailFill⟩ (Or.inl k.intake) (fun _ _ => ⟨id, id⟩)
    (fun n _ => h.closing j r0 e (k.intake ▸ n) (by simp [Spare.nobody])) (fun n => absurd n hne)
    (hch.same k.head k.tail k.chainLen k.tailFill) (fun _ => ?_)
    (fun _ _ => ⟨hm, fun n => absurd (hrel.symm.trans n) (by simp), fun _ _ c hcc => ?_⟩) (fun l' f p c1 c2 => ?_)
  · exact
      { copies := Nat.le_of_lt hm
        start := fun hb => by
          obtain ⟨_, _, d3, d4⟩ := hk.start hb
          refine ⟨?_, rfl, d3, d4⟩
          have := hch.empty_iff.2.1.1 hb
          unfold chainStart
          rw [k.head, this]; rfl
        stands := fun hb => by
          obtain ⟨b, bs, hbs⟩ := List.exists_cons_of_ne_nil hb
          have hhead : r.head = some b := by rw [k.head, ← hch.head, hbs]; rfl
          refine ⟨{ block := b, off := 0 }, 0, ?_, ?_, by simp, Nat.zero_le _, ?_⟩
          · simp [chainStart, hhead]
          · rw [hbs]; rfl
          · have := hk.whole hrel hb
            simp only [chainBytes] at this ⊢; omega
        whole := fun n hb => hk.whole n hb }
  · rw [hch.head, ← k.head]
    simp only [chainStart] at hcc
    cases hh : r.head with
    | none => rw [hh] at hcc; cases hcc
    | some b => rw [hh] at hcc; cases hcc; rfl
  · exact (h.noFetch hc hf l' c1 f c2).elim

/-- R85: the copy just ended is followed by another: the engine rewinds. -/
theorem sound_rewind (l : Fin 4) (j : Fin 16) (r r0 : Job) (s : State) (h : Sound own ex .nobody s)
    (hf : (engineAt s l).fetched = none) (hc : (engineAt s l).current = some j) (e : jobAt s j = some r0) (k : SameRecord r0 r)
    (hm : r.copiesDone + 1 < r.copies) :
    Sound own ex .nobody (setJob j { r with copiesDone := r.copiesDone + 1, cursor := chainStart r, copyPos := 0 } s) := by
  have hg := h.going j r0 e (by rw [(h.unfinished hc e).1]; simp) (by simp [Spare.nobody])
  refine sound_toStart l j r r0 _ s h hf hc e k ?_ hm
  by_contra hn
  have := hg.2.1 (by rw [← k.anyReleased]; simpa using hn)
  rw [← k.copies, ← k.copiesDone] at this
  omega

/-- The copies done count one more: the job is about to retire. -/
theorem sound_countCopy (l : Fin 4) (j : Fin 16) (r r0 : Job) (s : State) (h : Sound own ex .nobody s)
    (hf : (engineAt s l).fetched = none) (hc : (engineAt s l).current = some j) (e : jobAt s j = some r0) (k : SameRecord r0 r) :
    Sound own ex { ending := some j } (setJob j { r with copiesDone := r.copiesDone + 1 } s) := by
  obtain ⟨ho, _⟩ := h.unfinished hc e
  have hne : r0.output ≠ .finished := by rw [ho]; simp
  have hk := (h.cursor j r0 e hne).same k
  have hgo := (h.going j r0 e hne (by simp [Spare.nobody])).1
  rw [← k.copies, ← k.copiesDone] at hgo
  refine h.setJob e ⟨k.line, k.output, k.urgent, k.posted, k.tailFill⟩ (Or.inl k.intake)
    (fun i hi => ⟨fun _ => by simp [Spare.nobody], fun _ => by simp [Spare.nobody]⟩)
    (fun n _ => h.closing j r0 e (k.intake ▸ n) (by simp [Spare.nobody])) (fun n => absurd n hne)
    ((h.chain j r0 e).same k.head k.tail k.chainLen k.tailFill) (fun _ => ?_) (fun _ n => absurd rfl n)
    (fun l' f p c1 c2 => (h.noFetch hc hf l' c1 f c2).elim)
  exact
    { copies := hgo
      start := hk.start
      stands := fun hb => by
        obtain ⟨c, i, d1, d2, d3, d4, d5⟩ := hk.stands hb
        exact ⟨c, i, d1, d2, d3, d4, d5⟩
      whole := hk.whole }

/-- R16: a line's job retires and the line, whose byte cycle rests, takes a state without a job. -/
theorem sounds_retireLine (l : Fin 4) (j : Fin 16) (o : JobOutcome) (oc : Cause) (st : LineState) (c : Cause) (r : Job)
    (s : State) (h : Sound own ex cl s) (hcl : ∀ i, i ≠ j → cl.closing ≠ some i ∧ cl.ending ≠ some i) (hx : OnlyEx ex l)
    (q : Quiet l s) (hc : (engineAt s l).current = some j) (e : jobAt s j = some r)
    (hst : st = .idle ∧ c = .none ∨ st = .fault ∧ c ≠ .none) :
    Sounds none .nobody (setEngine l { engineAt (retire j o oc s) l with state := st, cause := c } (retire j o oc s)) := by
  obtain ⟨ho, hl⟩ := h.unfinished hc e
  obtain ⟨⟨own', h2⟩, f1, f2, f3⟩ := sound_retire (ex' := some l) j o oc r s h hcl e (by rw [ho]; simp)
    (fun i hi => ⟨hx i (fun hil => hi (by rw [hil])), fun hn => hi (by rw [hn.2, hl])⟩)
  refine ⟨own', h2.setEngine l _ rfl (fun i hi _ => by simp [Ne.symm hi]) (fun _ => ?_) (FetchedOk.none ?_)⟩
  · have hE := f1 l
    rw [if_pos ⟨ho, hl.symm⟩] at hE
    rw [hE, f2]
    exact
      { engine :=
          { cause := by rcases hst with ⟨h1, h2⟩ | ⟨h1, h2⟩ <;> simp [h1, h2]
            hasJob := by rcases hst with ⟨h1, _⟩ | ⟨h1, _⟩ <;> simp [h1]
            noJob := fun _ => rfl
            rests := fun _ => ⟨q.step, q.fetched, q.hold⟩
            starve := fun _ => q.starve
            hold := fun _ => q.hold
            bound := fun _ => q.fetched
            holds := by simp [q.step] }
        waits := by simp [q.phase.1, q.step]
        flies := by simp [q.phase.2, q.step]
        fetch := fun err ha => by
          rcases f3 with f3 | f3
          · rw [f3] at ha; cases ha
          · rw [f3] at ha; exact absurd ha (q.access err) }
  · rw [f1, if_pos ⟨ho, hl.symm⟩]; exact q.fetched

theorem engineAt_retire_none {s : State} (h : Sound own ex cl s) {l : Fin 4} {j : Fin 16} {r : Job} (o : JobOutcome) (oc : Cause)
    (hcl : ∀ i, i ≠ j → cl.closing ≠ some i ∧ cl.ending ≠ some i) (hc : (engineAt s l).current = some j)
    (e : jobAt s j = some r) (hx : OnlyEx ex l) :
    engineAt (retire j o oc s) l = { engineAt s l with current := none } := by
  obtain ⟨ho, hl⟩ := h.unfinished hc e
  obtain ⟨_, f1, _, _⟩ := sound_retire (ex' := some l) j o oc r s h hcl e (by rw [ho]; simp)
    (fun i hi => ⟨hx i (fun hil => hi (by rw [hil])), fun hn => hi (by rw [hn.2, hl])⟩)
  rw [f1, if_pos ⟨ho, hl.symm⟩]

/-- R85: the last copy is done: the job retires and the line becomes IDLE. -/
theorem sound_lastCopy (l : Fin 4) (j : Fin 16) (r r0 : Job) (s : State) (h : Sound own ex .nobody s) (hx : OnlyEx ex l)
    (q : Quiet l s) (hcause : (engineAt s l).cause = .none) (hc : (engineAt s l).current = some j) (e : jobAt s j = some r0)
    (k : SameRecord r0 r) (hm : ¬ r.copiesDone + 1 < r.copies) : Sounds none .nobody (completeCopy l j r s) := by
  have h1 := sound_countCopy l j r r0 s h q.fetched hc e k
  have hcl : ∀ i, i ≠ j → (none : Option (Fin 16)) ≠ some i ∧ some j ≠ some i := fun i hi => ⟨by simp, by simp [Ne.symm hi]⟩
  have hself : jobAt (setJob j { r with copiesDone := r.copiesDone + 1 } s) j =
      some { r with copiesDone := r.copiesDone + 1 } := by rw [jobAt_setJob, if_pos rfl]
  have q1 : Quiet l (setJob j { r with copiesDone := r.copiesDone + 1 } s) :=
    ⟨q.step, q.fetched, q.hold, q.starve, q.phase, q.access⟩
  have hE := engineAt_retire_none (l := l) h1 .complete .none hcl hc hself hx
  have hm' : completeCopy l j r s = setEngine l
      { engineAt (retire j .complete .none (setJob j { r with copiesDone := r.copiesDone + 1 } s)) l with
        state := .idle, cause := .none }
      (retire j .complete .none (setJob j { r with copiesDone := r.copiesDone + 1 } s)) := by
    unfold completeCopy
    simp only [if_neg hm, hE, engineAt_setJob, hcause]
  rw [hm']
  exact sounds_retireLine l j .complete .none .idle .none _ _ h1 hcl hx q1 hc hself (Or.inl ⟨rfl, rfl⟩)

/-! The byte boundary. -/

theorem sounds_runLine (n : Nat) (l : Fin 4) (s : State) (h : Sounds none .nobody s) : Sounds none .nobody (runLine n l s) := by
  induction n generalizing s with
  | zero => exact h
  | succ n ih =>
    obtain ⟨own, h⟩ := h
    unfold runLine
    split
    · rename_i hi
      split
      · exact ⟨own, h⟩
      · split
        · exact ⟨own, h⟩
        · rename_i j hj
          obtain ⟨r, e, ho, hl⟩ := h.eligible hj
          exact ih _ ⟨own, sound_takeJob l j r s h hi e ho hl⟩
    · rename_i hs
      split
      · exact ⟨own, h⟩
      · rename_i hb
        have hb : (engineAt s l).step = .boundary := Classical.not_not.mp hb
        have at' := h.atBoundary hs hb
        split
        · exact ⟨own, h⟩
        · rename_i j r hc
          have e := currentJob_jobAt hc
          have hcur : (engineAt s l).current = some j := by
            unfold currentJob at hc
            split at hc
            · cases hc
            · rename_i k hk
              cases hjk : jobAt s k with
              | none => rw [hjk] at hc; cases hc
              | some q => rw [hjk] at hc; cases hc; exact hk
          split
          · split
            · have h1 := h.setJob_same (r' := { r with sepPending := true }) e {}
              exact ⟨own, sound_afterCopyEnd l _ _ h1 (h1.atBoundary hs hb)⟩
            · apply ih
              by_cases hm : r.copiesDone + 1 < r.copies
              · unfold completeCopy
                rw [if_pos hm]
                exact ⟨own, sound_rewind l j r r s h at'.fetched hcur e {} hm⟩
              · exact sound_lastCopy l j r r s h (onlyEx_none l) at'.quiet at'.send.cause hcur e {} hm
          · exact ⟨own, sound_afterCopyEnd l r s h at'⟩
    all_goals exact ⟨own, h⟩

theorem sounds_decideLine (l : Fin 4) (s : State) (h : Sounds none .nobody s) : Sounds none .nobody (decideLine l s) :=
  sounds_runLine _ l s h

theorem currentJob_current {s : State} {l : Fin 4} {j : Fin 16} {r : Job} (h : currentJob s l = some (j, r)) :
    (engineAt s l).current = some j := by
  unfold currentJob at h
  split at h
  · cases h
  · rename_i k hk
    cases hj : jobAt s k with
    | none => rw [hj] at h; cases h
    | some q => rw [hj] at h; cases h; exact hk

/-! Passing a byte. -/

theorem Linked.next {f : Fin 128 → Option (Fin 128)} {bs : List (Fin 128)} (h : Linked f bs) {i : Nat} {b : Fin 128}
    (hb : bs[i]? = some b) : f b = bs[i + 1]? := by
  induction bs generalizing i with
  | nil => simp at hb
  | cons a bs ih =>
    cases bs with
    | nil =>
      cases i with
      | zero => simp at hb; subst hb; simpa [Linked] using h
      | succ i => simp at hb
    | cons c bs =>
      cases i with
      | zero => simp at hb; subst hb; simpa using h.1
      | succ i => simpa using ih h.2 (by simpa using hb)

/-- R30, R39: the read of a reader that is not at the stored end is that of the byte at the cursor. -/
theorem Sound.readsAt {s : State} (h : Sound own ex cl s) {j : Fin 16} {r : Job} (e : jobAt s j = some r)
    (hne : r.output ≠ .finished) {p : Pos} (hs : atStoredEnd s r r.cursor = false) (hp : readPos s r.cursor = some p) :
    ReadsAt r (own j) p := by
  have hch := h.chain j r e
  have hcu := h.cursor j r e hne
  unfold atStoredEnd at hs
  cases ht : r.tail with
  | none => rw [ht] at hs; cases hs
  | some t =>
    rw [ht] at hs
    simp only [Bool.or_eq_false_iff, beq_eq_false_iff_ne, ne_eq] at hs
    have hb : own j ≠ [] := fun n => by rw [hch.empty_iff.2.2.1 n] at ht; cases ht
    obtain ⟨c, i, d1, d2, d3, d4, d5⟩ := hcu.stands hb
    have hlen : i < (own j).length := by
      by_contra hn
      rw [List.getElem?_eq_none (by omega)] at d2; cases d2
    have hl := hch.length
    have hlast : (own j)[(own j).length - 1]? = some t := by
      rw [← List.getLast?_eq_getElem?, hch.last, ht]
    have hfill := hch.fill
    unfold readPos at hp
    rw [d1] at hp hs
    simp only at hp
    by_cases ho : c.off < Config.blockBytes
    · rw [if_pos ho] at hp
      have hcp : p = c := (Option.some.inj hp).symm
      subst hcp
      have ho : p.off < 256 := ho
      refine ⟨i, d2, ho, d5, ?_⟩
      by_cases hi : i = (own j).length - 1
      · have hbt : p.block = t := by rw [hi, hlast] at d2; cases d2; rfl
        have hoff : p.off ≠ r.tailFill := fun n => hs.1 (by rw [← hbt, ← n])
        have : chainBytes r = 256 * i + r.tailFill := by
          unfold chainBytes; rw [← hl, hi]; rfl
        omega
      · have : chainBytes r ≥ 256 * (i + 1) := by
          unfold chainBytes; rw [← hl]; simp only [Config.blockBytes]; omega
        omega
    · rw [if_neg ho] at hp
      have hnext := hch.linked.next d2
      cases hlk : linkAt s c.block with
      | none => rw [hlk] at hp; cases hp
      | some b =>
        rw [hlk] at hp hnext
        cases hp
        have ho : c.off = 256 := by simp only [Config.blockBytes] at ho; omega
        refine ⟨i + 1, hnext.symm, by simp, by simp only; omega, ?_⟩
        have hlen2 : i + 1 < (own j).length := by
          by_contra hn
          rw [List.getElem?_eq_none (by omega)] at hnext; cases hnext
        by_cases hi : i + 1 = (own j).length - 1
        · have hbt : b = t := by rw [hi, hlast] at hnext; cases hnext; rfl
          have hr : readPos s (some c) = some { block := b, off := 0 } := by
            unfold readPos
            simp only
            rw [if_neg (by simp only [Config.blockBytes]; omega), hlk]; rfl
          have hf : r.tailFill ≠ 0 := fun n => hs.2 (by rw [hr, hbt, n])
          have : chainBytes r = 256 * (i + 1) + r.tailFill := by
            unfold chainBytes; rw [← hl, hi]; rfl
          omega
        · have : chainBytes r ≥ 256 * (i + 2) := by
            unfold chainBytes; rw [← hl]; simp only [Config.blockBytes]; omega
          omega

theorem sound_scanStep (s : State) (h : Sound own ex cl s) : Sound own ex cl (scanStep s) := by
  unfold scanStep
  split
  · exact h
  · split
    · exact h
    · split
      · exact h.same
      · rename_i r _
        generalize (if s.verify.moved then { s.verify with pos := chainStart r, moved := false } else s.verify) = v
        simp only
        split
        · exact h.same
        · exact h.same

theorem scanStep_lines (s : State) : (scanStep s).engines = s.engines ∧ (∀ l, unitPhase (scanStep s) l = unitPhase s l) ∧
    (scanStep s).spool = s.spool := by
  unfold scanStep
  split
  · exact ⟨rfl, fun _ => rfl, rfl⟩
  · split
    · exact ⟨rfl, fun _ => rfl, rfl⟩
    · split
      · exact ⟨rfl, fun _ => rfl, rfl⟩
      · rename_i r _
        generalize (if s.verify.moved then { s.verify with pos := chainStart r, moved := false } else s.verify) = v
        simp only
        split <;> exact ⟨rfl, fun _ => rfl, rfl⟩

/-- A pass leaves the lines as they were. -/
theorem passByte_lines (j : Fin 16) (r : Job) (p : Pos) (s : State) : (passByte j r p s).engines = s.engines ∧
    (∀ l, unitPhase (passByte j r p s) l = unitPhase s l) ∧ (passByte j r p s).spool.access = s.spool.access := by
  unfold passByte
  simp only
  split
  · exact ⟨rfl, fun _ => rfl, rfl⟩
  · split
    · unfold drainRelease
      simp only
      split
      · obtain ⟨a, b, c⟩ := scanStep_lines _
        exact ⟨a.trans rfl, fun l => (b l).trans rfl, by rw [c]; rfl⟩
      · exact ⟨rfl, fun _ => rfl, rfl⟩
    · exact ⟨rfl, fun _ => rfl, rfl⟩

/-- R35, R84: the byte at the cursor is passed. -/
theorem sounds_passByte (l : Fin 4) (j : Fin 16) (r r0 : Job) (p : Pos) (s : State) (h : Sound own ex .nobody s)
    (hf : (engineAt s l).fetched = none) (hc : (engineAt s l).current = some j) (e : jobAt s j = some r0)
    (k : SameRecord r0 r) (hr : ReadsAt r0 (own j) p) : Sounds ex .nobody (passByte j r p s) := by
  obtain ⟨ho, _⟩ := h.unfinished hc e
  have hne : r0.output ≠ .finished := by rw [ho]; simp
  have hch0 := h.chain j r0 e
  have hch : ChainOk s j r (own j) := hch0.same k.head k.tail k.chainLen k.tailFill
  have hk := (h.cursor j r0 e hne).same k
  have hg : Going r (own j) := by
    have := h.going j r0 e hne (by simp [Spare.nobody])
    unfold Going at this ⊢
    rw [k.copies, k.copiesDone, k.anyReleased, k.retain, k.cursor]; exact this
  have hr' : ReadsAt r (own j) p := by
    unfold ReadsAt at hr ⊢
    rw [k.copyPos, k.stored, chainBytes_same k.chainLen k.tailFill]; exact hr
  obtain ⟨i, i1, i2, i3, i4⟩ := hr'
  have hb : own j ≠ [] := fun n => by rw [n] at i1; simp at i1
  obtain ⟨c, i0, d1, d2, d3, d4, d5⟩ := hk.stands hb
  obtain ⟨b, bs, hbs⟩ := List.exists_cons_of_ne_nil hb
  have hhead : r.head = some b := by rw [← hch.head, hbs]; rfl
  have hnd := h.nodup (h.ready e) j
  have first : ∀ {x : Fin 128} {n : Nat}, b = x → (own j)[n]? = some x → n = 0 := fun {x n} hx hn => by
    by_contra hn0
    have hl : n < (own j).length := by
      by_contra hn2
      rw [List.getElem?_eq_none (by omega)] at hn; cases hn
    have h0 : (own j)[0]? = some x := by rw [hbs, hx]; rfl
    exact (List.nodup_iff_getElem?_ne_getElem?.1 hnd) 0 n (by omega) hl (h0.trans hn.symm)
  have d6 : r.retain = false → r.copiesDone + 1 = r.copies → i0 = 0 := fun n1 n2 => by
    have := hg.2.2 n1 n2 c d1
    rw [hbs] at this
    exact first (Option.some.inj this) d2
  have same : r.line = r0.line ∧ r.output = r0.output ∧ r.urgent = r0.urgent ∧ r.posted = r0.posted ∧ r.tailFill = r0.tailFill :=
    ⟨k.line, k.output, k.urgent, k.posted, k.tailFill⟩
  -- the pass without a release
  have stay : ¬ (p.off = 0 ∧ r.retain = false ∧ r.copiesDone + 1 = r.copies ∧ b ≠ p.block) →
      Sound own ex .nobody (setJob j { r with copyPos := r.copyPos + 1, cursor := some { block := p.block, off := p.off + 1 } } s) :=
    fun hn => by
      refine h.setJob e same (Or.inl k.intake) (fun _ _ => ⟨id, id⟩)
        (fun n _ => h.closing j r0 e (k.intake ▸ n) (by simp [Spare.nobody])) (fun n => absurd n hne)
        (hch.same rfl rfl rfl rfl) (fun _ => ?_) (fun _ _ => ⟨hg.1, hg.2.1, fun n1 n2 c' hc' => ?_⟩)
        (fun l' f q c1 c2 => (h.noFetch hc hf l' c1 f c2).elim)
      · exact
          { copies := hk.copies
            start := fun n => absurd n hb
            stands := fun _ => by
              refine ⟨_, i, rfl, i1, i2, i4, ?_⟩
              simp only [chainBytes] at i3 ⊢; omega
            whole := fun n m => hk.whole n m }
      · cases hc'
        have h0 := d6 n1 n2
        by_contra hi
        have hbp : b ≠ p.block := fun hbp => hi (by rw [hbs, hbp]; rfl)
        have hp0 : p.off = 0 := by
          have : i ≠ 0 := fun hi0 => hbp (by rw [hi0, hbs] at i1; exact Option.some.inj i1)
          omega
        exact hn ⟨hp0, n1, n2, hbp⟩
  unfold passByte
  simp only
  split
  · rename_i hn; rw [hhead] at hn; cases hn
  rename_i b' hb'
  have : b = b' := by rw [hhead] at hb'; exact Option.some.inj hb'
  subst this
  split
  · rename_i hrel
    simp only [Bool.and_eq_true, decide_eq_true_eq, Bool.not_eq_true'] at hrel
    obtain ⟨⟨⟨z1, z2⟩, z3⟩, z4⟩ := hrel
    -- the byte is the first of the block behind the head
    have h0 := d6 z2 z3
    have hi : i = 1 := by
      have : i ≠ 0 := fun hi => by
        rw [hi, hbs] at i1
        simp at i1
        exact z4 i1
      omega
    subst hi
    obtain ⟨b2, bs2, hbs2⟩ : ∃ b2 bs2, bs = b2 :: bs2 := by
      cases bs with
      | nil => rw [hbs] at i1; simp at i1
      | cons x y => exact ⟨x, y, rfl⟩
    have hpb : p.block = b2 := by rw [hbs, hbs2] at i1; simpa using i1.symm
    have hfull : own j = b :: b2 :: bs2 := by rw [hbs, hbs2]
    rw [hfull] at hnd
    have hbnot : b ∉ b2 :: bs2 := (List.nodup_cons.1 hnd).1
    have hlen : r.chainLen = bs2.length + 2 := by rw [← hch.length, hfull]; simp
    have hready := h.ready e
    unfold drainRelease
    simp only
    generalize hq : ({ r with
      copyPos := r.copyPos + 1
      cursor := some { block := p.block, off := p.off + 1 }
      head := some p.block
      chainLen := r.chainLen - 1
      anyReleased := true } : Job) = q
    have main : Sounds ex .nobody (setJob j q (releaseBlock b (setJob j { r with
        copyPos := r.copyPos + 1, cursor := some { block := p.block, off := p.off + 1 } } s))) := by
      refine ⟨_, h.rechain (r' := q) (bs := b2 :: bs2) e (fun i => ?_) hne ?_ rfl rfl rfl rfl rfl rfl (fun _ => rfl)
        (fun _ _ n => n) (fun _ _ n => n) (fun i hi x hx => ?_) ?_ ?_ (fun _ => ?_)
        (fun l' f q c1 c2 => (h.noFetch hc hf l' c1 f c2).elim) (fun x => ?_) (fun x hx => ?_) (fun c hcc => ?_)⟩
      · rw [jobAt_setJob, jobAt_releaseBlock, jobAt_setJob]
        by_cases hi : i = j <;> simp [hi]
      · rw [← hq]; exact ⟨k.line, k.output, k.urgent, k.intake⟩
      · have : x ≠ b := fun n => h.disjoint hready hi hx (by rw [hfull, n]; simp)
        change linkAt (setLink b none _) x = _
        rw [linkAt_setLink, if_neg this]; rfl
      · rw [← hq]
        have hlk := hch.linked
        rw [hfull] at hlk
        exact
          { head := by rw [hpb]; rfl
            last := by rw [← hch.last, hfull]; simp
            length := by simp only [hlen, List.length_cons]; omega
            linked := hlk.2.congr (fun x hx => by
              have : x ≠ b := fun n => hbnot (n ▸ hx)
              change linkAt (setLink b none _) x = _
              rw [linkAt_setLink, if_neg this]; rfl)
            fill := hch.fill
            empty := by simp
            byte := fun _ => hch.byte hb }
      · rw [← hq]
        exact
          { copies := hk.copies
            start := by simp
            stands := fun _ => by
              refine ⟨_, 0, rfl, by simp [hpb], by simp only; omega, by simp only; omega, ?_⟩
              simp only [chainBytes, hlen, Config.blockBytes] at i3 ⊢
              omega
            whole := by simp }
      · rw [← hq]; exact ⟨hg.1, fun _ => z3, fun _ _ c hcc => by cases hcc; rw [hpb]; rfl⟩
      · change (s.spool.freeList ++ [b]).count x + _ = _
        rw [hfull, List.count_append, List.count_cons (l := b2 :: bs2), List.count_singleton]
        omega
      · change x ∈ s.spool.freeList ++ [b] at hx
        change linkAt (setLink b none _) x = _
        rw [linkAt_setLink]
        split
        · rfl
        · rename_i hxb
          rw [List.mem_append] at hx
          rcases hx with hx | hx
          · exact h.freeLinks x hx
          · exact absurd (List.mem_singleton.1 hx) hxb
      · obtain ⟨g, a, as, ha, hfit⟩ := h.access c hcc
        refine ⟨g, a, as, ha, fun x hx => ?_⟩
        rw [jobAt_setJob, jobAt_releaseBlock, jobAt_setJob] at hx
        by_cases haj : a.1 = j
        · rw [if_pos haj] at hx; cases hx
          rw [← hq]
          exact k.tailFill ▸ hfit r0 (haj ▸ e)
        · rw [if_neg haj, if_neg haj] at hx; exact hfit x hx
    obtain ⟨own', hm⟩ := main
    split
    · exact ⟨own', sound_scanStep _ hm.same⟩
    · exact ⟨own', hm⟩
  · rename_i hrel
    refine ⟨own, stay (fun hn => hrel ?_)⟩
    simp [hn.1, hn.2.1, hn.2.2.1, hn.2.2.2]

end Sys2Proof.Machine
end

