-- ==== Sys2Proof/Laws/KeptBytes.lean ====
section
/-! SUPPORT. The ends of bytes and fetches, pausing and resuming, and the intake path keep the laws. -/

namespace Sys2Proof.Machine

-- One after another: side by side the proofs would each wait in a thread of their own.
set_option Elab.async false

variable {own : Fin 16 → List (Fin 128)} {ex : Option (Fin 4)} {cl : Spare}

theorem Sounds.same {s t : State} (h : Sounds ex cl s) (k : SameJobs s t := by exact {}) (he : t.engines = s.engines := by rfl)
    (hp : ∀ l, unitPhase t l = unitPhase s l := by exact fun _ => rfl) : Sounds ex cl t := by
  obtain ⟨own, h⟩ := h; exact ⟨own, h.same k he hp⟩

theorem sounds_raise (e : Ev) (s : State) (h : Sounds ex cl s) : Sounds ex cl (raise e s) := h.same
theorem sounds_finish (bs : List Byte) (s : State) (h : Sounds ex cl s) : Sounds ex cl (finish bs s) := h.same
theorem sounds_finishCode (c : Code) (s : State) (h : Sounds ex cl s) : Sounds ex cl (finishCode c s) := h.same

/-! Pausing and resuming. -/

/-- A line that rests keeps its law when it is SENDING at a byte boundary. -/
theorem Sound.toBoundary {s : State} (h : Sound own ex cl s) (l : Fin 4) (e : Engine) (hx : OnlyEx ex l)
    (he : SendOk e) (h1 : e.step = .boundary) (h2 : e.fetched = none) (h3 : e.hold = none)
    (hc : e.current = (engineAt s l).current) (hp : unitPhase s l ≠ .waiting ∧ unitPhase s l ≠ .inFlight)
    (ha : ∀ err, s.spool.access ≠ some (.drain l err)) : Sound own none cl (Machine.setEngine l e s) := by
  refine h.setEngine l e hc (fun i hi _ => hx i hi) (fun _ => ?_) (FetchedOk.none h2)
  exact
    { engine := he.ok (fun _ => h3) (fun _ => h2) (by simp [h1])
      waits := by simp [hp.1, h1]
      flies := by simp [hp.2, h1]
      fetch := fun err k => absurd k (ha err) }

/-- What a line that is neither SENDING nor lost holds. -/
theorem Sound.resting {s : State} (h : Sound own none cl s) (l : Fin 4) (hs : (engineAt s l).state ≠ .sending) :
    (engineAt s l).step = .boundary ∧ (engineAt s l).fetched = none ∧ (engineAt s l).hold = none ∧
      (unitPhase s l ≠ .waiting ∧ unitPhase s l ≠ .inFlight) ∧ (∀ err, s.spool.access ≠ some (.drain l err)) := by
  have hk := h.line l (by simp)
  obtain ⟨a, b, c⟩ := hk.engine.rests hs
  refine ⟨a, b, c, ⟨fun n => ?_, fun n => ?_⟩, fun err n => hs (hk.fetch err n).1⟩
  · have := hk.waits.1 n; rw [a] at this; cases this
  · have := hk.flies.1 n; rw [a] at this; cases this

theorem sound_pauseLine (l : Fin 4) (s : State) (h : Sound own none cl s) : Sound own none cl (pauseLine l s) := by
  have hk := h.line l (by simp)
  have main : (engineAt s l).state = .starved ∨ (engineAt s l).state = .sending → (engineAt s l).step ≠ .inFlight →
      (∀ err, s.spool.access ≠ some (.drain l err)) →
      Sound own none cl (setEngine l { engineAt (clearCycle l s) l with state := .paused } (clearCycle l s)) := by
    intro hs hf ha
    have hcause : (engineAt s l).cause = .none := hk.engine.cause.2 (by rcases hs with hs | hs <;> rw [hs] <;> simp)
    have hcur : (engineAt s l).current ≠ none := hk.engine.hasJob (by rcases hs with hs | hs <;> simp [hs])
    have he : ({ engineAt (clearCycle l s) l with state := .paused } : Engine) =
        { engineAt (clearCycle l s) l with state := .paused, cause := .none } := by
      rw [engineAt_clearCycle]; simp [hcause]
    rw [he]
    exact sound_clearTo l .paused .none s h (onlyEx_none l) (fun n => hf (hk.flies.1 n)) ha (by simp) (by simp)
      (fun _ => hcur) (by simp)
  have access : (engineAt s l).step ≠ .fetching → ∀ err, s.spool.access ≠ some (.drain l err) := fun hn err ha =>
    hn (hk.fetch err ha).2.1
  have goal : ∀ now : Bool, (now = true → (engineAt s l).state = .starved ∨ (engineAt s l).state = .sending) →
      (now = true → (engineAt s l).step ≠ .inFlight) → (now = true → ∀ err, s.spool.access ≠ some (.drain l err)) →
      Sound own none cl
        (if now then setEngine l { engineAt (clearCycle l s) l with state := .paused } (clearCycle l s) else s) := by
    intro now h1 h2 h3
    split
    · rename_i hn; exact main (h1 hn) (h2 hn) (h3 hn)
    · exact h
  unfold pauseLine
  simp only
  apply goal
  · split <;> simp_all
  · split
    · rename_i hs; intro _; rw [(hk.engine.rests (by rw [hs]; simp)).1]; simp
    · rename_i hs; intro _; rw [hs]; simp
    · rename_i hs; intro _; rw [hs]; simp
    · simp
  · split
    · rename_i hs; intro _; exact access (by rw [(hk.engine.rests (by rw [hs]; simp)).1]; simp)
    · rename_i hs; intro _; exact access (by rw [hs]; simp)
    · intro hn err ha
      rw [ha] at hn
      simp at hn
    · simp

theorem sounds_resumeLine (l : Fin 4) (s : State) (h : Sounds none .nobody s) : Sounds none .nobody (resumeLine l s) := by
  obtain ⟨own, h⟩ := h
  unfold resumeLine
  simp only
  split
  · exact ⟨own, h⟩
  · split
    · rename_i hp
      simp only [Bool.and_eq_true, decide_eq_true_eq] at hp
      have hs := hp.1.1
      have hk := h.line l (by simp)
      obtain ⟨a, b, c, d, f⟩ := h.resting l (by rw [hs]; simp)
      refine sounds_decideLine l _ ⟨own, h.toBoundary l { engineAt s l with state := .sending, step := .boundary }
        (onlyEx_none l) ?_ rfl b c rfl d f⟩
      exact ⟨rfl, hk.engine.hasJob (by simp [hs]), hk.engine.cause.2 (by rw [hs]; simp), hk.engine.starve (by rw [hs]; simp)⟩
    · exact ⟨own, h⟩

theorem sounds_endStarvation (l : Fin 4) (j : Fin 16) (s : State) (h : Sounds none .nobody s) :
    Sounds none .nobody (endStarvation l j s) := by
  obtain ⟨own, h⟩ := h
  unfold endStarvation
  simp only
  split
  · rename_i hp
    simp only [Bool.and_eq_true, decide_eq_true_eq] at hp
    have hs := hp.1
    have hk := h.line l (by simp)
    obtain ⟨a, b, c, d, f⟩ := h.resting l (by rw [hs]; simp)
    refine sounds_decideLine l _ ⟨own, h.toBoundary l { engineAt s l with state := .sending, step := .boundary, starve := none }
      (onlyEx_none l) ?_ rfl b c rfl d f⟩
    exact ⟨rfl, by rw [hp.2]; simp, hk.engine.cause.2 (by rw [hs]; simp), rfl⟩
  · exact ⟨own, h⟩

/-! The end of a byte. -/

/-- A line whose byte has just landed: its unit is at rest again. -/
structure Landed (l : Fin 4) (s : State) : Prop where
  send : SendOk (engineAt s l)
  step : (engineAt s l).step = .inFlight
  fetched : (engineAt s l).fetched ≠ none
  hold : (engineAt s l).hold = none
  phase : unitPhase s l ≠ .waiting ∧ unitPhase s l ≠ .inFlight
  access : ∀ err, s.spool.access ≠ some (.drain l err)

theorem Sound.currentJob {s : State} (h : Sound own ex cl s) {l : Fin 4} (hc : (engineAt s l).current ≠ none) :
    ∃ j r, Machine.currentJob s l = some (j, r) := by
  obtain ⟨j, hj⟩ := Option.ne_none_iff_exists'.1 hc
  obtain ⟨r, e, _, _⟩ := (h.current l j).1 hj
  exact ⟨j, r, by unfold Machine.currentJob; rw [hj]; simp [e]⟩

theorem sounds_cancelEnds (l : Fin 4) (j : Fin 16) (st : LineState) (c : Cause) (r : Job) (s : State) (h : Sound own ex cl s)
    (hcl : ∀ i, i ≠ j → cl.closing ≠ some i ∧ cl.ending ≠ some i) (hx : OnlyEx ex l) (q : Quiet l s)
    (hc : (engineAt s l).current = some j) (e : jobAt s j = some r) (hst : st = .idle ∧ c = .none ∨ st = .fault ∧ c ≠ .none) :
    Sounds none .nobody (cancelEnds l j st c s) :=
  sounds_finishCode _ _ (sounds_retireLine l j .cancelled .none st c r s h hcl hx q hc e hst)

theorem sounds_completeCopy (l : Fin 4) (j : Fin 16) (r r0 : Job) (s : State) (h : Sound own none .nobody s) (q : Quiet l s)
    (hcause : (engineAt s l).cause = .none)
    (hc : (engineAt s l).current = some j) (e : jobAt s j = some r0) (k : SameRecord r0 r) :
    Sounds none .nobody (completeCopy l j r s) := by
  by_cases hm : r.copiesDone + 1 < r.copies
  · unfold completeCopy
    rw [if_pos hm]
    exact ⟨own, sound_rewind l j r r0 s h q.fetched hc e k hm⟩
  · exact sound_lastCopy l j r r0 s h (onlyEx_none l) q hcause hc e k hm

theorem sounds_delivered (l : Fin 4) (s : State) (h : Sound own ex .nobody s) (hx : OnlyEx ex l) (q : Landed l s) :
    Sounds none .nobody (delivered l s) := by
  obtain ⟨f, hf⟩ := Option.ne_none_iff_exists'.1 q.fetched
  obtain ⟨j, r, hcj⟩ := h.currentJob q.send.current
  have e := currentJob_jobAt hcj
  have hc := currentJob_current hcj
  obtain ⟨ho, hl⟩ := h.unfinished hc e
  unfold delivered
  simp only [hf, hcj]
  have h1 : Sound own none .nobody (setEngine l { engineAt s l with step := .boundary, fetched := none } s) :=
    h.toBoundary l { engineAt s l with step := .boundary, fetched := none } hx ⟨q.send.state, q.send.current, q.send.cause, q.send.starve⟩ rfl rfl q.hold rfl q.phase q.access
  have e1 : jobAt (setEngine l { engineAt s l with step := .boundary, fetched := none } s) j = some r := e
  have hfet : ∀ p, f.pos = some p → ReadsAt r (own j) p := fun p c1 => h.fetched l j r f p hc e hf c1
  have s1 : (engineAt (setEngine l { engineAt s l with step := .boundary, fetched := none } s) l).state = .sending := by
    rw [engineAt_setEngine, if_pos rfl]; exact q.send.state
  have b1 : (engineAt (setEngine l { engineAt s l with step := .boundary, fetched := none } s) l).step = .boundary := by
    rw [engineAt_setEngine, if_pos rfl]
  have c1 : (engineAt (setEngine l { engineAt s l with step := .boundary, fetched := none } s) l).current = some j := by
    rw [engineAt_setEngine, if_pos rfl]; exact hc
  have hEng : engineAt (setEngine l { engineAt s l with step := .boundary, fetched := none } s) l =
      { engineAt s l with step := .boundary, fetched := none } := by rw [engineAt_setEngine, if_pos rfl]
  generalize setEngine l { engineAt s l with step := .boundary, fetched := none } s = t at *
  have at1 := h1.atBoundary s1 b1
  have hcl : ∀ i, i ≠ j → (none : Option (Fin 16)) ≠ some i ∧ some j ≠ some i := fun i hi => ⟨by simp, by simp [Ne.symm hi]⟩
  have sep : Sounds none .nobody
      (if r.cancelPending = true then
        decideLine l (cancelEnds l j .idle .none
          (setJob j { r with total := satSucc Config.countTop r.total, sepPending := false,
                             copiesDone := r.copiesDone + 1 } t))
      else decideLine l (completeCopy l j { r with total := satSucc Config.countTop r.total, sepPending := false } t)) := by
    split
    · refine sounds_decideLine l _ ?_
      have h2 := sound_countCopy l j { r with total := satSucc Config.countTop r.total, sepPending := false } r t h1 at1.fetched c1
        e1 {}
      exact sounds_cancelEnds l j .idle .none _ _ h2 hcl (onlyEx_none l)
        ⟨at1.step, at1.fetched, at1.hold, at1.send.starve, at1.phase, at1.access⟩ c1
        (by rw [jobAt_setJob, if_pos rfl]) (Or.inl ⟨rfl, rfl⟩)
    · exact sounds_decideLine l _ (sounds_completeCopy l j _ r t h1 at1.quiet at1.send.cause c1 e1 {})
  split
  · exact sep
  · exact sep
  · rename_i p hp _
    have hs2 := sounds_passByte l j { r with total := satSucc Config.countTop r.total } r p t h1 at1.fetched c1 e1 {}
      (hfet p hp)
    obtain ⟨g1, g2, g3⟩ := passByte_lines j { r with total := satSucc Config.countTop r.total } p t
    generalize passByte j { r with total := satSucc Config.countTop r.total } p t = u at *
    have gE : engineAt u l = engineAt t l := by unfold engineAt; rw [g1]
    split
    · split
      · exact hs2
      · rename_i r2 e2
        obtain ⟨own2, hs2⟩ := hs2
        have c2 : (engineAt u l).current = some j := by rw [gE]; exact c1
        have at2 := hs2.atBoundary (l := l) (by rw [gE]; exact s1) (by rw [gE]; exact b1)
        refine sounds_decideLine l _ ?_
        split
        · have h3 := sound_countCopy l j r2 r2 u hs2 at2.fetched c2 e2 {}
          exact sounds_cancelEnds l j .idle .none _ _ h3 hcl (onlyEx_none l)
            ⟨at2.step, at2.fetched, at2.hold, at2.send.starve, at2.phase, at2.access⟩ c2
            (by rw [jobAt_setJob, if_pos rfl]) (Or.inl ⟨rfl, rfl⟩)
        · have h3 := hs2.setJob_same (r' := r2) e2 {}
          exact sounds_cancelEnds l j .idle .none _ _ h3 (fun i _ => by simp [Spare.nobody]) (onlyEx_none l)
            ⟨at2.step, at2.fetched, at2.hold, at2.send.starve, at2.phase, at2.access⟩ c2
            (by rw [jobAt_setJob, if_pos rfl]) (Or.inl ⟨rfl, rfl⟩)
    · exact sounds_decideLine l _ hs2

theorem sounds_failedNoack (l : Fin 4) (s : State) (h : Sound own ex .nobody s) (hx : OnlyEx ex l) (q : Landed l s) :
    Sounds none .nobody (failedNoack l s) := by
  obtain ⟨j, r, hcj⟩ := h.currentJob q.send.current
  have e := currentJob_jobAt hcj
  have hc := currentJob_current hcj
  unfold failedNoack
  simp only [hcj]
  split
  · refine sounds_raise _ _ ?_
    have h1 : Sound own (some l) .nobody (clearCycle l s) :=
      h.line' (onlyLine_clearCycle l s) (fun i hi _ => hx i hi) (fun n => absurd rfl n)
        (by rw [engineAt_clearCycle]; exact FetchedOk.none rfl)
    have hE := engineAt_clearCycle l s
    have hp := unitPhase_clearCycle q.phase.2
    refine sounds_cancelEnds l j .fault .noack r _ h1 (fun i _ => by simp [Spare.nobody]) (onlyEx_some l) ?_ (by rw [hE]; exact hc) ?_
      (Or.inr ⟨rfl, by simp⟩)
    · exact
        { step := by rw [hE]
          fetched := by rw [hE]
          hold := by rw [hE]
          starve := by rw [hE]
          phase := by rw [hp]; simp
          access := by
            intro err ha
            rw [(onlyLine_clearCycle l s).access] at ha
            exact q.access err ha }
    · rw [(onlyLine_clearCycle l s).toSameJobs.jobAt]; exact e
  · exact ⟨own, sound_enterFault l .noack s h hx q.phase.2 q.access (by simp)⟩

/-! The end of a fetch. -/

/-- R82: what the end of a fetch leaves: the store free and the line as it was but for its fetched byte, or in FAULT. -/
theorem sound_fetchResult (l : Fin 4) (err k : Bool) (s : State) (h : Sound own none cl s)
    (ha : s.spool.access = some (.drain l k)) :
    Sound own none cl (fetchResult l err s) ∧ (fetchResult l err s).spool.access = none := by
  have hk := h.line l (by simp)
  obtain ⟨f1, f2, f3⟩ := hk.fetch k ha
  have hp : unitPhase s l ≠ .inFlight := fun n => by have := hk.flies.1 n; rw [f2] at this; cases this
  have h1 := h.endAccess (fun c hc => by rw [ha] at hc; cases hc)
  unfold fetchResult
  simp only
  split
  · exact ⟨h1, rfl⟩
  · have h2 : Sound own none cl (raise .check { s with spool.access := none }) := sound_raise _ _ h1
    -- the policy of the line, for any state with this line
    have policy : ∀ t : State, Sound own none cl t → engineAt t l = engineAt s l → unitPhase t l = unitPhase s l →
        t.spool.access = none →
        Sound own none cl
          (match (engineAt t l).config.policy with
          | .halt => enterFault l .check t
          | .substitute => setEngine l { engineAt t l with fetched := (engineAt t l).fetched.map fun f : Fetched =>
              { f with value := (engineAt t l).config.substitute, kind := .substitute } } t) ∧
        (match (engineAt t l).config.policy with
          | .halt => enterFault l .check t
          | .substitute => setEngine l { engineAt t l with fetched := (engineAt t l).fetched.map fun f : Fetched =>
              { f with value := (engineAt t l).config.substitute, kind := .substitute } } t).spool.access = none := by
      intro t ht hE hU hA
      split
      · refine ⟨sound_enterFault l .check t ht (onlyEx_none l) (by rw [hU]; exact hp) (fun e => by rw [hA]; simp) (by simp), ?_⟩
        have := (onlyLine_clearCycle l t).access
        exact this.trans hA
      · refine ⟨ht.setEngine l _ rfl (fun _ _ _ => by simp) (fun _ => ?_) ?_, hA⟩
        · have hk' := ht.line l (by simp)
          rw [hA] at hk' ⊢
          have he := hk'.engine
          exact
            { engine :=
                { cause := he.cause
                  hasJob := he.hasJob
                  noJob := he.noJob
                  rests := fun n => absurd (hE ▸ f1) n
                  starve := he.starve
                  hold := he.hold
                  bound := fun n => by
                    have n : (engineAt t l).step = .boundary := n
                    rw [hE, f2] at n; cases n
                  holds := fun n => by
                    have n : (engineAt t l).step = .waiting ∨ (engineAt t l).step = .inFlight := n
                    rw [hE, f2] at n; simp at n }
              waits := hk'.waits
              flies := hk'.flies
              fetch := fun e n => by cases n }
        · intro j r f p c1 c2 c3 c4
          have c3 : (engineAt t l).fetched.map (fun f : Fetched =>
            ({ f with value := (engineAt t l).config.substitute, kind := .substitute } : Fetched)) = some f := c3
          cases hf : (engineAt t l).fetched with
          | none => rw [hf] at c3; cases c3
          | some g =>
            rw [hf] at c3
            cases c3
            exact ht.fetched l j r g p c1 c2 hf c4
    cases hc : currentJob (raise .check { s with spool.access := none }) l with
    | none => exact policy _ h2 rfl rfl rfl
    | some jr =>
      obtain ⟨j, r⟩ := jr
      exact policy _ (h2.setJob_same (r' := { r with checkErrors := satSucc Config.checkTop r.checkErrors })
        (currentJob_jobAt hc) {}) rfl rfl rfl

theorem sound_fetchDone (l : Fin 4) (err k : Bool) (s : State) (h : Sound own none cl s)
    (ha : s.spool.access = some (.drain l k)) : Sound own none cl (fetchDone l err s) := by
  have hk := h.line l (by simp)
  obtain ⟨f1, f2, f3⟩ := hk.fetch k ha
  obtain ⟨h1, a1⟩ := sound_fetchResult l err k s h ha
  -- the fetch is at its step, or the line is in FAULT
  have hstep : (engineAt (fetchResult l err s) l).state = .sending → (engineAt (fetchResult l err s) l).step = .fetching := by
    unfold fetchResult
    simp only
    split
    · intro _; exact f2
    · have policy : ∀ t : State, engineAt t l = engineAt s l →
          (engineAt (match (engineAt t l).config.policy with
          | .halt => enterFault l .check t
          | .substitute => setEngine l { engineAt t l with fetched := (engineAt t l).fetched.map fun f : Fetched =>
              { f with value := (engineAt t l).config.substitute, kind := .substitute } } t) l).state = .sending →
          (engineAt (match (engineAt t l).config.policy with
          | .halt => enterFault l .check t
          | .substitute => setEngine l { engineAt t l with fetched := (engineAt t l).fetched.map fun f : Fetched =>
              { f with value := (engineAt t l).config.substitute, kind := .substitute } } t) l).step = .fetching := by
        intro t hE
        split
        · intro hs
          unfold enterFault at hs
          simp at hs
        · intro _; simp [hE, f2]
      cases hc : currentJob (raise .check { s with spool.access := none }) l with
      | none => exact policy _ rfl
      | some jr => obtain ⟨j, r⟩ := jr; exact policy _ rfl
  unfold fetchDone
  simp only
  generalize fetchResult l err s = t at *
  split
  · rename_i f j r hs hf hc
    have hb := hstep hs
    have hkt := h1.line l (by simp)
    have he := hkt.engine
    have hp : unitPhase t l ≠ .waiting ∧ unitPhase t l ≠ .inFlight := by
      refine ⟨fun n => ?_, fun n => ?_⟩
      · have := hkt.waits.1 n; rw [hb] at this; cases this
      · have := hkt.flies.1 n; rw [hb] at this; cases this
    split
    · refine h1.setEngine l _ rfl (fun _ _ _ => by simp) (fun _ => ?_) (FetchedOk.none rfl)
      exact
        { engine :=
            { cause := by simpa [hs] using he.cause
              hasJob := fun _ => he.hasJob (Or.inl hs)
              noJob := by simp
              rests := fun _ => ⟨rfl, rfl, he.hold (by rw [hb]; simp)⟩
              starve := fun _ => he.starve (by rw [hs]; simp)
              hold := fun _ => he.hold (by rw [hb]; simp)
              bound := fun _ => rfl
              holds := by simp }
          waits := by simp [hp.1]
          flies := by simp [hp.2]
          fetch := fun e n => by rw [a1] at n; cases n }
    · refine sound_askReady l f t h1 (onlyEx_none l) (he.send hs) hp.2 (fun e => by rw [a1]; simp) ?_
      intro j r g p c1 c2 c3 c4
      cases c3
      exact h1.fetched l j r f p c1 c2 hf c4
  · exact h1

theorem sound_endFetch (l : Fin 4) (s : State) (h : Sound own none cl s) : Sound own none cl (endFetch l s) := by
  unfold endFetch
  split
  · rename_i k err ha
    split
    · rename_i hk; subst hk; exact sound_fetchDone k err err s h ha
    · exact h
  · exact h

theorem sound_endVerifyRead (s : State) (h : Sound own ex cl s) : Sound own ex cl (endVerifyRead s) := by
  unfold endVerifyRead
  split
  · rename_i err ha; exact sound_scanStep _ (sound_countRead err err s h ha)
  · exact h

end Sys2Proof.Machine
end

