-- ==== Sys2Proof/Laws/KeptIntake.lean ====
section
/-! SUPPORT. The intake path keeps the laws, and leaves a byte in flight where it is. -/

namespace Sys2Proof.Machine

-- One after another: side by side the proofs would each wait in a thread of their own.
set_option Elab.async false

variable {own : Fin 16 → List (Fin 128)} {ex : Option (Fin 4)} {cl : Spare}

/-! A byte in flight stays in flight, and a line in FAULT stays there. -/

/-- The line has a byte in flight or is in FAULT. -/
def Waits (e : Engine) : Prop := e.state = .fault ∨ e.state = .sending ∧ e.step = .inFlight

/-- Every line with a byte in flight or in FAULT is as it was. -/
def KeepsFlight (s t : State) : Prop := ∀ l, Waits (engineAt s l) → engineAt t l = engineAt s l

theorem KeepsFlight.refl (s : State) : KeepsFlight s s := fun _ _ => rfl

theorem KeepsFlight.trans {a b c : State} (h : KeepsFlight a b) (k : KeepsFlight b c) : KeepsFlight a c := fun l h1 => by
  have e := h l h1
  exact (k l (e ▸ h1)).trans e

theorem KeepsFlight.of_engines {s t : State} (h : t.engines = s.engines) : KeepsFlight s t := fun l _ => by
  unfold engineAt; rw [h]

theorem SameLines.keeps {s t : State} (h : SameLines s t) : KeepsFlight s t := KeepsFlight.of_engines h.engines

theorem askReady_other (l : Fin 4) (f : Fetched) (s : State) (k : Fin 4) (hk : k ≠ l) :
    engineAt (askReady l f s) k = engineAt s k := by
  unfold askReady
  simp only
  have ans : ∀ t : State, engineAt t k = engineAt s k → engineAt (answerReady l t) k = engineAt s k := fun t ht => by
    unfold answerReady
    split
    · unfold putByte; simp only; split
      · exact ht
      · rw [engineAt_unitPut, engineAt_setEngine, if_neg hk]; exact ht
    · unfold enterFault
      simp only [engineAt_raise, engineAt_setEngine, if_neg hk]
      unfold clearCycle
      rw [engineAt_withdraw, engineAt_setEngine, if_neg hk]; exact ht
    · exact ht
  split
  · rw [engineAt_unitWait, engineAt_setEngine, if_neg hk, engineAt_setEngine, if_neg hk]
  · exact ans _ (by rw [engineAt_setEngine, if_neg hk])
  · exact ans _ (by rw [engineAt_setEngine, if_neg hk])

theorem afterCopyEnd_other (l : Fin 4) (r : Job) (s : State) (k : Fin 4) (hk : k ≠ l) :
    engineAt (afterCopyEnd l r s) k = engineAt s k := by
  unfold afterCopyEnd
  simp only
  split
  · rw [engineAt_setEngine, if_neg hk]
  · split
    · exact askReady_other l _ s k hk
    · split
      · unfold starveLine; rw [engineAt_raise, engineAt_setEngine, if_neg hk]
      · rw [engineAt_setEngine, if_neg hk]

/-- What a line does at once changes no other line. -/
theorem runLine_other (n : Nat) (l : Fin 4) (s : State) (h : Sounds none .nobody s) (k : Fin 4) (hk : k ≠ l) :
    engineAt (runLine n l s) k = engineAt s k := by
  induction n generalizing s with
  | zero => rfl
  | succ n ih =>
    obtain ⟨own, h⟩ := h
    unfold runLine
    split
    · rename_i hi
      split
      · rfl
      · split
        · rfl
        · rename_i j hj
          obtain ⟨r, e, ho, hl⟩ := h.eligible hj
          rw [ih _ ⟨own, sound_takeJob l j r s h hi e ho hl⟩]
          unfold takeJob
          rw [e]
          simp only
          rw [engineAt_setEngine, if_neg hk]; rfl
    · rename_i hs
      split
      · rfl
      · rename_i hb
        have hb : (engineAt s l).step = .boundary := Classical.not_not.mp hb
        have at' := h.atBoundary hs hb
        split
        · rfl
        · rename_i j r hc
          have e := currentJob_jobAt hc
          have hcur := currentJob_current hc
          split
          · split
            · rw [afterCopyEnd_other l _ _ k hk, engineAt_setJob]
            · rw [ih _ (sounds_completeCopy l j r r s h at'.quiet at'.send.cause hcur e {})]
              unfold completeCopy
              split
              · rfl
              · obtain ⟨ho, hl⟩ := h.unfinished hcur e
                have h1 := sound_countCopy l j r r s h at'.fetched hcur e {}
                obtain ⟨_, f1, _, _⟩ := sound_retire (ex' := some l) j .complete .none { r with copiesDone := r.copiesDone + 1 } _ h1
                  (fun i hi => ⟨by simp, by simp [Ne.symm hi]⟩) (by rw [jobAt_setJob, if_pos rfl]) (by rw [ho]; simp)
                  (fun i hi => ⟨by simp, fun hn => hi (by rw [hn.2, hl])⟩)
                simp only
                rw [engineAt_setEngine, if_neg hk, f1, if_neg (fun hn => hk (hn.2.trans hl)), engineAt_setJob]
          · exact afterCopyEnd_other l r s k hk
    all_goals rfl

theorem keeps_decideLine (l : Fin 4) (s : State) (h : Sounds none .nobody s) : KeepsFlight s (decideLine l s) := fun k hw => by
  by_cases hk : k = l
  · subst hk
    unfold decideLine
    change engineAt (runLine (319 + 1) k s) k = _
    unfold runLine
    rcases hw with h1 | ⟨h1, h2⟩
    · rw [h1]
    · rw [h1]
      simp only
      rw [if_pos (by rw [h2]; simp)]
  · exact runLine_other _ l s h k hk

theorem keeps_endStarvation (l : Fin 4) (j : Fin 16) (s : State) (h : Sounds none .nobody s) :
    KeepsFlight s (endStarvation l j s) := by
  obtain ⟨own, h⟩ := h
  unfold endStarvation
  simp only
  split
  · rename_i hp
    simp only [Bool.and_eq_true, decide_eq_true_eq] at hp
    have hs := hp.1
    have hk := h.line l (by simp)
    obtain ⟨a, b, c, d, f⟩ := h.resting l (by rw [hs]; simp)
    have h1 : Sound own none .nobody
        (setEngine l { engineAt s l with state := .sending, step := .boundary, starve := none } s) := by
      refine h.toBoundary l _ (onlyEx_none l) ?_ rfl b c rfl d f
      exact ⟨rfl, by rw [hp.2]; simp, hk.engine.cause.2 (by rw [hs]; simp), rfl⟩
    refine KeepsFlight.trans (fun k hs1 => ?_) (keeps_decideLine l _ ⟨own, h1⟩)
    rw [engineAt_setEngine, if_neg]
    intro hkl; rw [hkl] at hs1; unfold Waits at hs1; rw [hs] at hs1; simp at hs1
  · exact KeepsFlight.refl s

/-! The change of the intake phase to CLOSED. -/

theorem queueEntries_joinTail (l : Fin 4) (u : Bool) (j : Fin 16) (s : State) (k : Fin 4) (v : Bool) :
    queueEntries (joinTail l u j s) k v = if k = l ∧ v = u then queueEntries s k v ++ [j] else queueEntries s k v := by
  unfold queueEntries joinTail
  rw [queueAt_setQueue]
  by_cases hk : k = l
  · subst hk
    rw [if_pos rfl]
    cases u <;> cases v <;> simp
  · rw [if_neg hk]; simp [hk]

/-- R9: a job becomes CLOSED and joins the queue of its line. -/
theorem sound_closeToQueue (j : Fin 16) (r : Job) (s : State) (h : Sound own none cl s) (e : jobAt s j = some r)
    (ho : r.output = .pending) (hcl : ∀ i, i ≠ j → cl.closing ≠ some i ∧ cl.ending ≠ some i) (hen : cl.ending ≠ some j)
    (ht : s.intake.target ≠ some j) (hn : hasEntry s j = false) :
    Sound own none .nobody (joinTail r.line r.urgent j (setJob j { r with intake := .closed, output := .queued } s)) := by
  have hne : r.output ≠ .finished := by rw [ho]; simp
  have c := h.cursor j r e hne
  refine h.job (r' := { r with intake := .closed, output := .queued }) e (fun k => ?_) {} (Or.inr ⟨ht, fun _ => hn⟩)
    (fun i hi => ⟨fun _ => (hcl i hi).1, fun _ => (hcl i hi).2⟩) (by simp) rfl rfl (by simp [hne]) (by simp)
    ((h.chain j r e).same rfl rfl rfl rfl) (fun _ => ⟨c.copies, c.start, c.stands, c.whole⟩)
    (fun _ _ => h.going j r e hne hen) (fun l u i => ?_) (fun l i => ?_) h.line (fun l i q f p c1 c2 c3 c4 => ?_)
  · rw [jobAt_joinTail, jobAt_setJob]
  · rw [jobAt_joinTail, jobAt_setJob, queueEntries_joinTail]
    have hq := h.queue l u i
    have hs : queueEntries (setJob j { r with intake := .closed, output := .queued } s) l u = queueEntries s l u := rfl
    rw [hs]
    by_cases hij : i = j
    · subst hij
      rw [if_pos rfl]
      rw [e] at hq
      simp only [ho, reduceCtorEq, false_and, if_false] at hq
      simp only [true_and]
      by_cases hc : l = r.line ∧ u = r.urgent
      · rw [if_pos hc, if_pos ⟨hc.1.symm, hc.2.symm⟩, List.count_append, hq]; simp
      · rw [if_neg hc, if_neg (fun n => hc ⟨n.1.symm, n.2.symm⟩), hq]
    · rw [if_neg hij, ← hq]
      split
      · rw [List.count_append]; simp [Ne.symm hij]
      · rfl
  · rw [jobAt_joinTail, jobAt_setJob]
    have hc := h.current l i
    change (engineAt s l).current = some i ↔ _
    rw [hc]
    by_cases hij : i = j
    · subst hij; rw [if_pos rfl, e]; simp [ho]
    · rw [if_neg hij]
  · rw [jobAt_joinTail, jobAt_setJob] at c2
    have c1 : (engineAt s l).current = some i := c1
    have c3 : (engineAt s l).fetched = some f := c3
    by_cases hij : i = j
    · subst hij
      have := (h.unfinished c1 e).1
      rw [ho] at this; cases this
    · rw [if_neg hij] at c2; exact h.fetched l i q f p c1 c2 c3 c4

/-- R9: a job becomes CLOSED where it stands. -/
theorem sound_close (j : Fin 16) (r : Job) (s : State) (h : Sound own ex cl s) (e : jobAt s j = some r)
    (hcl : ∀ i, i ≠ j → cl.closing ≠ some i ∧ cl.ending ≠ some i) (hen : cl.ending ≠ some j)
    (ht : s.intake.target ≠ some j) (hn : hasEntry s j = false) :
    Sound own ex .nobody (setJob j { r with intake := .closed } s) := by
  refine h.setJob e ⟨rfl, rfl, rfl, rfl, rfl⟩ (Or.inr ⟨ht, fun _ => hn⟩)
    (fun i hi => ⟨fun _ => (hcl i hi).1, fun _ => (hcl i hi).2⟩) (by simp)
    (fun n => ⟨rfl, (h.finished j r e n).2.1, (h.finished j r e n).2.2.1⟩)
    ((h.chain j r e).same rfl rfl rfl rfl) (fun n => ?_) (fun n _ => h.going j r e n hen) (fun l f p _ _ _ hr => hr)
  have c := h.cursor j r e n
  exact ⟨c.copies, c.start, c.stands, c.whole⟩

theorem sounds_becomeClosed (j : Fin 16) (s : State) (h : Sound own none cl s)
    (hcl : ∀ i, i ≠ j → cl.closing ≠ some i ∧ cl.ending ≠ some i) (hen : cl.ending ≠ some j)
    (ht : s.intake.target ≠ some j) (hn : hasEntry s j = false) (hne : jobAt s j ≠ none) :
    Sounds none .nobody (becomeClosed j s) ∧ KeepsFlight s (becomeClosed j s) := by
  unfold becomeClosed
  cases e : jobAt s j with
  | none => exact absurd e hne
  | some r =>
    simp only
    have h1 := sound_close j r s h e hcl hen ht hn
    split
    · rename_i ho
      have h2 := sound_closeToQueue j r s h e ho hcl hen ht hn
      exact ⟨sounds_decideLine _ _ ⟨own, h2⟩, KeepsFlight.trans (KeepsFlight.of_engines rfl) (keeps_decideLine _ _ ⟨own, h2⟩)⟩
    · exact ⟨sounds_endStarvation _ _ _ ⟨own, h1⟩,
        KeepsFlight.trans (KeepsFlight.of_engines rfl) (keeps_endStarvation _ _ _ ⟨own, h1⟩)⟩
    · exact ⟨⟨own, h1⟩, KeepsFlight.of_engines rfl⟩
    · exact ⟨⟨own, h1⟩, KeepsFlight.of_engines rfl⟩

/-- The exception of one job that may be CLOSING without an entry. -/
theorem Sound.closed {s : State} {j : Fin 16} (h : Sound own ex { closing := some j } s)
    (hj : ∀ r, jobAt s j = some r → r.intake = .closing → hasEntry s j = true) : Sound own ex .nobody s :=
  { h with
    closing := fun i r hi hc _ => by
      by_cases hij : i = j
      · subst hij; exact hj r hi hc
      · exact h.closing i r hi hc (by simp [Ne.symm hij])
    going := fun i r hi ho _ => h.going i r hi ho (by simp) }

theorem Sound.targetNe {s : State} (h : Sound own ex cl s) {j : Fin 16} {r : Job} (e : jobAt s j = some r)
    (hc : r.intake ≠ .opened) : s.intake.target ≠ some j := fun n => by
  obtain ⟨q, h1, h2⟩ := h.target j n
  rw [e] at h1; cases h1; exact hc h2

theorem sounds_closeIfDrained (j : Fin 16) (s : State) (h : Sound own none { closing := some j } s) :
    Sounds none .nobody (closeIfDrained j s) ∧ KeepsFlight s (closeIfDrained j s) := by
  unfold closeIfDrained
  split
  · rename_i e
    exact ⟨⟨own, h.closed (fun r hr => by rw [e] at hr; cases hr)⟩, KeepsFlight.refl s⟩
  · rename_i r e
    split
    · rename_i hc
      simp only [Bool.and_eq_true, decide_eq_true_eq, Bool.not_eq_true'] at hc
      exact sounds_becomeClosed j s h (fun i hi => ⟨by simp [Ne.symm hi], by simp⟩) (by simp)
        (h.targetNe e (by rw [hc.1]; simp)) hc.2 (by rw [e]; simp)
    · rename_i hc
      refine ⟨⟨own, h.closed (fun q hq hcl => ?_)⟩, KeepsFlight.refl s⟩
      rw [e] at hq; cases hq
      simpa [hcl] using hc

/-- R55, R61: a byte has been stored for a job. -/
theorem sounds_byteStored (j : Fin 16) (s : State) (h : Sound own none { closing := some j } s) :
    Sounds none .nobody (byteStored j s) ∧ KeepsFlight s (byteStored j s) := by
  unfold byteStored
  split
  · rename_i e
    exact ⟨⟨own, h.closed (fun r hr => by rw [e] at hr; cases hr)⟩, KeepsFlight.refl s⟩
  · rename_i r e
    split
    · rename_i hc
      simp only [Bool.and_eq_true, decide_eq_true_eq, Bool.not_eq_true'] at hc
      exact sounds_becomeClosed j s h (fun i hi => ⟨by simp [Ne.symm hi], by simp⟩) (by simp)
        (h.targetNe e (by rw [hc.1]; simp)) hc.2 (by rw [e]; simp)
    · rename_i hc
      have h1 : Sound own none .nobody s := h.closed (fun q hq hcl => by
        rw [e] at hq; cases hq
        simpa [hcl] using hc)
      split
      · exact ⟨sounds_endStarvation _ _ _ ⟨own, h1⟩, keeps_endStarvation _ _ _ ⟨own, h1⟩⟩
      · exact ⟨⟨own, h1⟩, KeepsFlight.refl s⟩

/-! The head entry. -/

theorem Sound.noIntake {s : State} (h : Sound own ex cl s) (hi : HeadIdle s) : NoIntakeAccess s := fun c hc => by
  have := (h.access c hc).1
  rw [hi] at this; cases this

theorem storingFor_none {s : State} (h : NoIntakeAccess s) (j : Fin 16) : storingFor s j = false := by
  unfold storingFor
  split
  · rename_i ha _; exact absurd ha (h _)
  · rfl

theorem sounds_discardHead (j : Fin 16) (b : Byte) (rest : List (Fin 16 × Byte)) (s : State) (h : Sound own none .nobody s)
    (hq : s.intake.fifo = (j, b) :: rest) (hi : HeadIdle s) :
    Sounds none .nobody (discardHead j rest s) ∧ KeepsFlight s (discardHead j rest s) := by
  have hn := h.noIntake hi
  unfold discardHead
  have h1 : Sound own none { closing := some j } { s with intake.fifo := rest, intake.stall := false } :=
    { h with
      fifoLen := by have := h.fifoLen; rw [hq, List.length_cons] at this; exact (by omega : rest.length ≤ 16)
      fifo := fun x hx => h.fifo x (by rw [hq]; exact List.mem_cons_of_mem _ hx)
      closing := fun i r hir hc hne => by
        have := h.closing i r hir hc (by simp [Spare.nobody])
        unfold hasEntry at this ⊢
        rw [hq, List.any_cons] at this
        have hji : (j == i) = false := by
          simp only [beq_eq_false_iff_ne, ne_eq]
          exact fun n => hne (by rw [n])
        simpa [hji] using this
      chain := fun i r hir =>
        have hc := h.chain i r hir
        { hc with
          byte := fun n => by
            rcases hc.byte n with hb | hb
            · exact Or.inl hb
            · rw [storingFor_none hn] at hb; cases hb }
      going := fun i r hir ho _ => h.going i r hir ho (by simp [Spare.nobody])
      access := fun c hc => absurd hc (hn c) }
  obtain ⟨a, k⟩ := sounds_closeIfDrained j _ h1
  exact ⟨a, KeepsFlight.trans (KeepsFlight.of_engines rfl) k⟩

theorem sound_requestHead (s : State) (h : Sound own ex cl s) (hi : HeadIdle s) : Sound own ex cl (requestHead s) :=
  { h with
    chain := fun i r hir => { h.chain i r hir with }
    access := fun c hc => absurd hc (h.noIntake hi c) }

theorem sound_stallHead (s : State) (h : Sound own ex cl s) : Sound own ex cl (stallHead s) := by
  unfold stallHead
  split
  · exact h
  · exact h.same

theorem sounds_evalHead (n : Nat) (s : State) (h : Sounds none .nobody s) :
    Sounds none .nobody (evalHead n s) ∧ KeepsFlight s (evalHead n s) := by
  induction n generalizing s with
  | zero => exact ⟨h, KeepsFlight.refl s⟩
  | succ n ih =>
    obtain ⟨own, h⟩ := h
    unfold evalHead
    split
    · exact ⟨⟨own, h.same⟩, KeepsFlight.of_engines rfl⟩
    · rename_i j b rest hq
      split
      · exact ⟨⟨own, h⟩, KeepsFlight.refl s⟩
      · rename_i hne
        have hi : HeadIdle s := Classical.not_not.mp hne
        have discard : ∀ t : State, Sound own none .nobody t → t.intake = s.intake → t.engines = s.engines →
            Sounds none .nobody (evalHead n (discardHead j rest t)) ∧ KeepsFlight s (evalHead n (discardHead j rest t)) := by
          intro t ht hti hte
          obtain ⟨a, k⟩ := sounds_discardHead j b rest t ht (by rw [hti]; exact hq) (by unfold HeadIdle; rw [hti]; exact hi)
          obtain ⟨a2, k2⟩ := ih _ a
          exact ⟨a2, (KeepsFlight.of_engines hte).trans (k.trans k2)⟩
        have requests : Sounds none .nobody (requestHead s) ∧ KeepsFlight s (requestHead s) :=
          ⟨⟨own, sound_requestHead s h hi⟩, KeepsFlight.of_engines rfl⟩
        split
        · exact discard s h rfl rfl
        · rename_i r e
          have marked := discard (markTruncated j r s) (h.setJob_same e {}) rfl rfl
          split
          · exact discard s h rfl rfl
          · split
            · exact marked
            · split
              · exact requests
              · split
                · exact marked
                · split
                  · refine ⟨⟨own, sound_stallHead s h⟩, ?_⟩
                    unfold stallHead
                    split
                    · exact KeepsFlight.refl s
                    · exact KeepsFlight.of_engines rfl
                  · exact requests

theorem sounds_evalIntake (s : State) (h : Sounds none .nobody s) : Sounds none .nobody (evalIntake s) :=
  (sounds_evalHead _ s h).1

theorem keeps_evalIntake (s : State) (h : Sounds none .nobody s) : KeepsFlight s (evalIntake s) := (sounds_evalHead _ s h).2

theorem sounds_settle (l : Fin 4) (s : State) (h : Sounds none .nobody s) : Sounds none .nobody (settle l s) :=
  sounds_evalIntake _ (sounds_decideLine l s h)

/-- R54, R55, R61: an intake access ends. -/
theorem sounds_intakeEnd (c k : BitVec 1) (s : State) (h : Sound own none .nobody s) (ha : s.spool.access = some (.intake k)) :
    Sounds none .nobody (intakeEnd c s) ∧ KeepsFlight s (intakeEnd c s) := by
  obtain ⟨_, a, as, haq, _⟩ := h.access k ha
  obtain ⟨j, b⟩ := a
  unfold intakeEnd
  rw [haq]
  simp only
  have h1 := sound_storeHead c k s h ha j b as haq (fun i _ => by simp [Spare.nobody])
  obtain ⟨a1, k1⟩ := sounds_byteStored j _ h1
  exact ⟨sounds_evalIntake _ a1, (storeHead_lines c s).keeps.trans (k1.trans (keeps_evalIntake _ a1))⟩

theorem sounds_endIntakeAccessOf (j : Fin 16) (s : State) (h : Sounds none .nobody s) :
    Sounds none .nobody (endIntakeAccessOf j s) ∧ KeepsFlight s (endIntakeAccessOf j s) := by
  unfold endIntakeAccessOf
  split
  · rename_i c e es ha _
    split
    · obtain ⟨own, h⟩ := h; exact sounds_intakeEnd c c s h ha
    · exact ⟨h, KeepsFlight.refl s⟩
  · exact ⟨h, KeepsFlight.refl s⟩

theorem sounds_endIntakeAccess (s : State) (h : Sounds none .nobody s) : Sounds none .nobody (endIntakeAccess s) := by
  unfold endIntakeAccess
  split
  · rename_i c ha; obtain ⟨own, h⟩ := h; exact (sounds_intakeEnd c c s h ha).1
  · exact h

end Sys2Proof.Machine
end

