-- ==== Sys2Proof/Laws/KeptEvents.lean ====
section
/-! SUPPORT. The grants of the Store Arbiter, the events of the Line Units and the timers keep the laws. -/

namespace Sys2Proof.Machine

-- One after another: side by side the proofs would each wait in a thread of their own.
set_option Elab.async false

variable {own : Fin 16 → List (Fin 128)} {ex : Option (Fin 4)} {cl : Spare}

/-! Grants. -/

/-- With the store free, an access begins that the excepted line alone need not agree with. -/
theorem Sound.beginAccess {s : State} (h : Sound own none cl s) (hn : s.spool.access = none) (a : Access) (q : HeadRequest)
    (ex' : Option (Fin 4)) (hd : ∀ l err, a = .drain l err → ex' = some l)
    (hi : ∀ c, a = .intake c → q = .granted ∧
      ∃ e es, s.intake.fifo = e :: es ∧ ∀ r, jobAt s e.1 = some r → r.tailFill < 256) :
    Sound own ex' cl { s with spool.access := some a, intake.headReq := q } :=
  { h with
    chain := fun j r hj =>
      have hc := h.chain j r hj
      { hc with
        byte := fun n => by
          rcases hc.byte n with hb | hb
          · exact Or.inl hb
          · rw [storingFor_none (fun c hc => by rw [hn] at hc; cases hc)] at hb; cases hb }
    line := fun l hl =>
      have hk := h.line l (by simp)
      { hk with fetch := fun err ha => absurd (hd l err (Option.some.inj ha)) hl }
    access := fun c hc => hi c (Option.some.inj hc) }

theorem Linked.append {f g : Fin 128 → Option (Fin 128)} {bs : List (Fin 128)} {t nb : Fin 128} (h : Linked f bs)
    (hl : bs.getLast? = some t) (hnd : bs.Nodup) (ht : g t = some nb) (hn : g nb = none)
    (ho : ∀ b, b ∈ bs → b ≠ t → g b = f b) : Linked g (bs ++ [nb]) := by
  induction bs with
  | nil => simp at hl
  | cons b bs ih =>
    cases bs with
    | nil =>
      simp only [List.getLast?_singleton, Option.some.injEq] at hl
      subst hl
      exact ⟨ht, hn⟩
    | cons c bs =>
      rw [List.getLast?_cons_cons] at hl
      have hb : b ≠ t := fun e => (List.nodup_cons.1 hnd).1 (e ▸ List.mem_of_getLast? hl)
      exact ⟨(ho b (by simp) hb).trans h.1,
        ih h.2 hl (List.nodup_cons.1 hnd).2 (fun d hd => ho d (List.mem_cons_of_mem _ hd))⟩

theorem storingFor_head {t : State} {j : Fin 16} {b : Byte} {rest : List (Fin 16 × Byte)} {c : BitVec 1}
    (ha : t.spool.access = some (.intake c)) (hq : t.intake.fifo = (j, b) :: rest) : storingFor t j = true := by
  unfold storingFor; rw [ha, hq]; simp

/-- R53: a tail block without room, or no tail block. -/
theorem tailHasRoom_false {r : Job} (h : tailHasRoom r = false) : r.tail = none ∨ 256 ≤ r.tailFill := by
  unfold tailHasRoom at h
  cases ht : r.tail with
  | none => exact Or.inl rfl
  | some t => rw [ht] at h; right; exact Nat.not_lt.1 (of_decide_eq_false h)

/-- R33: a block from the Free List is linked behind the tail of a job for the access that begins. -/
theorem sounds_allocate (j : Fin 16) (r : Job) (b : Byte) (rest : List (Fin 16 × Byte)) (s t : State) (c : BitVec 1)
    (h : Sound own none cl s) (hn : s.spool.access = none) (hq : s.intake.fifo = (j, b) :: rest) (e : jobAt s j = some r)
    (hroom : tailHasRoom r = false) (ha : allocate j r s = some t) :
    Sounds none cl { t with spool.access := some (.intake c), intake.headReq := .granted } := by
  obtain ⟨r0, e0, hopen⟩ := h.fifo (j, b) (by rw [hq]; exact List.mem_cons_self)
  have e0 : jobAt s j = some r0 := e0
  rw [e] at e0; cases e0
  have hne : r.output ≠ .finished := fun n => hopen (h.finished j r e n).1
  have hready := h.ready e
  have hch := h.chain j r e
  have hcu := h.cursor j r e hne
  have hst : ∀ i, storingFor s i = false := storingFor_none (fun c hc => by rw [hn] at hc; cases hc)
  unfold allocate at ha
  split at ha
  · cases ha
  rename_i nb free hfree
  have hnb : nb ∈ s.spool.freeList := by rw [hfree]; simp
  have notOwn : ∀ i, nb ∉ own i := fun i hi => h.notFree hready hi hnb
  cases ht : r.tail with
  | none =>
    rw [ht] at ha
    simp only [Option.some.injEq] at ha
    subst ha
    have hb : own j = [] := hch.empty_iff.2.2.2 ht
    have hl : ∀ x, linkAt (setLink nb none s) x = if x = nb then none else linkAt s x := linkAt_setLink nb none s
    refine ⟨_, h.rechain (bs := [nb])
      (r' := { r with head := some nb, tail := some nb, tailFill := 0, chainLen := r.chainLen + 1,
                      cursor := some { block := nb, off := 0 } }) e
      (fun k => jobAt_setJob j _ _ k) hne ⟨rfl, rfl, rfl, rfl⟩ rfl rfl rfl rfl rfl rfl (fun _ => rfl)
      (fun _ _ n => by cases n) (fun i _ n => by rw [hst] at n; cases n) (fun i _ x hx => ?_) ?_ ?_ (fun hgo => ?_)
      (fun l f p _ _ _ hr => ?_) (fun x => ?_) (fun x hx => ?_) (fun c' _ => ?_)⟩
    · exact (hl x).trans (if_neg (fun (hxn : x = nb) => notOwn i (hxn ▸ hx)))
    · exact
        { head := rfl
          last := rfl
          length := by have := hch.length; rw [hb] at this; simp only [List.length_nil] at this; simp [← this]
          linked := (hl nb).trans (if_pos rfl)
          fill := Nat.zero_le _
          empty := by simp
          byte := fun _ => Or.inr (storingFor_head (c := c) rfl hq) }
    · obtain ⟨_, z2, z3, z4⟩ := hcu.start hb
      have hlen : r.chainLen = 0 := by rw [← hch.length, hb]; rfl
      exact
        { copies := hcu.copies
          start := by simp
          stands := fun _ => ⟨_, 0, rfl, rfl, Nat.zero_le _, by simp only [z2, z3]; omega,
            by simp only [z2, z3, chainBytes, hlen, Config.blockBytes]⟩
          whole := fun _ _ => by simp only [z3, chainBytes, hlen, Config.blockBytes] }
    · have := h.going j r e hne hgo
      exact ⟨this.1, this.2.1, fun _ _ c hc => by cases hc; rfl⟩
    · obtain ⟨i, hi, _⟩ := hr
      rw [hb] at hi; simp at hi
    · change free.count x + _ = _
      rw [hfree, hb, List.count_cons (l := free), List.count_singleton]; simp
    · have hx : x ∈ free := hx
      refine (hl x).trans ?_
      split
      · rfl
      · exact h.freeLinks x (by rw [hfree]; exact List.mem_cons_of_mem _ hx)
    · refine ⟨rfl, (j, b), rest, hq, fun q hqj => ?_⟩
      have hqj : jobAt (setJob j _ _) j = some q := hqj
      rw [jobAt_setJob, if_pos rfl] at hqj
      cases hqj; simp
  | some t0 =>
    rw [ht] at ha
    simp only [Option.some.injEq] at ha
    subst ha
    have hb : own j ≠ [] := fun n => by rw [hch.empty_iff.2.2.1 n] at ht; cases ht
    have hlast : (own j).getLast? = some t0 := hch.last.trans ht
    have ht0 : t0 ∈ own j := List.mem_of_getLast? hlast
    have hfull : r.tailFill = 256 := by
      rcases tailHasRoom_false hroom with hr | hr
      · rw [ht] at hr; cases hr
      · have := hch.fill; omega
    have hnt : t0 ≠ nb := fun n => notOwn j (n ▸ ht0)
    have hl : ∀ x, linkAt (setLink nb none (setLink t0 (some nb) s)) x =
        if x = nb then none else if x = t0 then some nb else linkAt s x := fun x => by
      rw [linkAt_setLink, linkAt_setLink]
    have hlen := hch.length
    have hpos : 1 ≤ r.chainLen := by
      rw [← hlen]; exact List.length_pos_of_ne_nil hb
    have hbytes : chainBytes { r with tail := some nb, tailFill := 0, chainLen := r.chainLen + 1 } = chainBytes r := by
      simp only [chainBytes, Config.blockBytes, hfull]; omega
    obtain ⟨b0, bs0, hbs⟩ := List.exists_cons_of_ne_nil hb
    refine ⟨_, h.rechain (bs := own j ++ [nb])
      (r' := { r with tail := some nb, tailFill := 0, chainLen := r.chainLen + 1 }) e
      (fun k => jobAt_setJob j _ _ k) hne ⟨rfl, rfl, rfl, rfl⟩ rfl rfl rfl rfl rfl rfl (fun _ => rfl)
      (fun _ _ n => by cases n) (fun i _ n => by rw [hst] at n; cases n) (fun i hi x hx => ?_) ?_ ?_ (fun hgo => ?_)
      (fun l f p _ _ _ hr => ?_) (fun x => ?_) (fun x hx => ?_) (fun c' _ => ?_)⟩
    · refine (hl x).trans ?_
      rw [if_neg (fun (hxn : x = nb) => notOwn i (hxn ▸ hx)), if_neg (fun (hxt : x = t0) => h.disjoint hready hi hx (hxt ▸ ht0))]
    · exact
        { head := by rw [← hch.head, hbs]; rfl
          last := by simp
          length := by simp [hlen]
          linked := hch.linked.append hlast (h.nodup hready j) ((hl t0).trans (by rw [if_neg hnt, if_pos rfl]))
            ((hl nb).trans (if_pos rfl))
            (fun x hx hxt => (hl x).trans (by rw [if_neg (fun (n : x = nb) => notOwn j (n ▸ hx)), if_neg hxt]))
          fill := Nat.zero_le _
          empty := by simp
          byte := fun _ => Or.inr (storingFor_head (c := c) rfl hq) }
    · exact
        { copies := hcu.copies
          start := by simp
          stands := fun _ => by
            obtain ⟨c1, i, d1, d2, d3, d4, d5⟩ := hcu.stands hb
            refine ⟨c1, i, d1, ?_, d3, d4, by rw [hbytes]; exact d5⟩
            rw [List.getElem?_append_left, d2]
            by_contra hn2
            rw [List.getElem?_eq_none (by omega)] at d2; cases d2
          whole := fun n _ => by rw [hbytes]; exact hcu.whole n hb }
    · have := h.going j r e hne hgo
      refine ⟨this.1, this.2.1, fun n1 n2 c1 hc1 => ?_⟩
      have := this.2.2 n1 n2 c1 hc1
      rw [hbs] at this ⊢; exact this
    · obtain ⟨i, i1, i2, i3, i4⟩ := hr
      refine ⟨i, ?_, i2, by rw [hbytes]; exact i3, i4⟩
      rw [List.getElem?_append_left, i1]
      by_contra hn2
      rw [List.getElem?_eq_none (by omega)] at i1; cases i1
    · change free.count x + _ = _
      rw [hfree, List.count_append, List.count_cons (l := free), List.count_singleton]
      omega
    · have hx : x ∈ free := hx
      have hxf : x ∈ s.spool.freeList := by rw [hfree]; exact List.mem_cons_of_mem _ hx
      refine (hl x).trans ?_
      split
      · rfl
      · rw [if_neg (fun (hxt : x = t0) => h.notFree hready ht0 (hxt ▸ hxf))]; exact h.freeLinks x hxf
    · refine ⟨rfl, (j, b), rest, hq, fun q hqj => ?_⟩
      have hqj : jobAt (setJob j _ _) j = some q := hqj
      rw [jobAt_setJob, if_pos rfl] at hqj
      cases hqj; simp

theorem sounds_grantIntake (s t : State) (h : Sound own none cl s) (hn : s.spool.access = none) (hg : grantIntake s = some t) :
    Sounds none cl t := by
  unfold grantIntake at hg
  split at hg
  · cases hg
  rename_i j b rest hq
  split at hg
  · cases hg
  rename_i r e
  simp only at hg
  split at hg
  · rename_i hroom
    cases hg
    refine ⟨own, h.beginAccess hn (.intake (checkBit s.window.invchk b)) _ none (fun l err n => by cases n) (fun c _ => ⟨rfl, (j, b), rest, hq, fun q hqj => ?_⟩)⟩
    have hqj : jobAt s j = some q := hqj
    rw [e] at hqj; cases hqj
    unfold tailHasRoom at hroom
    rw [Bool.and_eq_true, decide_eq_true_eq] at hroom
    exact hroom.2
  · rename_i hroom
    rw [Option.map_eq_some_iff] at hg
    obtain ⟨u, hu, rfl⟩ := hg
    exact sounds_allocate j r b rest s u _ h hn hq e (by simpa using hroom) hu

theorem sounds_grantFetch (l : Fin 4) (s t : State) (h : Sound own none cl s) (hn : s.spool.access = none)
    (hstep : (engineAt s l).step = .fetching) (hg : grantFetch l s = some t) : Sounds none cl t := by
  have hk := h.line l (by simp)
  have hsend : (engineAt s l).state = .sending := by
    by_contra hne
    have := (hk.engine.rests hne).1
    rw [hstep] at this; cases this
  unfold grantFetch at hg
  split at hg
  · cases hg
  rename_i j r hcj
  split at hg
  · cases hg
  rename_i hend
  split at hg
  · cases hg
  rename_i p hp
  cases hg
  have e := currentJob_jobAt hcj
  have hc := currentJob_current hcj
  have hne : r.output ≠ .finished := by rw [(h.unfinished hc e).1]; simp
  have hr := h.readsAt e hne (by simpa using hend) hp
  have h1 : Sound own (some l) cl { s with spool.access := some (.drain l (storeRead s p).2), intake.headReq := s.intake.headReq } :=
    h.beginAccess hn (.drain l (storeRead s p).2) _ (some l) (fun k err n => by cases n; rfl) (fun c n => by cases n)
  refine ⟨own, h1.setEngine (ex' := none) l { engineAt s l with fetched := some { value := (storeRead s p).1, kind := .stored, pos := some p } }
    rfl (fun k hk _ => by simp [Ne.symm hk]) (fun _ => ?_) (fun i q f p' c1 c2 c3 c4 => ?_)⟩
  · have s1 := hk.engine.send hsend
    exact
      { engine := SendOk.ok ⟨s1.state, s1.current, s1.cause, s1.starve⟩ hk.engine.hold
          (fun n => by have n : (engineAt s l).step = .boundary := n; rw [hstep] at n; cases n) (fun _ => by simp)
        waits := hk.waits
        flies := hk.flies
        fetch := fun _ _ => ⟨hsend, hstep, by simp⟩ }
  · have c1 : (engineAt s l).current = some i := c1
    rw [hc] at c1; cases c1
    have c2 : jobAt s j = some q := c2
    rw [e] at c2; cases c2
    cases c3; cases c4
    exact hr

theorem sounds_grantVerify (s t : State) (h : Sound own none cl s) (hn : s.spool.access = none) (hg : grantVerify s = some t) :
    Sounds none cl t := by
  unfold grantVerify at hg
  split at hg
  · split at hg
    · cases hg
    · cases hg
      rename_i r p _ _ _
      have h1 := h.beginAccess hn (.verify (storeRead s p).2) s.intake.headReq none (fun l err n => by cases n) (fun c n => by cases n)
      exact ⟨own, h1.same⟩
  · cases hg

theorem sounds_storeGrant (s : State) (h : Sounds none cl s) : Sounds none cl (storeGrant s) := by
  unfold storeGrant
  split
  · rename_i q ha hq
    have hreq := List.find?_some hq
    unfold requesting at hreq
    rw [Bool.and_eq_true] at hreq
    obtain ⟨hat, hsome⟩ := hreq
    obtain ⟨t, ht⟩ := Option.isSome_iff_exists.1 hsome
    rw [ht]
    obtain ⟨own, h⟩ := h
    refine Sounds.same (s := t) ?_
    cases q <;> simp only [grantTo, atRequest, beq_iff_eq] at ht hat
    · exact sounds_grantIntake s t h ha ht
    · exact sounds_grantFetch 0 s t h ha hat ht
    · exact sounds_grantFetch 1 s t h ha hat ht
    · exact sounds_grantFetch 2 s t h ha hat ht
    · exact sounds_grantFetch 3 s t h ha hat ht
    · exact sounds_grantVerify s t h ha ht
  · exact h

/-! The events of the Line Units. -/

theorem Sound.setPar_same {s : State} (h : Sound own ex cl s) (x : Fin 2) (u : ParUnit)
    (hu : u.handshake.phase = (parAt s x).handshake.phase) : Sound own ex cl (Machine.setPar x u s) := by
  refine h.same {} rfl (fun l => ?_)
  rw [unitPhase_setPar]
  split
  · rename_i hl; rw [hl, hu]; unfold unitPhase; rw [unitOf_parLine]
  · rfl

theorem Sound.setSer_same {s : State} (h : Sound own ex cl s) (y : Fin 2) (u : SerUnit)
    (hu : u.transmit.phase = (serAt s y).transmit.phase) : Sound own ex cl (Machine.setSer y u s) := by
  refine h.same {} rfl (fun l => ?_)
  rw [unitPhase_setSer]
  split
  · rename_i hl; rw [hl, hu]; unfold unitPhase; rw [unitOf_serLine]
  · rfl

theorem Sounds.setPar {s : State} (h : Sounds ex cl s) (x : Fin 2) (u : ParUnit)
    (hu : u.handshake.phase = (parAt s x).handshake.phase) : Sounds ex cl (Machine.setPar x u s) := by
  obtain ⟨own, h⟩ := h; exact ⟨own, h.setPar_same x u hu⟩

theorem Sounds.setSer {s : State} (h : Sounds ex cl s) (y : Fin 2) (u : SerUnit)
    (hu : u.transmit.phase = (serAt s y).transmit.phase) : Sounds ex cl (Machine.setSer y u s) := by
  obtain ⟨own, h⟩ := h; exact ⟨own, h.setSer_same y u hu⟩

theorem unitPhase_par (s : State) (x : Fin 2) : unitPhase s (parLine x) = (parAt s x).handshake.phase := by
  unfold unitPhase; rw [unitOf_parLine]

theorem unitPhase_ser (s : State) (y : Fin 2) : unitPhase s (serLine y) = (serAt s y).transmit.phase := by
  unfold unitPhase; rw [unitOf_serLine]

theorem sounds_beforeReport (l : Fin 4) (s : State) (h : Sounds none .nobody s) :
    Sounds none .nobody (beforeReport l s) ∧ KeepsFlight s (beforeReport l s) := by
  unfold beforeReport
  split
  · exact ⟨h, KeepsFlight.refl s⟩
  · split
    · exact sounds_endIntakeAccessOf _ s h
    · exact ⟨h, KeepsFlight.refl s⟩

/-- The unit of a line whose byte is in flight goes to rest: the byte has landed. -/
theorem Sound.landed {l : Fin 4} {s t : State} (h : Sound own none cl s) (k : OnlyLine l s t) (he : engineAt t l = engineAt s l)
    (hs : (engineAt s l).step = .inFlight) (hp : unitPhase t l = .boundary) :
    Sound own (some l) cl t ∧ Landed l t := by
  have hk := h.line l (by simp)
  have hsend : (engineAt s l).state = .sending := by
    by_contra hne
    have := (hk.engine.rests hne).1
    rw [hs] at this; cases this
  refine ⟨h.line' k (fun i hi _ => by simp) (fun n => absurd rfl n) (by rw [he]; exact h.fetched l), ?_⟩
  exact
    { send := by rw [he]; exact hk.engine.send hsend
      step := by rw [he]; exact hs
      fetched := by rw [he]; exact hk.engine.holds (Or.inr hs)
      hold := by rw [he]; exact hk.engine.hold (by rw [hs]; simp)
      phase := by rw [hp]; simp
      access := fun err ha => by
        rw [k.access] at ha
        have := (hk.fetch err ha).2.1
        rw [hs] at this; cases this }

/-- A line whose unit has a byte in flight is SENDING it. -/
theorem Sounds.flying {s : State} (h : Sounds none cl s) {l : Fin 4} (hp : unitPhase s l = .inFlight) :
    (engineAt s l).state = .sending ∧ (engineAt s l).step = .inFlight := by
  obtain ⟨own, h⟩ := h
  have hk := h.line l (by simp)
  have hs := hk.flies.1 hp
  refine ⟨?_, hs⟩
  by_contra hne
  have := (hk.engine.rests hne).1
  rw [hs] at this; cases this

theorem sounds_reportEnd (x : Fin 2) (o : ByteEnd) (s : State) (h : Sounds none .nobody s)
    (hp : unitPhase s (parLine x) = .inFlight) : Sounds none .nobody (reportEnd x o s) := by
  obtain ⟨f1, f2⟩ := h.flying hp
  obtain ⟨h1, k1⟩ := sounds_beforeReport (parLine x) s h
  have hE := k1 (parLine x) (Or.inr ⟨f1, f2⟩)
  unfold reportEnd
  simp only
  generalize beforeReport (parLine x) s = t at *
  obtain ⟨own, h1⟩ := h1
  have key := h1.landed (onlyLine_setPar (parLine x) x
    { parAt t x with handshake := .rest, busySeen := false, ack := none, decided := none, phaseClks := 0 } t (unitOf_parLine x)) rfl
    (by rw [hE]; exact f2) (by rw [unitPhase_setPar, if_pos rfl]; rfl)
  split
  · exact sounds_evalIntake _ (sounds_delivered _ _ key.1 (onlyEx_some _) key.2)
  · exact sounds_evalIntake _ (sounds_failedNoack _ _ key.1 (onlyEx_some _) key.2)

theorem sounds_endFrame (y : Fin 2) (s : State) (h : Sounds none .nobody s) : Sounds none .nobody (endFrame y s) := by
  unfold endFrame
  simp only
  split
  · rename_i ht
    have hp : unitPhase s (serLine y) = .inFlight := by rw [unitPhase_ser, ht]; rfl
    obtain ⟨f1, f2⟩ := h.flying hp
    obtain ⟨h1, k1⟩ := sounds_beforeReport (serLine y) s h
    have hE := k1 (serLine y) (Or.inr ⟨f1, f2⟩)
    generalize beforeReport (serLine y) s = t at *
    obtain ⟨own, h1⟩ := h1
    have key := h1.landed (onlyLine_setSer (serLine y) y
      { serAt t y with transmit := .rest, bitIndex := 0, bitClks := 0 } t (unitOf_serLine y)) rfl
      (by rw [hE]; exact f2) (by rw [unitPhase_setSer, if_pos rfl]; rfl)
    exact sounds_evalIntake _ (sounds_delivered _ _ key.1 (onlyEx_some _) key.2)
  · exact h

theorem byteOut_phase {h : Handshake} (k : byteOut h = true) : h.phase = .inFlight := by
  cases h <;> first | rfl | cases k

theorem sounds_decideByte (x : Fin 2) (o : ByteEnd) (s : State) (h : Sounds none .nobody s) :
    Sounds none .nobody (decideByte x o s) := by
  unfold decideByte
  simp only
  split
  · rename_i hb
    rw [Bool.and_eq_true] at hb
    have h1 := h.setPar x { parAt s x with decided := some o, ack := none } rfl
    split
    · refine sounds_reportEnd x o _ h1 ?_
      rw [unitPhase_setPar, if_pos rfl]; exact byteOut_phase hb.1
    · exact h1
  · exact h

theorem sounds_endSetup (x : Fin 2) (s : State) (h : Sounds none .nobody s) : Sounds none .nobody (endSetup x s) := by
  unfold endSetup
  simp only
  split
  · rename_i hh; exact h.setPar x _ (by rw [hh]; rfl)
  · exact h

theorem sounds_endStrobe (x : Fin 2) (s : State) (h : Sounds none .nobody s) : Sounds none .nobody (endStrobe x s) := by
  unfold endStrobe
  simp only
  split
  · rename_i hh; exact h.setPar x _ (by rw [hh]; rfl)
  · exact h

theorem sounds_endTrail (x : Fin 2) (s : State) (h : Sounds none .nobody s) : Sounds none .nobody (endTrail x s) := by
  unfold endTrail
  simp only
  split
  · rename_i hh
    split
    · exact sounds_reportEnd x _ s h (by rw [unitPhase_par, hh]; rfl)
    · exact h.setPar x _ (by rw [hh]; rfl)
  · exact h

theorem sounds_answerReady (l : Fin 4) (s : State) (h : Sounds none cl s) (hw : unitPhase s l = .waiting) :
    Sounds none cl (answerReady l s) := by
  obtain ⟨own, h⟩ := h; exact ⟨own, sound_answerReady l s h hw⟩

theorem sounds_examineInFlight (x : Fin 2) (old new : ParPins) (s : State) (h : Sounds none .nobody s) :
    Sounds none .nobody (examineInFlight x old new s) := by
  unfold examineInFlight
  simp only
  split
  · split
    · exact h.setPar x _ rfl
    · split
      · exact sounds_decideByte x _ s h
      · exact h
  · split
    · exact sounds_decideByte x _ s h
    · exact h

theorem sounds_changeInputs (x : Fin 2) (new : ParPins) (s : State) (h : Sounds none .nobody s) :
    Sounds none .nobody (changeInputs x new s) := by
  unfold changeInputs
  simp only
  split
  · exact h.setPar x _ rfl
  · have h1 := h.setPar x { parAt s x with pins := new, snapshot := new } rfl
    have hp : unitPhase (setPar x { parAt s x with pins := new, snapshot := new } s) (parLine x) =
        (parAt s x).handshake.phase := by rw [unitPhase_setPar, if_pos rfl]
    split
    · exact h1
    · rename_i hh
      split
      · exact sounds_answerReady _ _ h1 (by rw [hp, hh]; rfl)
      · exact h1
    all_goals exact sounds_examineInFlight x _ _ _ h1

theorem sounds_retestFlow (y : Fin 2) (s : State) (h : Sounds none cl s) : Sounds none cl (retestFlow y s) := by
  unfold retestFlow
  split
  · rename_i hh; exact sounds_answerReady _ _ h (by rw [unitPhase_ser, hh]; rfl)
  · exact h

theorem sounds_changeGo (y : Fin 2) (level : Bool) (s : State) (h : Sounds none cl s) :
    Sounds none cl (changeGo y level s) := by
  unfold changeGo
  simp only
  split
  · exact h.setSer y _ rfl
  · have h1 := h.setSer y { serAt s y with pins.go := level, snapshot.go := level } rfl
    split
    · exact sounds_retestFlow y _ h1
    · exact h1

theorem sounds_setRxd (y : Fin 2) (level : Bool) (s : State) (h : Sounds none cl s) : Sounds none cl (setRxd y level s) :=
  h.setSer y _ rfl

theorem sounds_sampleRxd (y : Fin 2) (s : State) (h : Sounds none cl s) : Sounds none cl (sampleRxd y s) := by
  unfold sampleRxd
  simp only
  split
  · exact h.setSer y _ rfl
  · split <;> exact h.setSer y _ rfl

theorem sounds_actOnCharacter (y : Fin 2) (data : Byte) (s : State) (h : Sounds none cl s) :
    Sounds none cl (actOnCharacter y data s) := by
  unfold actOnCharacter
  simp only
  split
  · exact h.setSer y _ rfl
  · split
    · have h1 := h.setSer y { serAt s y with xoff := false } rfl
      split
      · exact sounds_retestFlow y _ h1
      · exact h1
    · exact h

theorem sounds_receiveCharacter (y : Fin 2) (data : Byte) (parity stop : Bool) (s : State) (h : Sounds none cl s) :
    Sounds none cl (receiveCharacter y data parity stop s) := by
  unfold receiveCharacter
  simp only
  have h1 := sounds_setRxd y stop s h
  split
  · split
    · exact h1.setSer y _ rfl
    · have h2 := h1.setSer y { serAt (setRxd y stop s) y with
        rxData := comparedData (serAt (setRxd y stop s) y).config data, rxParity := parity, startSeen := false, receiver := .hunt } rfl
      split
      · exact sounds_actOnCharacter y _ _ h2
      · exact h2
  · exact h1

theorem sounds_rxdAtMark (y : Fin 2) (s : State) (h : Sounds none cl s) : Sounds none cl (rxdAtMark y s) := by
  unfold rxdAtMark
  simp only
  have h1 := sounds_setRxd y true s h
  split
  · exact h1.setSer y _ rfl
  · exact h1

theorem sounds_rxdFalls (y : Fin 2) (s : State) (h : Sounds none cl s) : Sounds none cl (rxdFalls y s) := by
  unfold rxdFalls
  simp only
  have h1 := sounds_setRxd y false s h
  split
  · exact h1.setSer y _ rfl
  · exact h1

theorem sounds_sampleStartBit (y : Fin 2) (level : Bool) (s : State) (h : Sounds none cl s) :
    Sounds none cl (sampleStartBit y level s) := by
  unfold sampleStartBit
  simp only
  have h1 := sounds_setRxd y level s h
  split
  · exact h1.setSer y _ rfl
  · exact h1

/-! The timers. -/

theorem EngineOk.tick {e : Engine} (h : EngineOk e) : EngineOk (tickEngine e) where
  cause := h.cause
  hasJob := h.hasJob
  noJob := h.noJob
  rests := fun n => by
    obtain ⟨a, b, c⟩ := h.rests n
    exact ⟨a, b, by simp [tickEngine, c]⟩
  starve := fun n => by simp [tickEngine, h.starve n]
  hold := fun n => by simp [tickEngine, h.hold n]
  bound := h.bound
  holds := h.holds

theorem sounds_takeTick (s : State) (h : Sounds none cl s) : Sounds none cl (takeTick s) := by
  unfold takeTick
  split
  · exact h
  · obtain ⟨own, h⟩ := h
    have hE : ∀ l, tab #v[tickEngine (engineAt s 0), tickEngine (engineAt s 1), tickEngine (engineAt s 2),
        tickEngine (engineAt s 3)] l = tickEngine (engineAt s l) := by
      intro l; fin_cases l <;> rfl
    have hP : ∀ x, tab #v[tickPar (parAt s 0), tickPar (parAt s 1)] x = tickPar (parAt s x) := by
      intro x; fin_cases x <;> rfl
    refine ⟨own, h.lines {} (fun l => ?_) (fun l _ => ?_) (fun l => ?_)⟩
    · exact (congrArg Engine.current (hE l)).trans rfl
    · have hk := h.line l (by simp)
      have hp : unitPhase { s with
          timeBase.count := 0
          engines := #v[tickEngine (engineAt s 0), tickEngine (engineAt s 1), tickEngine (engineAt s 2), tickEngine (engineAt s 3)]
          par := #v[tickPar (parAt s 0), tickPar (parAt s 1)] } l = unitPhase s l := by
        unfold unitPhase
        split
        · rename_i x _
          exact (congrArg (fun u : ParUnit => u.handshake.phase) (hP x)).trans rfl
        · rfl
      rw [hp]
      change LineOk l (tab _ l) _ _
      rw [hE]
      exact { engine := hk.engine.tick, waits := hk.waits, flies := hk.flies, fetch := hk.fetch }
    · change FetchedOk s own (tab _ l)
      rw [hE]
      exact h.fetched l

theorem sounds_expireHold (l : Fin 4) (s : State) (h : Sounds none cl s) : Sounds none cl (expireHold l s) := by
  unfold expireHold
  simp only
  split
  · rename_i hc
    simp only [Bool.and_eq_true, decide_eq_true_eq] at hc
    obtain ⟨own, h⟩ := h
    have hk := h.line l (by simp)
    refine ⟨own, sound_enterFault l .holdtime s h (onlyEx_none l) (fun n => ?_) (fun err n => ?_) (by simp)⟩
    · have := hk.flies.1 n; rw [hc.1.2] at this; cases this
    · have := (hk.fetch err n).2.1; rw [hc.1.2] at this; cases this
  · exact h

theorem sounds_expireStarve (l : Fin 4) (s : State) (h : Sounds none cl s) : Sounds none cl (expireStarve l s) := by
  unfold expireStarve
  simp only
  split
  · rename_i hc
    simp only [Bool.and_eq_true, decide_eq_true_eq] at hc
    obtain ⟨own, h⟩ := h
    obtain ⟨_, _, _, p, a⟩ := h.resting l (by rw [hc.1]; simp)
    exact ⟨own, sound_enterFault l .starve s h (onlyEx_none l) p.2 a (by simp)⟩
  · exact h

theorem sounds_expireAck (x : Fin 2) (s : State) (h : Sounds none .nobody s) : Sounds none .nobody (expireAck x s) := by
  unfold expireAck
  simp only
  split
  · exact sounds_decideByte x _ s h
  · exact h

end Sys2Proof.Machine
end

