-- ==== Sys2Proof/Laws/KeptCommands.lean ====
section
/-! SUPPORT. The commands on jobs keep the laws. -/

namespace Sys2Proof.Machine

-- One after another: side by side the proofs would each wait in a thread of their own.
set_option Elab.async false

variable {own : Fin 16 → List (Fin 128)} {ex : Option (Fin 4)} {cl : Spare}

theorem sounds_withJob (b : Byte) (s : State) (k : Fin 16 → Job → State) (h : Sounds none .nobody s)
    (hk : ∀ j r, jobAt s j = some r → Sounds none .nobody (k j r)) : Sounds none .nobody (withJob b s k) := by
  unfold withJob
  split
  · exact sounds_finishCode _ _ h
  · split
    · exact sounds_finishCode _ _ h
    · rename_i r e; exact hk _ r e

theorem sounds_withLine (b : Byte) (s : State) (k : Fin 4 → State) (h : Sounds none .nobody s)
    (hk : ∀ l, Sounds none .nobody (k l)) : Sounds none .nobody (withLine b s k) := by
  unfold withLine
  split
  · exact sounds_finishCode _ _ h
  · exact hk _

/-! OPEN. -/

/-- R2, R3: a free slot is filled with a fresh record, which becomes the target and stands in its queue when QUEUED. -/
theorem Sound.opened {s t : State} (h : Sound own ex cl s) {j : Fin 16} {r : Job} (e : jobAt s j = none)
    (hready : s.window.ready = true) (hj : ∀ k, jobAt t k = if k = j then some r else jobAt s k)
    (hr : r.intake = .opened ∧ r.output ≠ .current ∧ r.output ≠ .finished ∧ r.head = none ∧ r.tail = none ∧ r.tailFill = 0 ∧
      r.chainLen = 0 ∧ r.cursor = none ∧ r.copyPos = 0 ∧ r.stored = 0 ∧ r.anyReleased = false ∧ r.copiesDone = 0 ∧ 0 < r.copies)
    (hq : ∀ l u, queueEntries t l u =
      if r.output = .queued ∧ r.line = l ∧ r.urgent = u then queueEntries s l u ++ [j] else queueEntries s l u)
    (hfifo : t.intake.fifo = s.intake.fifo) (hreq : t.intake.headReq = s.intake.headReq) (ht : t.intake.target = some j)
    (hrec : t.completion = s.completion) (hspool : t.spool = s.spool) (hw : t.window = s.window) (hE : t.engines = s.engines)
    (hp : ∀ l, unitPhase t l = unitPhase s l) : Sound own ex cl t := by
  obtain ⟨r1, r2, r3, r4, r5, r6, r7, r8, r9, r10, r11, r12, r13⟩ := hr
  have hother : ∀ i, i ≠ j → jobAt t i = jobAt s i := fun i hi => by rw [hj, if_neg hi]
  have hself : jobAt t j = some r := by rw [hj, if_pos rfl]
  have hown : own j = [] := h.freeSlot j e
  have hEng : ∀ l, engineAt t l = engineAt s l := fun l => by unfold engineAt; rw [hE]
  have hlink : ∀ b, linkAt t b = linkAt s b := fun b => by unfold linkAt; rw [hspool]
  have hst : ∀ i, storingFor t i = storingFor s i := fun i => by unfold storingFor; rw [hspool, hfifo]
  have hent : ∀ i, hasEntry t i = hasEntry s i := fun i => by unfold hasEntry; rw [hfifo]
  have hnoent : ∀ a, a ∈ s.intake.fifo → a.1 ≠ j := fun a ha n => by
    obtain ⟨q, hq, _⟩ := h.fifo a ha
    rw [n, e] at hq; cases hq
  exact
  { fifoLen := by rw [hfifo]; exact h.fifoLen
    fifo := fun a ha => by
      rw [hfifo] at ha
      rw [hother _ (hnoent a ha)]; exact h.fifo a ha
    target := fun i hi => by
      rw [ht] at hi; cases hi
      exact ⟨r, hself, r1⟩
    closing := fun i q hi hc hn => by
      rw [hent]
      by_cases hij : i = j
      · subst hij; rw [hself] at hi; cases hi; rw [r1] at hc; cases hc
      · rw [hother _ hij] at hi; exact h.closing i q hi hc hn
    queue := fun l u i => by
      have c := h.queue l u i
      rw [hq]
      by_cases hij : i = j
      · subst hij
        rw [hself]; rw [e] at c
        simp only
        split
        · rw [List.count_append, c]; simp
        · exact c
      · rw [hother _ hij, ← c]
        split
        · rw [List.count_append]; simp [Ne.symm hij]
        · rfl
    current := fun l i => by
      rw [hEng, h.current l i]
      by_cases hij : i = j
      · subst hij; rw [hself, e]; simp [r2]
      · rw [hother _ hij]
    finished := fun i q hi ho => by
      by_cases hij : i = j
      · subst hij; rw [hself] at hi; cases hi; exact absurd ho r3
      · rw [hother _ hij] at hi; exact h.finished i q hi ho
    recordsLen := by rw [hrec]; exact h.recordsLen
    waiting := by rw [hrec]; exact h.waiting
    records := fun i => by
      rw [hrec]
      have c := h.records i
      by_cases hij : i = j
      · subst hij; rw [hself]; rw [e] at c; simpa [r3] using c
      · rw [hother _ hij]; exact c
    freeSlot := fun i hi => by
      by_cases hij : i = j
      · subst hij; exact hown
      · exact h.freeSlot i (hother i hij ▸ hi)
    chain := fun i q hi => by
      by_cases hij : i = j
      · subst hij; rw [hself] at hi; cases hi; rw [hown]
        exact
          { head := r4.symm
            last := r5.symm
            length := r7.symm
            linked := trivial
            fill := by rw [r6]; exact Nat.zero_le _
            empty := fun _ => r6
            byte := fun n => absurd rfl n }
      · rw [hother _ hij] at hi
        have c := h.chain i q hi
        exact
          { head := c.head
            last := c.last
            length := c.length
            linked := c.linked.congr (fun b _ => hlink b)
            fill := c.fill
            empty := c.empty
            byte := fun n => by rw [hst]; exact c.byte n }
    cursor := fun i q hi ho => by
      by_cases hij : i = j
      · subst hij; rw [hself] at hi; cases hi; rw [hown]
        exact
          { copies := by rw [r12]; exact Nat.zero_le _
            start := fun _ => ⟨r8, r9, r10, r11⟩
            stands := fun n => absurd rfl n
            whole := fun _ n => absurd rfl n }
      · rw [hother _ hij] at hi; exact h.cursor i q hi ho
    going := fun i q hi ho hn => by
      by_cases hij : i = j
      · subst hij; rw [hself] at hi; cases hi
        exact ⟨by rw [r12]; exact r13, fun n => absurd (r11.symm.trans n) (by simp), fun _ _ c hc => by rw [r8] at hc; cases hc⟩
      · rw [hother _ hij] at hi; exact h.going i q hi ho hn
    blocks := fun hr b => by rw [hspool]; exact h.blocks hready b
    freeLinks := fun b hb => by rw [hlink]; exact h.freeLinks b (hspool ▸ hb)
    emptySlots := fun hr => by rw [hw, hready] at hr; cases hr
    line := fun l hl => by rw [hEng, hp, hspool]; exact h.line l hl
    fetched := fun l i q f p c1 c2 c3 c4 => by
      rw [hEng] at c1 c3
      by_cases hij : i = j
      · subst hij
        obtain ⟨q', d, _⟩ := (h.current l i).1 c1
        rw [e] at d; cases d
      · rw [hother _ hij] at c2; exact h.fetched l i q f p c1 c2 c3 c4
    access := fun c hc => by
      obtain ⟨g, a, as, ha, hr⟩ := h.access c (hspool ▸ hc)
      refine ⟨hreq.trans g, a, as, hfifo.trans ha, fun q hq => ?_⟩
      rw [hother _ (hnoent a (by rw [ha]; simp))] at hq
      exact hr q hq }

theorem sounds_actOpen (l o n q : Byte) (s : State) (h : Sounds none .nobody s) (hr : s.window.ready = true) :
    Sounds none .nobody (actOpen l o n q s) := by
  unfold actOpen
  split
  · exact sounds_finishCode _ _ h
  · rename_i k _
    split
    · exact sounds_finishCode _ _ h
    · rename_i hok
      split
      · exact sounds_finishCode _ _ h
      · rename_i j hj
        have hcop : 0 < n.toNat := by
          have hok : openParamsOk l o n q = true := by simpa using hok
          simp only [openParamsOk, Bool.and_eq_true, decide_eq_true_eq] at hok
          omega
        have e := firstFree_none hj
        obtain ⟨own, h⟩ := h
        simp only
        cases hE : o.getLsbD 1 with
        | true =>
          have hout : (openRecord k o n q).output = .queued := by unfold openRecord; rw [hE]; rfl
          rw [if_pos (by exact hE)]
          refine sounds_settle _ _ ⟨own, h.opened (r := openRecord k o n q) e hr (fun i => ?_) ?_ (fun a u => ?_) rfl rfl rfl rfl rfl rfl rfl
            (fun _ => rfl)⟩
          · rw [jobAt_joinTail, jobAt_finish]; exact jobAt_setJob j _ s i
          · exact ⟨rfl, by rw [hout]; simp, by rw [hout]; simp, rfl, rfl, rfl, rfl, rfl, rfl, rfl, rfl, rfl, hcop⟩
          · rw [queueEntries_joinTail, hout]
            have hs : queueEntries (finish [codeByte Code.ok, byteOf j.val]
                { setJob j (openRecord k o n q) s with intake.target := some j }) a u = queueEntries s a u := rfl
            rw [hs]
            have h1 : (openRecord k o n q).line = k := rfl
            simp only [true_and, h1, eq_comm]
        | false =>
          have hout : (openRecord k o n q).output = .pending := by unfold openRecord; rw [hE]; rfl
          rw [if_neg (by intro n; rw [show (openRecord k o _ q).early = o.getLsbD 1 from rfl, hE] at n; cases n)]
          refine ⟨own, h.opened (r := openRecord k o n q) e hr (fun i => jobAt_setJob j _ s i) ?_ (fun a u => ?_) rfl rfl rfl rfl rfl rfl rfl
            (fun _ => rfl)⟩
          · exact ⟨rfl, by rw [hout]; simp, by rw [hout]; simp, rfl, rfl, rfl, rfl, rfl, rfl, rfl, rfl, rfl, hcop⟩
          · rw [hout]; rfl

/-! TARGET and CLOSE. -/

theorem Sound.toTarget {s : State} (h : Sound own ex cl s) (o : Option (Fin 16))
    (ho : ∀ j, o = some j → ∃ r, jobAt s j = some r ∧ r.intake = .opened) :
    Sound own ex cl { s with intake.target := o } :=
  { h with
    chain := fun j r hj => { h.chain j r hj with }
    target := ho }

theorem sounds_actTarget (b : Byte) (s : State) (h : Sounds none .nobody s) : Sounds none .nobody (actTarget b s) := by
  unfold actTarget
  split
  · obtain ⟨own, h⟩ := h
    exact sounds_finishCode _ _ ⟨own, h.toTarget none (fun j n => by cases n)⟩
  · refine sounds_withJob b s _ h (fun j r e => ?_)
    split
    · exact sounds_finishCode _ _ h
    · rename_i hi
      obtain ⟨own, h⟩ := h
      exact sounds_finishCode _ _ ⟨own, h.toTarget (some j) (fun k n => by cases n; exact ⟨r, e, Classical.not_not.1 hi⟩)⟩

theorem sounds_actClose (b : Byte) (s : State) (h : Sounds none .nobody s) : Sounds none .nobody (actClose b s) := by
  unfold actClose
  refine sounds_withJob b s _ h (fun j r e => ?_)
  split
  · exact sounds_finishCode _ _ h
  · rename_i hi
    have hi : r.intake = .opened := Classical.not_not.1 hi
    obtain ⟨own, h⟩ := h
    have h0 : Sound own none .nobody { s with intake.target := if s.intake.target = some j then none else s.intake.target } := by
      refine h.toTarget _ (fun k n => ?_)
      split at n
      · cases n
      · exact h.target k n
    have hne : (if s.intake.target = some j then none else s.intake.target) ≠ some j := by
      split
      · simp
      · assumption
    have h1 : Sound own none .nobody
        (finishCode .ok { s with intake.target := if s.intake.target = some j then none else s.intake.target }) := h0.same
    have e1 : jobAt (finishCode .ok { s with intake.target := if s.intake.target = some j then none else s.intake.target }) j =
        some r := e
    have ht1 : (finishCode .ok { s with intake.target := if s.intake.target = some j then none else s.intake.target }).intake.target
        ≠ some j := hne
    simp only
    generalize finishCode .ok { s with intake.target := if s.intake.target = some j then none else s.intake.target } = t at *
    split
    · rename_i hent
      have hne : r.output ≠ .finished := fun n => by rw [(h1.finished j r e1 n).1] at hi; cases hi
      refine ⟨own, h1.setJob e1 ⟨rfl, rfl, rfl, rfl, rfl⟩ (Or.inr ⟨ht1, by simp⟩) (fun _ _ => ⟨id, id⟩) (fun _ _ => hent)
        (fun n => absurd n hne) ((h1.chain j r e1).same rfl rfl rfl rfl) (fun n => ?_)
        (fun n m => h1.going j r e1 n m) (fun _ _ _ _ _ _ hr => hr)⟩
      have c := h1.cursor j r e1 n
      exact ⟨c.copies, c.start, c.stands, c.whole⟩
    · rename_i hent
      exact sounds_evalIntake _ (sounds_becomeClosed j t h1 (fun _ _ => by simp [Spare.nobody]) (by simp [Spare.nobody]) ht1
        (by simpa using hent) (by rw [e1]; simp)).1

/-! CANCEL. -/

theorem sounds_retire (j : Fin 16) (o : JobOutcome) (c : Cause) (r : Job) (s : State) (h : Sounds none .nobody s)
    (e : jobAt s j = some r) (hne : r.output ≠ .finished) (hc : r.output ≠ .current) :
    Sounds none .nobody (retire j o c s) := by
  obtain ⟨own, h⟩ := h
  exact (sound_retire j o c r s h (fun _ _ => by simp [Spare.nobody]) e hne (fun l _ => ⟨by simp, fun n => hc n.1⟩)).1

/-- A line gives up its byte cycle; its law is then excepted. -/
theorem Sound.cleared {s : State} (h : Sound own ex cl s) (l : Fin 4) (hx : OnlyEx ex l) (hp : unitPhase s l ≠ .inFlight)
    (ha : ∀ err, s.spool.access ≠ some (.drain l err)) :
    Sound own (some l) cl (clearCycle l s) ∧ Quiet l (clearCycle l s) := by
  have hE := engineAt_clearCycle l s
  refine ⟨h.line' (onlyLine_clearCycle l s) (fun i hi _ => hx i hi) (fun n => absurd rfl n)
    (by rw [hE]; exact FetchedOk.none rfl), ?_⟩
  exact
    { step := by rw [hE]
      fetched := by rw [hE]
      hold := by rw [hE]
      starve := by rw [hE]
      phase := by rw [unitPhase_clearCycle hp]; simp
      access := by
        intro err n
        rw [(onlyLine_clearCycle l s).access] at n
        exact ha err n }

/-- R82: the end of a fetch leaves every slot occupied that was, the line's current job, and no byte in flight. -/
theorem fetchResult_leaves (l : Fin 4) (err : Bool) (s : State) (j : Fin 16) (r : Job) (e : jobAt s j = some r)
    (hp : unitPhase s l ≠ .inFlight) :
    (∃ r', jobAt (fetchResult l err s) j = some r') ∧
      (engineAt (fetchResult l err s) l).current = (engineAt s l).current ∧ unitPhase (fetchResult l err s) l ≠ .inFlight := by
  have policy : ∀ t : State, (∃ r', jobAt t j = some r') → (engineAt t l).current = (engineAt s l).current →
      unitPhase t l ≠ .inFlight → ∀ u : State, u = (match (engineAt t l).config.policy with
      | .halt => enterFault l .check t
      | .substitute => setEngine l { engineAt t l with fetched := (engineAt t l).fetched.map fun f : Fetched =>
          { f with value := (engineAt t l).config.substitute, kind := .substitute } } t) →
      (∃ r', jobAt u j = some r') ∧ (engineAt u l).current = (engineAt s l).current ∧ unitPhase u l ≠ .inFlight := by
    intro t h1 h2 h3 u hu
    subst hu
    split
    · have hj : jobAt (enterFault l .check t) j = jobAt t j := (onlyLine_clearCycle l t).toSameJobs.jobAt j
      have hu : unitPhase (enterFault l .check t) l = unitPhase (clearCycle l t) l := rfl
      refine ⟨by rw [hj]; exact h1, ?_, by rw [hu, unitPhase_clearCycle h3]; simp⟩
      unfold enterFault
      simpa [engineAt_clearCycle] using h2
    · exact ⟨h1, by simpa using h2, h3⟩
  unfold fetchResult
  simp only
  split
  · exact ⟨⟨r, e⟩, rfl, hp⟩
  · cases hc : currentJob (raise .check { s with spool.access := none }) l with
    | none => exact policy (raise .check { s with spool.access := none }) ⟨r, e⟩ rfl hp _ rfl
    | some jr =>
      obtain ⟨i, q⟩ := jr
      refine policy (setJob i { q with checkErrors := satSucc Config.checkTop q.checkErrors } (raise .check { s with spool.access := none }))
        ?_ rfl hp _ rfl
      rw [jobAt_setJob]
      split
      · exact ⟨_, rfl⟩
      · exact ⟨r, e⟩

/-- R20, R99: a current job without a byte in flight is cancelled. -/
theorem sounds_cancelCurrent (l : Fin 4) (j : Fin 16) (s : State) (h : Sounds none .nobody s)
    (hc : (engineAt s l).current = some j) (hf : (engineAt s l).step ≠ .inFlight) :
    Sounds none .nobody (cancelCurrent l j s) := by
  obtain ⟨own, h⟩ := h
  have hp : unitPhase s l ≠ .inFlight := fun n => hf ((h.line l (by simp)).flies.1 n)
  obtain ⟨r, e, _, _⟩ := (h.current l j).1 hc
  -- the fetch in progress has ended
  have main : ∀ t : State, Sound own none .nobody t → (engineAt t l).current = some j → (∃ q, jobAt t j = some q) →
      unitPhase t l ≠ .inFlight → (∀ err, t.spool.access ≠ some (.drain l err)) →
      Sounds none .nobody (settle l (finishCode .ok (setEngine l
        { engineAt (retire j .cancelled .none (clearCycle l t)) l with state := .idle, cause := .none }
        (retire j .cancelled .none (clearCycle l t))))) := by
    intro t ht hct hjt hpt hat
    obtain ⟨q, hq⟩ := hjt
    obtain ⟨h1, q1⟩ := ht.cleared l (onlyEx_none l) hpt hat
    refine sounds_settle _ _ (sounds_finishCode _ _ (sounds_retireLine l j .cancelled .none .idle .none q _ h1
      (fun _ _ => by simp [Spare.nobody]) (onlyEx_some l) q1 ?_ ?_ (Or.inl ⟨rfl, rfl⟩)))
    · rw [engineAt_clearCycle]; exact hct
    · rw [(onlyLine_clearCycle l t).toSameJobs.jobAt]; exact hq
  unfold cancelCurrent
  simp only
  split
  · rename_i k err ha
    split
    · rename_i hk
      subst hk
      obtain ⟨h1, a1⟩ := sound_fetchResult k err err s h ha
      obtain ⟨hq, hqc, hqp⟩ := fetchResult_leaves k err s j r e hp
      exact main _ h1 (hqc.trans hc) hq hqp (fun err n => by rw [a1] at n; cases n)
    · rename_i hk
      exact main s h hc ⟨r, e⟩ hp (fun err n => by rw [ha] at n; cases n; exact hk rfl)
  · rename_i hn
    exact main s h hc ⟨r, e⟩ hp (fun err n => hn l err n)

theorem sounds_cancelJob (b : Byte) (s : State) (h : Sounds none .nobody s) : Sounds none .nobody (cancelJob b s) := by
  unfold cancelJob
  refine sounds_withJob b s _ h (fun j r e => ?_)
  split
  · rename_i ho
    exact sounds_evalIntake _ (sounds_finishCode _ _ (sounds_retire j _ _ r s h e (by rw [ho]; simp) (by rw [ho]; simp)))
  · rename_i ho
    exact sounds_evalIntake _ (sounds_finishCode _ _ (sounds_retire j _ _ r s h e (by rw [ho]; simp) (by rw [ho]; simp)))
  · rename_i ho
    split
    · obtain ⟨own, h⟩ := h; exact ⟨own, h.setJob_same e {}⟩
    · rename_i hf
      refine sounds_cancelCurrent r.line j s h ?_ hf
      obtain ⟨own, h⟩ := h
      exact (h.current r.line j).2 ⟨r, e, ho, rfl⟩
  · exact sounds_finishCode _ _ h

theorem sounds_actCancel (b : Byte) (s : State) (h : Sounds none .nobody s) : Sounds none .nobody (actCancel b s) := by
  unfold actCancel
  apply sounds_cancelJob
  split
  · exact h
  · exact (sounds_endIntakeAccessOf _ s h).1

/-! HOLD, RELEASE and MOVE. -/

theorem sounds_pauseLine (l : Fin 4) (s : State) (h : Sounds none cl s) : Sounds none cl (pauseLine l s) := by
  obtain ⟨own, h⟩ := h; exact ⟨own, sound_pauseLine l s h⟩

theorem Sounds.setJob_same {s : State} (h : Sounds ex cl s) {j : Fin 16} {r r' : Job} (e : jobAt s j = some r)
    (k : SameRecord r r') : Sounds ex cl (Machine.setJob j r' s) := by
  obtain ⟨own, h⟩ := h; exact ⟨own, h.setJob_same e k⟩

theorem sounds_actHold (b : Byte) (s : State) (h : Sounds none .nobody s) : Sounds none .nobody (actHold b s) := by
  unfold actHold
  refine sounds_withJob b s _ h (fun j r e => ?_)
  split
  · exact sounds_finishCode _ _ h
  · split
    · exact sounds_finishCode _ _ h
    · have h1 := sounds_finishCode .ok _ (h.setJob_same (r' := { r with held := true }) e {})
      simp only
      split
      · exact sounds_pauseLine _ _ h1
      · exact h1

theorem sounds_actRelease (b : Byte) (s : State) (h : Sounds none .nobody s) : Sounds none .nobody (actRelease b s) := by
  unfold actRelease
  refine sounds_withJob b s _ h (fun j r e => ?_)
  split
  · exact sounds_finishCode _ _ h
  · split
    · exact sounds_finishCode _ _ h
    · have h1 := sounds_finishCode .ok _ (h.setJob_same (r' := { r with held := false }) e {})
      simp only
      split
      · exact sounds_settle _ _ h1
      · exact sounds_evalIntake _ (sounds_resumeLine _ _ h1)
      · exact h1
      · exact h1

/-- R14, R15: a job that is not FINISHED takes a line, and stands there QUEUED or PENDING. -/
theorem Sound.moved {s t : State} (h : Sound own ex cl s) {ex' : Option (Fin 4)} {j : Fin 16} {r : Job} (l : Fin 4) (o : OutputPhase)
    (e : jobAt s j = some r) (hne : r.output ≠ .finished) (ho : o ≠ .finished ∧ o ≠ .current)
    (hj : ∀ k, jobAt t k = if k = j then some { r with line := l, output := o } else jobAt s k) (k : SameRest s t)
    (hq : ∀ a u i, (queueEntries t a u).count i =
      if i = j then (if o = .queued ∧ l = a ∧ r.urgent = u then 1 else 0) else (queueEntries s a u).count i)
    (hc : ∀ a, (engineAt t a).current = if (engineAt s a).current = some j then none else (engineAt s a).current)
    (hl : ∀ a, ex' ≠ some a → LineOk a (engineAt t a) (unitPhase t a) s.spool.access)
    (hf : ∀ a, (engineAt t a).fetched = (engineAt s a).fetched) : Sound own ex' cl t := by
  have c := h.cursor j r e hne
  refine h.job (r' := { r with line := l, output := o }) e hj k (Or.inl rfl) (fun _ _ => ⟨id, id⟩) (fun n m => h.closing j r e n m)
    rfl rfl (by simp [hne, ho.1]) (fun n => absurd n ho.1) ((h.chain j r e).same rfl rfl rfl rfl)
    (fun _ => ⟨c.copies, c.start, c.stands, c.whole⟩) (fun _ n => h.going j r e hne n) (fun a u i => ?_) (fun a i => ?_) hl
    (fun a i q f p c1 c2 c3 c4 => ?_)
  · rw [hq, hj]
    split
    · rfl
    · exact h.queue a u i
  · rw [hc, hj]
    have hci := h.current a i
    by_cases hij : i = j
    · subst hij
      rw [if_pos rfl]
      constructor
      · intro n
        split at n
        · cases n
        · rename_i hn; exact absurd n hn
      · rintro ⟨q, d1, d2, _⟩
        cases d1; exact absurd d2 ho.2
    · rw [if_neg hij, ← hci]
      split
      · rename_i hn; rw [hn]; simp [Ne.symm hij]
      · exact Iff.rfl
  · rw [hc] at c1
    rw [hf] at c3
    rw [hj] at c2
    split at c1
    · cases c1
    · by_cases hij : i = j
      · subst hij; rename_i hn; exact absurd c1 hn
      · rw [if_neg hij] at c2; exact h.fetched a i q f p c1 c2 c3 c4

theorem queueEntries_leaveQueue (l : Fin 4) (j : Fin 16) (s : State) (k : Fin 4) (u : Bool) :
    queueEntries (leaveQueue l j s) k u = if k = l then (queueEntries s k u).filter (· ≠ j) else queueEntries s k u := by
  unfold queueEntries leaveQueue
  rw [queueAt_setQueue]
  by_cases hkl : k = l
  · subst hkl; cases u <;> simp
  · simp [hkl]

theorem queueEntries_joinHead (l : Fin 4) (u : Bool) (j : Fin 16) (s : State) (k : Fin 4) (v : Bool) :
    queueEntries (joinHead l u j s) k v = if k = l ∧ v = u then j :: queueEntries s k v else queueEntries s k v := by
  unfold queueEntries joinHead
  rw [queueAt_setQueue]
  by_cases hk : k = l
  · subst hk
    rw [if_pos rfl]
    cases u <;> cases v <;> simp
  · rw [if_neg hk]; simp [hk]

/-- A job that is not QUEUED stands in no queue. -/
theorem Sound.notQueued {s : State} (h : Sound own ex cl s) {j : Fin 16} {r : Job} (e : jobAt s j = some r)
    (ho : r.output ≠ .queued) (l : Fin 4) (u : Bool) : (queueEntries s l u).count j = 0 := by
  have := h.queue l u j
  rw [e] at this
  simpa [ho] using this

/-- A job that is not CURRENT is no line's current job. -/
theorem Sound.notCurrent {s : State} (h : Sound own ex cl s) {j : Fin 16} {r : Job} (e : jobAt s j = some r)
    (ho : r.output ≠ .current) (l : Fin 4) : (engineAt s l).current ≠ some j := fun n => ho (h.unfinished n e).1

theorem sound_movePending (j : Fin 16) (r : Job) (l : Fin 4) (s : State) (h : Sound own ex cl s) (e : jobAt s j = some r)
    (ho : r.output = .pending) : Sound own ex cl (setJob j { r with line := l } s) := by
  refine h.moved l .pending e (by rw [ho]; simp) (by simp) (fun k => ?_) {} (fun a u i => ?_) (fun a => ?_)
    h.line (fun _ => rfl)
  · rw [jobAt_setJob, ← ho]
  · have hs : queueEntries (setJob j { r with line := l } s) a u = queueEntries s a u := rfl
    rw [hs]
    split
    · rename_i hij; subst hij; rw [h.notQueued e (by rw [ho]; simp)]; simp
    · rfl
  · rw [if_neg (h.notCurrent e (by rw [ho]; simp) a)]; rfl

theorem sound_moveQueued (j : Fin 16) (r : Job) (l : Fin 4) (s : State) (h : Sound own ex cl s) (e : jobAt s j = some r)
    (ho : r.output = .queued) :
    Sound own ex cl (joinTail l r.urgent j (setJob j { r with line := l } (leaveQueue r.line j s))) := by
  refine h.moved l .queued e (by rw [ho]; simp) (by simp) (fun k => ?_) {} (fun a u i => ?_) (fun a => ?_)
    h.line (fun _ => rfl)
  · rw [jobAt_joinTail, jobAt_setJob, jobAt_leaveQueue, ← ho]
  · rw [queueEntries_joinTail]
    have hs : queueEntries (setJob j { r with line := l } (leaveQueue r.line j s)) a u =
        queueEntries (leaveQueue r.line j s) a u := rfl
    rw [hs, queueEntries_leaveQueue]
    have hq := h.queue a u i
    have left : (if a = r.line then (queueEntries s a u).filter (· ≠ j) else queueEntries s a u).count i =
        if i = j then 0 else (queueEntries s a u).count i := by
      split
      · exact count_filter_ne _ i j
      · rename_i hn
        split
        · rename_i hij
          subst hij
          rw [hq, e]
          simp only
          rw [if_neg (fun n => hn n.2.1.symm)]
        · rfl
    split
    · rename_i hn
      rw [List.count_append, left]
      by_cases hij : i = j
      · subst hij; simp [hn.1, hn.2]
      · simp [hij, Ne.symm hij]
    · rename_i hn
      rw [left]
      split
      · rw [if_neg (fun m => hn ⟨m.2.1.symm, m.2.2.symm⟩)]
      · rfl
  · rw [if_neg (h.notCurrent e (by rw [ho]; simp) a)]; rfl

theorem sounds_moveCurrent (j : Fin 16) (r : Job) (l : Fin 4) (s : State) (h : Sounds none .nobody s) (e : jobAt s j = some r)
    (ho : r.output = .current) (hs : (engineAt s r.line).state = .paused ∨ (engineAt s r.line).state = .fault) :
    Sounds none .nobody (moveCurrent j r l s) := by
  obtain ⟨own, h⟩ := h
  have hcur := (h.current r.line j).2 ⟨r, e, ho, rfl⟩
  have hk := h.line r.line (by simp)
  obtain ⟨q1, q2, q3, q4, q5⟩ := h.resting r.line (by rcases hs with hs | hs <;> rw [hs] <;> simp)
  have qs := hk.engine.starve (by rcases hs with hs | hs <;> rw [hs] <;> simp)
  have quiet : Quiet r.line s := ⟨q1, q2, q3, qs, q4, q5⟩
  unfold moveCurrent
  refine sounds_settle _ _ (sounds_settle _ _ (sounds_finishCode _ _ ⟨own, h.moved l .queued e (by rw [ho]; simp) (by simp) (fun k => ?_)
    {} (fun a u i => ?_) (fun a => ?_) (fun a _ => ?_) (fun a => ?_)⟩))
  · rw [jobAt_joinHead, jobAt_setJob]; rfl
  · rw [queueEntries_joinHead]
    have hs : queueEntries (setJob j { r with line := l, output := .queued } (setEngine r.line
        { engineAt s r.line with
          current := none
          state := if (engineAt s r.line).state = .paused then .idle else (engineAt s r.line).state } s)) a u =
        queueEntries s a u := rfl
    rw [hs]
    by_cases hij : i = j
    · subst hij
      have h0 := h.notQueued e (by rw [ho]; simp) a u
      rw [if_pos rfl]
      split
      · rename_i hn; rw [List.count_cons_self, h0, if_pos ⟨rfl, hn.1.symm, hn.2.symm⟩]
      · rename_i hn; rw [h0, if_neg (fun m => hn ⟨m.2.1.symm, m.2.2.symm⟩)]
    · rw [if_neg hij]
      split
      · rw [List.count_cons_of_ne (Ne.symm hij)]
      · rfl
  · change (engineAt (setEngine r.line _ s) a).current = _
    rw [engineAt_setEngine]
    by_cases ha : a = r.line
    · subst ha; rw [if_pos rfl, if_pos hcur]
    · rw [if_neg ha, if_neg]
      intro n
      exact ha (h.unfinished n e).2.symm
  · change LineOk a (engineAt (setEngine r.line _ s) a) (unitPhase s a) s.spool.access
    rw [engineAt_setEngine]
    by_cases ha : a = r.line
    · subst ha
      rw [if_pos rfl]
      have := quiet.line (if (engineAt s r.line).state = .paused then .idle else (engineAt s r.line).state) none
        (engineAt s r.line).cause (engineAt s r.line).stop
        (by rcases hs with hs | hs <;> rw [hs] <;> simp)
        (by rw [hk.engine.cause]; rcases hs with hs | hs <;> rw [hs] <;> simp)
        (by rcases hs with hs | hs <;> rw [hs] <;> simp) (fun _ => rfl) q5
      exact this
    · rw [if_neg ha]; exact h.line a (by simp)
  · change (engineAt (setEngine r.line _ s) a).fetched = _
    rw [engineAt_setEngine]
    by_cases ha : a = r.line
    · subst ha; rw [if_pos rfl]
    · rw [if_neg ha]

theorem sounds_actMove (b line : Byte) (s : State) (h : Sounds none .nobody s) : Sounds none .nobody (actMove b line s) := by
  unfold actMove
  split
  · exact sounds_finishCode _ _ h
  · rename_i l _
    refine sounds_withJob b s _ h (fun j r e => ?_)
    split
    · exact sounds_finishCode _ _ h
    · split
      · exact sounds_finishCode _ _ h
      · rename_i ho
        obtain ⟨own, h⟩ := h
        exact sounds_finishCode _ _ ⟨own, sound_movePending j r l s h e ho⟩
      · rename_i ho
        obtain ⟨own, h⟩ := h
        exact sounds_settle _ _ (sounds_finishCode _ _ ⟨own, sound_moveQueued j r l s h e ho⟩)
      · rename_i ho
        split
        · rename_i hs; exact sounds_moveCurrent j r l s h e ho hs
        · exact sounds_finishCode _ _ h

/-! VERIFY, TAKE and the queries. -/

theorem sounds_actVerify (b : Byte) (s : State) (h : Sounds none .nobody s) : Sounds none .nobody (actVerify b s) := by
  unfold actVerify
  refine sounds_withJob b s _ h (fun j r e => ?_)
  split
  · exact sounds_finish _ _ h
  · obtain ⟨own, h⟩ := h
    exact ⟨own, sound_scanStep _ h.same⟩

theorem sounds_actQueryJob (b : Byte) (s : State) (h : Sounds none .nobody s) : Sounds none .nobody (actQueryJob b s) :=
  sounds_withJob b s _ h (fun _ _ _ => sounds_finish _ _ h)

theorem sounds_actStoreQuery (s : State) (h : Sounds none .nobody s) : Sounds none .nobody (actStoreQuery s) :=
  sounds_finish _ _ h

/-- R23, R138: the job of the oldest record leaves its slot, and the oldest waiting job, if one waits, is posted. -/
theorem Sound.taken {s t : State} (h : Sound own ex cl s) {rec : Record} {rest : List Record}
    (hq : s.completion.queue = rec :: rest) (next : Option (Fin 16)) (more : List (Fin 16))
    (hn : s.completion.postWait = (match next with | none => more | some k => k :: more)) (hm : next = none → more = [])
    (hj : ∀ i, jobAt t i = if i = rec.job then none else
      (if next = some i then (jobAt s i).map (fun r => { r with posted := true }) else jobAt s i))
    (hrecs : t.completion.queue.map Record.job = rest.map Record.job ++ next.toList) (hwait : t.completion.postWait = more)
    (hi : t.intake = s.intake) (hspool : t.spool = s.spool) (hw : t.window = s.window) (hqs : t.queues = s.queues)
    (hE : t.engines = s.engines) (hp : ∀ l, unitPhase t l = unitPhase s l) : Sound own ex cl t := by
  have hlink : ∀ b, linkAt t b = linkAt s b := fun b => by unfold linkAt; rw [hspool]
  have hst : ∀ i, storingFor t i = storingFor s i := fun i => by unfold storingFor; rw [hspool, hi]
  have hent : ∀ i, hasEntry t i = hasEntry s i := fun i => by unfold hasEntry; rw [hi]
  have hEng : ∀ l, engineAt t l = engineAt s l := fun l => by unfold engineAt; rw [hE]
  have hent : ∀ i, hasEntry t i = hasEntry s i := fun i => by unfold hasEntry; rw [hi]
  -- the job taken is FINISHED and posted, the one posted is FINISHED and waits
  obtain ⟨r, e, ho, hpos⟩ : ∃ r, jobAt s rec.job = some r ∧ r.output = .finished ∧ r.posted = true := by
    have c := (h.records rec.job).1
    rw [hq] at c
    cases e : jobAt s rec.job with
    | none => rw [e] at c; simp at c
    | some r =>
      rw [e] at c
      simp only [List.map_cons, List.count_cons_self] at c
      by_cases hc : r.output = .finished ∧ r.posted = true
      · exact ⟨r, rfl, hc.1, hc.2⟩
      · rw [if_neg hc] at c; omega
  have hnext : ∀ k, next = some k → k ≠ rec.job ∧ ∃ q, jobAt s k = some q ∧ q.output = .finished ∧ q.posted = false := fun k hk => by
    have c := (h.records k).2
    rw [hn, hk] at c
    simp only [List.count_cons_self] at c
    cases ek : jobAt s k with
    | none => rw [ek] at c; simp at c
    | some q =>
      rw [ek] at c
      simp only at c
      by_cases hc : q.output = .finished ∧ q.posted = false
      · refine ⟨fun n => ?_, q, rfl, hc.1, hc.2⟩
        rw [n, e] at ek; cases ek; rw [hpos] at hc; simp at hc
      · rw [if_neg hc] at c; omega
  -- every record left stands as it did, but for what it says of posting
  have back : ∀ i q, jobAt t i = some q → i ≠ rec.job ∧ ∃ q0, jobAt s i = some q0 ∧ SameRecord { q0 with posted := q.posted } q :=
    fun i q hiq => by
      rw [hj] at hiq
      split at hiq
      · cases hiq
      · rename_i hne
        refine ⟨hne, ?_⟩
        split at hiq
        · rename_i hni
          obtain ⟨_, q0, h0, _, _⟩ := hnext i hni
          rw [h0] at hiq; cases hiq
          exact ⟨q0, h0, {}⟩
        · exact ⟨q, hiq, {}⟩
  have forth : ∀ i q0, jobAt s i = some q0 → i ≠ rec.job →
      ∃ q, jobAt t i = some q ∧ SameRecord { q0 with posted := q.posted } q := fun i q0 h0 hne => by
    rw [hj, if_neg hne]
    split
    · rw [h0]; exact ⟨_, rfl, {}⟩
    · exact ⟨q0, h0, {}⟩
  have hopen : ∀ i q, jobAt s i = some q → q.intake ≠ .closed → i ≠ rec.job := fun i q hiq hc n => by
    rw [n, e] at hiq; cases hiq
    exact hc (h.finished rec.job r e ho).1
  exact
  { fifoLen := by rw [hi]; exact h.fifoLen
    fifo := fun a ha => by
      obtain ⟨q, c1, c2⟩ := h.fifo a (hi ▸ ha)
      obtain ⟨q', d1, d2⟩ := forth a.1 q c1 (hopen _ q c1 c2)
      exact ⟨q', d1, by rw [d2.intake]; exact c2⟩
    target := fun i ht => by
      obtain ⟨q, c1, c2⟩ := h.target i (hi ▸ ht)
      obtain ⟨q', d1, d2⟩ := forth i q c1 (hopen _ q c1 (by rw [c2]; simp))
      exact ⟨q', d1, by rw [d2.intake]; exact c2⟩
    closing := fun i q hiq hc hne => by
      obtain ⟨_, q0, c1, c2⟩ := back i q hiq
      rw [hent]
      exact h.closing i q0 c1 (c2.intake.symm.trans hc) hne
    queue := fun l u i => by
      have c := h.queue l u i
      have : queueEntries t l u = queueEntries s l u := by unfold queueEntries queueAt; rw [hqs]
      rw [this, c]
      by_cases hir : i = rec.job
      · rw [hj, if_pos hir, hir, e]; simp [ho]
      · cases h0 : jobAt s i with
        | none => rw [hj, if_neg hir, h0, Option.map_none, ite_self]
        | some q0 =>
          obtain ⟨q, d1, d2⟩ := forth i q0 h0 hir
          rw [d1]
          simp only [d2.output, d2.line, d2.urgent]
    current := fun l i => by
      rw [hEng, h.current l i]
      constructor
      · rintro ⟨q0, c1, c2, c3⟩
        have hir : i ≠ rec.job := fun n => by rw [n, e] at c1; cases c1; rw [ho] at c2; cases c2
        obtain ⟨q, d1, d2⟩ := forth i q0 c1 hir
        exact ⟨q, d1, d2.output.trans c2, d2.line.trans c3⟩
      · rintro ⟨q, c1, c2, c3⟩
        obtain ⟨_, q0, d1, d2⟩ := back i q c1
        exact ⟨q0, d1, d2.output.symm.trans c2, d2.line.symm.trans c3⟩
    finished := fun i q hiq hof => by
      obtain ⟨_, q0, c1, c2⟩ := back i q hiq
      obtain ⟨a, b, c, d⟩ := h.finished i q0 c1 (c2.output.symm.trans hof)
      exact ⟨c2.intake.trans a, by rw [c2.copyPos, c2.stored]; exact b, by rw [c2.copies, c2.copiesDone]; exact c, d⟩
    recordsLen := by
      have c := congrArg List.length hrecs
      rw [List.length_map, List.length_append, List.length_map] at c
      have l8 := h.recordsLen
      rw [hq, List.length_cons] at l8
      rw [c]
      cases next <;> simp <;> omega
    waiting := by
      rw [hwait]
      cases hnx : next with
      | none => exact Or.inl (hm hnx)
      | some k =>
        have c := congrArg List.length hrecs
        rw [List.length_map, List.length_append, List.length_map, hnx] at c
        rcases h.waiting with w | w
        · rw [hn, hnx] at w; cases w
        · rw [hq, List.length_cons] at w
          right; rw [c]; simp; omega
    records := fun i => by
      have c := h.records i
      rw [hrecs, hwait, List.count_append]
      rw [hq, hn] at c
      simp only [List.map_cons, List.count_cons] at c
      by_cases hir : i = rec.job
      · have hnn : next ≠ some i := fun n => (hnext i n).1 hir
        have hno : next.toList.count i = 0 := by
          rw [List.count_eq_zero]; simpa [Option.mem_toList] using hnn
        have hnw : (match next with | none => more | some k => k :: more).count i = more.count i := by
          cases next with
          | none => rfl
          | some k => exact List.count_cons_of_ne (fun n => hnn (by rw [n]))
        rw [hnw] at c
        rw [hj, if_pos hir, hno]
        rw [hir, e] at c
        simp only [ho, hpos, hir] at c ⊢
        simp at c ⊢
        omega
      · have hr0 : (if (rec.job == i) = true then 1 else 0) = 0 := by simp [Ne.symm hir]
        rw [hr0] at c
        by_cases hni : next = some i
        · obtain ⟨_, q, eq, c1, c2⟩ := hnext i hni
          rw [hj, if_neg hir, if_pos hni, eq]
          rw [eq, hni] at c
          simp only [c1, c2, List.count_cons_self] at c
          rw [hni]
          simp [c1] at c ⊢
          omega
        · rw [hj, if_neg hir, if_neg hni]
          have hno : next.toList.count i = 0 := by
            rw [List.count_eq_zero]; simpa [Option.mem_toList] using hni
          have hnw : (match next with | none => more | some k => k :: more).count i = more.count i := by
            cases next with
            | none => rfl
            | some k => exact List.count_cons_of_ne (fun n => hni (by rw [n]))
          rw [hno]; rw [hnw] at c; exact c
    freeSlot := fun i hiq => by
      by_cases hir : i = rec.job
      · rw [hir]; exact (h.finished rec.job r e ho).2.2.2
      · cases h0 : jobAt s i with
        | none => exact h.freeSlot i h0
        | some q0 =>
          obtain ⟨q, d1, _⟩ := forth i q0 h0 hir
          rw [d1] at hiq; cases hiq
    chain := fun i q hiq => by
      obtain ⟨_, q0, c1, c2⟩ := back i q hiq
      have c := (h.chain i q0 c1).same c2.head c2.tail c2.chainLen c2.tailFill
      exact
        { head := c.head
          last := c.last
          length := c.length
          linked := c.linked.congr (fun b _ => hlink b)
          fill := c.fill
          empty := c.empty
          byte := fun n => by rw [hst]; exact c.byte n }
    cursor := fun i q hiq hne => by
      obtain ⟨_, q0, c1, c2⟩ := back i q hiq
      have c := h.cursor i q0 c1 (fun n => hne (c2.output.trans n))
      exact CursorOk.same (r := { q0 with posted := q.posted }) ⟨c.copies, c.start, c.stands, c.whole⟩ c2
    going := fun i q hiq hne hn => by
      obtain ⟨_, q0, c1, c2⟩ := back i q hiq
      have := h.going i q0 c1 (fun n => hne (c2.output.trans n)) hn
      unfold Going at this ⊢
      rw [c2.copies, c2.copiesDone, c2.anyReleased, c2.retain, c2.cursor]; exact this
    blocks := fun hr b => by rw [hspool]; exact h.blocks (hw ▸ hr) b
    freeLinks := fun b hb => by rw [hlink]; exact h.freeLinks b (hspool ▸ hb)
    emptySlots := fun hr => by have := h.ready e; rw [hw, this] at hr; cases hr
    line := fun l hl => by rw [hEng, hp, hspool]; exact h.line l hl
    fetched := fun l i q f p c1 c2 c3 c4 => by
      rw [hEng] at c1 c3
      obtain ⟨_, q0, d1, d2⟩ := back i q c2
      have := h.fetched l i q0 f p c1 d1 c3 c4
      unfold ReadsAt at this ⊢
      rw [d2.copyPos, d2.stored, chainBytes_same d2.chainLen d2.tailFill]; exact this
    access := fun c hc => by
      obtain ⟨g, a, as, ha, hr⟩ := h.access c (hspool ▸ hc)
      refine ⟨by rw [hi]; exact g, a, as, by rw [hi]; exact ha, fun q hiq => ?_⟩
      obtain ⟨_, q0, d1, d2⟩ := back a.1 q hiq
      rw [d2.tailFill]; exact hr q0 d1 }

theorem sounds_actTake (s : State) (h : Sounds none .nobody s) : Sounds none .nobody (actTake s) := by
  unfold actTake
  split
  · exact sounds_finishCode _ _ h
  · rename_i rec rest hq
    obtain ⟨own, h⟩ := h
    simp only
    split
    · rename_i hw
      exact ⟨own, h.taken hq none [] hw (fun _ => rfl) (fun i => jobAt_freeSlot rec.job { s with completion.queue := rest } i)
        (List.append_nil _).symm hw rfl rfl rfl rfl rfl (fun _ => rfl)⟩
    · rename_i k more hw
      have hw : s.completion.postWait = k :: more := hw
      have hkj : k ≠ rec.job ∧ ∃ q, jobAt s k = some q := by
        have c := (h.records k).2
        rw [hw, List.count_cons_self] at c
        cases ek : jobAt s k with
        | none => rw [ek] at c; simp at c
        | some q =>
          rw [ek] at c
          simp only at c
          refine ⟨fun n => ?_, q, rfl⟩
          have c2 := (h.records k).1
          rw [hq, ek] at c2
          simp only [List.map_cons, ← n, List.count_cons_self] at c2
          split at c
          · rename_i hc; rw [if_neg (by rw [hc.2]; simp)] at c2; omega
          · omega
      obtain ⟨hkj, q, hkq⟩ := hkj
      unfold post
      have hjk : jobAt { finish (codeByte .ok :: recordBytes rec) (freeSlot rec.job { s with completion.queue := rest }) with
          completion.postWait := more } k = some q := by
        have := jobAt_freeSlot rec.job { s with completion.queue := rest } k
        rw [if_neg hkj] at this
        exact this.trans hkq
      rw [hjk]
      simp only
      refine ⟨own, h.taken hq (some k) more hw (by simp) (fun i => ?_) ?_ rfl rfl rfl rfl rfl rfl (fun _ => rfl)⟩
      · rw [jobAt_raise]
        refine (jobAt_setJob k _ _ i).trans ?_
        have hf := jobAt_freeSlot rec.job { s with completion.queue := rest } i
        by_cases hik : i = k
        · subst hik
          rw [if_pos rfl, if_neg hkj, if_pos rfl, hkq]; rfl
        · rw [if_neg hik, if_neg (c := some k = some i) (by simpa using Ne.symm hik)]
          exact hf
      · simp [raise, finish, freeSlot, setJob, recordOf]

end Sys2Proof.Machine
end

