-- ==== Sys2Proof/Laws/KeptPort.lean ====
section
/-! SUPPORT. The commands on lines, the Command Port, the host's other writes, the resets and a CLK period keep the laws. -/

namespace Sys2Proof.Machine

-- One after another: side by side the proofs would each wait in a thread of their own.
set_option Elab.async false

variable {own : Fin 16 → List (Fin 128)} {ex : Option (Fin 4)} {cl : Spare}

/-! The commands on lines. -/

/-- A line that rests takes a state that is not SENDING, keeping its current job. -/
theorem Sound.restLine {s : State} (h : Sound own ex cl s) (l : Fin 4) (hx : OnlyEx ex l) (q : Quiet l s) (st : LineState)
    (o : Cause) (stop : Bool) (hs : st ≠ .sending) (ho : o = .none ↔ st ≠ .fault)
    (h1 : st = .starved ∨ st = .paused → (engineAt s l).current ≠ none)
    (h2 : st = .off ∨ st = .idle → (engineAt s l).current = none) :
    Sound own none cl (Machine.setEngine l { engineAt s l with state := st, cause := o, stop := stop } s) :=
  h.setEngine l _ rfl (fun i hi _ => hx i hi)
    (fun _ => q.line st (engineAt s l).current o stop hs ho h1 h2 q.access) (FetchedOk.none q.fetched)

theorem Sound.quiet {s : State} (h : Sound own none cl s) (l : Fin 4) (hs : (engineAt s l).state ≠ .sending)
    (hst : (engineAt s l).state ≠ .starved) : Quiet l s := by
  obtain ⟨a, b, c, d, f⟩ := h.resting l hs
  exact ⟨a, b, c, (h.line l (by simp)).engine.starve hst, d, f⟩

/-- R103: a line's Drain Engine takes a configuration. -/
theorem sounds_setDrainConfig (l : Fin 4) (c : DrainConfig) (s : State) (h : Sounds none cl s) :
    Sounds none cl (setDrainConfig l c s) := by
  obtain ⟨own, h⟩ := h
  refine ⟨own, h.setEngine l { engineAt s l with config := c } rfl (fun _ _ _ => by simp) (fun _ => ?_) (h.fetched l)⟩
  have hk := h.line l (by simp)
  have he := hk.engine
  exact
    { engine := { cause := he.cause, hasJob := he.hasJob, noJob := he.noJob, rests := he.rests, starve := he.starve,
                  hold := he.hold, bound := he.bound, holds := he.holds }
      waits := hk.waits
      flies := hk.flies
      fetch := hk.fetch }

theorem sounds_actLineSet (b m c h w p o u : Byte) (s : State) (hs : Sounds none .nobody s) :
    Sounds none .nobody (actLineSet b m c h w p o u s) := by
  unfold actLineSet
  refine sounds_withLine b s _ hs (fun l => ?_)
  split
  · exact sounds_finishCode _ _ hs
  · rename_i q _
    have h1 := sounds_setDrainConfig l (drainConfigOf h w p q u) s hs
    simp only
    split
    · split
      · exact sounds_finishCode _ _ hs
      · split
        · exact sounds_finishCode _ _ hs
        · exact sounds_finishCode _ _ (h1.setPar _ _ rfl)
    · split
      · exact sounds_finishCode _ _ hs
      · split
        · exact sounds_finishCode _ _ hs
        · exact sounds_finishCode _ _ (h1.setSer _ _ rfl)

theorem sounds_actLineEnable (b : Byte) (s : State) (h : Sounds none .nobody s) : Sounds none .nobody (actLineEnable b s) := by
  unfold actLineEnable
  refine sounds_withLine b s _ h (fun l => ?_)
  split
  · exact sounds_finishCode _ _ h
  · rename_i ho
    have ho : (engineAt s l).state = .off := Classical.not_not.1 ho
    obtain ⟨own, h⟩ := h
    have hk := (h.line l (by simp)).engine
    have h1 : Sounds none .nobody (finishCode .ok (setEngine l { engineAt s l with state := .idle } s)) :=
      sounds_finishCode _ _ ⟨own, h.restLine l (onlyEx_none l) (h.quiet l (by rw [ho]; simp) (by rw [ho]; simp)) .idle
        (engineAt s l).cause (engineAt s l).stop (by simp) (by rw [hk.cause, ho]; simp) (by simp) (fun _ => hk.noJob (Or.inl ho))⟩
    simp only
    generalize finishCode .ok (setEngine l { engineAt s l with state := .idle } s) = t at *
    refine sounds_settle _ _ ?_
    split
    · exact h1
    · unfold startReceiver
      simp only
      split
      · exact h1.setSer _ _ rfl
      · exact h1.setSer _ _ rfl

theorem sounds_actLineDisable (b : Byte) (s : State) (h : Sounds none .nobody s) : Sounds none .nobody (actLineDisable b s) := by
  unfold actLineDisable
  refine sounds_withLine b s _ h (fun l => ?_)
  split
  · exact sounds_finishCode _ _ h
  · rename_i ho
    have ho : (engineAt s l).state = .idle := Classical.not_not.1 ho
    obtain ⟨own, h⟩ := h
    have hk := (h.line l (by simp)).engine
    have h1 : Sounds none .nobody (finishCode .ok (setEngine l { engineAt s l with state := .off } s)) :=
      sounds_finishCode _ _ ⟨own, h.restLine l (onlyEx_none l) (h.quiet l (by rw [ho]; simp) (by rw [ho]; simp)) .off
        (engineAt s l).cause (engineAt s l).stop (by simp) (by rw [hk.cause, ho]; simp) (by simp) (fun _ => hk.noJob (Or.inr ho))⟩
    simp only
    generalize finishCode .ok (setEngine l { engineAt s l with state := .off } s) = t at *
    split
    · exact h1
    · exact h1.setSer _ _ rfl

theorem sounds_setStop (l : Fin 4) (b : Bool) (s : State) (h : Sounds none cl s) :
    Sounds none cl (setEngine l { engineAt s l with stop := b } s) := by
  obtain ⟨own, h⟩ := h
  refine ⟨own, h.setEngine l { engineAt s l with stop := b } rfl (fun _ _ _ => by simp) (fun _ => ?_) (h.fetched l)⟩
  have hk := h.line l (by simp)
  have he := hk.engine
  exact
    { engine := { cause := he.cause, hasJob := he.hasJob, noJob := he.noJob, rests := he.rests, starve := he.starve,
                  hold := he.hold, bound := he.bound, holds := he.holds }
      waits := hk.waits
      flies := hk.flies
      fetch := hk.fetch }

theorem sounds_actLineStop (b : Byte) (s : State) (h : Sounds none .nobody s) : Sounds none .nobody (actLineStop b s) := by
  unfold actLineStop
  refine sounds_withLine b s _ h (fun l => ?_)
  split
  · exact sounds_finishCode _ _ h
  · exact sounds_pauseLine _ _ (sounds_finishCode _ _ (sounds_setStop l true s h))

theorem sounds_actLineGo (b : Byte) (s : State) (h : Sounds none .nobody s) : Sounds none .nobody (actLineGo b s) := by
  unfold actLineGo
  refine sounds_withLine b s _ h (fun l => ?_)
  split
  · exact sounds_finishCode _ _ h
  · have h1 := sounds_finishCode .ok _ (sounds_setStop l false s h)
    simp only
    split
    · exact sounds_settle _ _ h1
    · exact sounds_evalIntake _ (sounds_resumeLine _ _ h1)
    all_goals exact h1

/-- R95: a line that rests recovers. -/
theorem sounds_recoverLine (l : Fin 4) (s : State) (h : Sound own ex .nobody s) (hx : OnlyEx ex l) (q : Quiet l s)
    (hc : (engineAt s l).cause = .none) : Sounds none .nobody (recoverLine l s) := by
  unfold recoverLine
  simp only
  split
  · rename_i hn
    have hcur : (engineAt s l).current = none := by
      by_contra hne
      obtain ⟨j, r, hjr⟩ := h.currentJob hne
      rw [hn] at hjr; cases hjr
    exact sounds_settle _ _ ⟨own, h.restLine l hx q .idle (engineAt s l).cause (engineAt s l).stop (by simp) (by simp [hc]) (by simp)
      (fun _ => hcur)⟩
  · rename_i j r hcj
    have hcur : (engineAt s l).current ≠ none := by rw [currentJob_current hcj]; simp
    split
    · refine sounds_evalIntake _ ⟨own, ?_⟩
      have := h.restLine l hx q .paused (engineAt s l).cause (engineAt s l).stop (by simp) (by simp [hc]) (fun _ => hcur) (by simp)
      have hE : ({ engineAt s l with state := .paused, step := .boundary } : Engine) = { engineAt s l with state := .paused } := by
        have := q.step
        generalize engineAt s l = e at *
        obtain ⟨_⟩ := e
        simp_all
      rw [hE]; exact this
    · exact sounds_settle _ _ ⟨own, h.toBoundary l { engineAt s l with state := .sending, step := .boundary } hx
        ⟨rfl, hcur, hc, q.starve⟩ rfl q.fetched q.hold rfl q.phase q.access⟩

/-- R96: the choice of LINE RESUME, for a line in FAULT whose cause is cleared. -/
theorem sounds_resumeChoice (l : Fin 4) (skip : Bool) (s : State) (h : Sound own (some l) .nobody s) (q : Quiet l s)
    (hc : (engineAt s l).cause = .none) (hs : (engineAt s l).state = .fault) : Sounds none .nobody (resumeChoice l skip s) := by
  unfold resumeChoice
  split
  · exact sounds_recoverLine l s h (onlyEx_some l) q hc
  · rename_i j r hcj
    have e := currentJob_jobAt hcj
    have hcur := currentJob_current hcj
    split
    · simp only
      by_cases hm : r.copiesDone + 1 < r.copies
      · have h1 := sound_rewind l j { r with sepPending := false } r s h q.fetched hcur e {} hm
        have hE : completeCopy l j { r with sepPending := false } s = setJob j { r with
            sepPending := false, copiesDone := r.copiesDone + 1, cursor := chainStart r, copyPos := 0 } s := by
          unfold completeCopy; rw [if_pos hm]; rfl
        rw [hE, if_neg (by rw [engineAt_setJob, hs]; simp)]
        exact sounds_recoverLine l _ h1 (onlyEx_some l) ⟨q.step, q.fetched, q.hold, q.starve, q.phase, q.access⟩ hc
      · have h1 := sound_lastCopy l j { r with sepPending := false } r s h (onlyEx_some l) q hc hcur e {} hm
        have hi : (engineAt (completeCopy l j { r with sepPending := false } s) l).state = .idle := by
          unfold completeCopy
          rw [if_neg hm]
          simp
        rw [if_pos hi]
        exact sounds_settle _ _ h1
    · split
      · rename_i hend
        split
        · exact sounds_recoverLine l s h (onlyEx_some l) q hc
        · rename_i p hp
          simp only [Bool.and_eq_true, Bool.not_eq_true'] at hend
          have hne : r.output ≠ .finished := by rw [(h.unfinished hcur e).1]; simp
          obtain ⟨own', h1⟩ := sounds_passByte l j r r p s h q.fetched hcur e {} (h.readsAt e hne hend.2 hp)
          obtain ⟨g1, g2, g3⟩ := passByte_lines j r p s
          have gE : engineAt (passByte j r p s) l = engineAt s l := by unfold engineAt; rw [g1]
          refine sounds_settle _ _ ⟨own', h1.toBoundary l _ (onlyEx_some l) ?_ rfl ?_ ?_ (by rw [gE]) ?_ ?_⟩
          · exact ⟨rfl, by simp [hcur], hc, q.starve⟩
          · exact q.fetched
          · exact q.hold
          · rw [g2]; exact q.phase
          · rw [g3]; exact q.access
      · exact sounds_recoverLine l s h (onlyEx_some l) q hc

/-- The cause of a line in FAULT is cleared; its law is then excepted. -/
theorem Sound.clearCause {s : State} (h : Sound own none cl s) (l : Fin 4) (hs : (engineAt s l).state = .fault) :
    Sound own (some l) cl (Machine.setEngine l { engineAt s l with cause := .none } s) ∧
      Quiet l (Machine.setEngine l { engineAt s l with cause := .none } s) := by
  have q := h.quiet l (by rw [hs]; simp) (by rw [hs]; simp)
  refine ⟨h.setEngine l _ rfl (fun i _ _ => by simp) (fun n => absurd rfl n) (FetchedOk.none q.fetched), ?_⟩
  have hE : engineAt (Machine.setEngine l { engineAt s l with cause := .none } s) l = { engineAt s l with cause := .none } := by
    rw [engineAt_setEngine, if_pos rfl]
  exact
    { step := by rw [hE]; exact q.step
      fetched := by rw [hE]; exact q.fetched
      hold := by rw [hE]; exact q.hold
      starve := by rw [hE]; exact q.starve
      phase := q.phase
      access := q.access }

theorem sounds_actLineResume (b c : Byte) (s : State) (h : Sounds none .nobody s) : Sounds none .nobody (actLineResume b c s) := by
  unfold actLineResume
  refine sounds_withLine b s _ h (fun l => ?_)
  split
  · exact sounds_finishCode _ _ h
  · simp only
    split
    · exact sounds_finishCode _ _ h
    · rename_i hs
      have hs : (engineAt s l).state = .fault := Classical.not_not.1 hs
      split
      · exact sounds_finishCode _ _ h
      · obtain ⟨own, h⟩ := h
        obtain ⟨h1, q1⟩ := h.clearCause l hs
        refine sounds_resumeChoice (own := own) l _ _ h1.same ⟨q1.step, q1.fetched, q1.hold, q1.starve, q1.phase, q1.access⟩ ?_ ?_
        · rw [engineAt_finishCode, engineAt_setEngine, if_pos rfl]
        · rw [engineAt_finishCode, engineAt_setEngine, if_pos rfl]; exact hs

theorem sounds_actLineRestart (b : Byte) (s : State) (h : Sounds none .nobody s) : Sounds none .nobody (actLineRestart b s) := by
  unfold actLineRestart
  refine sounds_withLine b s _ h (fun l => ?_)
  simp only
  split
  · exact sounds_finishCode _ _ h
  · rename_i hs
    have hs : (engineAt s l).state = .fault := Classical.not_not.1 hs
    split
    · exact sounds_finishCode _ _ h
    · rename_i j r hcj
      split
      · exact sounds_finishCode _ _ h
      · rename_i hrel
        split
        · exact sounds_finishCode _ _ h
        · obtain ⟨own, h⟩ := h
          have e := currentJob_jobAt hcj
          have hcur := currentJob_current hcj
          obtain ⟨h1, q1⟩ := h.clearCause l hs
          have hc1 : (engineAt (setEngine l { engineAt s l with cause := .none } s) l).current = some j := by
            rw [engineAt_setEngine, if_pos rfl]; exact hcur
          have hgo := h.going j r e (by rw [(h.unfinished hcur e).1]; simp) (by simp [Spare.nobody])
          have h2 := sound_toStart l j { r with sepPending := false } r r.copiesDone _ h1 q1.fetched hc1 e {}
            (by simpa using hrel) hgo.1
          refine sounds_recoverLine (own := own) (ex := some l) l _ h2.same (onlyEx_some l)
            ⟨q1.step, q1.fetched, q1.hold, q1.starve, q1.phase, q1.access⟩ ?_
          rw [engineAt_finishCode, engineAt_setJob, engineAt_setEngine, if_pos rfl]

theorem sounds_abortLine (l : Fin 4) (s : State) (h : Sounds none .nobody s) (hs : (engineAt s l).state = .fault) :
    Sounds none .nobody (abortLine l s) := by
  obtain ⟨own, h⟩ := h
  have q := h.quiet l (by rw [hs]; simp) (by rw [hs]; simp)
  unfold abortLine
  simp only
  refine sounds_settle _ _ (sounds_finishCode _ _ ?_)
  split
  · rename_i hn
    exact ⟨own, h.restLine l (onlyEx_none l) q .idle .none (engineAt s l).stop (by simp) (by simp) (by simp) (fun _ => hn)⟩
  · rename_i j hj
    obtain ⟨r, e, _, _⟩ := (h.current l j).1 hj
    exact sounds_retireLine l j .aborted _ .idle .none r s h (fun _ _ => by simp [Spare.nobody]) (onlyEx_none l) q hj e
      (Or.inl ⟨rfl, rfl⟩)

theorem sounds_actLineAbort (b : Byte) (s : State) (h : Sounds none .nobody s) : Sounds none .nobody (actLineAbort b s) := by
  unfold actLineAbort
  refine sounds_withLine b s _ h (fun l => ?_)
  simp only
  split
  · exact sounds_finishCode _ _ h
  · rename_i hs
    have hs : (engineAt s l).state = .fault := Classical.not_not.1 hs
    split
    · exact sounds_abortLine l s h hs
    · obtain ⟨h1, k1⟩ := sounds_endIntakeAccessOf _ s h
      exact sounds_abortLine l _ h1 (by rw [k1 l (Or.inl hs)]; exact hs)

theorem sounds_actLineQuery (b : Byte) (s : State) (h : Sounds none .nobody s) : Sounds none .nobody (actLineQuery b s) :=
  sounds_withLine b s _ h (fun _ => sounds_finish _ _ h)

/-! The Command Port. -/

theorem sounds_carryOut (c : Cmd) (ps : List Byte) (s : State) (h : Sounds none .nobody s) (hr : s.window.ready = true) :
    Sounds none .nobody (carryOut c ps s) := by
  unfold carryOut
  cases c with
  | openJob => exact sounds_actOpen _ _ _ _ s h hr
  | target => exact sounds_actTarget _ s h
  | closeJob => exact sounds_actClose _ s h
  | cancel => exact sounds_actCancel _ s h
  | hold => exact sounds_actHold _ s h
  | release => exact sounds_actRelease _ s h
  | move => exact sounds_actMove _ _ s h
  | verify => exact sounds_actVerify _ s h
  | queryJob => exact sounds_actQueryJob _ s h
  | take => exact sounds_actTake s h
  | storeQuery => exact sounds_actStoreQuery s h
  | lineSet => exact sounds_actLineSet _ _ _ _ _ _ _ _ s h
  | lineEnable => exact sounds_actLineEnable _ s h
  | lineDisable => exact sounds_actLineDisable _ s h
  | lineStop => exact sounds_actLineStop _ s h
  | lineGo => exact sounds_actLineGo _ s h
  | lineResume => exact sounds_actLineResume _ _ s h
  | lineRestart => exact sounds_actLineRestart _ s h
  | lineAbort => exact sounds_actLineAbort _ s h
  | lineQuery => exact sounds_actLineQuery _ s h

theorem sounds_acceptCode (code : Byte) (s : State) (h : Sounds none .nobody s) (hr : s.window.ready = true) :
    Sounds none .nobody (acceptCode code s) := by
  unfold acceptCode
  split
  · exact sounds_finishCode _ _ h
  · split
    · exact sounds_carryOut _ _ _ h.same hr
    · exact h.same

theorem sounds_writeCommand (code : Byte) (s : State) (h : Sounds none .nobody s) : Sounds none .nobody (writeCommand code s) := by
  unfold writeCommand
  split
  · exact h
  · rename_i hr
    have hr : s.window.ready = true := by simpa using hr
    split
    · exact sounds_acceptCode code s h hr
    · exact sounds_acceptCode code _ h.same hr
    · exact h.same
    · exact sounds_acceptCode code s h hr

theorem sounds_writeParameter (b : Byte) (s : State) (h : Sounds none .nobody s) : Sounds none .nobody (writeParameter b s) := by
  unfold writeParameter
  split
  · exact h
  · rename_i hr
    have hr : s.window.ready = true := by simpa using hr
    split
    · simp only
      split
      · exact sounds_carryOut _ _ _ h.same hr
      · exact h.same
    · exact h.same

theorem sounds_hostCommand (c : Cmd) (ps : List Byte) (s : State) (h : Sounds none .nobody s) :
    Sounds none .nobody (hostCommand c ps s) := by
  unfold hostCommand
  have h1 := sounds_writeCommand c.code s h
  generalize writeCommand c.code s = t at *
  induction ps generalizing t with
  | nil => exact h1
  | cons b ps ih => exact ih _ (sounds_writeParameter b t h1)

theorem sounds_readResult (s : State) (h : Sounds none cl s) : Sounds none cl (readResult s) := by
  unfold readResult
  split
  · exact h.same
  · split <;> exact h.same

/-! The host's other writes. -/

/-- R49: an entry joins the tail of the Intake FIFO. -/
theorem Sound.enqueue {s : State} (h : Sound own ex cl s) {j : Fin 16} {r : Job} (b : Byte) (e : jobAt s j = some r)
    (ho : r.intake = .opened) (hl : s.intake.fifo.length < 16) :
    Sound own ex cl { s with intake.fifo := s.intake.fifo ++ [(j, b)] } :=
  { h with
    fifoLen := by change (s.intake.fifo ++ [(j, b)]).length ≤ 16; rw [List.length_append, List.length_singleton]; omega
    fifo := fun a ha => by
      have ha : a ∈ s.intake.fifo ++ [(j, b)] := ha
      rw [List.mem_append] at ha
      rcases ha with ha | ha
      · exact h.fifo a ha
      · rw [List.mem_singleton.1 ha]; exact ⟨r, e, by rw [ho]; simp⟩
    closing := fun i q hi hc hn => by
      have := h.closing i q hi hc hn
      unfold hasEntry at this ⊢
      change (s.intake.fifo ++ [(j, b)]).any _ = true
      rw [List.any_append, this]; rfl
    chain := fun i q hi =>
      have c := h.chain i q hi
      { c with
        byte := fun n => by
          rcases c.byte n with d | d
          · exact Or.inl d
          · right
            unfold storingFor at d ⊢
            change (match s.spool.access, s.intake.fifo ++ [(j, b)] with
              | some (.intake _), e :: _ => e.1 == i
              | _, _ => false) = true
            cases hf : s.intake.fifo with
            | nil => rw [hf] at d; split at d <;> simp_all
            | cons x xs => rw [hf] at d; rw [List.cons_append]; split at d <;> simp_all }
    access := fun c hc => by
      obtain ⟨g, a, as, ha, hr⟩ := h.access c hc
      exact ⟨g, a, as ++ [(j, b)], by change s.intake.fifo ++ [(j, b)] = _; rw [ha]; rfl, hr⟩ }

theorem sounds_writeData (b : Byte) (s : State) (h : Sounds none .nobody s) : Sounds none .nobody (writeData b s) := by
  unfold writeData
  split
  · exact h
  · split
    · exact h.same
    · rename_i j ht
      split
      · rename_i hl
        obtain ⟨own, h⟩ := h
        obtain ⟨r, e, ho⟩ := h.target j ht
        have h1 : Sounds none .nobody { s with intake.fifo := s.intake.fifo ++ [(j, b)] } := ⟨own, h.enqueue b e ho hl⟩
        simp only
        split
        · exact sounds_evalIntake _ h1
        · exact h1
      · exact h.same

theorem sounds_writeEvent (b : Byte) (s : State) (h : Sounds none cl s) : Sounds none cl (writeEvent b s) := by
  unfold writeEvent
  split
  · exact h
  · simp only
    split <;> exact h.same

theorem sounds_writeEnable (b : Byte) (s : State) (h : Sounds none cl s) : Sounds none cl (writeEnable b s) := by
  unfold writeEnable
  split
  · exact h
  · exact h.same

theorem sounds_writeTick (b : Byte) (s : State) (h : Sounds none cl s) : Sounds none cl (writeTick b s) := by
  unfold writeTick
  split
  · exact h
  · exact h.same

/-! Resets. -/

/-- A state without jobs, entries, records and accesses, whose lines rest without a job, keeps the laws. -/
theorem Sound.blank {s : State} (hj : ∀ j, jobAt s j = none) (hi : s.intake = Intake.reset)
    (hc : s.completion.queue = [] ∧ s.completion.postWait = []) (hf : s.spool.freeList = []) (ha : s.spool.access = none)
    (hr : s.window.ready = false) (hq : ∀ l, queueAt s l = { urgent := [], normal := [] })
    (he : ∀ l, ∃ st c, (st = .off ∨ st = .idle) ∧ engineAt s l = { Engine.reset with state := st, config := c })
    (hp : ∀ l, unitPhase s l = .boundary) : Sound (fun _ => []) none cl s where
  fifoLen := by rw [hi]; exact Nat.zero_le _
  fifo := fun e h => by rw [hi] at h; cases h
  target := fun j h => by rw [hi] at h; cases h
  closing := fun j r h => by rw [hj] at h; cases h
  queue := fun l u j => by
    unfold queueEntries
    rw [hq, hj]
    cases u <;> rfl
  current := fun l j => by
    obtain ⟨st, c, _, h⟩ := he l
    rw [h, hj]
    simp [Engine.reset]
  finished := fun j r h => by rw [hj] at h; cases h
  recordsLen := by rw [hc.1]; exact Nat.zero_le _
  waiting := Or.inl hc.2
  records := fun j => by rw [hc.1, hc.2, hj]; exact ⟨rfl, rfl⟩
  freeSlot := fun _ _ => rfl
  chain := fun j r h => by rw [hj] at h; cases h
  cursor := fun j r h => by rw [hj] at h; cases h
  going := fun j r h => by rw [hj] at h; cases h
  blocks := fun h => by rw [hr] at h; cases h
  freeLinks := fun b h => by rw [hf] at h; cases h
  emptySlots := fun _ => hj
  line := fun l _ => by
    obtain ⟨st, c, hst, h⟩ := he l
    rw [h, hp, ha]
    exact
      { engine :=
          { cause := by rcases hst with hst | hst <;> simp [hst, Engine.reset]
            hasJob := by rcases hst with hst | hst <;> simp [hst]
            noJob := fun _ => rfl
            rests := fun _ => ⟨rfl, rfl, rfl⟩
            starve := fun _ => rfl
            hold := fun _ => rfl
            bound := fun _ => rfl
            holds := by simp [Engine.reset] }
        waits := by simp [Engine.reset]
        flies := by simp [Engine.reset]
        fetch := fun err n => by cases n }
  fetched := fun l j r f p h1 h2 => by rw [hj] at h2; cases h2
  access := fun c h => by rw [ha] at h; cases h

theorem tab_replicate {α : Type} {n : Nat} (x : α) (i : Fin n) : tab (Vector.replicate n x) i = x := by
  unfold tab; simp

theorem unitPhase_rest {s : State} (hp : ∀ x, (parAt s x).handshake = .rest) (hs : ∀ y, (serAt s y).transmit = .rest) (l : Fin 4) :
    unitPhase s l = .boundary := by
  unfold unitPhase
  split
  · rw [hp]; rfl
  · rw [hs]; rfl

theorem sounds_softReset (s : State) : Sounds none cl (softReset s) := by
  refine ⟨_, Sound.blank ?_ rfl ⟨rfl, rfl⟩ rfl rfl rfl ?_ ?_ (unitPhase_rest ?_ ?_)⟩
  · intro j; exact tab_replicate _ _
  · intro l; exact tab_replicate _ _
  · intro l
    have : engineAt (softReset s) l = softEngine (engineAt (tearStore s) l) := by fin_cases l <;> rfl
    rw [this]
    unfold softEngine
    exact ⟨_, _, by split <;> simp, rfl⟩
  · intro x; fin_cases x <;> rfl
  · intro y; fin_cases y <;> rfl

theorem sounds_hardReset (a b : Bool) (p : Spool) (s : State) (hf : p.freeList = []) (ha : p.access = none) :
    Sounds none cl (hardReset a b p s) := by
  refine ⟨_, Sound.blank ?_ rfl ⟨rfl, rfl⟩ hf ha rfl ?_ ?_ (unitPhase_rest ?_ ?_)⟩
  · intro j; exact tab_replicate _ _
  · intro l; exact tab_replicate _ _
  · intro l
    have : engineAt (hardReset a b p s) l = Engine.reset := tab_replicate _ _
    rw [this]
    exact ⟨_, _, Or.inl rfl, rfl⟩
  · intro x; fin_cases x <;> rfl
  · intro y; fin_cases y <;> rfl

theorem Sound.toReady {s : State} (h : Sound own ex cl s) (b : Bool) (n : Nat) (hb : b = true → s.window.ready = true)
    (he : ∀ j, jobAt s j = none) : Sound own ex cl { s with window.ready := b, window.buildClks := n } :=
  { h with
    chain := fun i q hi => { h.chain i q hi with }
    blocks := fun hr => h.blocks (hb hr)
    emptySlots := fun _ => he }

/-- R46: the start-up build begins, with no slot occupied. -/
theorem sounds_beginBuild (s : State) (h : Sounds none cl s) (he : ∀ j, jobAt s j = none) : Sounds none cl (beginBuild s) := by
  obtain ⟨own, h⟩ := h
  have h1 := h.toReady false 0 (by simp) he
  refine ⟨own, h1.same {} rfl (fun l => ?_)⟩
  unfold unitPhase
  split
  · rename_i x _; fin_cases x <;> rfl
  · rename_i y _; fin_cases y <;> rfl

theorem sounds_startAfterBuild (y : Fin 2) (s : State) (h : Sounds none cl s) : Sounds none cl (startAfterBuild y s) := by
  unfold startAfterBuild
  simp only
  split
  · exact h.setSer y _ rfl
  · exact h

theorem allBlocks_count (b : Fin 128) : allBlocks.count b = 1 := by revert b; decide +kernel

/-- R46: the start-up build ends: every block is on the Free List. -/
theorem sounds_endBuild (s : State) (h : Sounds none cl s) : Sounds none cl (endBuild s) := by
  unfold endBuild
  split
  · rename_i hb
    have hr : s.window.ready = false := by
      unfold building at hb
      simp only [Bool.and_eq_true, Bool.not_eq_true'] at hb
      exact hb.1
    obtain ⟨own, h⟩ := h
    have he := h.emptySlots hr
    have ho : ∀ j, own j = [] := fun j => h.freeSlot j (he j)
    have h1 : Sound own none cl { s with
        spool.freeList := allBlocks, spool.links := Vector.replicate 128 none, window.ready := true, window.buildClks := 0 } :=
      { h with
        chain := fun i q hi => by have := he i; rw [show jobAt s i = some q from hi] at this; cases this
        blocks := fun _ b => by
          change allBlocks.count b + _ = 1
          rw [allBlocks_count]
          simp [ho]
        freeLinks := fun b _ => tab_replicate _ _
        emptySlots := fun n => by cases n }
    exact sounds_startAfterBuild 1 _ (sounds_startAfterBuild 0 _ ⟨own, h1⟩)
  · exact h

theorem heldLaw_iff (s : State) : heldLaw s = true ↔ (inReset s = true → s.window.ready = false) := by
  unfold heldLaw; cases inReset s <;> cases s.window.ready <;> simp

theorem sounds_endPowerOn (s : State) (h : Sounds none cl s) (k : heldLaw s = true) : Sounds none cl (endPowerOn s) := by
  unfold endPowerOn
  split
  · exact h
  · rename_i hp
    have hr : s.window.ready = false := (heldLaw_iff s).1 k (by unfold inReset; simp only [Bool.not_eq_true', Bool.not_eq_false] at hp; rw [hp]; rfl)
    simp only
    split
    · exact h.same
    · refine sounds_beginBuild _ h.same ?_
      obtain ⟨own, h⟩ := h
      exact h.emptySlots hr

theorem sounds_endPinReset (s : State) (h : Sounds none cl s) (k : heldLaw s = true) : Sounds none cl (endPinReset s) := by
  unfold endPinReset
  split
  · exact h
  · rename_i hp
    have hr : s.window.ready = false := (heldLaw_iff s).1 k (by unfold inReset; simp only [Bool.not_eq_true', Bool.not_eq_false] at hp; rw [hp, Bool.or_true])
    simp only
    split
    · exact h.same
    · refine sounds_beginBuild _ h.same ?_
      obtain ⟨own, h⟩ := h
      exact h.emptySlots hr

theorem sounds_writeControl (b : Byte) (s : State) (h : Sounds none cl s) : Sounds none cl (writeControl b s) := by
  unfold writeControl
  split
  · split
    · exact h
    · exact sounds_softReset s
  · split
    · exact h.same
    · exact h

theorem sounds_writeRegister (reg : BitVec 4) (b : Byte) (s : State) (h : Sounds none .nobody s) :
    Sounds none .nobody (writeRegister reg b s) := by
  unfold writeRegister
  split
  · exact sounds_writeData b s h
  · exact sounds_writeCommand b s h
  · exact sounds_writeParameter b s h
  · exact sounds_writeEvent b s h
  · exact sounds_writeEnable b s h
  · exact sounds_writeControl b s h
  · exact sounds_writeTick b s h
  · exact h

/-! A CLK period. -/

theorem sounds_clkTimeBase (s : State) (h : Sounds none cl s) : Sounds none cl (clkTimeBase s) := by
  unfold clkTimeBase
  split
  · exact h.same
  · exact sounds_takeTick s h

theorem sounds_clkTimers (s : State) (h : Sounds none .nobody s) : Sounds none .nobody (clkTimers s) := by
  unfold clkTimers
  have line : ∀ l t, Sounds none .nobody t → Sounds none .nobody (expireStarve l (expireHold l t)) := fun l t ht =>
    sounds_expireStarve l _ (sounds_expireHold l t ht)
  exact sounds_expireAck 1 _ (sounds_expireAck 0 _ (line 3 _ (line 2 _ (line 1 _ (line 0 _ h)))))

theorem sounds_clkBuild (s : State) (h : Sounds none cl s) : Sounds none cl (clkBuild s) := by
  unfold clkBuild
  split
  · split
    · exact h.same
    · exact sounds_endBuild s h
  · exact h

theorem sounds_countHandshake (x : Fin 2) (s : State) (h : Sounds none .nobody s) :
    Sounds none .nobody (countHandshake x s) := by
  have count := h.setPar x { parAt s x with phaseClks := (parAt s x).phaseClks + 1 } rfl
  unfold countHandshake
  simp only
  split <;> first | exact h | exact count

theorem sounds_clkHandshake (x : Fin 2) (s : State) (h : Sounds none .nobody s) : Sounds none .nobody (clkHandshake x s) := by
  unfold clkHandshake
  simp only
  split
  · exact h
  · exact h
  · exact h
  · split
    · exact h
    · exact sounds_endSetup x s h
  · split
    · exact h
    · exact sounds_endStrobe x s h
  · split
    · exact h
    · exact sounds_endTrail x s h

theorem sounds_countFrame (y : Fin 2) (n : Nat) (s : State) (h : Sounds none .nobody s) :
    Sounds none .nobody (countFrame y n s) := by
  unfold countFrame
  simp only
  split
  · exact h.setSer y _ rfl
  · exact h

theorem sounds_clkFrame (y : Fin 2) (s : State) (h : Sounds none .nobody s) : Sounds none .nobody (clkFrame y s) := by
  unfold clkFrame
  simp only
  split
  · exact sounds_endFrame y s h
  · exact h

theorem sounds_clkPeriod (s : State) (h : Sounds none .nobody s) : Sounds none .nobody (clkPeriod s) := by
  unfold clkPeriod
  split
  · exact h
  · have h0 : Sounds none .nobody { s with fresh := s.fresh + 1 } := h.same
    have h1 := sounds_sampleRxd 1 _ (sounds_sampleRxd 0 _ h0)
    have h2 := sounds_countHandshake 1 _ (sounds_countHandshake 0 _ h1)
    have h3 := sounds_countFrame 1 (Config.bclkPeriods s.fresh) _ (sounds_countFrame 0 (Config.bclkPeriods s.fresh) _ h2)
    have h4 := sounds_clkBuild _ (sounds_clkTimers _ (sounds_clkTimeBase _ h3))
    exact sounds_clkFrame 1 _ (sounds_clkFrame 0 _ (sounds_clkHandshake 1 _ (sounds_clkHandshake 0 _ h4)))

end Sys2Proof.Machine
end

