-- ==== Sys2Proof/Laws/KeptIff.lean ====
section
/-! SUPPORT. `Kept` is `Sounds` without an exception, and the law that READY reads 0 while a reset holds the part. -/

namespace Sys2Proof.Machine

-- One after another: side by side the proofs would each wait in a thread of their own.
set_option Elab.async false

theorem all_slots (p : Fin 16 → Bool) : slots.all p = true ↔ ∀ j, p j = true := by
  rw [List.all_eq_true]
  exact ⟨fun h j => h j (by revert j; decide), fun h j _ => h j⟩

theorem all_lines (p : Fin 4 → Bool) : lines.all p = true ↔ ∀ l, p l = true := by
  rw [List.all_eq_true]
  exact ⟨fun h j => h j (by revert j; decide), fun h j _ => h j⟩

theorem all_blocks (p : Fin 128 → Bool) : allBlocks.all p = true ↔ ∀ b, p b = true := by
  rw [List.all_eq_true]
  refine ⟨fun h b => h b ?_, fun h b _ => h b⟩
  rw [← List.count_pos_iff, allBlocks_count]; decide

/-- R79: `engineLaw`, clause by clause. -/
theorem engineLaw_iff (e : Engine) : engineLaw e = true ↔ EngineOk e := by
  obtain ⟨st, cur, stop, cause, step, fetched, hold, starve, config⟩ := e
  constructor
  · intro h
    constructor <;> cases st <;> cases step <;> simp_all [engineLaw, Option.isSome_iff_ne_none]
  · rintro ⟨h1, h2, h3, h4, h5, h6, h7, h8⟩
    cases st <;> cases step <;> simp_all [engineLaw, Option.isSome_iff_ne_none]

/-- R108, R123: `unitLaw`, in terms of phases. -/
theorem unitLaw_iff (s : State) : unitLaw s = true ↔ ∀ l,
    (unitPhase s l = .waiting ↔ (engineAt s l).step = .waiting) ∧ (unitPhase s l = .inFlight ↔ (engineAt s l).step = .inFlight) := by
  unfold unitLaw
  rw [all_lines]
  refine forall_congr' (fun l => ?_)
  unfold unitPhase
  cases unitOf l with
  | par x => cases h : (parAt s x).handshake <;> cases k : (engineAt s l).step <;> simp [h, k, Handshake.phase]
  | ser y => cases h : (serAt s y).transmit <;> cases k : (engineAt s l).step <;> simp [h, k, Transmit.phase]

/-- The chain the record of a slot and the links spell. -/
def spelled (s : State) (j : Fin 16) : List (Fin 128) :=
  match jobAt s j with
  | some r => chainOf s r
  | none => []

theorem spelled_of {s : State} {j : Fin 16} {r : Job} (e : jobAt s j = some r) : spelled s j = chainOf s r := by
  unfold spelled; rw [e]

theorem chainBlocks_count (s : State) (b : Fin 128) : (chainBlocks s).count b = ∑ j, (spelled s j).count b := by
  have : slots = List.finRange 16 := by decide
  unfold chainBlocks
  rw [this, List.count_flatMap, Fin.sum_univ_def]
  rfl

theorem chainLaw_iff (s : State) : chainLaw s = true ↔
    (∀ j r, jobAt s j = some r → ChainOk s j r (chainOf s r)) ∧ ∀ b, b ∈ s.spool.freeList → linkAt s b = none := by
  unfold chainLaw
  rw [Bool.and_eq_true, all_slots, List.all_eq_true]
  refine and_congr (forall_congr' (fun j => ?_)) (by simp)
  cases e : jobAt s j with
  | none => simp
  | some r =>
    simp only [Option.some.injEq, forall_eq', Bool.and_eq_true, decide_eq_true_eq]
    constructor
    · rintro ⟨⟨⟨h1, h2⟩, h3⟩, h4⟩
      cases ht : r.tail with
      | none =>
        rw [ht] at h3 h4
        have hb : chainOf s r = [] := by rw [← List.getLast?_eq_none_iff]; exact h3
        have h4 : r.tailFill = 0 := by simpa using h4
        exact
          { head := h2
            last := by rw [h3, ht]
            length := h1
            linked := by rw [hb]; trivial
            fill := by omega
            empty := fun _ => h4
            byte := fun n => absurd hb n }
      | some t =>
        rw [ht] at h3 h4
        simp only [Bool.and_eq_true, decide_eq_true_eq, Bool.or_eq_true] at h4
        exact
          { head := h2
            last := by rw [h3, ht]
            length := h1
            linked := linked_of_chainFrom s r.chainLen r.head h1 (fun t' ht' => by
              have : (chainOf s r).getLast? = some t' := ht'
              rw [h3] at this; cases this; exact h4.1.1)
            fill := h4.1.2
            empty := fun n => by rw [n] at h3; cases h3
            byte := fun _ => h4.2 }
    · intro c
      refine ⟨⟨⟨c.length, c.head⟩, c.last⟩, ?_⟩
      cases ht : r.tail with
      | none =>
        have := c.last
        rw [ht] at this
        simpa using c.empty (List.getLast?_eq_none_iff.1 this)
      | some t =>
        have hl := c.last
        rw [ht] at hl
        have hne : chainOf s r ≠ [] := fun n => by rw [n] at hl; cases hl
        simp only [Bool.and_eq_true, decide_eq_true_eq, Bool.or_eq_true]
        refine ⟨⟨?_, c.fill⟩, c.byte hne⟩
        rw [List.getLast?_eq_getElem?] at hl
        have := c.linked.next hl
        rw [this, List.getElem?_eq_none]
        have := List.length_pos_of_ne_nil hne
        omega

/-- `progressLaw` of one record with the chain `bs`. -/
theorem progress_iff (s : State) (j : Fin 16) (r : Job) (c : ChainOk s j r (chainOf s r)) (hnd : (chainOf s r).Nodup) :
    (decide (r.copiesDone < r.copies) && cursorLaw s r &&
        (if r.anyReleased then decide (r.copiesDone + 1 = r.copies) else r.tail.isNone || decide (r.stored = chainBytes r))) = true ↔
      CursorOk r (chainOf s r) ∧ Going r (chainOf s r) := by
  obtain ⟨e1, e2, e3⟩ := c.empty_iff
  have hlen := c.length
  simp only [Bool.and_eq_true, decide_eq_true_eq]
  constructor
  · rintro ⟨⟨h1, h2⟩, h3⟩
    unfold cursorLaw at h2
    have start : chainOf s r = [] → r.cursor = none := fun n => by
      cases hc : r.cursor with
      | none => rfl
      | some p =>
        rw [hc] at h2
        simp only [Bool.and_eq_true, decide_eq_true_eq] at h2
        obtain ⟨_, i, hi, _⟩ := h2
        rw [e1.1 n] at hi; omega
    refine ⟨⟨Nat.le_of_lt h1, fun n => ?_, fun n => ?_, fun n hb => ?_⟩, h1, fun n => ?_, fun n1 n2 p hp => ?_⟩
    · have hc := start n
      rw [hc] at h2
      simp only [Bool.and_eq_true, decide_eq_true_eq, Bool.not_eq_true'] at h2
      exact ⟨hc, h2.1.1.2, h2.1.2, h2.2⟩
    · cases hc : r.cursor with
      | none =>
        rw [hc] at h2
        simp only [Bool.and_eq_true, Option.isNone_iff_eq_none] at h2
        exact absurd (e2.2 h2.1.1.1) n
      | some p =>
        rw [hc] at h2
        simp only [Bool.and_eq_true, decide_eq_true_eq] at h2
        obtain ⟨⟨a, b⟩, i, _, i2, i3, _⟩ := h2
        exact ⟨p, i, rfl, i2, a, b, i3⟩
    · rw [n] at h3
      simp only [Bool.false_eq_true, if_false, Bool.or_eq_true, Option.isNone_iff_eq_none, decide_eq_true_eq] at h3
      rcases h3 with h3 | h3
      · exact absurd (e3.2 h3) hb
      · exact h3
    · rw [n] at h3; simpa using h3
    · rw [hp] at h2
      simp only [Bool.and_eq_true, decide_eq_true_eq] at h2
      obtain ⟨_, i, _, i2, _, i4⟩ := h2
      rw [i4 n1 n2] at i2
      rw [← i2, List.head?_eq_getElem?]
  · rintro ⟨k, g1, g2, g3⟩
    refine ⟨⟨g1, ?_⟩, ?_⟩
    · unfold cursorLaw
      by_cases hb : chainOf s r = []
      · obtain ⟨a, b, c', d⟩ := k.start hb
        rw [a]
        simp [e2.1 hb, b, c', d]
      · obtain ⟨p, i, a1, a2, a3, a4, a5⟩ := k.stands hb
        rw [a1]
        simp only [Bool.and_eq_true, decide_eq_true_eq]
        have hi : i < (chainOf s r).length := by
          by_contra hn
          rw [List.getElem?_eq_none (by omega)] at a2; cases a2
        refine ⟨⟨a3, a4⟩, i, by omega, a2, a5, fun n1 n2 => ?_⟩
        have h0 := g3 n1 n2 p a1
        rw [List.head?_eq_getElem?] at h0
        by_contra hn
        exact (List.nodup_iff_getElem?_ne_getElem?.1 hnd) 0 i (by omega) hi (h0.trans a2.symm)
    · split
      · rename_i hr; simpa using g2 hr
      · rename_i hr
        simp only [Bool.or_eq_true, Option.isNone_iff_eq_none, decide_eq_true_eq]
        by_cases hb : chainOf s r = []
        · exact Or.inl (e3.1 hb)
        · exact Or.inr (k.whole (by simpa using hr) hb)

theorem currentJob_iff {s : State} {l : Fin 4} {j : Fin 16} {r : Job} :
    currentJob s l = some (j, r) ↔ (engineAt s l).current = some j ∧ jobAt s j = some r := by
  constructor
  · exact fun h => ⟨currentJob_current h, currentJob_jobAt h⟩
  · rintro ⟨h1, h2⟩; unfold currentJob; rw [h1]; simp [h2]

theorem readsAt_iff (s : State) (j : Fin 16) (r : Job) (p : Pos) (c : ChainOk s j r (chainOf s r)) :
    decide (∃ i, i < r.chainLen ∧ (chainOf s r)[i]? = some p.block ∧ p.off < Config.blockBytes ∧
      r.copyPos + chainBytes r = r.stored + Config.blockBytes * i + p.off ∧ r.copyPos < r.stored) = true ↔
      ReadsAt r (chainOf s r) p := by
  rw [decide_eq_true_eq]
  constructor
  · rintro ⟨i, _, h2, h3, h4, h5⟩; exact ⟨i, h2, h3, h4, h5⟩
  · rintro ⟨i, h2, h3, h4, h5⟩
    refine ⟨i, ?_, h2, h3, h4, h5⟩
    by_contra hn
    rw [List.getElem?_eq_none (by rw [c.length]; omega)] at h2; cases h2

theorem reportLaw_iff (s : State) : reportLaw s = true ↔ s.completion.queue.length ≤ 8 ∧
    (s.completion.postWait = [] ∨ s.completion.queue.length = 8) ∧
    ∀ j, (s.completion.queue.map Record.job).count j =
        (match jobAt s j with
        | some r => if r.output = .finished ∧ r.posted = true then 1 else 0
        | none => 0) ∧
      s.completion.postWait.count j =
        (match jobAt s j with
        | some r => if r.output = .finished ∧ r.posted = false then 1 else 0
        | none => 0) := by
  unfold reportLaw
  rw [Bool.and_eq_true, all_slots, Bool.and_eq_true, and_assoc]
  refine and_congr decide_eq_true_iff (and_congr ?_ (forall_congr' (fun j => ?_)))
  · rw [Bool.or_eq_true, List.isEmpty_iff]; exact or_congr Iff.rfl decide_eq_true_iff
  simp only
  cases jobAt s j with
  | none => simp
  | some r =>
    simp only
    by_cases ho : r.output = .finished
    · cases hp : r.posted <;> simp [ho]
    · simp [ho]

theorem Kept.of_sound {s : State} {own : Fin 16 → List (Fin 128)} (h : Sound own none .nobody s) (k : heldLaw s = true) : Kept s := by
  have hown : ∀ j, own j = spelled s j := fun j => by
    unfold spelled
    cases e : jobAt s j with
    | none => exact h.freeSlot j e
    | some r => exact ((h.chain j r e).eq).symm
  have hch : ∀ j r, jobAt s j = some r → ChainOk s j r (chainOf s r) := fun j r e => by
    rw [← spelled_of e, ← hown]; exact h.chain j r e
  have hownr : ∀ j r, jobAt s j = some r → own j = chainOf s r := fun j r e => by rw [hown, spelled_of e]
  unfold Kept
  refine ⟨?_, ?_, ?_, ?_, ?_, ?_, ?_, ?_, ?_, ?_, ?_, ?_, ?_, ?_, ?_, ?_, k⟩
  · unfold fifoLaw
    rw [Bool.and_eq_true, List.all_eq_true]
    refine ⟨decide_eq_true h.fifoLen, fun a ha => ?_⟩
    obtain ⟨r, h1, h2⟩ := h.fifo a ha
    rw [h1]; simpa using h2
  · unfold targetLaw
    split
    · rfl
    · rename_i j hj
      obtain ⟨r, h1, h2⟩ := h.target j hj
      rw [h1]; simpa using h2
  · unfold closingLaw
    rw [all_slots]
    intro j
    cases e : jobAt s j with
    | none => rfl
    | some r =>
      simp only [Bool.or_eq_true, decide_eq_true_eq]
      by_cases hc : r.intake = .closing
      · exact Or.inr (h.closing j r e hc (by simp [Spare.nobody]))
      · exact Or.inl hc
  · unfold countLaw
    rw [all_slots]
    intro j
    cases e : jobAt s j with
    | none => rfl
    | some r =>
      simp only [Bool.and_eq_true, decide_eq_true_eq]
      by_cases ho : r.output = .finished
      · exact ⟨(h.finished j r e ho).2.1, (h.finished j r e ho).2.2.1⟩
      · have c := h.cursor j r e ho
        refine ⟨?_, c.copies⟩
        by_cases hb : own j = []
        · obtain ⟨_, z, _⟩ := c.start hb; omega
        · obtain ⟨_, _, _, _, _, z, _⟩ := c.stands hb; exact z
  · unfold queueLaw
    rw [all_slots]
    intro j
    rw [all_lines]
    intro l
    simp only [List.all_cons, List.all_nil, Bool.and_true, Bool.and_eq_true, decide_eq_true_eq]
    exact ⟨h.queue l true j, h.queue l false j⟩
  · unfold currentLaw
    rw [Bool.and_eq_true, all_lines, all_slots]
    refine ⟨fun l => (engineLaw_iff _).2 (h.line l (by simp)).engine, fun j => ?_⟩
    rw [all_lines]
    intro l
    have c := h.current l j
    cases e : jobAt s j with
    | none =>
      rw [e] at c
      have : (engineAt s l).current ≠ some j := fun n => by obtain ⟨q, hq, _⟩ := c.1 n; cases hq
      simp [this]
    | some r =>
      rw [e] at c
      simp only [Option.some.injEq, exists_eq_left'] at c
      simp [c]
  · exact (unitLaw_iff s).2 (fun l => ⟨(h.line l (by simp)).waits, (h.line l (by simp)).flies⟩)
  · unfold blockLaw
    rw [Bool.or_eq_true, all_blocks]
    by_cases hr : s.window.ready = true
    · right
      intro b
      rw [decide_eq_true_eq, List.count_append, chainBlocks_count]
      have := h.blocks hr b
      simp only [hown] at this
      exact this
    · left; simpa using hr
  · exact (chainLaw_iff s).2 ⟨hch, h.freeLinks⟩
  · unfold finishedLaw
    rw [all_slots]
    intro j
    cases e : jobAt s j with
    | none => rfl
    | some r =>
      simp only [Bool.or_eq_true, Bool.and_eq_true, decide_eq_true_eq, Bool.not_eq_true', Option.isNone_iff_eq_none]
      by_cases ho : r.output = .finished
      · right
        obtain ⟨a, _, _, d⟩ := h.finished j r e ho
        rw [hownr j r e] at d
        obtain ⟨e1, e2, e3⟩ := (hch j r e).empty_iff
        refine ⟨⟨⟨⟨⟨a, e1.1 d⟩, e2.1 d⟩, e3.1 d⟩, ?_⟩, h.targetNe e (by rw [a]; simp)⟩
        unfold hasEntry
        rw [List.any_eq_false]
        intro x hx hxj
        obtain ⟨q, h1, h2⟩ := h.fifo x hx
        have hxj : x.1 = j := by simpa using hxj
        rw [hxj, e] at h1; cases h1; exact h2 a
      · exact Or.inl ho
  · exact (reportLaw_iff s).2 ⟨h.recordsLen, h.waiting, h.records⟩
  · exact (accessLaw_iff s).2 h.access
  · unfold progressLaw
    rw [all_slots]
    intro j
    cases e : jobAt s j with
    | none => rfl
    | some r =>
      simp only [Bool.or_eq_true, decide_eq_true_eq]
      by_cases ho : r.output = .finished
      · exact Or.inl ho
      · right
        have hnd := h.nodup (h.ready e) j
        have c1 := h.cursor j r e ho
        have c2 := h.going j r e ho (by simp [Spare.nobody])
        rw [hownr j r e] at hnd c1 c2
        exact (progress_iff s j r (hch j r e) hnd).2 ⟨c1, c2⟩
  · unfold fetchedLaw
    rw [all_lines]
    intro l
    split
    · rename_i f j r hf hc
      split
      · rfl
      · rename_i p hp
        obtain ⟨h1, h2⟩ := currentJob_iff.1 hc
        have := h.fetched l j r f p h1 h2 hf hp
        rw [hownr j r h2] at this
        exact (readsAt_iff s j r p (hch j r h2)).2 this
    · rfl
  · unfold fetchLaw
    split
    · rename_i l err ha
      obtain ⟨a, b, c⟩ := (h.line l (by simp)).fetch err ha
      simp [a, b, Option.isSome_iff_ne_none, c]
    all_goals rfl
  · unfold emptyLaw
    rw [Bool.or_eq_true, all_slots]
    by_cases hr : s.window.ready = true
    · exact Or.inl hr
    · right; intro j; rw [h.emptySlots (by simpa using hr) j]; rfl

theorem Kept.sound {s : State} (h : Kept s) : Sound (spelled s) none .nobody s ∧ heldLaw s = true := by
  obtain ⟨h1, h2, h3, h4, h5, h6, h7, h8, h9, h10, h11, h12, h13, h14, h15, h16, h17⟩ := h
  obtain ⟨hch, hfree⟩ := (chainLaw_iff s).1 h9
  have hempty : s.window.ready = false → ∀ j, jobAt s j = none := fun hr j => by
    unfold emptyLaw at h16
    rw [hr, Bool.false_or, all_slots] at h16
    simpa using h16 j
  have hready : ∀ j r, jobAt s j = some r → s.window.ready = true := fun j r e => by
    by_contra hn
    have := hempty (by simpa using hn) j
    rw [e] at this; cases this
  have hblocks : s.window.ready = true → ∀ b, s.spool.freeList.count b + ∑ j, (spelled s j).count b = 1 := fun hr b => by
    unfold blockLaw at h8
    rw [hr, Bool.not_true, Bool.false_or, all_blocks] at h8
    have := h8 b
    rw [decide_eq_true_eq, List.count_append, chainBlocks_count] at this
    exact this
  have hnd : ∀ j r, jobAt s j = some r → (chainOf s r).Nodup := fun j r e => by
    rw [List.nodup_iff_count_le_one]
    intro b
    have hb := hblocks (hready j r e) b
    have := count_le_sum (spelled s) j b
    rw [spelled_of e] at this
    omega
  unfold countLaw at h4
  rw [all_slots] at h4
  unfold progressLaw at h13
  rw [all_slots] at h13
  have hprog : ∀ j r, jobAt s j = some r → r.output ≠ .finished → CursorOk r (spelled s j) ∧ Going r (spelled s j) := fun j r e ho => by
    have := h13 j
    rw [e] at this
    simp only [Bool.or_eq_true, decide_eq_true_eq, ho, false_or] at this
    rw [spelled_of e]
    exact (progress_iff s j r (hch j r e) (hnd j r e)).1 this
  unfold currentLaw at h6
  rw [Bool.and_eq_true, all_lines, all_slots] at h6
  obtain ⟨hrec1, hrec2, hrec3⟩ := (reportLaw_iff s).1 h11
  refine ⟨?_, h17⟩
  unfold fifoLaw at h1
  rw [Bool.and_eq_true, List.all_eq_true, decide_eq_true_eq] at h1
  exact
  { fifoLen := h1.1
    fifo := fun a ha => by
      have := h1.2 a ha
      cases e : jobAt s a.1 with
      | none => rw [e] at this; cases this
      | some r => rw [e] at this; exact ⟨r, rfl, by simpa using this⟩
    target := fun j hj => by
      unfold targetLaw at h2
      rw [hj] at h2
      simp only at h2
      cases e : jobAt s j with
      | none => rw [e] at h2; cases h2
      | some r => rw [e] at h2; exact ⟨r, rfl, by simpa using h2⟩
    closing := fun j r e hc _ => by
      unfold closingLaw at h3
      rw [all_slots] at h3
      have := h3 j
      rw [e] at this
      simpa [hc] using this
    queue := fun l u j => by
      unfold queueLaw at h5
      rw [all_slots] at h5
      have := h5 j
      rw [all_lines] at this
      have := this l
      simp only [List.all_cons, List.all_nil, Bool.and_true, Bool.and_eq_true, decide_eq_true_eq] at this
      cases u
      · exact this.2
      · exact this.1
    current := fun l j => by
      have := h6.2 j
      rw [all_lines] at this
      have := this l
      cases e : jobAt s j with
      | none =>
        rw [e] at this
        constructor
        · intro n; rw [n] at this; simp at this
        · rintro ⟨q, hq, _⟩; cases hq
      | some r =>
        rw [e] at this
        rw [beq_iff_eq, Bool.eq_iff_iff, decide_eq_true_eq, Bool.and_eq_true, decide_eq_true_eq, decide_eq_true_eq] at this
        rw [this]
        simp
    finished := fun j r e ho => by
      unfold finishedLaw at h10
      rw [all_slots] at h10
      have c := h10 j
      have d := h4 j
      rw [e] at c d
      simp only [ho, ne_eq, not_true_eq_false, decide_false, Bool.false_or, Bool.and_eq_true, decide_eq_true_eq] at c d
      obtain ⟨⟨⟨⟨⟨c1, c2⟩, _⟩, _⟩, _⟩, _⟩ := c
      refine ⟨c1, d.1, d.2, ?_⟩
      rw [spelled_of e]
      exact (hch j r e).empty_iff.1.2 c2
    recordsLen := hrec1
    waiting := hrec2
    records := hrec3
    freeSlot := fun j e => by unfold spelled; rw [e]
    chain := fun j r e => by rw [spelled_of e]; exact hch j r e
    cursor := fun j r e ho => (hprog j r e ho).1
    going := fun j r e ho _ => (hprog j r e ho).2
    blocks := hblocks
    freeLinks := hfree
    emptySlots := hempty
    line := fun l _ =>
      { engine := (engineLaw_iff _).1 (h6.1 l)
        waits := ((unitLaw_iff s).1 h7 l).1
        flies := ((unitLaw_iff s).1 h7 l).2
        fetch := fun err ha => by
          unfold fetchLaw at h15
          rw [ha] at h15
          simp only [Bool.and_eq_true, decide_eq_true_eq] at h15
          exact ⟨h15.1.1, h15.1.2, Option.isSome_iff_ne_none.1 h15.2⟩ }
    fetched := fun l j r f p c1 c2 c3 c4 => by
      unfold fetchedLaw at h14
      rw [all_lines] at h14
      have := h14 l
      rw [c3, currentJob_iff.2 ⟨c1, c2⟩] at this
      simp only [c4] at this
      rw [spelled_of c2]
      exact (readsAt_iff s j r p (hch j r c2)).1 this
    access := (accessLaw_iff s).1 h12 }

/-- `Kept` is `Sounds` without exceptions, with the law of READY. -/
theorem kept_iff (s : State) : Kept s ↔ Sounds none .nobody s ∧ heldLaw s = true := by
  constructor
  · exact fun h => ⟨⟨_, h.sound.1⟩, h.sound.2⟩
  · rintro ⟨⟨_, h⟩, k⟩; exact Kept.of_sound h k

end Sys2Proof.Machine
end

