-- ==== Sys2Proof/Tests/Slice0.lean ====
section
/-! SUPPORT. Tests of the model on small states: the well-formedness checks, one step of each kind of command with the
values the spec's rules give, and for every statement with hypotheses a state and operands that meet them. The tests are
elaborated one after another: side by side they would each wait in a thread of their own. -/

namespace Sys2Proof.Tests

set_option Elab.async false

open Sys2Proof.Machine Sys2Proof.Says

/-! ## States -/

/-- The part when its start-up build has ended: no job, all lines OFF. -/
def up : State := { State.reset with
  window := { State.reset.window with ready := true }
  spool := { Spool.reset with freeList := allBlocks } }

/-- A job of line A just opened, one copy, no options, no quota. -/
def opened : Job := newJob 0x00#8 0x00#8 0x01#8 0x00#8

/-- A current job of a line: three bytes in block 5, the cursor after the first, intake CLOSED. -/
def running (l : Fin 4) : Job := { opened with
  line := l, output := .current, intake := .closed, head := some 5, tail := some 5, tailFill := 3, chainLen := 1, stored := 3
  cursor := some { block := 5, off := 1 }, copyPos := 1, total := 1 }

/-- Job 3 is current on a line that is SENDING at a byte boundary, with changes. -/
def busy (l : Fin 4) (e : Engine → Engine := id) (r : Job → Job := id) (s : State := up) : State :=
  setEngine l (e { engineAt s l with state := .sending, current := some 3 }) (setJob 3 (r (running l)) s)

/-- A stored byte of value 0x41 fetched from the cursor of `running`. -/
def byte41 : Fetched := { value := 0x41#8, kind := .stored, pos := some { block := 5, off := 1 } }

/-- Job 3 has two entries in the FIFO and an intake access in progress into block 7 at offset 0. -/
def storing : State :=
  let r := { opened with head := some 7, tail := some 7, chainLen := 1, cursor := some { block := 7, off := 0 } }
  { setJob 3 r up with
    intake := { fifo := [(3, 0x41#8), (3, 0x42#8)], target := some 3, stall := false, headReq := .granted }
    spool := { up.spool with access := some (.intake 1#1) } }

/-- Every input of a parallel line inactive but xON. -/
def ready : ParPins := { took := true, hold := false, fail := true, out := false, on := true }

/-- What a command leaves, as far as asked; `none` where it does not answer a next state. -/
def after {α : Type} (c : Instr) (s : State) (f : State → α) : Option α :=
  match exec c s with
  | .next t => some (f t)
  | .fault _ => none
  | .refused _ => none

theorem quiet {s : State} (h : s.spool.access = none) : NotStoring s := fun _ e => (nomatch h.symm.trans e)

theorem idleStore {s : State} (j : Fin 16) (h : s.spool.access = none) : NoAccessOf j s :=
  ⟨fun _ _ _ e => (nomatch h.symm.trans e), fun _ e => (nomatch h.symm.trans e)⟩

/-! ## Well-formedness -/

theorem test_wf_software_reset : Instr.wf (.softwareReset 0x00#8) = false ∧
    Instr.wf (.softwareReset 0x01#8) = true := by decide
theorem test_wf_invchk : Instr.wf (.invchk 0x03#8) = false ∧ Instr.wf (.invchk 0x02#8) = true := by decide
theorem test_wf_ignored_register : Instr.wf (.ignoredRegisterWrite 0x0#4 0#8) = false
    ∧ Instr.wf (.ignoredRegisterWrite 0xD#4 0#8) = false ∧ Instr.wf (.ignoredRegisterWrite 0x4#4 0#8) = true := by decide
theorem test_wf_unknown : Instr.wf (.unknown 0x10#8) = false ∧ Instr.wf (.unknown 0x28#8) = false
    ∧ Instr.wf (.unknown 0x17#8) = true := by decide
/-- No row of the table gives bits. -/
theorem test_decode_none : decodeTableWord 8 0x10 = none ∧ State.reset.withFetchWord 8 0x10 = State.reset := ⟨rfl, rfl⟩

/-! ## One step of each kind of command -/

/-- R46: 128 blocks, READY 1. -/
theorem test_build_end : after .startUpBuildEnd State.reset (fun t => (readRegister 0xA#4 t, t.window.ready))
    = some (128#8, true) := by
  decide +kernel
/-- R49, R182: ROOM 15 after one DATA write. -/
theorem test_data_write : after (.dataWrite 0x41#8) { setJob 3 opened up with intake := { Intake.reset with target := some 3 } }
    (fun t => (t.intake.fifo, t.intake.headReq, readRegister 0x8#4 t)) = some ([(3, 0x41#8)], .waiting, 15#8) := by
  decide +kernel
/-- R2, R159: OPEN returns OK and the lowest free slot. -/
theorem test_open : after (.openJob 0x01#8 0x0C#8 0x0F#8 0x80#8) (setJob 0 opened up)
    (fun t => (t.port.results, t.intake.target, (jobAt t 1).map (fun r => (r.copies, r.quota))))
    = some ([0x01#8, 0x01#8], some 1, some (15, 128)) := by decide +kernel
/-- R74: an early job opened for a line that is OFF is queued, and the line stays OFF. -/
theorem test_open_early_off : after (.openJob 0x01#8 0x02#8 0x01#8 0x00#8) up
    (fun t => ((queueAt t 1).normal, (engineAt t 1).state)) = some ([0], .off) := by decide +kernel
/-- R106, R180: a line that was SENDING is IDLE after software reset, the jobs are gone and READY is 0. -/
theorem test_software_reset : after (.softwareReset 0x01#8) (busy 0)
    (fun t => ((engineAt t 0).state, (engineAt t 1).state, (jobAt t 3).isNone, t.window.ready))
    = some (.idle, .off, true, false) := by decide +kernel
/-- R180, R182: INVCHK is bit 1 of CONTROL. -/
theorem test_invchk : after (.invchk 0x02#8) up (readRegister 0x7#4) = some 0x02#8 := by decide +kernel
theorem test_tick_write : after (.tickWrite 0x00#8) { up with timeBase := { setting := 62#8, count := 99 } }
    (fun t => (readRegister 0xD#4 t, t.timeBase.count)) = some (0x00#8, 0) := by decide +kernel
theorem test_enable_write : after (.enableWrite 0x08#8) (flagged 0x08#8 up) hirq = some true := by decide +kernel
/-- R153, R150: each 1 clears its flag, and CMDERR clears the misuse flags. -/
theorem test_event_write : after (.eventWrite 0x03#8) { flagged 0xFF#8 up with port := { up.port with collided := true } }
    (fun t => (readRegister 0x5#4 t, readRegister 0x1#4 t)) = some (0xFC#8, 0x00#8) := by decide +kernel
theorem test_ignored_write : exec (.ignoredRegisterWrite 0xA#4 0x55#8) up = .next up := rfl

/-- R103, R119, R156: the default separator, ack limit and TICK setting. -/
theorem test_power_on : after .powerOnReset (busy 0)
    (fun t => ((engineAt t 3).config.separator, (parAt t 1).config.ackLimit, t.timeBase.setting, inReset t))
    = some (0x0C#8, 0x14#8, 62#8, true) := by decide +kernel
theorem test_power_good : after .powerGood { State.reset with window := { State.reset.window with powerHeld := true } } building
    = some true := by decide +kernel
/-- R26, R181: pin reset keeps the stored bytes. -/
theorem test_pin_reset : after .pinReset { up with spool := { up.spool with bytes := [(3, 0x41#8)] } }
    (fun t => (t.spool.bytes, inReset t)) = some ([(3, 0x41#8)], true) := by decide +kernel
/-- R181: the power-on reset still holds the part. -/
theorem test_pin_release : after .pinResetRelease
    { State.reset with window := { State.reset.window with powerHeld := true, pinHeld := true } } inReset
      = some true := by decide +kernel

/-- A line waiting for readiness with its hold timer at a count, hold limit 1. -/
def waiting (l : Fin 4) (n : Nat) : State :=
  busy l (fun e => { e with
    step := .waiting, fetched := some byte41, hold := some n, config := { e.config with holdLimit := 0x01#8 } })

theorem test_tick : after .tick (waiting 0 3) (fun t => (engineAt t 0).hold) = some (some 4) := by decide +kernel
/-- R104: a limit of 1 is 16 ticks; R93: LINEATT. -/
theorem test_hold_expiry : after (.holdTimerExpiry 0) (waiting 0 16)
    (fun t => ((engineAt t 0).state, (engineAt t 0).cause, readRegister 0x5#4 t)) = some (.fault, .holdtime, 0x08#8) := by
  decide +kernel
theorem test_hold_not_due : after (.holdTimerExpiry 0) (waiting 0 15) (fun t => (engineAt t 0).state) = some .sending := by
  decide +kernel
/-- A STARVED line with its starve timer at a count, starve limit 1. -/
def starving (l : Fin 4) (n : Nat) : State :=
  busy l (fun e => { e with state := .starved, starve := some n, config := { e.config with starveLimit := 0x01#8 } })
    (fun r => { r with cursor := some { block := 5, off := 3 }, copyPos := 3, intake := .opened })

/-- R104: a limit of 1 is 64 ticks. -/
theorem test_starve_expiry : after (.starveTimerExpiry 2) (starving 2 64)
    (fun t => (engineAt t 2).cause) = some .starve := by
  decide +kernel
/-- A byte in flight on line A in a handshake state, its inputs at rest. -/
def flying (h : Handshake) (u : ParUnit → ParUnit := id) : State :=
  let s := busy 0 (fun e => { e with step := .inFlight, fetched := some byte41 })
  setPar 0 (u { parAt s 0 with handshake := h, byte := 0x41#8, pins := ready, snapshot := ready, ack := some 20 }) s

/-- R115: the default ack limit is 20 ticks. -/
theorem test_ack_expiry_strobe : after (.ackTimerExpiry 0) (flying .strobe)
    (fun t => (parAt t 0).decided) = some (some .noack) := by
  decide +kernel
theorem test_ack_expiry_wait : after (.ackTimerExpiry 0) (flying .ackwait)
    (fun t => ((engineAt t 0).cause, (jobAt t 3).map Job.total)) = some (.noack, some 1) := by decide +kernel

/-- R38, R33, R46: after the build the intake is granted first, and block 0 is the first block taken. -/
theorem test_store_grant : after .storeGrant
    { setJob 3 opened up with intake := { Intake.reset with fifo := [(3, 0x41#8)], headReq := .waiting } }
    (fun t => (t.spool.pointer, (jobAt t 3).map Job.tail, t.spool.freeList.length, t.spool.access))
    = some (.intake, some (some 0), 127, some (.intake 1#1)) := by decide +kernel
/-- R27: 0x41 holds two ones; odd parity makes the check bit 1 and INVCHK makes it 0. -/
theorem test_check_bit : checkBit false 0x41#8 = 1#1 ∧ checkBit true 0x41#8 = 0#1 := by decide
/-- R54: the byte stands at block 7, offset 0, and the next entry is evaluated. -/
theorem test_intake_access_end : after .intakeAccessEnd storing
    (fun t => (Memory.read t.spool.bytes 1792, (jobAt t 3).map Job.stored, t.intake.fifo, t.intake.headReq))
    = some (0x41#8, some 1, [(3, 0x42#8)], .waiting) := by decide +kernel
/-- A fetch of line A in progress. -/
def fetching (err : Bool) (e : Engine → Engine := id) : State :=
  let s := busy 0 (fun x => e { x with step := .fetching, fetched := some byte41 })
  setPar 0 { parAt s 0 with pins := ready, snapshot := ready } { s with spool := { s.spool with access := some (.drain 0 err) } }

/-- R82: under HALT a check error faults the line; CHECK and LINEATT are raised. -/
theorem test_fetch_end_error : after (.fetchEnd 0) (fetching true)
    (fun t => ((engineAt t 0).cause, (jobAt t 3).map Job.checkErrors, t.events.flags)) = some (.check, some 1, 0x88#8) := by
  decide +kernel
/-- R83, R112: a ready device takes the byte at once. -/
theorem test_fetch_end : after (.fetchEnd 0) (fetching false)
    (fun t => ((parAt t 0).handshake, xDat (parAt t 0), xPut (parAt t 0))) = some (.setup, 0x41#8, true) := by decide +kernel
/-- A scan of job 3 on its last byte, two bytes checked already. -/
def scanning (err : Bool) : State :=
  let s := setJob 3 (running 0) up
  { s with
    verify := { Verify.reset with running := true, job := 3, pos := some { block := 5, off := 2 }, bytesChecked := 2 }
    spool := { s.spool with access := some (.verify err) }
    port := { s.port with state := .executing } }

/-- R41, R183: OK; one error, at block 5 offset 2; three bytes checked. -/
theorem test_verify_read_end : after .verifyReadEnd (scanning true) (fun t => t.port.results)
    = some [0x01#8, 0x01#8, 0x05#8, 0x02#8, 0x03#8, 0x00#8] := by decide +kernel

/-- R112: xPUT is low in STROBE alone, and the ack timer starts with it. -/
theorem test_setup_end : after (.setupEnd 0) (flying .setup) (fun t => (xPut (parAt t 0), (parAt t 0).ack))
    = some (false, some 0) := by
  decide +kernel
theorem test_strobe_end : after (.strobeEnd 0) (flying .strobe) (fun t => (xPut (parAt t 0), (parAt t 0).handshake))
    = some (true, .trail) := by decide +kernel
theorem test_trail_end : after (.trailEnd 0) (flying .trail) (fun t => (parAt t 0).handshake) = some .ackwait := by
  decide +kernel
/-- R116, R84: a decided byte is delivered at the end of its trail; the cursor moves on and the next byte is fetched. -/
theorem test_trail_end_decided : after (.trailEnd 0) (flying .trail (fun u => { u with decided := some .delivered }))
    (fun t => ((jobAt t 3).map Job.copyPos, (jobAt t 3).map Job.total, (engineAt t 0).step))
      = some (some 2, some 2, .fetching) := by
  decide +kernel
/-- R113: the fall of xTOOK in ACKWAIT delivers the byte. -/
theorem test_input_change : after (.inputChange 0 { ready with took := false }) (flying .ackwait)
    (fun t => ((parAt t 0).handshake, (jobAt t 3).map Job.copyPos)) = some (.rest, some 2) := by decide +kernel
/-- R111, R110: an offline device ends a wait with OFFLINE. -/
theorem test_input_change_offline : after (.inputChange 0 { ready with on := false })
    (setPar 0 { parAt up 0 with handshake := .waiting, pins := ready, snapshot := ready } (waiting 0 0))
    (fun t => ((engineAt t 0).cause, (parAt t 0).handshake)) = some (.offline, .rest) := by decide +kernel

/-- Line C waiting for its device in a flow mode. -/
def held (f : Flow) (x : Bool) : State :=
  setSer 0 { serAt up 0 with
    transmit := .waiting, xoff := x, receiver := .receiving, config := { (serAt up 0).config with flow := f } } (waiting 2 0)

/-- R126: yGO active ends the wait. -/
theorem test_go_change : after (.goChange 0 false) (held .go false) (fun t => ((serAt t 0).transmit, yTxd (serAt t 0)))
    = some (.shifting, false) := by decide +kernel
theorem test_frame_end : after (.frameEnd 0) (setSer 0 { serAt up 0 with transmit := .shifting }
    (busy 2 (fun e => { e with step := .inFlight, fetched := some byte41 })))
    (fun t => ((serAt t 0).transmit, (jobAt t 3).map Job.total)) = some (.rest, some 2) := by decide +kernel
/-- R127: 0x41 in 7 bits, even parity, two stop bits: eleven bit times. -/
theorem test_frame : frameLevels { rate := 0, seven := true, parity := .even, twoStop := true, flow := .none } 0x41#8
    = [false, true, false, false, false, false, false, true, false, true, true] := by decide
/-- R130: XON ends the wait, XOFF sets the flag. -/
theorem test_xon : after (.receivedCharacter 0 0x11#8 false true) (held .xonxoff true)
    (fun t => ((serAt t 0).xoff, (serAt t 0).transmit)) = some (false, .shifting) := by decide +kernel
theorem test_xoff : after (.receivedCharacter 0 0x13#8 false true) (held .xonxoff false)
    (fun t => (serAt t 0).xoff) = some true := by
  decide +kernel
/-- Line C's receiver in a state. -/
def hearing (r : Receiver) (seen : Bool := false) : State := setSer 0 { serAt up 0 with receiver := r, startSeen := seen } up

theorem test_rxd_mark : after (.rxdMark 0) (hearing .markwait)
    (fun t => (serAt t 0).receiver) = some .hunt := by decide +kernel
/-- The byte of line A is in the last CLK period of its trail, delivered, its job cancelled and with the head entry; line B is
STARVED on job 5, truncated, with the one entry behind it and a separator to send. -/
def chained : State :=
  let s := busy 0 (fun e => { e with step := .inFlight, fetched := some byte41 }) (fun r => { r with
    intake := .opened, cancelPending := true })
  let s := setPar 0 { parAt s 0 with
    handshake := .trail, decided := some .delivered, phaseClks := 3, pins := ready, snapshot := ready } s
  let s := setPar 1 { parAt s 1 with pins := ready, snapshot := ready } s
  let s := setJob 5 { opened with
    line := 1, early := true, separate := true, output := .current, intake := .closing, truncated := true } s
  let s := setEngine 1 { engineAt s 1 with state := .starved, current := some 5 } s
  { s with intake := { Intake.reset with fifo := [(3, 0x41#8), (5, 0x42#8)], stall := true } }

/-- R112: in one CLK period line A's trail ends, its job retires and is purged, job 5 closes, and line B puts its separator; the
setup of that byte has counted no CLK period yet. -/
theorem test_put_counts_from_next : (match step chained with
    | .next t => some ((parAt t 0).handshake, (engineAt t 0).state, (parAt t 1).handshake, (parAt t 1).phaseClks)
    | .fault _ => none
    | .refused _ => none) = some (.rest, .idle, .setup, 0) := by decide +kernel
/-- R124: a level is in the snapshot when yRXD has held it for two CLK periods. -/
theorem test_rxd_recognised : [0, 1].map (fun n =>
    match step (setSer 0 { serAt up 0 with pins := { go := true, rxd := false }, snapshot := { go := true, rxd := true }, rxdClks := n } up) with
    | .next t => (serAt t 0).snapshot.rxd
    | .fault _ | .refused _ => true) = [true, false] := by decide +kernel
theorem test_start_bit : after (.startBit 0) (hearing .hunt) (fun t => (serAt t 0).startSeen) = some true := by
  decide +kernel
/-- R129: mark half a bit later was noise. -/
theorem test_start_bit_noise : after (.startBitSample 0 true) (hearing .hunt true)
    (fun t => (serAt t 0).receiver) = some .hunt := by
  decide +kernel
theorem test_start_bit_sample : after (.startBitSample 0 false) (hearing .hunt true) (fun t => (serAt t 0).receiver)
    = some .receiving := by decide +kernel

/-! Commands: the completion codes are 1 OK, 2 UNKNOWN, 3 BADPARAM, 4 BADJOB, 5 BADSTATE, 6 NOSLOT, 7 NOTREADY, 8 EMPTY,
9 GONE (R184). -/

theorem test_open_early_copies : after (.openJob 0#8 0x02#8 0x02#8 0#8) up
    (fun t => t.port.results) = some [0x03#8] := by decide +kernel
theorem test_target_free_slot : after (.target 0x03#8) up (fun t => t.port.results) = some [0x04#8] := by decide +kernel
theorem test_target_none : after (.target 0xFF#8) storing (fun t => (t.port.results, t.intake.target))
    = some ([0x01#8], none) := by
  decide +kernel
/-- R7: a job with entries in the FIFO becomes CLOSING. -/
theorem test_close : after (.closeJob 0x03#8) storing (fun t => ((jobAt t 3).map Job.intake, t.intake.target))
    = some (some .closing, none) := by decide +kernel
/-- R9: a job with none becomes CLOSED and joins its queue. -/
theorem test_close_empty : after (.closeJob 0x03#8) (setJob 3 opened up)
    (fun t => ((jobAt t 3).map Job.intake, (queueAt t 0).normal)) = some (some .closed, [3]) := by decide +kernel
/-- R19, R16: the retired job is posted, and DONEQ and CMDDONE are raised. -/
theorem test_cancel : after (.cancel 0x03#8) (setJob 3 opened up)
    (fun t => ((jobAt t 3).map Job.outcome, t.completion.queue.length, t.events.flags))
      = some (some (some .cancelled), 1, 0x05#8) := by
  decide +kernel
/-- R20: with a byte in flight the port is EXECUTING. -/
theorem test_cancel_in_flight : after (.cancel 0x03#8) (flying .strobe) (fun t => (t.port.state, (jobAt t 3).map Job.output))
    = some (.executing, some .current) := by decide +kernel
/-- Two entries of a job, the first going to the last place of its last block under its quota. -/
def storingLast : State :=
  let s := { setJob 3 { running 0 with output := .pending, intake := .opened, tailFill := 255, stored := 255, quota := 1 } up with
    intake := { Intake.reset with fifo := [(3, 0x41#8), (3, 0x42#8)], headReq := .granted } }
  { s with spool := { s.spool with access := some (.intake 1#1) } }

/-- R39, R53, R57: the access ends before the job is retired, so that its next entry is found at the quota. -/
theorem test_cancel_storing : after (.cancel 0x03#8) storingLast
    (fun t => (t.completion.queue.map Record.truncated, (jobAt t 3).map Job.stored, t.intake.fifo))
      = some ([true], some 256, []) := by
  decide +kernel
theorem test_hold : after (.hold 0x03#8) (waiting 0 5) (fun t => ((engineAt t 0).state, (jobAt t 3).map Job.held))
    = some (.paused, some true) := by decide +kernel
theorem test_release : after (.release 0x03#8)
    (busy 0 (fun e => { e with state := .paused }) (fun r => { r with held := true }))
    (fun t => ((engineAt t 0).state, (engineAt t 0).step)) = some (.sending, .fetching) := by decide +kernel
theorem test_move_own_line : after (.move 0x03#8 0x00#8) (setJob 3 opened up) (fun t => t.port.results) = some [0x03#8] := by
  decide +kernel
theorem test_move_paused : after (.move 0x03#8 0x02#8) (busy 0 (fun e => { e with state := .paused }))
    (fun t => ((engineAt t 0).state, (queueAt t 2).normal)) = some (.idle, [3]) := by decide +kernel
/-- R43: an empty chain has nothing to read. -/
theorem test_verify_empty : after (.verify 0x03#8) (setJob 3 opened up) (fun t => t.port.results)
    = some [0x01#8, 0x00#8, 0xFF#8, 0x00#8, 0x00#8, 0x00#8] := by decide +kernel
theorem test_verify_starts : after (.verify 0x03#8) (setJob 3 (running 0) up) (fun t => (t.port.state, requesting t .verify))
    = some (.executing, true) := by decide +kernel
theorem test_query_job : after (.queryJob 0x03#8)
    (setJob 3 { running 2 with held := true, stored := 0x010203 } up) (fun t => t.port.results)
    = some [0x01#8, 0x02#8, 0x02#8, 0x02#8, 0x00#8, 0x01#8, 0x01#8, 0x00#8, 0x03#8, 0x02#8, 0x01#8, 0x01#8,
      0x00#8] := by decide +kernel
theorem test_take_empty : after .take up (fun t => t.port.results) = some [0x08#8] := by decide +kernel
/-- A FINISHED job 3 with its record at the head of the Completion Queue. -/
def finished : Job :=
  { opened with output := .finished, intake := .closed, outcome := some .aborted, cause := .media, posted := true }
def reported : State := { setJob 3 finished up with
  completion := { queue := [recordFor 0xFF#8 3 finished .aborted .media], postWait := [], seq := 0#8 } }

/-- R134, R184: sequence 255, job 3, line A, ABORTED, MEDIA; the slot is free. -/
theorem test_take : after .take reported (fun t => (t.port.results, (jobAt t 3).isNone))
    = some ([0x01#8, 0xFF#8, 0x03#8, 0x00#8, 0x03#8, 0x00#8, 0x00#8, 0x00#8, 0x00#8, 0x00#8, 0x00#8, 0x02#8],
      true) := by decide +kernel
/-- R119: an ack limit of 0 is refused; the greatest values are taken. -/
theorem test_line_set_bad : after (.lineSet 0#8 0#8 0#8 0#8 0#8 0#8 0#8 0#8) up
    (fun t => t.port.results) = some [0x03#8] := by decide +kernel
theorem test_line_set : after (.lineSet 0x03#8 0x7F#8 0x02#8 1#8 2#8 3#8 1#8 4#8) up
    (fun t => t.port.results) = some [0x03#8]
    ∧ after (.lineSet 0x03#8 0x6F#8 0x02#8 1#8 2#8 3#8 1#8 4#8) up (fun t => (serAt t 1).config)
      = some { rate := 7, seven := true, parity := .even, twoStop := true, flow := .xonxoff } := by decide +kernel
theorem test_line_enable : after (.lineEnable 0x00#8) up (fun t => (engineAt t 0).state) = some .idle := by decide +kernel
theorem test_line_disable_off : after (.lineDisable 0x00#8) up (fun t => t.port.results) = some [0x05#8] := by decide +kernel
theorem test_line_stop : after (.lineStop 0x02#8) (starving 2 5) (fun t => ((engineAt t 2).state, (engineAt t 2).starve))
    = some (.paused, none) := by decide +kernel
theorem test_line_go : after (.lineGo 0x00#8) (busy 0 (fun e => { e with state := .paused, stop := true }))
    (fun t => (engineAt t 0).state)
    = some .sending := by decide +kernel
/-- Line A in FAULT with a cause. -/
def broken (c : Cause) (p : ParPins := ready) (r : Job → Job := id) : State :=
  setPar 0 { parAt up 0 with pins := p, snapshot := p } (busy 0 (fun e => { e with state := .fault, cause := c }) r)

/-- R95: the failing input is still active. -/
theorem test_line_resume_not_ready : after (.lineResume 0x00#8 0x00#8) (broken .media { ready with out := true })
    (fun t => t.port.results) = some [0x07#8] := by decide +kernel
/-- R173, R89: after a STARVE fault a skip acts as a retry: a byte stored since is not passed, and is fetched. -/
theorem test_line_resume_skip_starve : after (.lineResume 0x00#8 0x01#8) (broken .starve)
    (fun t => ((jobAt t 3).map Job.copyPos, (engineAt t 0).state, (engineAt t 0).step)) = some (some 1, .sending, .fetching) := by
  decide +kernel
/-- R96: a skip passes the byte at the cursor. -/
theorem test_line_resume_skip : after (.lineResume 0x00#8 0x01#8) (broken .noack)
    (fun t => ((jobAt t 3).map Job.copyPos, (jobAt t 3).map Job.total, (engineAt t 0).state))
      = some (some 2, some 1, .sending) := by
  decide +kernel
/-- Line A in FAULT, its job at the stored end behind the last byte of a full tail block; an entry of the job asks for a
block. -/
def full (c : Cause) : State :=
  { broken c ready (fun r => { r with
      intake := .opened, tailFill := 256, stored := 256, cursor := some { block := 5, off := 256 }, copyPos := 256 }) with
    intake := { Intake.reset with fifo := [(3, 0x41#8)], headReq := .waiting }
    spool := { up.spool with freeList := [9] } }

/-- R39, R31, R96: with the block linked and its byte not stored yet, a skip finds the old stored end and acts as a retry: the
line is STARVED and no byte is passed. -/
theorem test_line_resume_skip_stored_end : ∀ c ∈ [Cause.starve, .noack],
    (after .storeGrant (full c) id).bind (fun s => after (.lineResume 0x00#8 0x01#8) s
      (fun t => ((jobAt t 3).map Job.tail, (jobAt t 3).map Job.copyPos, (engineAt t 0).state)))
        = some (some (some 9), some 256, .starved) := by
  decide +kernel
theorem test_line_restart : after (.lineRestart 0x00#8) (broken .noack)
    (fun t => (jobAt t 3).map Job.copyPos) = some (some 0) := by
  decide +kernel
theorem test_line_restart_released : after (.lineRestart 0x00#8) (broken .noack ready (fun r => { r with anyReleased := true }))
    (fun t => t.port.results) = some [0x05#8] := by decide +kernel
/-- R98, R36: the job is ABORTED with the line's cause and its block is released. -/
theorem test_line_abort : after (.lineAbort 0x00#8) (broken .holdtime)
    (fun t => (t.completion.queue.map Record.cause, (engineAt t 0).state, t.spool.freeList.getLast?))
      = some ([.holdtime], .idle, some 5) := by
  decide +kernel
/-- R176, R184: FAULT, MEDIA, job 3, no pause reason, online and media out, an empty queue, copy position 1. -/
theorem test_line_query : after (.lineQuery 0x00#8) (broken .media { ready with out := true }) (fun t => t.port.results)
    = some [0x01#8, 0x05#8, 0x02#8, 0x03#8, 0x00#8, 0x05#8, 0x00#8, 0x01#8, 0x00#8, 0x00#8] := by decide +kernel
theorem test_store_query : after .storeQuery storing (fun t => t.port.results)
    = some [0x01#8, 0x80#8, 0x00#8, 0x02#8, 0x03#8, 0x00#8] := by decide +kernel
theorem test_unknown : after (.unknown 0x17#8) up (fun t => (t.port.results, t.events.flags))
    = some ([0x02#8], 0x01#8) := by decide +kernel
theorem test_command_write : after (.commandWrite 0x16#8) up (fun t => (t.port.state, t.port.staged))
    = some (.collecting, some .move) := by
  decide +kernel
theorem test_parameter_stray : after (.parameterWrite 0x01#8) up
    (fun t => (t.port.strayParam, t.events.flags)) = some (true, 0x02#8) := by
  decide +kernel
theorem test_result_underrun : after .resultRead up (fun t => (t.window.readByte, t.port.underrun))
    = some (0x00#8, true) := by decide +kernel
theorem test_result_last : after .resultRead { up with port := { up.port with state := .results, results := [0x05#8] } }
    (fun t => (t.window.readByte, t.port.state)) = some (0x05#8, .idle) := by decide +kernel

/-! ## Witnesses: for each statement with hypotheses, a state and operands that meet them, clause by clause -/

/-- The port in a state, with staged parameters and results. -/
def porting (p : PortState) (c : Option Cmd := none) (staging results : List Byte := []) (s : State := up) : State :=
  { s with port := { s.port with state := p, staged := c, staging := staging, results := results } }

/-- A reset holds the part. -/
def heldBy (power pin : Bool) (s : State := State.reset) : State :=
  { s with window := { s.window with powerHeld := power, pinHeld := pin } }

theorem witness_StepTakesFrontCommand : ({ up with pending := [.tick] } : State).pending = [.tick] := rfl
theorem witness_EmptyQueue_held : (heldBy true false).pending = [] ∧ inReset (heldBy true false) = true := by decide
theorem witness_EmptyQueue_counts : State.reset.pending = [] ∧ inReset State.reset = false ∧
    State.reset.window.ready = false ∧ up.window.ready = true ∧ inReset up = false := by decide
/-- Every phase that a CLK period counts, and the frames. -/
theorem witness_EmptyQueue_phases : (∀ h ∈ [Handshake.rest, .waiting, .setup, .strobe, .trail, .ackwait],
    (parAt (flying h) 0).handshake = h) ∧ (serAt up 0).transmit ≠ .shifting := by decide +kernel
/-- The last count at which a tick is still one period away. -/
def lastCount : State := { up with timeBase := { setting := 0#8, count := 16382 } }
theorem witness_EmptyQueue_rest : lastCount.pending = [] ∧ inReset lastCount = false ∧ lastCount.window.ready = true ∧
    (∀ l, (engineAt lastCount l).hold = none ∧ (engineAt lastCount l).starve = none) ∧
    (∀ x, (parAt lastCount x).handshake = .rest ∧ (parAt lastCount x).ack = none) ∧
    (∀ y, (serAt lastCount y).transmit = .rest ∧ (serAt lastCount y).pins.rxd = (serAt lastCount y).snapshot.rxd ∧
      (serAt lastCount y).rxdClks = 0) ∧
    lastCount.timeBase.count + 1 < (if lastCount.timeBase.setting = 0#8 then 256 else lastCount.timeBase.setting.toNat) * 64 := by
  decide +kernel
theorem witness_HardResetValues : NotStoring (busy 0) := quiet rfl
theorem witness_SoftwareResetValues : (0x01#8).getLsbD 0 = true ∧ inReset up = false ∧ NotStoring up ∧
    inReset (heldBy true false) = true :=
  ⟨rfl, rfl, quiet rfl, rfl⟩
theorem witness_ResetsKeepTheStore : storeLaw up = true ∧ NotStoring up ∧ storeLaw storing = true ∧
    storing.spool.access = some (.intake 1#1) ∧ storing.intake.fifo = [(3, 0x41#8), (3, 0x42#8)] ∧
    (jobAt storing 3).map Job.tail = some (some 7) := ⟨by decide, quiet rfl, by decide, rfl, rfl, by decide⟩
theorem witness_StartUpBuild : (heldBy true false).window.powerHeld = true ∧ (heldBy true false).window.pinHeld = false ∧
    (heldBy false true).window.powerHeld = false ∧ (heldBy false true).window.pinHeld = true ∧
    (heldBy true true).window.powerHeld = true ∧ (heldBy true true).window.pinHeld = true ∧
    State.reset.window.ready = false ∧ inReset State.reset = false ∧ up.window.ready = true := by decide
theorem witness_NotReady : State.reset.window.ready = false ∧ (0xFE#8).getLsbD 0 = false ∧
    written .take = some (0x1A#8, []) := by decide
/-- A FIFO of so many entries of job 3, the target. -/
def filled (n : Nat) : State := { setJob 3 opened up with intake := { Intake.reset with
  fifo := List.replicate n (3, 0x41#8), target := some 3, headReq := if n = 0 then .none else .waiting } }
theorem witness_Registers : (filled 16).intake.fifo.length ≤ 16 ∧ up.intake.target = none ∧
    (filled 0).intake.target = some 3 ∧
    up.spool.freeList.length ≤ 128 ∧ up.completion.queue.length ≤ 8 := by decide +kernel
/-- RESULT with a byte waiting, in another port state, and during the build. -/
theorem witness_Registers_result : (porting .results none [] [0x01#8, 0x03#8]).window.ready = true ∧
    (porting .results none [] [0x01#8, 0x03#8]).port.state = .results ∧
    (porting .results none [] [0x01#8, 0x03#8]).port.results = 0x01#8 :: [0x03#8] ∧
    up.port.state ≠ .results ∧ State.reset.window.ready = false := by decide
theorem witness_HirqFollowsEnabledFlags : up.window.ready = true := rfl
theorem witness_SettingWrites : up.window.ready = true ∧ (0xFD#8).getLsbD 1 = false ∧ (0x02#8).getLsbD 1 = true ∧
    (0xFE#8).getLsbD 0 = false ∧ 0xF#4 ∈ [0x3#4, 0x4#4, 0x8#4, 0x9#4, 0xA#4, 0xB#4, 0xC#4, 0xE#4, 0xF#4] := by decide
theorem witness_DataWrite : up.window.ready = true ∧ up.intake.target = none ∧ (filled 16).intake.target = some 3 ∧
    16 ≤ (filled 16).intake.fifo.length ∧ 0 < (filled 1).intake.fifo.length ∧ (filled 15).intake.fifo.length < 16 ∧
    (filled 0).intake.fifo = [] := by decide
theorem witness_CodeWrite : up.window.ready = true ∧ (porting .executing).port.state = .executing ∧
    up.port.state ≠ .executing ∧
    0x17#8 ∉ commandCodes ∧ 0x29#8 ∉ commandCodes ∧ Cmd.openJob.code = 0x10#8 ∧ Cmd.lineQuery.code = 0x28#8 := by decide
theorem witness_ParameterWrite :
    (porting .collecting (some .move)).port.staging.length + 1 < Cmd.move.params ∧
    written (.move 0x03#8 0x01#8) = some (0x16#8, (porting .collecting (some .move) [0x03#8]).port.staging ++ [0x01#8]) ∧
    (porting .collecting (some .move) [0x03#8]).port.staged = Cmd.ofCode 0x16#8 ∧ up.port.state ≠ .collecting := by decide
theorem witness_CommandRows : written (.lineResume 0x00#8 0x01#8) = some (0x25#8, [0x00#8, 0x01#8]) := rfl
theorem witness_ExecutingPort : written .take = some (0x1A#8, []) ∧ (porting .executing).window.ready = true ∧
    (porting .executing).port.state = .executing := ⟨rfl, rfl, rfl⟩
theorem witness_ResultRead : (porting .results none [] [0x01#8]).port.results = [0x01#8] ∧
    (porting .results none [] [0x01#8, 0x02#8]).port.results = [0x01#8, 0x02#8] ∧ up.port.state ≠ .results := by decide
/-- The two step invariants of the port and of the store meet a state and a command that answers. -/
theorem witness_StepInvariants : portLaw storing.port = true ∧ StoreSafe storing ∧
    (∃ t, step { storing with pending := [.intakeAccessEnd] } = .next t) :=
  ⟨by decide, ⟨by decide, by decide +kernel, by decide +kernel⟩, ⟨_, rfl⟩⟩
/-- An empty job with the separate option. -/
def emptyJob : Job := { opened with output := .queued, intake := .closed, separate := true }
/-- Job 3 is sent by line A, at its fetch step, job 4 fills the FIFO, job 5 is queued and job 6 is FINISHED and posted. -/
def peopled : State :=
  let s := setJob 4 { opened with intake := .closing } (setJob 5 { emptyJob with line := 2 } (setJob 6 finished up))
  let s := busy 0 (fun e => { e with step := .fetching }) id s
  { queuedLast 2 false 5 s with
    intake := { Intake.reset with fifo := [(4, 0x41#8)], headReq := .waiting }
    spool := { up.spool with freeList := allBlocks.erase 5 }
    completion := { queue := [recordFor 0xFF#8 6 finished .aborted .media], postWait := [], seq := 0#8 }
    pending := [.storeGrant] }
theorem witness_StepKeepsTheLaws : Kept peopled ∧ recordsLaw peopled.completion = true ∧ (∃ t, step peopled = .next t) ∧
    (∃ t, step { peopled with pending := [] } = .next t) := by
  refine ⟨⟨?_, ?_, ?_, ?_, ?_, ?_, ?_, ?_, ?_, ?_, ?_, ?_, ?_, ?_, ?_, ?_, ?_⟩, ?_, ⟨_, rfl⟩, ⟨_, rfl⟩⟩ <;> decide +kernel

/-- The port takes a code in each of the three states in which it does. -/
theorem witness_Taking : Taking up ∧ Taking (porting .collecting (some .move)) ∧
    Taking (porting .results none [] [0x01#8]) :=
  ⟨⟨rfl, by decide⟩, ⟨rfl, by decide⟩, ⟨rfl, by decide⟩⟩
theorem witness_Open_bad : 4 ≤ (4#8 : Byte).toNat ∧ 16 ≤ (0x10#8 : Byte).toNat ∧ (0#8 : Byte).toNat = 0 ∧
    128 < (129#8 : Byte).toNat ∧
    (0x02#8 : Byte).getLsbD 1 = true ∧ 1 < (2#8 : Byte).toNat := by decide
/-- The greatest operands that pass every check of OPEN. -/
theorem witness_Open_good :
    ¬(4 ≤ (3#8 : Byte).toNat ∨ 16 ≤ (0x0D#8 : Byte).toNat ∨ (15#8 : Byte).toNat = 0 ∨ 16 ≤ (15#8 : Byte).toNat ∨
    128 < (128#8 : Byte).toNat ∨ ((0x0D#8 : Byte).getLsbD 1 = true ∧ 1 < (15#8 : Byte).toNat)) ∧
    (∀ j, jobAt { up with jobs := Vector.replicate 16 (some opened) } j ≠ none) ∧
    jobAt { up with jobs := setTab (Vector.replicate 16 (some opened)) 15 none } 15 = none ∧
    (∀ k : Fin 16, k < 15 → jobAt { up with jobs := setTab (Vector.replicate 16 (some opened)) 15 none } k ≠ none) := by
  decide +kernel
theorem witness_TargetCommand : Taking up ∧ (0xFE#8 : Byte) ≠ 0xFF#8 := ⟨⟨rfl, by decide⟩, by decide⟩
/-- A port that takes CANCEL, and the slot free, FINISHED, PENDING, CURRENT with a byte in flight and CURRENT without one. -/
theorem witness_Cancel : (16 ≤ (0x10#8 : Byte).toNat ∧ (0x0F#8 : Byte).toNat = (15 : Fin 16).val ∧
      (0x03#8 : Byte).toNat = (3 : Fin 16).val) ∧
    Taking up ∧ jobAt (stored 15 (executing (begun up))) 15 = none ∧
    Taking reported ∧ (jobAt (stored 3 (executing (begun reported))) 3).map Job.output = some .finished ∧
    Taking (setJob 3 opened up) ∧ (jobAt (stored 3 (executing (begun (setJob 3 opened up)))) 3).map Job.output = some .pending ∧
    Taking storing ∧ (jobAt (stored 3 (executing (begun storing))) 3).map (fun r => (r.output, r.stored))
      = some (.pending, 1) ∧
    NoAccessOf 3 (stored 3 (executing (begun storing))) :=
  ⟨by decide, ⟨rfl, by decide⟩, by decide, ⟨rfl, by decide⟩, by decide +kernel, ⟨rfl, by decide⟩, by decide +kernel,
    ⟨rfl, by decide⟩, by decide +kernel, idleStore _ (by decide +kernel)⟩
theorem witness_Cancel_current : Taking (flying .setup) ∧ stored 3 (executing (begun (flying .setup)))
      = executing (begun (flying .setup)) ∧
    (jobAt (executing (begun (flying .setup))) 3).map (fun r => (r.output, r.line)) = some (.current, 0) ∧
    (engineAt (executing (begun (flying .setup))) 0).step = .inFlight ∧
    Taking (waiting 0 0) ∧ stored 3 (executing (begun (waiting 0 0))) = executing (begun (waiting 0 0)) ∧
    (jobAt (executing (begun (waiting 0 0))) 3).map (fun r => (r.output, r.line)) = some (.current, 0) ∧
    (engineAt (executing (begun (waiting 0 0))) 0).step ≠ .inFlight ∧ NoAccessOf 3 (executing (begun (waiting 0 0))) ∧
    (∀ err, (executing (begun (waiting 0 0))).spool.access ≠ some (.drain 0 err)) :=
  ⟨⟨rfl, by decide⟩, rfl, by decide, by decide, ⟨rfl, by decide⟩, rfl, by decide, by decide, idleStore _ rfl,
    by decide⟩
/-- A fetch of the line of the current job in progress, under a given policy, as CANCEL's write finds it. -/
def fetchCancel (p : Policy) (err : Bool) : State :=
  executing (begun (fetching err (fun e => { e with config := { e.config with policy := p } })))
theorem witness_Cancel_fetching : ∀ p ∈ [Policy.halt, .substitute], ∀ err : Bool,
    (stored 3 (fetchCancel p err)).spool.access = some (.drain 0 err) ∧
    (jobAt (stored 3 (fetchCancel p err)) 3).map (fun r => (r.output, r.line)) = some (.current, 0) ∧
    (engineAt (stored 3 (fetchCancel p err)) 0).step = .fetching ∧
    (engineAt (stored 3 (fetchCancel p err)) 0).current = some 3 ∧
    (engineAt (stored 3 (fetchCancel p err)) 0).config.policy = p := by decide +kernel
theorem witness_VerifyCommand : Taking (setJob 3 (running 0) up) ∧
    (∀ err, (setJob 3 (running 0) up).spool.access ≠ some (.verify err)) :=
  ⟨⟨rfl, by decide⟩, by decide⟩
/-- A full Completion Queue with job 9 on the Post-Wait List. -/
def waitingList : State := { setJob 9 { finished with posted := false } (setJob 3 finished up) with
  completion := { queue := List.replicate 8 (recordFor 0xFF#8 3 finished .aborted .media), postWait := [9], seq := 0#8 } }
theorem witness_TakeCommand : up.completion.queue = [] ∧
    reported.completion.queue = [recordFor 0xFF#8 3 finished .aborted .media] ∧ reported.completion.postWait = [] ∧
    waitingList.completion.postWait = [9] ∧ (9 : Fin 16) ≠ 3 ∧ (jobAt waitingList 9).map Job.outcome
      = some (some .aborted) := by
  decide +kernel

theorem witness_LineSet_bad : 4 ≤ (4#8 : Byte).toNat ∧ 1 < (2#8 : Byte).toNat ∧ 8 ≤ (8#8 : Byte).toNat ∧ (0#8 : Byte) = 0#8 ∧
    128 ≤ (0x80#8 : Byte).toNat ∧ (0x30#8 : Byte).getLsbD 4 = true ∧ (0x30#8 : Byte).getLsbD 5 = true ∧
      2 < (3#8 : Byte).toNat := by decide
theorem witness_LineSet_good : (1#8 : Byte).toNat = (1 : Fin 2).val ∧ (1#8 : Byte).toNat ≤ 1 ∧
    ¬(8 ≤ (7#8 : Byte).toNat ∨ (1#8 : Byte) = 0#8) ∧
    (3#8 : Byte).toNat = (1 : Fin 2).val + 2 ∧ ¬(128 ≤ (0x6F#8 : Byte).toNat ∨
      ((0x6F#8 : Byte).getLsbD 4 = true ∧ (0x6F#8 : Byte).getLsbD 5 = true) ∨ 2 < (2#8 : Byte).toNat) := by decide
theorem witness_LineResume : Taking (broken .noack) ∧ (0#8 : Byte).toNat = (0 : Fin 4).val ∧ (1#8 : Byte).toNat ≤ 1 ∧
    (engineAt up 0).state ≠ .fault ∧ (engineAt (broken .noack) 0).state = .fault ∧ 4 ≤ (4#8 : Byte).toNat ∧
      1 < (2#8 : Byte).toNat :=
  ⟨⟨rfl, by decide⟩, rfl, by decide, by decide, by decide, by decide, by decide⟩
theorem witness_LineResume_failing : stillFailing 0 (broken .media { ready with out := true }) :=
  ⟨0, rfl, Or.inr (Or.inr ⟨by decide, by decide⟩)⟩
theorem witness_LineResume_recovers : ¬stillFailing 0 (broken .noack) := by
  rintro ⟨x, -, ⟨h, -⟩ | ⟨h, -⟩ | ⟨h, -⟩⟩ <;> cases h
/-- Line A in FAULT, its job at the byte before the stored end, with a separator pending, with copies. -/
def faultedAt (off : Nat) (sep : Bool) (copies : Nat) : State :=
  broken .noack ready (fun r => { r with cursor := some { block := 5, off := off }, sepPending := sep, copies := copies })
/-- A retry, a skip of a byte, a skip at the stored end, and skips of a separator before and at the end of the last copy. -/
theorem witness_LineResume_choices : currentJob (broken .noack) 0 = some (3, running 0) ∧
    (running 0).sepPending = false ∧ atStoredEnd (broken .noack) (running 0) (running 0).cursor = false ∧
    readPos (broken .noack) (running 0).cursor = some { block := 5, off := 1 } ∧
    (currentJob (faultedAt 3 false 1) 0).map (fun x => (x.2.sepPending, atStoredEnd (faultedAt 3 false 1) x.2 x.2.cursor)) = some (false, true) ∧
    (currentJob (faultedAt 3 true 2) 0).map (fun x => (x.2.sepPending, decide (x.2.copiesDone + 1 < x.2.copies)))
      = some (true, true) ∧
    (currentJob (faultedAt 3 true 1) 0).map (fun x => (x.2.sepPending, decide (x.2.copies ≤ x.2.copiesDone + 1)))
      = some (true, true) ∧
    (engineAt (broken .noack) 0).cause ≠ .starve ∧ (engineAt (faultedAt 3 true 1) 0).cause ≠ .starve ∧
    (engineAt (broken .starve) 0).cause = .starve ∧ currentJob (broken .starve) 0 = some (3, running 0) ∧
    (engineAt (setEngine 0 { engineAt up 0 with state := .fault, cause := .noack } up) 0).state = .fault ∧
    currentJob (setEngine 0 { engineAt up 0 with state := .fault, cause := .noack } up) 0 = none := by decide +kernel
theorem witness_LineRestart : (engineAt (broken .noack) 0).state = .fault ∧
    currentJob (broken .noack) 0 = some (3, running 0) ∧
    (running 0).anyReleased = false ∧
    (currentJob (broken .noack ready (fun r => { r with anyReleased := true })) 0).map (fun x => x.2.anyReleased)
      = some true := by decide +kernel
theorem witness_LineAbort_storing : stored 3 (executing (begun (broken .noack))) = executing (begun (broken .noack)) ∧
    (engineAt (executing (begun (broken .noack))) 0).current = some 3 ∧ NoAccessOf 3 (executing (begun (broken .noack))) :=
  ⟨rfl, by decide, idleStore _ rfl⟩
theorem witness_LineAbort : (engineAt (broken .noack) 0).current = some 3 ∧ jobAt (broken .noack) 3 = some (running 0) ∧
    (running 0).output = .current ∧ (running 0).line = 0 ∧ NoAccessOf 3 (broken .noack) ∧
    (engineAt (setEngine 0 { engineAt up 0 with state := .fault, cause := .noack } up) 0).current = none :=
  ⟨by decide, by decide, rfl, rfl, idleStore _ rfl, by decide⟩

/-- Job 3's head entry has its request waiting. -/
def asking (r : Job) (s : State := up) : State :=
  { setJob 3 r s with intake := { Intake.reset with fifo := [(3, 0x41#8)], headReq := .waiting } }
theorem next_of (s : State) (q : Requester) (h : requesting s q = true)
    (k : decide (∀ q' ∈ [Requester.intake, .drainA, .drainB, .drainC, .drainD, .verify],
      requesting s q' = true → turn s q ≤ turn s q') = true) :
    isNext s q := ⟨h, fun q' hq => of_decide_eq_true k q' (by cases q' <;> decide) hq⟩
theorem witness_StoreGrantRoundRobin : storing.spool.access ≠ none ∧ (∀ q, requesting up q = false) ∧
    (asking opened).spool.access = none ∧
    isNext (asking opened) .intake ∧ (∃ t, exec .storeGrant (asking opened) = .next t) :=
  ⟨by decide, fun q => by cases q <;> rfl, rfl, next_of _ _ (by decide) (by decide +kernel), ⟨_, rfl⟩⟩
/-- A tail block with its last place free, a full tail block, and no tail block. -/
theorem witness_StoreGrant_intake : (asking opened).spool.access = none ∧ (asking opened).intake.fifo = [(3, 0x41#8)] ∧
    (isNext (asking { running 0 with tailFill := 255 }) .intake ∧
      jobAt (asking { running 0 with tailFill := 255 }) 3 = some { running 0 with tailFill := 255 } ∧ (255 : Nat) < 256) ∧
    (isNext (asking { running 0 with tailFill := 256 }) .intake ∧
      jobAt (asking { running 0 with tailFill := 256 }) 3 = some { running 0 with tailFill := 256 } ∧
        (running 0).tail = some 5) ∧
    (isNext (asking opened) .intake ∧ jobAt (asking opened) 3 = some opened ∧ opened.tail = none) ∧
    (asking opened).spool.freeList = 0 :: allBlocks.tail :=
  ⟨rfl, rfl, ⟨next_of _ _ (by decide) (by decide +kernel), by decide, by decide⟩,
    ⟨next_of _ _ (by decide) (by decide +kernel), by decide, rfl⟩,
    ⟨next_of _ _ (by decide) (by decide +kernel), by decide, rfl⟩, by decide +kernel⟩
/-- The new block differs from the tail and nothing links to it. -/
theorem witness_StoreGrant_storedEnd : (256 : Nat) = ({ running 0 with tailFill := 256 } : Job).tailFill ∧ (0 : Fin 128) ≠ 5 ∧
    (∀ b, linkAt (asking { running 0 with tailFill := 256 }) b ≠ some 0) ∧
    ({ block := 5, off := 256 } : Pos).off ≤ 256 ∧ ({ block := 5, off := 256 } : Pos).block ≠ 0 := by decide +kernel
/-- A cursor at the last place of a block, and one past it with a block linked behind. -/
theorem witness_StoreGrant_reads :
    readsAt up (some { block := 5, off := 255 }) { block := 5, off := 255 } ∧
    readsAt (setLink 5 (some 9) up) (some { block := 5, off := 256 }) { block := 9, off := 0 } :=
  ⟨Or.inl ⟨rfl, by decide⟩, Or.inr ⟨_, rfl, by decide, by decide, rfl⟩⟩
theorem witness_StoreGrant_fetch : isNext (busy 3 (fun e => { e with step := .fetching })) (drainOf 3) ∧
    (busy 3 (fun e => { e with step := .fetching })).spool.access = none ∧
    currentJob (busy 3 (fun e => { e with step := .fetching })) 3 = some (3, running 3) ∧
    readsAt (busy 3 (fun e => { e with step := .fetching })) (running 3).cursor { block := 5, off := 1 } :=
  ⟨next_of _ _ (by decide +kernel) (by decide +kernel), rfl, by decide +kernel, Or.inl ⟨rfl, by decide⟩⟩
/-- A scan whose read is not granted yet. -/
def scanWaits : State := { scanning false with spool := up.spool }
theorem witness_StoreGrant_verify : isNext scanWaits .verify ∧
    readsAt scanWaits scanWaits.verify.pos { block := 5, off := 2 } :=
  ⟨next_of _ _ (by decide) (by decide +kernel), Or.inl ⟨rfl, by decide⟩⟩
theorem witness_CheckBit : (∃ t k, exec .storeGrant (asking opened) = .next t ∧ t.spool.access = some (.intake k)) ∧
    storeLaw storing = true ∧
    (jobAt storing 3).map Job.tail = some (some 7) ∧ (jobAt storing 3).map Job.tailFill = some 0 :=
  ⟨⟨_, _, rfl, rfl⟩, by decide, by decide, by decide⟩
/-- The last entry of job 3 is being stored, with changes to the job and to line A. -/
def lastEntry (r : Job → Job) (e : Engine → Engine := id) : State :=
  { busy 0 e (fun q => r { q with intake := .opened }) with
    intake := { Intake.reset with fifo := [(3, 0x41#8)], headReq := .granted }
    spool := { up.spool with access := some (.intake 1#1) } }
theorem witness_IntakeAccessEnd : NotStoring up ∧ (lastEntry id).spool.access = some (.intake 1#1) ∧
    (lastEntry id).intake.fifo = [(3, 0x41#8)] ∧ (jobAt (lastEntry id) 3).map (fun r => (r.tail, r.output, r.line, r.intake))
      = some (some 5, .current, 0, .opened) ∧ (engineAt (lastEntry id) 0).state = .sending :=
  ⟨quiet rfl, rfl, rfl, by decide, by decide⟩
/-- The job's line is STARVED on it. -/
theorem witness_IntakeAccessEnd_starved :
    (fun s => (s.spool.access, (jobAt s 3).map Job.output, (engineAt s 0).state, (engineAt s 0).current))
      (lastEntry id (fun e => { e with state := .starved }))
      = (some (.intake 1#1), some .current, .starved, some 3) := by decide +kernel
/-- The entry is the last of a CLOSING job that is PENDING, or QUEUED. -/
theorem witness_IntakeAccessEnd_closes :
    ((jobAt (lastEntry (fun r => { r with intake := .closing, output := .pending })) 3)
        |>.map (fun r => (r.intake, r.output, r.tail)))
      = some (.closing, .pending, some 5) ∧
    ((jobAt (lastEntry (fun r => { r with intake := .closing, output := .queued })) 3)
        |>.map (fun r => (r.intake, r.output, r.tail)))
      = some (.closing, .queued, some 5) ∧
    ((jobAt (lastEntry (fun r => { r with intake := .closing })) 3).map (fun r => (r.intake, r.output, r.tail)))
      = some (.closing, .current, some 5) ∧ ∀ e ∈ ([] : List (Fin 16 × Byte)), e.1 ≠ 3 :=
  ⟨by decide +kernel, by decide +kernel, by decide +kernel, nofun⟩
/-- A job has the head entry, not evaluated yet, with blocks on the Free List or none. -/
def heading (r : Job) (free : List (Fin 128) := allBlocks) : State := { setJob 3 r up with
  intake := { Intake.reset with fifo := [(3, 0x41#8)] }, spool := { up.spool with freeList := free } }
theorem witness_HeadEvaluation (r : Job) (free : List (Fin 128)) : (heading r free).intake.fifo = [(3, 0x41#8)] ∧
    (heading r free).intake.headReq = .none ∧ jobAt (heading r free) 3 = some r ∧ (heading r free).spool.freeList = free :=
  ⟨rfl, rfl, tab_setTab_same _ _ _, rfl⟩
/-- The jobs that each of the six tests decides, at its boundary. -/
theorem witness_HeadEvaluation_jobs :
    ({ opened with truncated := true } : Job).truncated = true ∧
    (opened.truncated = false ∧ (16777215 : Nat) ≤ ({ opened with stored := 16777215 } : Job).stored) ∧
    (({ running 0 with tailFill := 255 } : Job).stored < 16777215 ∧
      ({ running 0 with tailFill := 255 } : Job).tail ≠ none ∧ 255 < 256) ∧
    (¬(({ running 0 with quota := 1, tailFill := 256 } : Job).tail ≠ none ∧ 256 < 256) ∧ (running 0).chainLen = 1) ∧
    (¬(opened.tail ≠ none ∧ opened.tailFill < 256) ∧ ¬(opened.quota ≠ 0 ∧ opened.chainLen = opened.quota)) ∧
      allBlocks ≠ [] :=
  ⟨rfl, ⟨rfl, Nat.le_refl _⟩, ⟨by decide, by decide, by decide⟩, ⟨by decide, rfl⟩, ⟨by decide, by decide⟩, by decide⟩
/-- No entry; a request that waits; one that is granted. -/
theorem witness_HeadEvaluation_requested : (filled 0).intake.fifo = [] ∧
    ((filled 1).intake.fifo ≠ [] ∧ (filled 1).intake.headReq = .waiting) ∧
    (storing.intake.fifo ≠ [] ∧ storing.intake.headReq = .granted) := by decide
/-- Job 3 in a phase of intake and of output with no entry in the FIFO, its line SENDING or STARVED. -/
def noEntry (i : IntakePhase) (o : OutputPhase) (st : LineState) : State :=
  busy 0 (fun e => { e with state := st }) (fun r => { r with intake := i, output := o })
theorem witness_HeadEvaluation_closes : ∀ i ∈ [IntakePhase.closing, .opened], ∀ o ∈ [OutputPhase.pending, .current, .queued],
    ∀ st ∈ [LineState.starved, .sending], (noEntry i o st).intake.fifo = [] ∧
      (jobAt (noEntry i o st) 3).map (fun r => (r.intake, r.output, r.line)) = some (i, o, 0) ∧
      (engineAt (noEntry i o st) 0).state = st ∧ (engineAt (noEntry i o st) 0).current = some 3 := by decide +kernel
theorem witness_FetchEnd : (∀ err, up.spool.access ≠ some (.drain 0 err)) ∧
    (fetching true).spool.access = some (.drain 0 true) ∧
    (engineAt (fetching true) 0).state = .sending ∧ (engineAt (fetching true) 0).fetched = some byte41 ∧
    currentJob (fetching true) 0 = some (3, running 0) ∧ (engineAt (fetching true) 0).config.policy = .halt := by
  decide +kernel
/-- A line that goes on and one that is to pause, with and without an error, under SUBSTITUTE. -/
theorem witness_FetchEnd_pauses : ∀ err stop : Bool,
    (fun s => (s.spool.access, (engineAt s 0).state, (engineAt s 0).stop, (engineAt s 0).config.policy))
      (fetching err (fun e => { e with stop := stop, config := { e.config with policy := .substitute } }))
      = (some (.drain 0 err), .sending, stop, .substitute) := by decide +kernel
theorem witness_VerifyReadEnd : (∀ err, up.spool.access ≠ some (.verify err)) ∧
    (scanning true).spool.access = some (.verify true) ∧
    (scanning true).verify.running = true ∧ jobAt (scanning true) (scanning true).verify.job = some (running 0) ∧
    (scanning true).verify.pos = some { block := 5, off := 2 } := by decide +kernel

/-- Line A's unit at rest with these inputs. -/
def facing (p : ParPins) : State := setPar 0 { parAt up 0 with pins := p, snapshot := p } (busy 0)
/-- The unit at rest, with the inputs of each of the five outcomes. -/
theorem witness_Readiness : ∀ p ∈ [ready, { ready with on := false }, { ready with fail := false },
    { ready with out := true }, { ready with hold := true }],
    (parAt (facing p) 0).handshake = .rest ∧
      (parAt (facing p) 0).snapshot = p := by decide +kernel
/-- A serial unit at rest in a flow mode, its device ready or not. -/
def talking (f : Flow) (x : Bool) : State :=
  let u := { serAt up 0 with config := { (serAt up 0).config with flow := f } }
  setSer 0 { u with xoff := x, snapshot := { go := x, rxd := true } } (busy 2)
theorem witness_Readiness_serial : ∀ f ∈ [Flow.none, .go, .xonxoff], ∀ x : Bool,
    (fun u : SerUnit => (u.transmit, u.config.flow, u.snapshot.go, u.xoff)) (serAt (talking f x) 0)
      = (.rest, f, x, x) := by decide +kernel
theorem witness_HandshakePhases : (parAt up 0).handshake ≠ .trail ∧ (parAt (flying .trail) 0).handshake = .trail ∧
    (parAt (flying .trail) 0).decided = none ∧
    (parAt (flying .trail (fun u => { u with decided := some .delivered })) 0).decided = some .delivered ∧
    (parAt (flying .trail (fun u => { u with decided := some .noack })) 0).decided = some .noack := by decide +kernel
theorem witness_HandshakePhases_outputs : ∀ h ∈ [Handshake.rest, .waiting, .setup, .strobe, .trail, .ackwait],
    (parAt (flying h) 0).handshake = h ∧ (parAt (flying h) 0).byte = 0x41#8 := by decide
theorem witness_InputChange : inReset (heldBy true false) = true ∧ inReset up = false ∧
    (parAt up 0).handshake = .rest := by decide
/-- In TOOK-pulse mode the fall of xTOOK acknowledges, in every state of a byte in flight, undecided or decided. -/
theorem witness_InputChange_flying : ({ ready with took := false } : ParPins).took = false ∧
    ∀ h ∈ [Handshake.setup, .strobe, .trail, .ackwait], ∀ d ∈ [none, some ByteEnd.noack],
      (fun u : ParUnit => (u.handshake, u.decided, u.config.holdCycle, u.snapshot.took))
        (parAt (flying h (fun u => { u with decided := d })) 0) = (h, d, false, true) := by decide +kernel
/-- HOLD-cycle mode, with the device seen busy: the fall of xHOLD acknowledges. -/
def busySeen : State := flying .ackwait (fun u => { u with
  config := { u.config with holdCycle := true }, busySeen := true, snapshot := { ready with hold := true } })
theorem witness_InputChange_holdCycle : (parAt busySeen 0).config.holdCycle = true ∧
    (parAt busySeen 0).snapshot.hold = true ∧
    ready.hold = false ∧ (parAt busySeen 0).busySeen = true := by decide +kernel
/-- Line A waiting with these inputs in its snapshot. -/
def waitsFacing (p : ParPins) : State :=
  setPar 0 { parAt up 0 with handshake := .waiting, pins := p, snapshot := p } (waiting 0 0)
/-- A wait with xHOLD active, whose inputs do not change, or change to each of the five outcomes. -/
theorem witness_InputChange_waiting : inReset (waitsFacing { ready with hold := true }) = false ∧
    (parAt (waitsFacing { ready with hold := true }) 0).handshake = .waiting ∧
    (engineAt (waitsFacing { ready with hold := true }) (parLine 0)).fetched = some byte41 ∧
    (parAt (waitsFacing { ready with hold := true }) 0).snapshot = { ready with hold := true } ∧
    ready ≠ { ready with hold := true } ∧ ({ ready with on := false } : ParPins).on ≠ ready.on := by decide +kernel
/-- A byte in flight on line A, of a kind, of a job that CANCEL waits for or not. -/
def ending (k : ByteKind) (cancel : Bool) : State :=
  busy 0 (fun e => { e with step := .inFlight, fetched := some { byte41 with kind := k } })
    (fun r => { r with cancelPending := cancel })
theorem witness_ByteEnds : ∀ k ∈ [ByteKind.stored, .substitute, .separator], ∀ c : Bool,
    currentJob (ending k c) 0 = some (3, { running 0 with cancelPending := c }) ∧
    (engineAt (ending k c) 0).fetched = some { byte41 with kind := k } := by decide +kernel
/-- The byte of a job that CANCEL waits for, passed at an offset. -/
def passed (off : Nat) : State :=
  passByte 3 { running 0 with total := 2, cancelPending := true } { block := 5, off := off }
    (setEngine 0 { engineAt (ending .stored true) 0 with step := .boundary, fetched := none } (ending .stored true))
/-- Before the stored end and at it, where the copy ends. -/
theorem witness_ByteEnds_cancel : ∀ off ∈ [1, 2], (passed off).spool.access = none ∧
    (jobAt (passed off) 3).map (fun q => (q.output, q.line, q.sepPending)) = some (.current, 0, false) ∧
    (jobAt (passed off) 3).map (fun q => (q.intake, q.separate, atStoredEnd (passed off) q q.cursor))
      = some (.closed, false, off == 2) := by decide +kernel
theorem witness_ByteEnds_job (k : ByteKind) (c : Bool) : byte41.pos = some { block := 5, off := 1 } ∧
    (running 0).output = .current ∧
    (running 0).line = 0 ∧ NoAccessOf 3 (ending k c) := ⟨rfl, rfl, rfl, idleStore _ rfl⟩

/-- The first byte of a second block, in the last copy and in an earlier one. -/
theorem witness_PassingAByte : (running 0).head = some 5 ∧ (({ block := 9, off := 0 } : Pos).off = 0 ∧
    (running 0).retain = false ∧
    (running 0).copiesDone + 1 = (running 0).copies ∧ (5 : Fin 128) ≠ 9) ∧ up.verify.running = false ∧
    ((scanning true).verify.running = true ∧ (scanning true).verify.job = 3 ∧
      (scanning true).verify.pos.map Pos.block = some 5 ∧ (scanning true).spool.access = some (.verify true)) ∧
    ({ scanning true with spool := up.spool } : State).spool.access = none ∧
    ({ running 0 with copies := 2 } : Job).copiesDone + 1 < 2 ∧ (running 0).copies ≤ (running 0).copiesDone + 1 := by decide
/-- Line A IDLE with job 3 in its queue. -/
def lineUp (r : Job) (stop : Bool := false) : State :=
  queuedLast 0 false 3 (setEngine 0 { engineAt up 0 with state := .idle, stop := stop } (setJob 3 r up))
/-- A queued job of three stored bytes, none sent. -/
def queued : Job := { running 0 with output := .queued, cursor := some { block := 5, off := 0 }, copyPos := 0, total := 0 }
theorem witness_TakeRule : (engineAt (lineUp queued) 0).state = .idle ∧ (engineAt (lineUp queued) 0).stop = false ∧
    eligible (lineUp queued) 0 = some 3 ∧ jobAt (lineUp queued) 3 = some queued ∧ atStoredEnd (lineUp queued) queued queued.cursor = false ∧
    (engineAt (lineUp queued true) 0).stop = true ∧ eligible (lineUp { queued with held := true }) 0 = none := by
  decide +kernel
theorem witness_TakeRule_empty : (engineAt (lineUp emptyJob) 0).state = .idle ∧ eligible (lineUp emptyJob) 0 = some 3 ∧
    jobAt (lineUp emptyJob) 3 = some emptyJob ∧ emptyJob.sepPending = false ∧ atStoredEnd (lineUp emptyJob) emptyJob emptyJob.cursor = true ∧
    emptyJob.intake = .closed ∧ emptyJob.separate = true := by decide +kernel
/-- The states in which a line takes nothing, and a byte under way. -/
theorem witness_TakeRule_still : (∀ st ∈ [LineState.off, .starved, .paused, .fault],
      (engineAt (busy 0 (fun e => { e with state := st })) 0).state = st) ∧
    ∀ p ∈ [CycleStep.fetching, .waiting, .inFlight], (engineAt (busy 0 (fun e => { e with step := p })) 0).state = .sending ∧
      (engineAt (busy 0 (fun e => { e with step := p })) 0).step ≠ .boundary := by decide
/-- The same without a separator, behind it another queued job. -/
def plainJob : Job := { emptyJob with separate := false }
theorem witness_Bounded (s : State) (h : decide (∀ l, (queueAt s l).urgent.length + (queueAt s l).normal.length ≤ 16) = true)
    (c : decide (∀ j, (jobAt s j).all (fun r => decide (r.copies ≤ 15)) = true) = true) (l : Fin 4) : Bounded l s :=
  ⟨of_decide_eq_true h l, fun j r e => by have := of_decide_eq_true c j; rw [e] at this; simpa using this⟩
theorem witness_TakeRule_plain : Bounded 0 (lineUp plainJob) ∧ (engineAt (lineUp plainJob) 0).state = .idle ∧
    eligible (lineUp plainJob) 0 = some 3 ∧ jobAt (lineUp plainJob) 3 = some plainJob ∧ plainJob.separate = false ∧
    plainJob.intake = .closed ∧ (plainJob.head, plainJob.tail, plainJob.cursor, plainJob.copyPos) = (none, none, none, 0) ∧
    plainJob.copiesDone < plainJob.copies ∧ plainJob.line = 0 ∧ NoAccessOf 3 (lineUp plainJob) :=
  ⟨witness_Bounded _ (by decide +kernel) (by decide +kernel) 0, by decide +kernel, by decide +kernel, by decide +kernel, rfl, rfl,
    rfl, by decide, rfl, idleStore _ rfl⟩
/-- Line A at a byte boundary, at an offset of its job's block, with the separate option or not and so many copies. -/
def atEnd (off : Nat) (separate : Bool) (copies : Nat) : State :=
  busy 0 id (fun r => { r with cursor := some { block := 5, off := off }, separate := separate, copies := copies })
theorem witness_ByteBoundary : ∀ off ∈ [2, 3], ∀ separate : Bool, ∀ copies ∈ [1, 2],
    (engineAt (atEnd off separate copies) 0).state = .sending ∧ (engineAt (atEnd off separate copies) 0).step = .boundary ∧
    (currentJob (atEnd off separate copies) 0).map (fun x => (x.1, x.2.sepPending, atStoredEnd (atEnd off separate copies) x.2 x.2.cursor))
      = some (3, false, off == 3) ∧
    (currentJob (atEnd off separate copies) 0).map (fun x => (x.2.intake, x.2.separate, x.2.copiesDone, x.2.copies))
      = some (.closed, separate, 0, copies) ∧
    eligible (atEnd off separate copies) 0 = none ∧
    atStoredEnd (atEnd off separate copies) (running 0) (some { block := 5, off := 0 }) = false := by decide +kernel
theorem witness_ByteBoundary_quiet (off : Nat) (separate : Bool) (copies : Nat) : NoAccessOf 3 (atEnd off separate copies) :=
  idleStore _ rfl
/-- The last copy ends with another job queued behind it. -/
theorem witness_ByteBoundary_next : Bounded 0 (queuedLast 0 false 5 (setJob 5 queued (atEnd 3 false 1))) ∧
    (engineAt (atEnd 3 false 1) 0).stop = false ∧ eligible (queuedLast 0 false 5 (setJob 5 queued (atEnd 3 false 1))) 0 = some 5 :=
  ⟨witness_Bounded _ (by decide +kernel) (by decide +kernel) 0, by decide +kernel, by decide +kernel⟩
/-- A job retires with the store at rest, with a scan of it between two reads, and in a read of that scan. -/
theorem witness_Retirement : jobAt (busy 0) 3 = some (running 0) ∧ NoAccessOf 3 (busy 0) ∧
    NoAccessOf 3 { scanning true with spool := up.spool } ∧ (scanning true).spool.access = some (.verify true) ∧
    (scanning true).verify.job = 3 ∧ jobAt (scanning true) 3 = some (running 0) :=
  ⟨by decide, idleStore _ rfl, idleStore _ rfl, rfl, rfl, by decide⟩
theorem witness_Timers : inReset up = false ∧ inReset (heldBy false true) = true ∧
    ((engineAt (waiting 0 16) 0).state = .sending ∧ (engineAt (waiting 0 16) 0).step = .waiting ∧
      (engineAt (waiting 0 16) 0).hold = some 16 ∧
      (engineAt (waiting 0 16) 0).config.holdLimit.toNat * 16 ≤ 16) ∧
    ((engineAt (starving 2 64) 2).state = .starved ∧ (engineAt (starving 2 64) 2).starve = some 64 ∧
      (engineAt (starving 2 64) 2).config.starveLimit.toNat * 64 ≤ 64) ∧
    (∀ h ∈ [Handshake.strobe, .trail, .ackwait], (parAt (flying h) 0).handshake = h ∧ (parAt (flying h) 0).ack = some 20 ∧
      (parAt (flying h) 0).config.ackLimit.toNat ≤ 20 ∧ (parAt (flying h) 0).decided = none) := by decide +kernel
theorem witness_SerialTransmit : inReset (heldBy true false) = true ∧ (serAt (held .go false) 0).config.flow = .go ∧
    (serAt (held .go false) 0).transmit = .waiting ∧ (engineAt (held .go false) (serLine 0)).fetched = some byte41 ∧
    (serAt up 0).transmit ≠ .shifting := by decide +kernel
theorem witness_Receiver : ∀ x : Bool, inReset (held .xonxoff x) = false ∧
    (serAt (held .xonxoff x) 0).receiver = .receiving ∧
    (serAt (held .xonxoff x) 0).config.parity = .none ∧ (serAt (held .xonxoff x) 0).config.seven = false ∧
    (serAt (held .xonxoff x) 0).config.flow = .xonxoff ∧ (serAt (held .xonxoff x) 0).transmit = .waiting ∧
    (engineAt (held .xonxoff x) (serLine 0)).fetched = some byte41 ∧
      (serAt (hearing .hunt) 0).receiver ≠ .receiving := by decide +kernel
theorem witness_WholeMachine : (∀ c, ({ busy 0 with pending := [.tick] } : State).pending.head? = some c →
      c.wf = true ∧ resets c = false ∧ c ≠ .take ∧ c ≠ .commandWrite 0x1A#8) ∧
    (∀ c, (busy 0).pending.head? = some c → c.wf = true ∧ resets c = false) ∧
    (∃ t, step { busy 0 with pending := [.tick] } = .next t) ∧ (∃ t, step (busy 0) = .next t) ∧
    portLaw (busy 0).port = true ∧ jobAt (busy 0) 3 = some (running 0) ∧ NotStoring (busy 0) := by
  refine ⟨?_, nofun, ⟨_, rfl⟩, ⟨_, rfl⟩, by decide, by decide, quiet rfl⟩
  rintro c ⟨⟩
  exact ⟨rfl, rfl, by decide, by decide⟩
/-- A write of a last parameter that is not LINE SET's, and one of LINE SET's that is not the last. -/
theorem witness_HostOwnsItsSettings : Instr.tick ≠ .parameterWrite 0#8 ∧ up.port.state ≠ .collecting ∧
    (porting .collecting (some .move) [0#8]).port.staged ≠ some .lineSet ∧
    (porting .collecting (some .lineSet) (List.replicate 6 0#8)).port.staging.length < 7 := by decide

end Sys2Proof.Tests
end

section
/-! The Command Port in the words of the statements: what a command row comes to on a port that takes it, and how the
statements (`Sys2Proof.Says`) name the model's operations. Then OPEN (R2, R3, R159). -/

namespace Sys2Proof.Machine

open Sys2Proof.Says

/-! The start of a command. -/

@[simp] theorem begun_intake (s : State) : (begun s).intake = s.intake := by unfold begun; split <;> rfl

@[simp] theorem jobAt_begun (s : State) (j : Fin 16) : jobAt (begun s) j = jobAt s j := by unfold begun; split <;> rfl

/-- R144 to R146: a command row on a port that takes its code is carried out, after the staged command has been dropped. -/
theorem hostCommand_taking {s : State} (h : Taking s) (c : Cmd) (ps : List Byte) (hl : ps.length = c.params) :
    hostCommand c ps s = carryOut c ps (portExecuting (begun s)) := by
  obtain ⟨hready, hport⟩ := h
  cases hp : s.port.state with
  | idle =>
    rw [hostCommand_admitted c ps s hready (.inl hp) hl, begun, if_neg (by simp [hp])]
  | results =>
    rw [hostCommand_admitted c ps s hready (.inr hp) hl, begun, if_neg (by simp [hp])]
  | collecting =>
    rw [hostCommand_collecting c ps s hready hp hl, begun, if_pos hp]
    rfl
  | executing => exact absurd hp hport

/-! The statements' words for the model's operations. -/

/-- R146: the end of a command overwrites what its start has written to the port. -/
theorem finishCode_portExecuting (c : Code) (s : State) :
    finishCode c (portExecuting s) = answered [codeByte c] s := rfl

theorem settle_eq_goesOn (l : Fin 4) (s : State) : settle l s = goesOn l s := rfl

theorem joinTail_eq_queuedLast (l : Fin 4) (urgent : Bool) (j : Fin 16) (s : State) :
    joinTail l urgent j s = queuedLast l urgent j s := by
  cases urgent <;> rfl

/-! The search for a slot. -/

theorem slots_eq_finRange : slots = List.finRange 16 := by decide

/-- R2: there is no slot to take exactly when every slot is occupied. -/
theorem firstFree_eq_none_iff {s : State} : firstFree s = none ↔ ∀ j, jobAt s j ≠ none := by
  simp [firstFree, slots_eq_finRange]

/-- R2: the slot taken is free and every slot below it is occupied. -/
theorem firstFree_eq_some_iff {s : State} {j : Fin 16} :
    firstFree s = some j ↔ jobAt s j = none ∧ ∀ k, k < j → jobAt s k ≠ none := by
  rw [firstFree, slots_eq_finRange, List.find?_eq_some_iff_getElem]
  constructor
  · rintro ⟨hfree, i, hi, rfl, hbelow⟩
    refine ⟨by simpa using hfree, fun k hk => ?_⟩
    simpa [Option.isSome_iff_ne_none] using hbelow k.val (by simpa [Fin.lt_def] using hk)
  · rintro ⟨hfree, hbelow⟩
    refine ⟨by simpa using hfree, j.val, by simp, by simp, fun i hi => ?_⟩
    simpa [Option.isSome_iff_ne_none] using hbelow ⟨i, by omega⟩ hi

/-- The search reads the job table alone. -/
theorem firstFree_congr {s t : State} (h : ∀ j, jobAt t j = jobAt s j) : firstFree t = firstFree s := by
  simp only [firstFree, h]

/-! OPEN. -/

/-- R158: a line number below four names the line the statements read from it. -/
theorem lineOf_eq_some {b : Byte} (h : b.toNat < 4) : lineOf b = some (Fin.ofNat 4 b.toNat) := by
  rw [lineOf, dif_pos h]
  exact congrArg some (Fin.ext (Nat.mod_eq_of_lt h).symm)

/-- R2, R184: the parameter checks of OPEN, by what fails them. -/
theorem openParamsOk_eq_false_iff {line options copies quota : Byte} :
    openParamsOk line options copies quota = false ↔
      4 ≤ line.toNat ∨ 16 ≤ options.toNat ∨ copies.toNat = 0 ∨ 16 ≤ copies.toNat ∨ 128 < quota.toNat ∨
        (options.getLsbD 1 = true ∧ 1 < copies.toNat) := by
  simp only [openParamsOk, Bool.and_eq_false_iff, Bool.not_eq_false', Bool.and_eq_true, decide_eq_false_iff_not,
    decide_eq_true_eq]
  by_cases hearly : options.getLsbD 1 = true ∧ 1 < copies.toNat
  · simp [hearly]
  · simp only [hearly, or_false]
    omega

theorem line_lt_of_openParamsOk {line options copies quota : Byte} (h : openParamsOk line options copies quota = true) :
    line.toNat < 4 := by
  by_contra hline
  rw [openParamsOk_eq_false_iff.2 (.inl (by omega))] at h
  cases h

/-- R2: an OPEN whose parameters fail a check ends with BADPARAM. -/
theorem actOpen_badParam {line options copies quota : Byte} (h : openParamsOk line options copies quota = false)
    (s : State) : actOpen line options copies quota s = finishCode .badParam s := by
  unfold actOpen
  cases lineOf line with
  | none => rfl
  | some l => simp [h]

/-- R2: an OPEN whose parameters pass ends with NOSLOT when no slot is free. -/
theorem actOpen_noSlot {line options copies quota : Byte} {s : State}
    (h : openParamsOk line options copies quota = true) (hfull : firstFree s = none) :
    actOpen line options copies quota s = finishCode .noSlot s := by
  simp [actOpen, lineOf_eq_some (line_lt_of_openParamsOk h), h, hfull]

/-- R3: an accepted OPEN fills the slot, aims the target at it and ends; an early job joins its queue and the line goes on. -/
theorem actOpen_accepted {line options copies quota : Byte} {s : State} {j : Fin 16}
    (h : openParamsOk line options copies quota = true) (hfree : firstFree s = some j) :
    actOpen line options copies quota s =
      let l : Fin 4 := Fin.ofNat 4 line.toNat
      let u := finish [0x01#8, one j.val]
        { setJob j (newJob line options copies quota) s with intake := { s.intake with target := some j } }
      if options.getLsbD 1 then goesOn l (queuedLast l (options.getLsbD 0) j u) else u := by
  simp only [actOpen, lineOf_eq_some (line_lt_of_openParamsOk h), h, hfree, settle_eq_goesOn, joinTail_eq_queuedLast]
  rfl

theorem exec_openJob {line options copies quota : Byte} {s : State} (h : Taking s) :
    exec (.openJob line options copies quota) s =
      .next (actOpen line options copies quota (portExecuting (begun s))) :=
  congrArg Host.Outcome.next (hostCommand_taking h .openJob [line, options, copies, quota] rfl)

/-- Settles O20: each of the three ends of OPEN is one of `actOpen_badParam`, `actOpen_noSlot` and `actOpen_accepted`, on the
state in which the port carries the command out. -/
theorem openCommand : Obligations.OpenCommand := by
  intro line options copies quota s htaking bad
  have hslot : firstFree (portExecuting (begun s)) = firstFree s := firstFree_congr (by simp)
  have hok : ¬bad → openParamsOk line options copies quota = true := fun hgood =>
    Bool.of_not_eq_false (mt openParamsOk_eq_false_iff.1 hgood)
  rw [exec_openJob htaking]
  refine ⟨fun hbad => ?_, fun hgood hfull => ?_, fun j hgood hfree hbelow => ?_⟩
  · rw [actOpen_badParam (openParamsOk_eq_false_iff.2 hbad), finishCode_portExecuting]
    rfl
  · rw [actOpen_noSlot (hok hgood) (hslot.trans (firstFree_eq_none_iff.2 hfull)), finishCode_portExecuting]
    rfl
  · rw [actOpen_accepted (hok hgood) (hslot.trans (firstFree_eq_some_iff.2 ⟨hfree, hbelow⟩)), ← begun_intake s]
    rfl

end Sys2Proof.Machine
end

section
/-! The check bit of a stored byte (R27): what the grant of an intake access puts into the access, and what its end writes. -/

namespace Sys2Proof.Machine

open Sys2Proof.Says

/-! The check bit. -/

theorem checkBit_toNat (invchk : Bool) (b : Byte) :
    (checkBit invchk b).toNat = if invchk then onesIn b % 2 else 1 - onesIn b % 2 := by
  obtain heven | hodd := Nat.mod_two_eq_zero_or_one (onesIn b)
  · cases invchk <;> simp [checkBit, heven]
  · cases invchk <;> simp [checkBit, hodd]

/-- R27: a byte and its check bit hold an odd number of ones, with INVCHK set an even number. -/
theorem onesIn_add_checkBit (invchk : Bool) (b : Byte) :
    (onesIn b + (checkBit invchk b).toNat) % 2 = if invchk then 0 else 1 := by
  rw [checkBit_toNat]
  cases invchk
  · change (onesIn b + (1 - onesIn b % 2)) % 2 = 1
    omega
  · change (onesIn b + onesIn b % 2) % 2 = 0
    omega

/-! What a grant puts into the access. -/

/-- R33: an allocation changes no register of the window. -/
theorem allocate_window {j : Fin 16} {r : Job} {s t : State} (h : allocate j r s = some t) : t.window = s.window := by
  unfold allocate at h
  split at h
  · cases h
  · cases htail : r.tail <;> simp only [htail, Option.some.injEq] at h <;> subst h <;> rfl

/-- R27: the access granted to the Intake Unit holds the head entry's check bit under INVCHK as it stands. -/
theorem grantIntake_access {s t : State} (h : grantIntake s = some t) :
    ∃ j b rest, s.intake.fifo = (j, b) :: rest ∧ t.spool.access = some (.intake (checkBit s.window.invchk b)) := by
  unfold grantIntake at h
  split at h
  · cases h
  next j b rest hfifo =>
    refine ⟨j, b, rest, hfifo, ?_⟩
    split at h
    · cases h
    next r hjob =>
      simp only at h
      split at h
      · cases h
        rfl
      · obtain ⟨u, hu, rfl⟩ := Option.map_eq_some_iff.1 h
        rw [← allocate_window hu]

theorem grantFetch_access {l : Fin 4} {s t : State} (h : grantFetch l s = some t) :
    ∃ err, t.spool.access = some (.drain l err) := by
  unfold grantFetch at h
  split at h
  · cases h
  · split at h
    · cases h
    · split at h
      · cases h
      · cases h
        exact ⟨_, rfl⟩

theorem grantVerify_access {s t : State} (h : grantVerify s = some t) : ∃ err, t.spool.access = some (.verify err) := by
  unfold grantVerify at h
  split at h
  · split at h
    · cases h
    · cases h
      exact ⟨_, rfl⟩
  · cases h

/-- R39: only the Intake Unit is granted an intake access. -/
theorem grantIntake_of_grantTo {q : Requester} {s t : State} {k : BitVec 1} (h : grantTo q s = some t)
    (hk : t.spool.access = some (.intake k)) : grantIntake s = some t := by
  have notFetch (l : Fin 4) (hf : grantFetch l s = some t) : False := by
    obtain ⟨err, herr⟩ := grantFetch_access hf
    cases hk.symm.trans herr
  cases q with
  | intake => exact h
  | drainA => exact (notFetch 0 h).elim
  | drainB => exact (notFetch 1 h).elim
  | drainC => exact (notFetch 2 h).elim
  | drainD => exact (notFetch 3 h).elim
  | verify =>
    obtain ⟨err, herr⟩ := grantVerify_access h
    cases hk.symm.trans herr

/-- R37: the next requester has an access to make. -/
theorem grantTo_of_nextRequester {q : Requester} {s : State} (h : nextRequester s = some q) :
    ∃ t, grantTo q s = some t := by
  have hreq : requesting s q = true := List.find?_some h
  rw [requesting, Bool.and_eq_true] at hreq
  exact Option.isSome_iff_exists.1 hreq.2

/-- R38, R39: the Store Arbiter does nothing, or the store is free and the access of the next requester begins. -/
theorem storeGrant_cases (s : State) :
    storeGrant s = s ∨
      ∃ q t, s.spool.access = none ∧ nextRequester s = some q ∧ grantTo q s = some t ∧ storeGrant s = setPointer q t := by
  cases haccess : s.spool.access with
  | some a => exact .inl (by simp [storeGrant, haccess])
  | none =>
    cases hnext : nextRequester s with
    | none => exact .inl (by simp [storeGrant, hnext])
    | some q =>
      obtain ⟨t, ht⟩ := grantTo_of_nextRequester hnext
      exact .inr ⟨q, t, rfl, rfl, ht, by simp [storeGrant, haccess, hnext, ht]⟩

/-- R27, R39: an intake access that a grant has begun holds the head entry's check bit under INVCHK as it stands. -/
theorem storeGrant_intakeAccess {s : State} {k : BitVec 1} (hfree : s.spool.access = none)
    (hk : (storeGrant s).spool.access = some (.intake k)) :
    ∃ j b rest, s.intake.fifo = (j, b) :: rest ∧ k = checkBit s.window.invchk b := by
  obtain hsame | ⟨q, t, -, -, hgrant, ht⟩ := storeGrant_cases s
  · rw [hsame, hfree] at hk
    cases hk
  · have hk : t.spool.access = some (.intake k) := by rwa [ht] at hk
    obtain ⟨j, b, rest, hfifo, hbit⟩ := grantIntake_access (grantIntake_of_grantTo hgrant hk)
    cases hk.symm.trans hbit
    exact ⟨j, b, rest, hfifo, rfl⟩

/-! A write to CONTROL. -/

/-- R180: a write to CONTROL with SRESET clear reaches no part of the store. -/
theorem writeControl_spool {b : Byte} (h : b.getLsbD 0 = false) (s : State) : (writeControl b s).spool = s.spool := by
  rw [writeControl, h, if_neg Bool.false_ne_true]
  split <;> rfl

/-! What the end of an intake access writes. -/

/-- A read after a write, for contents in canonical form. -/
theorem Memory.read_write {w : Nat} {m : Memory w} (h : Memory.wf m = true) (a x : Nat) (v : BitVec w) :
    Memory.read (Memory.write m a v) x = if x = a then v else Memory.read m x := by
  split
  next hx => rw [hx, Memory.read_write_same m 0 a v h]
  next hx => exact Memory.read_write_other m 0 a x v h hx

/-- R54: the head entry of a job with a tail block is stored at the tail fill's offset in that block. -/
theorem storeHead_eq {k : BitVec 1} {s : State} {j : Fin 16} {b : Byte} {rest : List (Fin 16 × Byte)} {r : Job}
    {tb : Fin 128} (hfifo : s.intake.fifo = (j, b) :: rest) (hjob : jobAt s j = some r) (htail : r.tail = some tb) :
    let a := tb.val * 256 + r.tailFill
    storeHead k s = setJob j { r with tailFill := r.tailFill + 1, stored := r.stored + 1 } { s with
      intake := { s.intake with fifo := rest, headReq := .none }
      spool := { s.spool with
        access := none, bytes := Memory.write s.spool.bytes a b, checks := Memory.write s.spool.checks a k } } := by
  have hjob' : jobAt { s with spool.access := none, intake.headReq := .none, intake.fifo := rest } j = some r := hjob
  simp only [storeHead, hfifo, hjob', tailPos, htail, Option.map_some]
  rfl

/-- R55: what follows the storing of the head entry writes nothing more to the store. -/
theorem intakeEnd_contents (k : BitVec 1) (s : State) :
    (intakeEnd k s).spool.bytes = (storeHead k s).spool.bytes ∧
      (intakeEnd k s).spool.checks = (storeHead k s).spool.checks := by
  have hidle : NoIntakeAccess (storeHead k s) := fun c => by simp [storeHead_access]
  have hacts : Acts (storeHead k s) (intakeEnd k s) := by
    unfold intakeEnd
    split
    · exact acts_evalIntake _
    · exact (acts_byteStored _ _).trans (acts_evalIntake _)
  obtain ⟨hbytes, hchecks, -⟩ := hacts.written hidle
  exact ⟨hbytes, hchecks⟩

theorem exec_intakeAccessEnd {s : State} {k : BitVec 1} (h : s.spool.access = some (.intake k)) :
    exec .intakeAccessEnd s = .next (intakeEnd k s) := by
  change Host.Outcome.next (endIntakeAccess s) = _
  rw [endIntakeAccess, h]

/-- Settles O38: the bit in the access is `storeGrant_intakeAccess`'s, a write to CONTROL is `writeControl_spool`, and the end
of the access is the one write of `storeHead_eq`, which nothing after it in `intakeEnd` touches. -/
theorem checkBitOfTheGrant : Obligations.CheckBitOfTheGrant := by
  refine ⟨fun s t k hfree hexec hk => ?_, fun b s hb => ⟨_, rfl, writeControl_spool hb s⟩,
    fun s k j b rest r tb hlaw haccess hfifo hjob htail _ => ⟨_, exec_intakeAccessEnd haccess, ?_⟩⟩
  · have ht : storeGrant s = t := Host.Outcome.next.inj hexec
    obtain ⟨j, b, rest, hfifo, rfl⟩ := storeGrant_intakeAccess hfree (ht ▸ hk)
    exact ⟨j, b, rest, hfifo, onesIn_add_checkBit _ b⟩
  · obtain ⟨hbytes, hchecks⟩ := intakeEnd_contents k s
    obtain ⟨hwfb, hwfc⟩ : Memory.wf s.spool.bytes = true ∧ Memory.wf s.spool.checks = true := by
      simpa [storeLaw] using hlaw
    rw [hbytes, hchecks, storeHead_eq hfifo hjob htail]
    simp only [setJob_spool, Memory.read_write hwfb, Memory.read_write hwfc, if_true, true_and]
    exact fun a ha => by simp only [if_neg ha, and_self]

end Sys2Proof.Machine
end

section
/-! Completion reporting: the bytes of a record (R134, R183), the posting of a waiting job (R135), and TAKE (R138, R168). -/

namespace Sys2Proof.Machine

open Sys2Proof.Says

@[simp] theorem begun_jobs (s : State) : (begun s).jobs = s.jobs := by unfold begun; split <;> rfl

@[simp] theorem begun_completion (s : State) : (begun s).completion = s.completion := by unfold begun; split <;> rfl

/-! The bytes of a record. -/

theorem flagByte_singleton (b : Bool) : flagByte [b] = one b.toNat := by cases b <;> rfl

theorem leBytes_three (n : Nat) : leBytes 3 n = three n := by
  change [one n, one (n / 256), one (n / 256 / 256)] = three n
  rw [Nat.div_div_eq_div_mul]
  rfl

/-- R134, R183: a completion record as result bytes, in the statements' encodings of flags and counts. -/
theorem recordBytes_eq (rec : Record) :
    recordBytes rec =
      [rec.seq, one rec.job.val, one rec.line.val, outcomeByte rec.outcome, one rec.truncated.toNat, one rec.copiesDone]
        ++ three rec.total ++ [one rec.checkErrors, causeByte rec.cause] := by
  rw [recordBytes, flagByte_singleton, leBytes_three]
  rfl

/-! Posting. -/

theorem recordOf_eq_recordFor {r : Job} {o : JobOutcome} (h : r.outcome = some o) (j : Fin 16) (seq : Byte) :
    recordOf j r seq = recordFor seq j r o r.cause := by
  rw [recordOf, h]
  rfl

/-- R135: a job that has ended is posted with the counter's value, the counter advances, and DONEQ is raised. -/
theorem post_eq {s : State} {j : Fin 16} {r : Job} {o : JobOutcome} (hjob : jobAt s j = some r)
    (hout : r.outcome = some o) :
    post j s = flagged 0x04#8 (setJob j { r with posted := true } { s with
      completion := { queue := s.completion.queue ++ [recordFor s.completion.seq j r o r.cause],
                      postWait := s.completion.postWait, seq := s.completion.seq + 1#8 } }) := by
  simp only [post, hjob, recordOf_eq_recordFor hout]
  rfl

/-! TAKE. -/

/-- R138: a record has left the queue as the results of the command, and the slot of its job is free. -/
def recordTaken (rec : Record) (rest : List Record) (s : State) : State :=
  finish (codeByte .ok :: recordBytes rec) (freeSlot rec.job { s with completion.queue := rest })

/-- R138: taking a record frees the slot of its job alone. -/
theorem jobAt_recordTaken_of_ne {rec : Record} {j : Fin 16} (h : j ≠ rec.job) (rest : List Record) (s : State) :
    jobAt (recordTaken rec rest s) j = jobAt s j := by
  rw [recordTaken, jobAt_finish, jobAt_freeSlot, if_neg h]
  rfl

theorem actTake_empty {s : State} (h : s.completion.queue = []) : actTake s = finishCode .empty s := by
  simp only [actTake, h]

theorem actTake_noneWaiting {s : State} {rec : Record} {rest : List Record} (hqueue : s.completion.queue = rec :: rest)
    (hwait : s.completion.postWait = []) : actTake s = recordTaken rec rest s := by
  simp only [actTake, hqueue]
  split
  next => rfl
  next hcons => cases hwait.symm.trans hcons

/-- R138: after the taking of a record the job that waited longest is posted; it is another job than the record's, so that its
own slot is as it was. -/
theorem actTake_waiting {s : State} {rec : Record} {rest : List Record} {j : Fin 16} {more : List (Fin 16)} {r : Job}
    {o : JobOutcome} (hqueue : s.completion.queue = rec :: rest) (hwait : s.completion.postWait = j :: more)
    (hother : j ≠ rec.job) (hjob : jobAt s j = some r) (hout : r.outcome = some o) :
    actTake s = flagged 0x04#8 (setJob j { r with posted := true } { recordTaken rec rest s with
      completion := { queue := rest ++ [recordFor s.completion.seq j r o r.cause], postWait := more,
                      seq := s.completion.seq + 1#8 } }) := by
  have hstill : jobAt (recordTaken rec rest s) j = some r := (jobAt_recordTaken_of_ne hother rest s).trans hjob
  simp only [actTake, hqueue]
  split
  next hnil => cases hwait.symm.trans hnil
  next hcons =>
    cases hwait.symm.trans hcons
    exact post_eq hstill hout

theorem exec_take {s : State} (h : Taking s) : exec .take s = .next (actTake (portExecuting (begun s))) :=
  congrArg Host.Outcome.next (hostCommand_taking h .take [] rfl)

/-- R144, R146: the end of TAKE overwrites what its start has written to the port, and a staged command that is dropped
reaches neither the Job Table nor the Completion Unit. -/
theorem recordTaken_portExecuting_begun (rec : Record) (rest : List Record) (s : State) :
    recordTaken rec rest (portExecuting (begun s)) =
      answered (0x01#8 :: recordBytes rec) { begun s with
        jobs := setTab s.jobs rec.job none, completion := { s.completion with queue := rest } } := by
  rw [← begun_jobs s, ← begun_completion s]
  rfl

/-- Settles O28: the three ends of TAKE are `actTake_empty`, `actTake_noneWaiting` and `actTake_waiting`, on the state in which
the port carries the command out; that state has the slots and records of the one before. -/
theorem takeCommand : Obligations.TakeCommand := by
  intro s htaking
  have hcompletion : (portExecuting (begun s)).completion = s.completion := begun_completion s
  have hjobs (j : Fin 16) : jobAt (portExecuting (begun s)) j = jobAt s j := jobAt_begun s j
  rw [exec_take htaking]
  refine ⟨fun hempty => ?_, fun rec rest hqueue => ⟨fun hwait => ?_, fun j more r o hwait hother hjob hout => ?_⟩⟩
  · rw [actTake_empty (hcompletion ▸ hempty), finishCode_portExecuting]
    rfl
  · rw [actTake_noneWaiting (hcompletion ▸ hqueue) (hcompletion ▸ hwait), recordTaken_portExecuting_begun, recordBytes_eq]
    rfl
  · rw [actTake_waiting (hcompletion ▸ hqueue) (hcompletion ▸ hwait) hother ((hjobs j).trans hjob) hout, hcompletion,
      recordTaken_portExecuting_begun, recordBytes_eq]
    rfl

end Sys2Proof.Machine
end

section
/-! Events (R154): what a write to ENABLE does, and HIRQ in terms of the bits of EVENT and ENABLE. -/

namespace Sys2Proof.Machine

/-- R154: ENABLE takes the byte as a whole, whatever it holds. -/
theorem writeEnable_of_ready {s : State} (h : s.window.ready = true) (b : Byte) :
    writeEnable b s = { s with events := { s.events with enable := b } } := by
  rw [writeEnable, h, Bool.not_true, if_neg Bool.false_ne_true]

theorem exec_enableWrite_of_ready {s : State} (h : s.window.ready = true) (b : Byte) :
    exec (.enableWrite b) s = .next { s with events := { s.events with enable := b } } :=
  congrArg Host.Outcome.next (writeEnable_of_ready h b)

@[simp] theorem readRegister_enable (s : State) : readRegister 0x6#4 s = s.events.enable := rfl

/-- Two words meet in some bit exactly when their conjunction is not zero. -/
theorem and_ne_zero_iff_exists_getLsbD {w : Nat} {x y : BitVec w} :
    x &&& y ≠ 0#w ↔ ∃ i, i < w ∧ x.getLsbD i = true ∧ y.getLsbD i = true := by
  rw [Ne, BitVec.eq_of_getLsbD_eq_iff, not_forall]
  refine exists_congr fun i => ?_
  rw [Classical.not_imp, BitVec.getLsbD_and, BitVec.getLsbD_zero, Bool.not_eq_false, Bool.and_eq_true]

theorem hirq_iff {s : State} :
    hirq s = true ↔ ∃ i, i < 8 ∧ s.events.flags.getLsbD i = true ∧ s.events.enable.getLsbD i = true := by
  rw [hirq, decide_eq_true_iff, and_ne_zero_iff_exists_getLsbD]

/-- Settles O11: the write is `exec_enableWrite_of_ready`, the read `readRegister_enable`, and HIRQ is `hirq_iff`, by the bits
that EVENT and ENABLE have in common (`and_ne_zero_iff_exists_getLsbD`). -/
theorem hirqFollowsEnabledFlags : Obligations.HirqFollowsEnabledFlags :=
  ⟨fun b _ hready => exec_enableWrite_of_ready hready b, readRegister_enable, fun _ => hirq_iff⟩

end Sys2Proof.Machine
end

section
/-! The commands that only answer: QUERY JOB (R167), LINE QUERY (R176), and STORE QUERY (R177). -/

namespace Sys2Proof.Machine

open Sys2Proof.Says

/-! What the start of a command leaves as it was. -/

@[simp] theorem begun_spool (s : State) : (begun s).spool = s.spool := by unfold begun; split <;> rfl

@[simp] theorem lineBytes_begun (s : State) (l : Fin 4) : lineBytes (begun s) l = lineBytes s l := by
  unfold begun; split <;> rfl

/-! The checks of a job number and of a line number (R158), and the end of a command (R146). -/

/-- R146: `finishCode_portExecuting` for a command that answers more than its code. -/
theorem finish_portExecuting (bytes : List Byte) (s : State) : finish bytes (portExecuting s) = answered bytes s := rfl

/-- R158: a job number below sixteen names the slot the statements read from it. -/
theorem jobOf_eq_some {b : Byte} (h : b.toNat < 16) : jobOf b = some (Fin.ofNat 16 b.toNat) := by
  rw [jobOf, dif_pos h]
  exact congrArg some (Fin.ext (Nat.mod_eq_of_lt h).symm)

theorem withJob_portExecuting (b : Byte) (s : State) (k : Fin 16 → Job → State) :
    withJob b (portExecuting s) k = onJob b s k := by
  by_cases h : b.toNat < 16
  · simp only [withJob, onJob, jobOf_eq_some h, if_neg (Nat.not_le.2 h), jobAt_portExecuting]
    cases jobAt s (Fin.ofNat 16 b.toNat) <;> rfl
  · rw [withJob, onJob, jobOf, dif_neg h, if_pos (Nat.not_lt.1 h)]
    rfl

theorem withLine_portExecuting (b : Byte) (s : State) (k : Fin 4 → State) :
    withLine b (portExecuting s) k = onLine b s k := by
  by_cases h : b.toNat < 4
  · rw [withLine, onLine, lineOf_eq_some h, if_neg (Nat.not_le.2 h)]
  · rw [withLine, onLine, lineOf, dif_neg h, if_pos (Nat.not_lt.1 h)]
    rfl

/-! Flags as a byte of a result (R184): a byte of fewer flags is the byte of five whose further flags are clear. -/

theorem bit_eq_toNat (b : Bool) : bit b = b.toNat := by cases b <;> rfl

theorem flagByte_five (a b c d e : Bool) :
    flagByte [a, b, c, d, e] = one (a.toNat + 2 * b.toNat + 4 * c.toNat + 8 * d.toNat + 16 * e.toNat) := by
  refine congrArg one ?_
  simp only [packBits, bit_eq_toNat]
  omega

theorem flagByte_four (a b c d : Bool) :
    flagByte [a, b, c, d] = one (a.toNat + 2 * b.toNat + 4 * c.toNat + 8 * d.toNat) :=
  flagByte_five a b c d false

theorem flagByte_three (a b c : Bool) : flagByte [a, b, c] = one (a.toNat + 2 * b.toNat + 4 * c.toNat) :=
  flagByte_five a b c false false

theorem flagByte_two (a b : Bool) : flagByte [a, b] = one (a.toNat + 2 * b.toNat) :=
  flagByte_five a b false false false

/-! QUERY JOB. -/

/-- R167, R184: the twelve bytes of a job record, in the statements' encodings of flags and counts. -/
theorem jobBytes_eq (r : Job) :
    jobBytes r =
      [intakeByte r.intake, outputByte r.output, one r.line.val,
        one (r.urgent.toNat + 2 * r.early.toNat + 4 * r.retain.toNat + 8 * r.separate.toNat),
        one (r.held.toNat + 2 * r.truncated.toNat), one r.copies, one r.copiesDone]
        ++ three r.stored ++ [one r.chainLen, one r.checkErrors] := by
  rw [jobBytes, flagByte_four, flagByte_two, leBytes_three]
  rfl

theorem exec_queryJob {job : Byte} {s : State} (h : Taking s) :
    exec (.queryJob job) s = .next (actQueryJob job (portExecuting (begun s))) :=
  congrArg Host.Outcome.next (hostCommand_taking h .queryJob [job] rfl)

/-- R167: QUERY JOB only answers. -/
theorem actQueryJob_portExecuting (job : Byte) (s : State) :
    actQueryJob job (portExecuting s) = onJob job s fun _ r => answered (0x01#8 :: jobBytes r) s :=
  withJob_portExecuting job s _

/-- Settles O27: the command is `actQueryJob_portExecuting`, and the bytes it answers are `jobBytes_eq`. -/
theorem queryJobCommand : Obligations.QueryJobCommand := by
  intro job s htaking
  simp only [exec_queryJob htaking, actQueryJob_portExecuting, jobBytes_eq]
  rfl

/-! LINE QUERY. -/

theorem heldOf_eq (s : State) (l : Fin 4) : heldOf s l = (currentJob s l).any (fun x => x.2.held) := by
  unfold heldOf
  cases currentJob s l <;> rfl

theorem copyPosOf_eq (s : State) (l : Fin 4) :
    copyPosOf s l = ((currentJob s l).map (fun x => x.2.copyPos)).getD 0 := by
  unfold copyPosOf
  cases currentJob s l <;> rfl

/-- R120: lines A and B answer the snapshot of their Parallel Line Unit. -/
theorem inputsOf_parallel {l : Fin 4} (h : l.val < 2) (s : State) :
    inputsOf s l = parInputsByte (parAt s (Fin.ofNat 2 l.val)).snapshot := by
  simp only [inputsOf, unitOf, if_pos h]

/-- R132: lines C and D answer the snapshot and the XOFF state of their Serial Line Unit. -/
theorem inputsOf_serial {l : Fin 4} (h : ¬l.val < 2) (s : State) :
    inputsOf s l = serInputsByte (serAt s (Fin.ofNat 2 (l.val - 2))) := by
  simp only [inputsOf, unitOf, if_neg h]

/-- R120, R132, R184: the device inputs of a line of either kind, in the statements' encoding of flags. -/
theorem inputsOf_eq (s : State) (l : Fin 4) :
    let p := (parAt s (Fin.ofNat 2 l.val)).snapshot
    let u := serAt s (Fin.ofNat 2 (l.val - 2))
    inputsOf s l = one (if l.val < 2 then
        p.on.toNat + 2 * (!p.fail).toNat + 4 * p.out.toNat + 8 * p.hold.toNat + 16 * (!p.took).toNat
      else (!u.snapshot.go).toNat + 2 * u.xoff.toNat + 4 * u.snapshot.rxd.toNat) := by
  by_cases h : l.val < 2
  · simp only [inputsOf_parallel h, parInputsByte, flagByte_five, if_pos h]
  · simp only [inputsOf_serial h, serInputsByte, flagByte_three, if_neg h]

theorem exec_lineQuery {line : Byte} {s : State} (h : Taking s) :
    exec (.lineQuery line) s = .next (actLineQuery line (portExecuting (begun s))) :=
  congrArg Host.Outcome.next (hostCommand_taking h .lineQuery [line] rfl)

/-- R176: LINE QUERY only answers. -/
theorem actLineQuery_portExecuting (line : Byte) (s : State) :
    actLineQuery line (portExecuting s) = onLine line s fun l => answered (0x01#8 :: lineBytes s l) s :=
  withLine_portExecuting line s _

/-- Settles O35: the command is `actLineQuery_portExecuting`; of its nine bytes the flags, the inputs and the copy position are
`heldOf_eq`, `inputsOf_eq` and `copyPosOf_eq`, and a line without a current job answers 0xFF for it. -/
theorem lineQueryCommand : Obligations.LineQueryCommand := by
  intro line s htaking
  simp only [exec_lineQuery htaking, actLineQuery_portExecuting, lineBytes_begun]
  refine congrArg (fun k => Host.Outcome.next (onLine line (begun s) k)) (funext fun l => ?_)
  simp only [lineBytes, flagByte_two, heldOf_eq, inputsOf_eq, leBytes_three, copyPosOf_eq]
  cases (engineAt s l).current <;> rfl

/-! STORE QUERY. -/

theorem exec_storeQuery {s : State} (h : Taking s) :
    exec .storeQuery s = .next (actStoreQuery (portExecuting (begun s))) :=
  congrArg Host.Outcome.next (hostCommand_taking h .storeQuery [] rfl)

/-- Settles O29: the command is `exec_storeQuery`, and a staged command that is dropped reaches none of the units whose state it
answers. -/
theorem storeQueryCommand : Obligations.StoreQueryCommand := by
  intro s htaking
  rw [exec_storeQuery htaking, actStoreQuery, finish_portExecuting, portExecuting_spool, portExecuting_intake,
    portExecuting_completion, begun_spool, begun_intake, begun_completion, flagByte_singleton]
  cases s.intake.target <;> rfl

end Sys2Proof.Machine
end

section
/-! What one step can do, said once: `Changes` for what a step does that is neither a reset nor a write to a setting nor a
grant, and `Turn` for every step, each part under the condition on the command at the front of the queue that it needs. -/

namespace Sys2Proof.Machine

open Sys2Proof.Says

-- One after another: side by side the proofs would each wait in a thread of their own.
set_option Elab.async false

/-! The rows of the commands. -/

/-- R157, R183: each of the twenty rows that are written whole is the host's writing of its command and parameters. -/
theorem exec_written {i : Instr} {code : Byte} {ps : List Byte} (h : written i = some (code, ps)) :
    ∃ c, Cmd.ofCode code = some c ∧ ps.length = c.params ∧ (c = .take → i = .take) ∧
      (c = .lineSet → ∃ a b d e f g k l, i = .lineSet a b d e f g k l) ∧ ∀ s, exec i s = .next (hostCommand c ps s) := by
  cases i <;> cases h <;> refine ⟨_, rfl, rfl, ?_, ?_, fun s => rfl⟩ <;> simp

/-! Changes. -/

/-- The configurations of the lines are as they were (R103, R119, R131). -/
def SameConfigs (s t : State) : Prop :=
  (∀ l, (engineAt t l).config = (engineAt s l).config) ∧ (∀ x, (parAt t x).config = (parAt s x).config) ∧
    (∀ y, (serAt t y).config = (serAt s y).config)

theorem SameConfigs.refl (s : State) : SameConfigs s s := ⟨fun _ => rfl, fun _ => rfl, fun _ => rfl⟩

theorem SameConfigs.trans {a b c : State} (h : SameConfigs a b) (k : SameConfigs b c) : SameConfigs a c := by
  obtain ⟨hdrain, hpar, hser⟩ := h
  obtain ⟨kdrain, kpar, kser⟩ := k
  exact ⟨fun l => (kdrain l).trans (hdrain l), fun x => (kpar x).trans (hpar x), fun y => (kser y).trans (hser y)⟩

/-- No slot is freed, and the record of each job is a later one. -/
def LaterJobs (s t : State) : Prop := ∀ j r, jobAt s j = some r → ∃ r', jobAt t j = some r' ∧ Later r r'

theorem LaterJobs.refl (s : State) : LaterJobs s s := fun _ r h => ⟨r, h, Later.refl r⟩

theorem LaterJobs.trans {a b c : State} (h : LaterJobs a b) (k : LaterJobs b c) : LaterJobs a c := fun j r e => by
  obtain ⟨r1, e1, l1⟩ := h j r e
  obtain ⟨r2, e2, l2⟩ := k j r1 e1
  exact ⟨r2, e2, l1.trans l2⟩

/-- The Free List has lost no block and the pointer stands (R34, R38). -/
def NothingGranted (s t : State) : Prop := s.spool.freeList <+: t.spool.freeList ∧ t.spool.pointer = s.spool.pointer

theorem NothingGranted.refl (s : State) : NothingGranted s s := ⟨List.prefix_rfl, rfl⟩

theorem NothingGranted.trans {a b c : State} (h : NothingGranted a b) (k : NothingGranted b c) : NothingGranted a c :=
  ⟨h.1.trans k.1, k.2.trans h.2⟩

/-- What a step can do that is no reset, no write to a setting and no grant: `Effect`, but that time passes and the build may
end. -/
structure Changes (jobs config : Prop) (s t : State) : Prop where
  pending : t.pending = s.pending := by rfl
  held : heldLaw s = true → heldLaw t = true := by exact id
  ready : s.window.ready = true → t.window.ready = true := by exact id
  invchk : t.window.invchk = s.window.invchk := by rfl
  setting : t.timeBase.setting = s.timeBase.setting := by rfl
  enable : t.events.enable = s.events.enable := by rfl
  flags : s.events.flags ||| t.events.flags = t.events.flags := by exact BitVec.or_self
  written : NoIntakeAccess s →
      t.spool.bytes = s.spool.bytes ∧ t.spool.checks = s.spool.checks ∧ NoIntakeAccess t := by
    exact fun h => ⟨rfl, rfl, h⟩
  granted : t.window.ready = s.window.ready → NothingGranted s t := by exact fun _ => NothingGranted.refl _
  config : config → SameConfigs s t := by exact fun _ => SameConfigs.refl _
  jobs : jobs → LaterJobs s t := by exact fun _ => LaterJobs.refl _
  records : recordsLaw s.completion = true → recordsLaw t.completion = true := by exact id
  port : portLaw s.port = true → portLaw t.port = true := by exact id
  store : StoreSafe s → StoreSafe t := by exact id

theorem Effect.changes {j c : Prop} {s t : State} (h : Effect j c s t) : Changes j c s t where
  pending := h.pending
  held := fun k => by rwa [heldLaw, inReset, h.window]
  ready := fun k => by rwa [h.window]
  invchk := congrArg Window.invchk h.window
  setting := congrArg TimeBase.setting h.timeBase
  enable := h.enable
  flags := h.flags
  written := h.written
  granted := fun _ => ⟨h.freeList, h.pointer⟩
  config := h.config
  jobs := h.jobs
  records := h.records
  port := h.port
  store := h.store

theorem Acts.changes {s t : State} (h : Acts s t) : Changes True True s t := (h.effect True True).changes

theorem Changes.trans {j c : Prop} {a b d : State} (h : Changes j c a b) (k : Changes j c b d) : Changes j c a d where
  pending := k.pending.trans h.pending
  held := k.held ∘ h.held
  ready := k.ready ∘ h.ready
  invchk := k.invchk.trans h.invchk
  setting := k.setting.trans h.setting
  enable := k.enable.trans h.enable
  flags := by rw [← k.flags, ← BitVec.or_assoc, h.flags]
  written := fun n => by
    obtain ⟨hbytes, hchecks, hfree⟩ := h.written n
    obtain ⟨kbytes, kchecks, kfree⟩ := k.written hfree
    exact ⟨kbytes.trans hbytes, kchecks.trans hchecks, kfree⟩
  granted := fun e => by
    have hb : b.window.ready = a.window.ready := by
      cases ha : a.window.ready with
      | true => exact h.ready ha
      | false =>
        refine Bool.eq_false_iff.2 fun hb => ?_
        rw [k.ready hb, ha] at e
        cases e
    exact (h.granted hb).trans (k.granted (e.trans hb.symm))
  config := fun w => (h.config w).trans (k.config w)
  jobs := fun w => (h.jobs w).trans (k.jobs w)
  records := k.records ∘ h.records
  port := k.port ∘ h.port
  store := k.store ∘ h.store

/-! The changes that are no effects of the units' operations. -/

/-- R149: a read of RESULT. -/
theorem changes_readResult (s : State) : Changes True True s (readResult s) := by
  unfold readResult
  split
  · exact {}
  · split
    next b hport hresults => exact { port := fun h => by simpa [portLaw, hport, hresults] using h }
    next b rest hlong hport hresults =>
      refine { port := fun h => ?_ }
      cases rest with
      | nil => exact (hlong rfl).elim
      | cons c rest => simpa [portLaw, hport, hresults] using h
    next => exact { flags := by rw [raise_flags, ← BitVec.or_assoc, BitVec.or_self] }

/-- R49: an entry joins the FIFO at its tail. -/
theorem changes_enqueue (e : Fin 16 × Byte) (s : State) :
    Changes True True s { s with intake.fifo := s.intake.fifo ++ [e] } where
  store := fun ⟨hcanonical, hfill, haccess⟩ => by
    refine ⟨hcanonical, hfill, (accessLaw_iff _).2 fun c hc => ?_⟩
    obtain ⟨hgranted, a, as, hfifo, hplace⟩ := (accessLaw_iff s).1 haccess c hc
    exact ⟨hgranted, a, as ++ [e], congrArg (· ++ [e]) hfifo, hplace⟩

/-- R49, R50: a byte written to DATA. -/
theorem changes_writeData (b : Byte) (s : State) : Changes True True s (writeData b s) := by
  unfold writeData
  split
  · exact {}
  · split
    · exact (acts_raise .stray s).changes
    · split
      · simp only
        split
        · exact (changes_enqueue _ s).trans (acts_evalIntake _).changes
        · exact changes_enqueue _ s
      · exact (acts_raise .overrun s).changes

/-- R156: a tick. -/
theorem changes_takeTick (s : State) : Changes True True s (takeTick s) := by
  obtain ⟨hdrain, hpar⟩ := takeTick_config s
  unfold takeTick at hdrain hpar ⊢
  split
  · exact {}
  next hin =>
    simp only [if_neg hin] at hdrain hpar
    exact { config := fun _ => ⟨hdrain, hpar, fun _ => rfl⟩ }

/-- R46: the start-up build ends, which makes the Free List anew. -/
theorem changes_endBuild (s : State) : Changes True True s (endBuild s) := by
  have receiver (y : Fin 2) (t : State) : Acts t (startAfterBuild y t) := by
    unfold startAfterBuild
    simp only
    split
    · exact acts_setSer _ _ _ rfl
    · exact Acts.refl t
  unfold endBuild
  split
  next hbuilding =>
    obtain ⟨hready, hreset⟩ : s.window.ready = false ∧ inReset s = false := by simpa [building] using hbuilding
    have filled : Changes True True s { s with
        spool.freeList := allBlocks, spool.links := Vector.replicate 128 none, window.ready := true, window.buildClks := 0 } :=
      { held := fun _ => (heldLaw_iff _).2 fun hin => by
          rw [show inReset s = true from hin] at hreset
          cases hreset
        ready := fun _ => rfl
        granted := fun h => by rw [hready] at h; cases h }
    exact filled.trans ((receiver 0 _).trans (receiver 1 _)).changes
  · exact {}

theorem changes_clkTimeBase (s : State) : Changes True True s (clkTimeBase s) := by
  unfold clkTimeBase
  split
  · exact {}
  · exact changes_takeTick s

theorem changes_clkBuild (s : State) : Changes True True s (clkBuild s) := by
  unfold clkBuild
  split
  · split
    · exact {}
    · exact changes_endBuild s
  · exact {}

theorem acts_clkTimers (s : State) : Acts s (clkTimers s) := by
  have line (l : Fin 4) (t : State) : Acts t (expireStarve l (expireHold l t)) :=
    (acts_expireHold l t).trans (acts_expireStarve l _)
  exact (line 0 s).trans ((line 1 _).trans ((line 2 _).trans ((line 3 _).trans
    ((acts_expireAck 0 _).trans (acts_expireAck 1 _)))))

theorem acts_countHandshake (x : Fin 2) (s : State) : Acts s (countHandshake x s) := by
  unfold countHandshake
  simp only
  split
  case h_4 | h_5 | h_6 => exact acts_setPar _ _ _ rfl
  all_goals exact Acts.refl s

theorem acts_countFrame (y : Fin 2) (n : Nat) (s : State) : Acts s (countFrame y n s) := by
  unfold countFrame
  simp only
  split
  · exact acts_setSer _ _ _ rfl
  · exact Acts.refl s

theorem acts_clkHandshake (x : Fin 2) (s : State) : Acts s (clkHandshake x s) := by
  have ends {c : Prop} [Decidable c] {t : State} (h : Acts s t) : Acts s (if c then s else t) := by
    split
    · exact Acts.refl s
    · exact h
  unfold clkHandshake
  simp only
  split
  case h_4 => exact ends (acts_endSetup x s)
  case h_5 => exact ends (acts_endStrobe x s)
  case h_6 => exact ends (acts_endTrail x s)
  all_goals exact Acts.refl s

theorem acts_clkFrame (y : Fin 2) (s : State) : Acts s (clkFrame y s) := by
  unfold clkFrame
  simp only
  split
  · exact acts_endFrame y s
  · exact Acts.refl s

/-- R124, R112, R127, R156, R46: a CLK period without a command. -/
theorem changes_clkPeriod (s : State) : Changes True True s (clkPeriod s) := by
  unfold clkPeriod
  split
  · exact {}
  · have drawn : Changes True True s { s with fresh := s.fresh + 1 } := {}
    have counts := ((acts_sampleRxd 0 { s with fresh := s.fresh + 1 }).trans (acts_sampleRxd 1 _)).trans
      (((acts_countHandshake 0 _).trans (acts_countHandshake 1 _)).trans
        ((acts_countFrame 0 (Config.bclkPeriods s.fresh) _).trans (acts_countFrame 1 (Config.bclkPeriods s.fresh) _)))
    have times (t : State) : Changes True True t (clkBuild (clkTimers (clkTimeBase t))) :=
      (changes_clkTimeBase t).trans ((acts_clkTimers _).changes.trans (changes_clkBuild _))
    have ends (t : State) : Acts t (clkFrame 1 (clkFrame 0 (clkHandshake 1 (clkHandshake 0 t)))) :=
      ((acts_clkHandshake 0 t).trans (acts_clkHandshake 1 _)).trans ((acts_clkFrame 0 _).trans (acts_clkFrame 1 _))
    exact drawn.trans (counts.changes.trans ((times _).trans (ends _).changes))

/-! The grant. -/

/-- R33, R54, R81, R41: what a grant can do: no byte of the store changes, and no unit but the store, the record of the head
entry's job, an engine's fetched byte, the head request and the scan's position. -/
structure Grants (s t : State) : Prop where
  pending : t.pending = s.pending := by rfl
  window : t.window = s.window := by rfl
  timeBase : t.timeBase = s.timeBase := by rfl
  events : t.events = s.events := by rfl
  completion : t.completion = s.completion := by rfl
  port : t.port = s.port := by rfl
  bytes : t.spool.bytes = s.spool.bytes := by rfl
  checks : t.spool.checks = s.spool.checks := by rfl
  config : SameConfigs s t := by exact SameConfigs.refl _
  jobs : LaterJobs s t := by exact LaterJobs.refl _
  store : StoreSafe s → StoreSafe t := by exact id

/-- R33: an allocation takes the block at the head of the Free List and leaves a record with an empty tail block. -/
theorem allocate_inv {j : Fin 16} {r : Job} {s t : State} (h : allocate j r s = some t) :
    ∃ nb rest links r', s.spool.freeList = nb :: rest ∧ Later r r' ∧ r'.tailFill = 0 ∧
      t = setJob j r' { s with spool := { s.spool with freeList := rest, links := links } } := by
  unfold allocate at h
  split at h
  · cases h
  next nb rest hfree =>
    cases htail : r.tail <;> simp only [htail, Option.some.injEq] at h
    · exact ⟨nb, rest, _, _, hfree, {}, rfl, h.symm⟩
    · exact ⟨nb, rest, _, _, hfree, {}, rfl, h.symm⟩

/-- R33, R54: the access granted to the Intake Unit, after an allocation where the job's tail has no room. -/
theorem grantIntake_inv {s t : State} (h : grantIntake s = some t) :
    ∃ j b rest r u, s.intake.fifo = (j, b) :: rest ∧ jobAt s j = some r ∧
      (tailHasRoom r = true ∧ u = s ∨ tailHasRoom r = false ∧ allocate j r s = some u) ∧
      t = { u with
        spool := { u.spool with access := some (.intake (checkBit u.window.invchk b)) }
        intake := { u.intake with headReq := .granted } } := by
  unfold grantIntake at h
  split at h
  · cases h
  next j b rest hfifo =>
    split at h
    · cases h
    next r hjob =>
      simp only at h
      split at h
      next hroom =>
        cases h
        exact ⟨j, b, rest, r, s, hfifo, hjob, .inl ⟨hroom, rfl⟩, rfl⟩
      next hroom =>
        obtain ⟨u, hu, rfl⟩ := Option.map_eq_some_iff.1 h
        exact ⟨j, b, rest, r, u, hfifo, hjob, .inr ⟨Bool.eq_false_iff.2 hroom, hu⟩, rfl⟩

/-- R54: the store may be written safely once the head entry's job has a place for its byte. -/
theorem StoreSafe.granted {s : State} {j : Fin 16} {b : Byte} {rest : List (Fin 16 × Byte)} {r : Job}
    (h : StoreSafe s) (hfifo : s.intake.fifo = (j, b) :: rest) (hjob : jobAt s j = some r)
    (hplace : r.tailFill < Config.blockBytes) (k : BitVec 1) :
    StoreSafe { s with
      spool := { s.spool with access := some (.intake k) }, intake := { s.intake with headReq := .granted } } := by
  obtain ⟨hcanonical, hfill, -⟩ := h
  refine ⟨hcanonical, hfill, (accessLaw_iff _).2 fun c _ => ⟨rfl, (j, b), rest, hfifo, fun q hq => ?_⟩⟩
  cases hjob.symm.trans hq
  exact hplace

/-- R31: an empty tail block breaks no law of the store. -/
theorem StoreSafe.emptyTail {s : State} {j : Fin 16} {r : Job} (h : StoreSafe s) (hempty : r.tailFill = 0) :
    StoreSafe (setJob j r s) := by
  obtain ⟨hcanonical, hfill, haccess⟩ := h
  refine ⟨hcanonical, (fillLaw_iff _).2 fun k q hk => ?_, (accessLaw_iff _).2 fun c hc => ?_⟩
  · rw [jobAt_setJob] at hk
    split at hk
    · cases hk
      exact hempty ▸ Nat.zero_le _
    · exact (fillLaw_iff s).1 hfill k q hk
  · obtain ⟨hgranted, e, es, hfifo, hplace⟩ := (accessLaw_iff s).1 haccess c hc
    refine ⟨hgranted, e, es, hfifo, fun q hq => ?_⟩
    rw [jobAt_setJob] at hq
    split at hq
    · cases hq
      exact hempty ▸ Nat.zero_lt_succ _
    · exact hplace q hq

theorem laterJobs_setJob {j : Fin 16} {r r' : Job} {s : State} (e : jobAt s j = some r) (h : Later r r') :
    LaterJobs s (setJob j r' s) := fun k q hk => by
  rw [jobAt_setJob]
  split
  next hkj =>
    subst hkj
    cases e.symm.trans hk
    exact ⟨r', rfl, h⟩
  · exact ⟨q, hk, Later.refl q⟩

theorem grants_grantIntake {s t : State} (h : grantIntake s = some t) : Grants s t := by
  obtain ⟨j, b, rest, r, u, hfifo, hjob, ⟨hroom, rfl⟩ | ⟨-, hu⟩, rfl⟩ := grantIntake_inv h
  · obtain ⟨-, hplace⟩ : r.tail.isSome = true ∧ r.tailFill < Config.blockBytes := by simpa [tailHasRoom] using hroom
    exact { store := fun hs => hs.granted hfifo hjob hplace _ }
  · obtain ⟨nb, more, links, r', -, hlater, hempty, rfl⟩ := allocate_inv hu
    exact {
      jobs := laterJobs_setJob hjob hlater
      store := fun hs => by
        have hcut : StoreSafe { s with spool := { s.spool with freeList := more, links := links } } := hs
        refine (hcut.emptyTail (j := j) hempty).granted hfifo ?_ (hempty ▸ Nat.zero_lt_succ _) _
        rw [jobAt_setJob, if_pos rfl] }

theorem grants_grantFetch {l : Fin 4} {s t : State} (h : grantFetch l s = some t) : Grants s t := by
  unfold grantFetch at h
  split at h
  · cases h
  · split at h
    · cases h
    · split at h
      · cases h
      next p hread =>
        cases h
        refine { config := ⟨fun k => ?_, fun _ => rfl, fun _ => rfl⟩, store := fun ⟨hcanonical, hfill, _⟩ => ?_ }
        · refine Eq.trans (congrArg Engine.config (engineAt_setEngine l _ s k)) ?_
          split
          next hk => rw [hk]
          · rfl
        · exact ⟨hcanonical, hfill, (accessLaw_iff _).2 fun c hc => by cases hc⟩

theorem grants_grantVerify {s t : State} (h : grantVerify s = some t) : Grants s t := by
  unfold grantVerify at h
  split at h
  · split at h
    · cases h
    · cases h
      exact { store := fun ⟨hcanonical, hfill, _⟩ => ⟨hcanonical, hfill, (accessLaw_iff _).2 fun c hc => by cases hc⟩ }
  · cases h

theorem grants_grantTo {q : Requester} {s t : State} (h : grantTo q s = some t) : Grants s t := by
  cases q with
  | intake => exact grants_grantIntake h
  | drainA => exact grants_grantFetch h
  | drainB => exact grants_grantFetch h
  | drainC => exact grants_grantFetch h
  | drainD => exact grants_grantFetch h
  | verify => exact grants_grantVerify h

/-- R38: the act of the Store Arbiter. -/
theorem grants_storeGrant (s : State) : Grants s (storeGrant s) := by
  obtain hsame | ⟨q, t, -, -, hgrant, ht⟩ := storeGrant_cases s
  · rw [hsame]
    exact {}
  · rw [ht]
    exact { grants_grantTo hgrant with }

end Sys2Proof.Machine
end

section
/-! Every step: what it keeps, for each command and for a CLK period (`Turn`), and the statements about every step. -/

namespace Sys2Proof.Machine

open Sys2Proof.Says

-- One after another: side by side the proofs would each wait in a thread of their own.
set_option Elab.async false

/-! What every command keeps, the resets among them. -/

/-- The queue, READY under a reset, the completion records, the Command Port and the store, as every command keeps them. -/
structure KeepsLaws (s t : State) : Prop where
  pending : t.pending = s.pending := by rfl
  held : heldLaw s = true → heldLaw t = true := by exact id
  records : recordsLaw s.completion = true → recordsLaw t.completion = true := by exact id
  port : portLaw s.port = true → portLaw t.port = true := by exact id
  store : StoreSafe s → StoreSafe t := by exact id

theorem Changes.keepsLaws {j c : Prop} {s t : State} (h : Changes j c s t) : KeepsLaws s t where
  pending := h.pending
  held := h.held
  records := h.records
  port := h.port
  store := h.store

theorem Grants.keepsLaws {s t : State} (h : Grants s t) : KeepsLaws s t where
  pending := h.pending
  held := fun k => by rwa [heldLaw, inReset, h.window]
  records := fun k => h.completion ▸ k
  port := fun k => h.port ▸ k
  store := h.store

/-! Resets. -/

/-- R26: a position of the store holds a free byte and a free check bit (log 8). -/
def torn (a : Nat) (s : State) : State :=
  { s with
    spool := { s.spool with
      bytes := Memory.write s.spool.bytes a (Config.tornByte s.fresh)
      checks := Memory.write s.spool.checks a (Config.tornCheck s.fresh) }
    fresh := s.fresh + 1 }

/-- R26: a reset tears at most the position that an intake access in progress was to write. -/
theorem tearStore_cases (s : State) :
    tearStore s = s ∨ ∃ k j b rest r tb, s.spool.access = some (.intake k) ∧ s.intake.fifo = (j, b) :: rest ∧
      jobAt s j = some r ∧ r.tail = some tb ∧ tearStore s = torn (tb.val * 256 + r.tailFill) s := by
  unfold tearStore
  split
  next k j b rest haccess hfifo =>
    split
    · exact .inl rfl
    next r hjob =>
      cases htail : r.tail with
      | none => exact .inl (by simp only [tailPos, htail, Option.map_none])
      | some tb =>
        refine .inr ⟨k, j, b, rest, r, tb, haccess, hfifo, hjob, htail, ?_⟩
        simp only [tailPos, htail, Option.map_some]
        rfl
  · exact .inl rfl

theorem tearStore_notStoring {s : State} (h : NotStoring s) : tearStore s = s := by
  obtain hsame | ⟨k, j, b, rest, r, tb, haccess, -⟩ := tearStore_cases s
  · exact hsame
  · exact (h k haccess).elim

theorem tearStore_pending (s : State) : (tearStore s).pending = s.pending := by
  obtain h | ⟨k, j, b, rest, r, tb, -, -, -, -, h⟩ := tearStore_cases s
  · rw [h]
  · rw [h, torn]

/-- R26: the torn position is a place of the store, so that its contents stay in canonical form. -/
theorem storeLaw_tearStore {s : State} (h : StoreSafe s) : storeLaw (tearStore s) = true := by
  obtain ⟨hcanonical, -, haccess⟩ := h
  obtain hsame | ⟨k, j, b, rest, r, tb, hin, hfifo, hjob, -, htorn⟩ := tearStore_cases s
  · rwa [hsame]
  · obtain ⟨-, e, es, hhead, hplace⟩ := (accessLaw_iff s).1 haccess k hin
    cases hfifo.symm.trans hhead
    have haddr : tb.val * 256 + r.tailFill < Memory.size :=
      Pos.addr_lt_size { block := tb, off := r.tailFill } (hplace r hjob)
    obtain ⟨hbytes, hchecks⟩ : Memory.wf s.spool.bytes = true ∧ Memory.wf s.spool.checks = true := by
      simpa [storeLaw] using hcanonical
    rw [htorn]
    exact Bool.and_eq_true_iff.2
      ⟨Memory.write_keeps_wf _ _ _ hbytes haddr, Memory.write_keeps_wf _ _ _ hchecks haddr⟩

/-- Without a job and without an access the store is written nowhere. -/
theorem storeSafe_of_noJob {s : State} (hcanonical : storeLaw s = true) (hjobs : ∀ j, jobAt s j = none)
    (haccess : s.spool.access = none) : StoreSafe s := by
  refine ⟨hcanonical, (fillLaw_iff s).2 fun j r hr => ?_, accessLaw_of_none fun k hk => ?_⟩
  · cases (hjobs j).symm.trans hr
  · cases haccess.symm.trans hk

theorem keepsLaws_softReset (s : State) : KeepsLaws s (softReset s) where
  pending := tearStore_pending s
  held := fun _ => rfl
  records := fun _ => rfl
  port := fun _ => rfl
  store := fun h => storeSafe_of_noJob (storeLaw_tearStore h) (fun j => tab_replicate none j) rfl

theorem keepsLaws_applyPower (s : State) : KeepsLaws s (applyPower s) where
  held := fun _ => (heldLaw_iff _).2 fun _ => rfl
  records := fun _ => rfl
  port := fun _ => rfl
  store := fun _ => storeSafe_of_noJob rfl (fun j => tab_replicate none j) rfl

theorem keepsLaws_assertPinReset (s : State) : KeepsLaws s (assertPinReset s) where
  pending := tearStore_pending s
  held := fun _ => (heldLaw_iff _).2 fun _ => rfl
  records := fun _ => rfl
  port := fun _ => rfl
  store := fun h => storeSafe_of_noJob (storeLaw_tearStore h) (fun j => tab_replicate none j) rfl

/-! One command, or a CLK period. -/

/-- The command at the front of the queue, if there is one, is an event of its row. -/
def WellFormed (front : Option Instr) : Prop := ∀ c, front = some c → c.wf = true

/-- The command at the front of the queue, if there is one, is an event of its row and no reset. -/
def Orderly (front : Option Instr) : Prop := ∀ c, front = some c → c.wf = true ∧ resets c = false

/-- A command that may write the configurations: LINE SET as a row or by the write of its last parameter (R103). -/
def MaySetLine (front : Option Instr) (s : State) : Prop :=
  (∃ a b c d e f g h, front = some (.lineSet a b c d e f g h)) ∨
    ((∃ b, front = some (.parameterWrite b)) ∧ s.port.state = .collecting ∧ s.port.staged = some .lineSet ∧
      7 ≤ s.port.staging.length)

/-- What a step does, by the command at the front of the queue; `none` is a CLK period. -/
structure Turn (front : Option Instr) (s t : State) : Prop extends KeepsLaws s t where
  written : WellFormed front → front ≠ some .powerOnReset → NoIntakeAccess s →
      t.spool.bytes = s.spool.bytes ∧ t.spool.checks = s.spool.checks := by
    exact fun _ _ _ => ⟨rfl, rfl⟩
  flags : Orderly front → ∀ i, (∀ b, front = some (.eventWrite b) → b.getLsbD i = false) →
      s.events.flags.getLsbD i = true → t.events.flags.getLsbD i = true := by
    exact fun _ _ _ h => h
  enable : Orderly front → (∀ b, front ≠ some (.enableWrite b)) → t.events.enable = s.events.enable := by
    exact fun _ _ => rfl
  setting : Orderly front → (∀ b, front ≠ some (.tickWrite b)) → t.timeBase.setting = s.timeBase.setting := by
    exact fun _ _ => rfl
  invchk : Orderly front → (∀ b, front ≠ some (.invchk b)) → t.window.invchk = s.window.invchk := by
    exact fun _ _ => rfl
  config : Orderly front → ¬MaySetLine front s → SameConfigs s t := by exact fun _ _ => SameConfigs.refl _
  jobs : Orderly front → front ≠ some .take → front ≠ some (.commandWrite 0x1A#8) → portLaw s.port = true →
      LaterJobs s t := by
    exact fun _ _ _ _ => LaterJobs.refl _
  granted : Orderly front → front ≠ some .storeGrant → t.window.ready = s.window.ready → NothingGranted s t := by
    exact fun _ _ _ => NothingGranted.refl _

/-- A change is a turn, whatever the front, where the front meets the change's own conditions. -/
theorem Changes.turn {front : Option Instr} {j c : Prop} {s t : State} (h : Changes j c s t)
    (hj : Orderly front → front ≠ some .take → front ≠ some (.commandWrite 0x1A#8) → portLaw s.port = true → j)
    (hc : ¬MaySetLine front s → c) : Turn front s t where
  toKeepsLaws := h.keepsLaws
  written := fun _ _ n => by
    obtain ⟨hbytes, hchecks, -⟩ := h.written n
    exact ⟨hbytes, hchecks⟩
  flags := fun _ i _ hi => by rw [← h.flags, BitVec.getLsbD_or, hi, Bool.true_or]
  enable := fun _ _ => h.enable
  setting := fun _ _ => h.setting
  invchk := fun _ _ => h.invchk
  config := fun _ n => h.config (hc n)
  jobs := fun w n m p => h.jobs (hj w n m p)
  granted := fun _ _ => h.granted

theorem Changes.anyTurn {front : Option Instr} {s t : State} (h : Changes True True s t) : Turn front s t :=
  h.turn (fun _ _ _ _ => trivial) fun _ => trivial

theorem Acts.anyTurn {front : Option Instr} {s t : State} (h : Acts s t) : Turn front s t := h.changes.anyTurn

/-- A command that resets is held to the laws, and to the store's contents. -/
theorem KeepsLaws.turn {front : Option Instr} {s t : State} (h : KeepsLaws s t) (hn : ¬Orderly front)
    (hw : WellFormed front → front ≠ some .powerOnReset → NoIntakeAccess s →
      t.spool.bytes = s.spool.bytes ∧ t.spool.checks = s.spool.checks) : Turn front s t where
  toKeepsLaws := h
  written := hw
  flags := fun w => (hn w).elim
  enable := fun w => (hn w).elim
  setting := fun w => (hn w).elim
  invchk := fun w => (hn w).elim
  config := fun w => (hn w).elim
  jobs := fun w => (hn w).elim
  granted := fun w => (hn w).elim

/-- A command that is no event of its row is held to the laws alone. -/
theorem KeepsLaws.turn_of_not_wf {c : Instr} {s t : State} (h : KeepsLaws s t) (hn : c.wf = false) : Turn (some c) s t :=
  h.turn (fun w => by rw [(w c rfl).1] at hn; cases hn) fun w => by rw [w c rfl] at hn; cases hn

theorem not_orderly_of_resets {c : Instr} (h : resets c = true) : ¬Orderly (some c) := fun w => by
  rw [(w c rfl).2] at h
  cases h

/-! The host's writes to registers. -/

theorem turn_writeEvent (b : Byte) (s : State) : Turn (some (.eventWrite b)) s (writeEvent b s) := by
  have stays (i : Nat) (h : ∀ c, some (Instr.eventWrite b) = some (.eventWrite c) → c.getLsbD i = false)
      (hi : s.events.flags.getLsbD i = true) : (s.events.flags &&& ~~~b).getLsbD i = true := by
    rw [BitVec.getLsbD_and, hi, BitVec.getLsbD_not, h b rfl, decide_eq_true (BitVec.lt_of_getLsbD hi)]
    rfl
  unfold writeEvent
  split
  · exact {}
  · simp only
    split
    · exact { flags := fun _ => stays }
    · exact { flags := fun _ => stays }

theorem turn_writeEnable (b : Byte) (s : State) : Turn (some (.enableWrite b)) s (writeEnable b s) := by
  unfold writeEnable
  split
  · exact {}
  · exact { enable := fun _ h => (h b rfl).elim }

theorem turn_writeTick (b : Byte) (s : State) : Turn (some (.tickWrite b)) s (writeTick b s) := by
  unfold writeTick
  split
  · exact {}
  · exact { setting := fun _ h => (h b rfl).elim }

theorem keepsLaws_writeControl (b : Byte) (s : State) : KeepsLaws s (writeControl b s) := by
  unfold writeControl
  split
  · split
    · exact {}
    · exact keepsLaws_softReset s
  · split
    · exact {}
    · exact {}

theorem turn_softwareReset (b : Byte) (s : State) : Turn (some (.softwareReset b)) s (writeControl b s) := by
  refine (keepsLaws_writeControl b s).turn (not_orderly_of_resets rfl) fun hwf _ hidle => ?_
  have hbit : b.getLsbD 0 = true := hwf _ rfl
  rw [writeControl, if_pos hbit]
  split
  · exact ⟨rfl, rfl⟩
  · rw [softReset, tearStore_notStoring hidle]
    exact ⟨rfl, rfl⟩

theorem turn_invchk (b : Byte) (s : State) : Turn (some (.invchk b)) s (writeControl b s) := by
  cases hbit : b.getLsbD 0 with
  | true => exact (keepsLaws_writeControl b s).turn_of_not_wf (by rw [Instr.wf, hbit]; rfl)
  | false =>
    rw [writeControl, hbit, if_neg Bool.false_ne_true]
    split
    · exact { invchk := fun _ h => (h b rfl).elim }
    · exact {}

theorem turn_commandWrite (code : Byte) (s : State) : Turn (some (.commandWrite code)) s (writeCommand code s) :=
  (effect_writeCommand code s).changes.turn
    (fun _ _ hcode _ htake => hcode (by rw [← code_of_ofCode htake]; rfl)) fun _ => trivial

theorem turn_unknown (code : Byte) (s : State) : Turn (some (.unknown code)) s (writeCommand code s) :=
  (effect_writeCommand code s).changes.turn
    (fun w _ _ _ htake => by
      have hnone : (Cmd.ofCode code).isNone = true := (w _ rfl).1
      rw [htake] at hnone
      cases hnone) fun _ => trivial

/-- R145: a parameter byte writes a configuration only as the last of LINE SET's. -/
theorem sameConfigs_writeParameter {b : Byte} {s : State} (h : ¬MaySetLine (some (.parameterWrite b)) s) :
    SameConfigs s (writeParameter b s) := by
  by_cases hstaged : s.port.staged = some .lineSet
  · unfold writeParameter
    split
    · exact SameConfigs.refl s
    · split
      next c hcollecting hc =>
        cases hstaged.symm.trans hc
        have hshort : ¬7 ≤ s.port.staging.length := fun hlong => h (.inr ⟨⟨b, rfl⟩, hcollecting, hstaged, hlong⟩)
        have hless : ¬Cmd.params .lineSet ≤ (s.port.staging ++ [b]).length := by
          rw [List.length_append]
          exact fun hle => hshort (Nat.le_of_succ_le_succ hle)
        simp only [if_neg hless]
        exact SameConfigs.refl s
      · exact SameConfigs.refl s
  · exact (effect_writeParameter b s).config hstaged

theorem changes_writeParameter (b : Byte) (s : State) :
    Changes (portLaw s.port = true) (¬MaySetLine (some (.parameterWrite b)) s) s (writeParameter b s) :=
  { (effect_writeParameter b s).changes with config := sameConfigs_writeParameter }

theorem turn_parameterWrite (b : Byte) (s : State) : Turn (some (.parameterWrite b)) s (writeParameter b s) :=
  (changes_writeParameter b s).turn (fun _ _ _ h => h) id

theorem keepsLaws_writeRegister (reg : BitVec 4) (b : Byte) (s : State) : KeepsLaws s (writeRegister reg b s) := by
  unfold writeRegister
  split
  · exact (changes_writeData b s).keepsLaws
  · exact (effect_writeCommand b s).changes.keepsLaws
  · exact (effect_writeParameter b s).changes.keepsLaws
  · exact (turn_writeEvent b s).toKeepsLaws
  · exact (turn_writeEnable b s).toKeepsLaws
  · exact keepsLaws_writeControl b s
  · exact (turn_writeTick b s).toKeepsLaws
  · exact {}

/-- R178: a write to a register whose write effect is "ignored" reaches no unit. -/
theorem writeRegister_ignored {reg : BitVec 4} (h : writeIgnored reg = true) (b : Byte) (s : State) :
    writeRegister reg b s = s := by
  unfold writeRegister
  split
  case h_8 => rfl
  all_goals next hreg => simp [writeIgnored, hreg] at h

theorem turn_ignoredRegisterWrite (reg : BitVec 4) (b : Byte) (s : State) :
    Turn (some (.ignoredRegisterWrite reg b)) s (writeRegister reg b s) := by
  cases h : writeIgnored reg with
  | true =>
    rw [writeRegister_ignored h]
    exact {}
  | false => exact (keepsLaws_writeRegister reg b s).turn_of_not_wf h

/-! The resets, the build and the grant. -/

theorem turn_powerOnReset (s : State) : Turn (some .powerOnReset) s (applyPower s) :=
  (keepsLaws_applyPower s).turn (not_orderly_of_resets rfl) fun _ h => (h rfl).elim

theorem turn_pinReset (s : State) : Turn (some .pinReset) s (assertPinReset s) :=
  (keepsLaws_assertPinReset s).turn (not_orderly_of_resets rfl) fun _ _ hidle => by
    rw [assertPinReset, tearStore_notStoring hidle]
    exact ⟨rfl, rfl⟩

/-- R46, R109, R124: the build begins; the units keep their configurations. -/
theorem turn_beginBuild (front : Option Instr) (s : State) : Turn front s (beginBuild s) where
  held := fun _ => (heldLaw_iff _).2 fun _ => rfl
  config := fun _ _ => ⟨fun _ => rfl, fun x => by fin_cases x <;> rfl, fun y => by fin_cases y <;> rfl⟩

theorem turn_powerGood (s : State) : Turn (some .powerGood) s (endPowerOn s) := by
  unfold endPowerOn
  split
  · exact {}
  · simp only
    split
    next hp hpin =>
      exact { held := fun h => (heldLaw_iff _).2 fun _ => (heldLaw_iff s).1 h (by
        rw [inReset, show s.window.pinHeld = true from hpin, Bool.or_true]) }
    · exact { turn_beginBuild (some .powerGood) { s with window.powerHeld := false } with
        held := fun _ => (heldLaw_iff _).2 fun _ => rfl }

theorem turn_pinResetRelease (s : State) : Turn (some .pinResetRelease) s (endPinReset s) := by
  unfold endPinReset
  split
  · exact {}
  · simp only
    split
    next hp hpower =>
      exact { held := fun h => (heldLaw_iff _).2 fun _ => (heldLaw_iff s).1 h (by
        rw [inReset, show s.window.powerHeld = true from hpower, Bool.true_or]) }
    · exact { turn_beginBuild (some .pinResetRelease) { s with window.pinHeld := false } with
        held := fun _ => (heldLaw_iff _).2 fun _ => rfl }

theorem turn_storeGrant (s : State) : Turn (some .storeGrant) s (storeGrant s) :=
  have h := grants_storeGrant s
  { h.keepsLaws with
    written := fun _ _ _ => ⟨h.bytes, h.checks⟩
    flags := fun _ _ _ hi => h.events ▸ hi
    enable := fun _ _ => congrArg Events.enable h.events
    setting := fun _ _ => congrArg TimeBase.setting h.timeBase
    invchk := fun _ _ => congrArg Window.invchk h.window
    config := fun _ _ => h.config
    jobs := fun _ _ _ _ => h.jobs
    granted := fun _ hne => (hne rfl).elim }

/-! Every command. -/

/-- Every command answers a next state, and does to it what `Turn` allows it. -/
theorem exec_turn (c : Instr) (s : State) : ∃ t, exec c s = .next t ∧ Turn (some c) s t := by
  cases hrow : written c with
  | some p =>
    obtain ⟨code, ps⟩ := p
    obtain ⟨k, -, hlen, htake, hset, hexec⟩ := exec_written hrow
    refine ⟨_, hexec s, (effect_hostCommand k ps s hlen).changes.turn (fun _ hne _ _ hk => hne (congrArg some (htake hk)))
      fun hnone hk => ?_⟩
    obtain ⟨a, b, d, e, f, g, i, l, rfl⟩ := hset hk
    exact hnone (.inl ⟨a, b, d, e, f, g, i, l, rfl⟩)
  | none =>
    cases c with
    | dataWrite b => exact ⟨_, rfl, (changes_writeData b s).anyTurn⟩
    | parameterWrite b => exact ⟨_, rfl, turn_parameterWrite b s⟩
    | resultRead => exact ⟨_, rfl, (changes_readResult s).anyTurn⟩
    | eventWrite b => exact ⟨_, rfl, turn_writeEvent b s⟩
    | enableWrite b => exact ⟨_, rfl, turn_writeEnable b s⟩
    | softwareReset b => exact ⟨_, rfl, turn_softwareReset b s⟩
    | invchk b => exact ⟨_, rfl, turn_invchk b s⟩
    | tickWrite b => exact ⟨_, rfl, turn_writeTick b s⟩
    | ignoredRegisterWrite reg b => exact ⟨_, rfl, turn_ignoredRegisterWrite reg b s⟩
    | powerOnReset => exact ⟨_, rfl, turn_powerOnReset s⟩
    | powerGood => exact ⟨_, rfl, turn_powerGood s⟩
    | pinReset => exact ⟨_, rfl, turn_pinReset s⟩
    | pinResetRelease => exact ⟨_, rfl, turn_pinResetRelease s⟩
    | startUpBuildEnd => exact ⟨_, rfl, (changes_endBuild s).anyTurn⟩
    | tick => exact ⟨_, rfl, (changes_takeTick s).anyTurn⟩
    | holdTimerExpiry l => exact ⟨_, rfl, (acts_expireHold l s).anyTurn⟩
    | starveTimerExpiry l => exact ⟨_, rfl, (acts_expireStarve l s).anyTurn⟩
    | ackTimerExpiry x => exact ⟨_, rfl, (acts_expireAck x s).anyTurn⟩
    | storeGrant => exact ⟨_, rfl, turn_storeGrant s⟩
    | intakeAccessEnd => exact ⟨_, rfl, (acts_endIntakeAccess s).anyTurn⟩
    | fetchEnd l => exact ⟨_, rfl, (acts_endFetch l s).anyTurn⟩
    | verifyReadEnd => exact ⟨_, rfl, (acts_endVerifyRead s).anyTurn⟩
    | setupEnd x => exact ⟨_, rfl, (acts_endSetup x s).anyTurn⟩
    | strobeEnd x => exact ⟨_, rfl, (acts_endStrobe x s).anyTurn⟩
    | trailEnd x => exact ⟨_, rfl, (acts_endTrail x s).anyTurn⟩
    | inputChange x levels => exact ⟨_, rfl, (acts_changeInputs x levels s).anyTurn⟩
    | goChange y level => exact ⟨_, rfl, (acts_changeGo y level s).anyTurn⟩
    | frameEnd y => exact ⟨_, rfl, (acts_endFrame y s).anyTurn⟩
    | receivedCharacter y data parity stop => exact ⟨_, rfl, (acts_receiveCharacter y data parity stop s).anyTurn⟩
    | unknown code => exact ⟨_, rfl, turn_unknown code s⟩
    | commandWrite code => exact ⟨_, rfl, turn_commandWrite code s⟩
    | rxdMark y => exact ⟨_, rfl, (acts_rxdAtMark y s).anyTurn⟩
    | startBit y => exact ⟨_, rfl, (acts_rxdFalls y s).anyTurn⟩
    | startBitSample y level => exact ⟨_, rfl, (acts_sampleStartBit y level s).anyTurn⟩
    | _ => cases hrow

/-! Every step. -/

/-- The state with the command at the front taken from the queue. -/
def tailQueue (s : State) : State := { s with pending := s.pending.tail }

/-- A step is a turn of the command at the front, or of none on an empty queue, on the state with the queue's rest. -/
theorem step_turn {s t : State} (h : step s = .next t) : Turn s.pending.head? (tailQueue s) t := by
  cases hqueue : s.pending with
  | nil =>
    simp only [step, hqueue, Host.Outcome.next.injEq] at h
    have hsame : tailQueue s = s := by rw [tailQueue, hqueue, List.tail_nil, ← hqueue]
    rw [hsame, ← h]
    exact (changes_clkPeriod s).anyTurn
  | cons c rest =>
    have htail : tailQueue s = { s with pending := rest } := by rw [tailQueue, hqueue, List.tail_cons]
    simp only [step, hqueue] at h
    obtain ⟨u, hu, hturn⟩ := exec_turn c { s with pending := rest }
    cases h.symm.trans hu
    rw [htail]
    exact hturn

/-! The laws that make `Kept`. -/

theorem sounds_exec (c : Instr) {s t : State} (h : Sounds none .nobody s) (hheld : heldLaw s = true)
    (hexec : exec c s = .next t) : Sounds none .nobody t := by
  cases hrow : written c with
  | some p =>
    obtain ⟨code, ps⟩ := p
    obtain ⟨k, -, -, -, -, hk⟩ := exec_written hrow
    cases hexec.symm.trans (hk s)
    exact sounds_hostCommand k ps s h
  | none =>
    cases c with
    | dataWrite b => cases hexec; exact sounds_writeData b s h
    | parameterWrite b => cases hexec; exact sounds_writeParameter b s h
    | resultRead => cases hexec; exact sounds_readResult s h
    | eventWrite b => cases hexec; exact sounds_writeEvent b s h
    | enableWrite b => cases hexec; exact sounds_writeEnable b s h
    | softwareReset b => cases hexec; exact sounds_writeControl b s h
    | invchk b => cases hexec; exact sounds_writeControl b s h
    | tickWrite b => cases hexec; exact sounds_writeTick b s h
    | ignoredRegisterWrite reg b => cases hexec; exact sounds_writeRegister reg b s h
    | powerOnReset => cases hexec; exact sounds_hardReset _ _ _ s rfl rfl
    | powerGood => cases hexec; exact sounds_endPowerOn s h hheld
    | pinReset => cases hexec; exact sounds_hardReset _ _ _ _ rfl rfl
    | pinResetRelease => cases hexec; exact sounds_endPinReset s h hheld
    | startUpBuildEnd => cases hexec; exact sounds_endBuild s h
    | tick => cases hexec; exact sounds_takeTick s h
    | holdTimerExpiry l => cases hexec; exact sounds_expireHold l s h
    | starveTimerExpiry l => cases hexec; exact sounds_expireStarve l s h
    | ackTimerExpiry x => cases hexec; exact sounds_expireAck x s h
    | storeGrant => cases hexec; exact sounds_storeGrant s h
    | intakeAccessEnd => cases hexec; exact sounds_endIntakeAccess s h
    | fetchEnd l =>
      cases hexec
      obtain ⟨own, h⟩ := h
      exact ⟨own, sound_endFetch l s h⟩
    | verifyReadEnd =>
      cases hexec
      obtain ⟨own, h⟩ := h
      exact ⟨own, sound_endVerifyRead s h⟩
    | setupEnd x => cases hexec; exact sounds_endSetup x s h
    | strobeEnd x => cases hexec; exact sounds_endStrobe x s h
    | trailEnd x => cases hexec; exact sounds_endTrail x s h
    | inputChange x levels => cases hexec; exact sounds_changeInputs x levels s h
    | goChange y level => cases hexec; exact sounds_changeGo y level s h
    | frameEnd y => cases hexec; exact sounds_endFrame y s h
    | receivedCharacter y data parity stop => cases hexec; exact sounds_receiveCharacter y data parity stop s h
    | unknown code => cases hexec; exact sounds_writeCommand code s h
    | commandWrite code => cases hexec; exact sounds_writeCommand code s h
    | rxdMark y => cases hexec; exact sounds_rxdAtMark y s h
    | startBit y => cases hexec; exact sounds_rxdFalls y s h
    | startBitSample y level => cases hexec; exact sounds_sampleStartBit y level s h
    | _ => cases hrow

theorem sounds_step {s t : State} (h : Sounds none .nobody s) (hheld : heldLaw s = true) (hstep : step s = .next t) :
    Sounds none .nobody t := by
  cases hqueue : s.pending with
  | nil =>
    simp only [step, hqueue, Host.Outcome.next.injEq] at hstep
    exact hstep ▸ sounds_clkPeriod s h
  | cons c rest =>
    simp only [step, hqueue] at hstep
    exact sounds_exec c (s := { s with pending := rest }) h.same hheld hstep

/-! The statements. -/

/-- Settles O3: `exec_turn` has the next state, and the queue is the first thing that a turn keeps. -/
theorem everyCommandKeepsTheQueue : Obligations.EveryCommandKeepsTheQueue := fun c s => by
  obtain ⟨t, hexec, hturn⟩ := exec_turn c s
  exact ⟨t, hexec, hturn.pending⟩

/-- Settles O19: every turn keeps the law of the port. -/
theorem stepKeepsPortLaw : Obligations.StepKeepsPortLaw := fun _ _ hlaw hstep => (step_turn hstep).port hlaw

/-- Settles O55: every turn keeps the store's laws, which do not read the queue. -/
theorem stepKeepsStoreSafe : Obligations.StepKeepsStoreSafe := fun _ _ hsafe hstep => (step_turn hstep).store hsafe

/-- Settles O56: `Kept` is `Sounds` with the law of READY (`kept_iff`), kept by `sounds_step` and by every turn; the sequence
numbers are kept by every turn. -/
theorem stepKeepsTheLaws : Obligations.StepKeepsTheLaws := fun s t hstep => by
  refine ⟨fun hkept => ?_, (step_turn hstep).records⟩
  obtain ⟨hsounds, hheld⟩ := (kept_iff s).1 hkept
  exact (kept_iff t).2 ⟨sounds_step hsounds hheld hstep, (step_turn hstep).held hheld⟩

/-- Settles O57: the settings' clauses of `Turn`. -/
theorem hostOwnsItsSettings : Obligations.HostOwnsItsSettings := fun s t horderly hstep => by
  have hturn := step_turn hstep
  refine ⟨hturn.flags horderly, hturn.enable horderly, hturn.setting horderly, hturn.invchk horderly,
    fun hset hparam => hturn.config horderly ?_⟩
  rintro (⟨a, b, c, d, e, f, g, k, hfront⟩ | ⟨⟨b, hfront⟩, hcollecting, hstaged, hlong⟩)
  · exact hset a b c d e f g k hfront
  · obtain h | h | h | h := hparam
    · exact h b hfront
    · exact h hcollecting
    · exact h hstaged
    · exact absurd hlong (Nat.not_le.2 h)

/-- R5: the intake phase of a later record is not an earlier one. -/
theorem Later.intake {r r' : Job} (h : Later r r') :
    (r.intake = .closed → r'.intake = .closed) ∧ (r.intake = .closing → r'.intake ≠ .opened) := by
  have hphase := h.phase
  refine ⟨fun hclosed => ?_, fun hclosing hopened => ?_⟩
  · rw [hclosed] at hphase
    cases hafter : r'.intake with
    | closed => rfl
    | opened => rw [hafter] at hphase; exact absurd hphase (by decide)
    | closing => rw [hafter] at hphase; exact absurd hphase (by decide)
  · rw [hclosing, hopened] at hphase
    exact absurd hphase (by decide)

/-- Settles O58: the jobs' clause of `Turn`, field by field of `Later`. -/
theorem jobsOnlyAdvance : Obligations.JobsOnlyAdvance := fun s t j r hfront hport hstep hjob => by
  have horderly : Orderly s.pending.head? := fun c hc => by
    obtain ⟨hwf, hreset, -⟩ := hfront c hc
    exact ⟨hwf, hreset⟩
  have htake : s.pending.head? ≠ some .take := fun h => by
    obtain ⟨-, -, hne, -⟩ := hfront _ h
    exact hne rfl
  have hcode : s.pending.head? ≠ some (.commandWrite 0x1A#8) := fun h => by
    obtain ⟨-, -, -, hne⟩ := hfront _ h
    exact hne rfl
  obtain ⟨r', hjob', hlater⟩ := (step_turn hstep).jobs horderly htake hcode hport j r hjob
  obtain ⟨hurgent, hearly, hretain, hseparate⟩ := hlater.options
  obtain ⟨hclosed, hclosing⟩ := hlater.intake
  exact ⟨r', hjob', hurgent, hearly, hretain, hseparate, hlater.copies, hlater.quota, hclosed, hclosing, hlater.stored,
    hlater.copiesDone, hlater.total, hlater.checkErrors, hlater.truncated, hlater.released⟩

/-- Settles O59: the store's clauses of `Turn`. -/
theorem storeChangesOnlyAtAccesses : Obligations.StoreChangesOnlyAtAccesses := fun s t hwf hstep => by
  have hturn := step_turn hstep
  exact ⟨fun hidle hpower => hturn.written hwf hpower hidle,
    fun hreset hgrant hready => hturn.granted (fun c hc => ⟨hwf c hc, hreset c hc⟩) hgrant hready⟩

end Sys2Proof.Machine
end

section
/-! The front of the queue, and the resets: their values (R180, R181), what they keep of the store (R26), the start-up build (R46),
and the laws at State.reset. -/

namespace Sys2Proof.Machine

open Sys2Proof.Says

/-- Settles O1: `step` on a queue with a front. -/
theorem stepTakesFrontCommand : Obligations.StepTakesFrontCommand := fun c rest s hqueue => by
  simp only [step, hqueue]

/-! State.reset. -/

theorem sounds_reset : Sounds none .nobody State.reset := by
  refine ⟨_, Sound.blank (fun j => tab_replicate none j) rfl ⟨rfl, rfl⟩ rfl rfl rfl (fun l => tab_replicate _ l)
    (fun l => ⟨.off, DrainConfig.default, .inl rfl, tab_replicate Engine.reset l⟩) (unitPhase_rest ?_ ?_)⟩
  · exact fun x => congrArg ParUnit.handshake (tab_replicate (ParUnit.reset ParPins.quiet) x)
  · exact fun y => congrArg SerUnit.transmit (tab_replicate (SerUnit.reset SerPins.quiet) y)

theorem kept_reset : Kept State.reset := (kept_iff _).2 ⟨sounds_reset, rfl⟩

theorem storeSafe_reset : StoreSafe State.reset := storeSafe_of_noJob rfl (fun j => tab_replicate none j) rfl

/-- R80: no line is SENDING at State.reset. -/
theorem boundaryLaw_reset : boundaryLaw State.reset = true :=
  (all_lines _).2 fun l => by
    rw [show engineAt State.reset l = Engine.reset from tab_replicate _ l]
    rfl

/-- The laws of the part are those of `Kept` and of `StoreSafe`, with those of the port, the byte boundary and the records. -/
theorem safe_of_laws {s : State} (hkept : Kept s) (hstore : StoreSafe s) (hport : portLaw s.port = true)
    (hboundary : boundaryLaw s = true) (hrecords : recordsLaw s.completion = true) : Safe s := by
  obtain ⟨h1, h2, h3, h4, h5, h6, h7, h8, h9, h10, h11, h12, h13, h14, h15, h16, h17⟩ := hkept
  obtain ⟨hcanonical, hfill, -⟩ := hstore
  simp only [Safe, lawful, *, Bool.and_self]

/-- Settles O4: the laws of `Kept` hold because State.reset is blank (`Sound.blank`), those of the store because no slot is
occupied, and the others by their definitions. -/
theorem resetStateIsSafe : Obligations.ResetStateIsSafe :=
  ⟨safe_of_laws kept_reset storeSafe_reset rfl boundaryLaw_reset rfl, storeSafe_reset, kept_reset⟩

/-! The values of the resets. -/

theorem applyPower_eq (s : State) : applyPower s = { hard s with
    window := { (hard s).window with powerHeld := true }
    spool := { (hard s).spool with bytes := [], checks := [], links := Vector.replicate 128 none } } := rfl

theorem assertPinReset_eq {s : State} (h : NotStoring s) :
    assertPinReset s = { hard s with window := { (hard s).window with pinHeld := true } } := by
  rw [assertPinReset, tearStore_notStoring h]
  rfl

theorem inReset_eq_false_iff {s : State} :
    inReset s = false ↔ s.window.powerHeld = false ∧ s.window.pinHeld = false := by
  rw [inReset, Bool.or_eq_false_iff]

theorem softReset_eq {s : State} (hreset : inReset s = false) (h : NotStoring s) : softReset s = soft s := by
  obtain ⟨hpower, hpin⟩ := inReset_eq_false_iff.1 hreset
  rw [softReset, tearStore_notStoring h]
  simp only [soft, cleared, hpower, hpin]
  rfl

/-- R180: a write to CONTROL with SRESET set, under a reset and out of one. -/
theorem exec_softwareReset {b : Byte} (hbit : b.getLsbD 0 = true) (s : State) :
    exec (.softwareReset b) s = .next (if inReset s then s else softReset s) := by
  change Host.Outcome.next (writeControl b s) = _
  rw [writeControl, if_pos hbit]

/-- Settles O5: `applyPower_eq` and `assertPinReset_eq`. -/
theorem hardResetValues : Obligations.HardResetValues :=
  ⟨fun s => congrArg Host.Outcome.next (applyPower_eq s), fun _ h => congrArg Host.Outcome.next (assertPinReset_eq h)⟩

/-- Settles O6: `softReset_eq` out of a reset; under one the write reaches nothing. -/
theorem softwareResetValues : Obligations.SoftwareResetValues := fun b s hbit => by
  rw [exec_softwareReset hbit]
  exact ⟨fun hreset hidle => by rw [hreset, if_neg Bool.false_ne_true, softReset_eq hreset hidle],
    fun hreset => by rw [if_pos hreset]⟩

/-! What the resets keep of the store. -/

/-- Two stores hold the same contents but at one address, and the same links. -/
def SameStoreBut (a : Nat) (p q : Spool) : Prop :=
  q.links = p.links ∧ ∀ i, i ≠ a →
    Memory.read q.bytes i = Memory.read p.bytes i ∧ Memory.read q.checks i = Memory.read p.checks i

/-- R26: a torn position is the only one whose contents change. -/
theorem sameStoreBut_torn {s : State} (h : storeLaw s = true) (a : Nat) : SameStoreBut a s.spool (torn a s).spool := by
  obtain ⟨hbytes, hchecks⟩ : Memory.wf s.spool.bytes = true ∧ Memory.wf s.spool.checks = true := by
    simpa [storeLaw] using h
  refine ⟨rfl, fun i hi => ⟨?_, ?_⟩⟩
  · exact (Memory.read_write hbytes a i _).trans (if_neg hi)
  · exact (Memory.read_write hchecks a i _).trans (if_neg hi)

theorem sameStoreBut_tearStore {s : State} (h : storeLaw s = true) {j : Fin 16} {b : Byte}
    {rest : List (Fin 16 × Byte)} {r : Job} {tb : Fin 128}
    (hfifo : s.intake.fifo = (j, b) :: rest) (hjob : jobAt s j = some r) (htail : r.tail = some tb) :
    SameStoreBut (tb.val * 256 + r.tailFill) s.spool (tearStore s).spool := by
  obtain hsame | ⟨k', j', b', rest', r', tb', -, hfifo', hjob', htail', htorn⟩ := tearStore_cases s
  · rw [hsame]
    exact ⟨rfl, fun _ _ => ⟨rfl, rfl⟩⟩
  · cases hfifo.symm.trans hfifo'
    cases hjob.symm.trans hjob'
    cases htail.symm.trans htail'
    rw [htorn]
    exact sameStoreBut_torn h _

/-- R26: of pin reset and of software reset the store sees the tearing alone. -/
theorem exec_reset_spool {c : Instr} (hc : c = .pinReset ∨ (∃ b : Byte, c = .softwareReset b ∧ b.getLsbD 0 = true))
    (s : State) : ∃ t, exec c s = .next t ∧
      (t = s ∨ t.spool.bytes = (tearStore s).spool.bytes ∧ t.spool.checks = (tearStore s).spool.checks ∧
        t.spool.links = (tearStore s).spool.links) := by
  obtain rfl | ⟨b, rfl, hbit⟩ := hc
  · exact ⟨_, rfl, .inr ⟨rfl, rfl, rfl⟩⟩
  · refine ⟨_, exec_softwareReset hbit s, ?_⟩
    split
    · exact .inl rfl
    · exact .inr ⟨rfl, rfl, rfl⟩

/-- Settles O7: a reset leaves the contents that the tearing leaves (`exec_reset_spool`): all of them without an intake access,
and with one all but its own position (`sameStoreBut_tearStore`). -/
theorem resetsKeepTheStore : Obligations.ResetsKeepTheStore := by
  intro c s hlaw hc
  obtain ⟨t, hexec, hspool⟩ := exec_reset_spool hc s
  refine ⟨fun hidle => ⟨t, hexec, ?_⟩, fun k j b rest r tb _ hfifo hjob htail => ⟨t, hexec, ?_⟩⟩
  · rw [tearStore_notStoring hidle] at hspool
    obtain rfl | hspool := hspool
    · exact ⟨rfl, rfl, rfl⟩
    · exact hspool
  · obtain rfl | ⟨hbytes, hchecks, hlinks⟩ := hspool
    · exact ⟨rfl, fun _ _ => ⟨rfl, rfl⟩⟩
    · rw [hbytes, hchecks, hlinks]
      exact sameStoreBut_tearStore hlaw hfifo hjob htail

/-! The start-up build. -/

/-- R46: the last reset to end begins the build. -/
theorem endPowerOn_eq {s : State} (hpower : s.window.powerHeld = true) :
    endPowerOn s =
      if s.window.pinHeld then { s with window := { s.window with powerHeld := false } } else buildBegun s := by
  rw [endPowerOn, hpower, Bool.not_true, if_neg Bool.false_ne_true]
  cases hpin : s.window.pinHeld with
  | true => simp only [hpin, if_true]
  | false =>
    simp only [hpin, beginBuild, buildBegun]
    rfl

theorem endPinReset_eq {s : State} (hpin : s.window.pinHeld = true) :
    endPinReset s =
      if s.window.powerHeld then { s with window := { s.window with pinHeld := false } } else buildBegun s := by
  rw [endPinReset, hpin, Bool.not_true, if_neg Bool.false_ne_true]
  cases hpower : s.window.powerHeld with
  | true => simp only [hpower, if_true]
  | false =>
    simp only [hpower, beginBuild, buildBegun]
    rfl

/-- R129: a receiver after the end of the build. -/
def afterBuild (s : State) (y : Fin 2) : SerUnit :=
  if (engineAt s (serLine y)).state = .idle ∧ (serAt s y).config.flow = .xonxoff then
    { serAt s y with receiver := .markwait, startSeen := false }
  else serAt s y

theorem setSer_serAt (y : Fin 2) (s : State) : setSer y (serAt s y) s = s :=
  congrArg (fun v => { s with ser := v }) (setTab_tab s.ser y)

theorem startAfterBuild_eq (y : Fin 2) (s : State) : startAfterBuild y s = setSer y (afterBuild s y) s := by
  by_cases h : (engineAt s (serLine y)).state = .idle ∧ (serAt s y).config.flow = .xonxoff
  · rw [afterBuild, if_pos h]
    exact if_pos h
  · rw [afterBuild, if_neg h, setSer_serAt]
    exact if_neg h

/-- R46: the Free List, the links and READY at the end of the build. -/
def buildEnded (s : State) : State :=
  { s with
    window := { s.window with ready := true, buildClks := 0 }
    spool := { s.spool with freeList := (List.range 128).map (Fin.ofNat 128), links := Vector.replicate 128 none } }

theorem afterBuild_setSer_zero (u : SerUnit) (s : State) : afterBuild (setSer 0 u s) 1 = afterBuild s 1 := by
  simp only [afterBuild, engineAt_setSer, serAt_setSer, if_neg Fin.zero_ne_one.symm]

theorem endBuild_eq {s : State} (hready : s.window.ready = false) (hreset : inReset s = false) :
    endBuild s = setSer 1 (afterBuild s 1) (setSer 0 (afterBuild s 0) (buildEnded s)) := by
  rw [endBuild, building, hready, hreset, Bool.not_false, Bool.and_self, if_pos rfl]
  change startAfterBuild 1 (startAfterBuild 0 (buildEnded s)) = _
  rw [startAfterBuild_eq, startAfterBuild_eq, afterBuild_setSer_zero]
  rfl

theorem endBuild_outside {s : State} (h : s.window.ready = true ∨ inReset s = true) : endBuild s = s := by
  have hnot : building s = false := by
    obtain h | h := h
    · rw [building, h, Bool.not_true, Bool.false_and]
    · rw [building, h, Bool.not_true, Bool.and_false]
  rw [endBuild, hnot, if_neg Bool.false_ne_true]

theorem serAt_endBuild (s : State) (y : Fin 2) :
    serAt (setSer 1 (afterBuild s 1) (setSer 0 (afterBuild s 0) (buildEnded s))) y = afterBuild s y := by
  simp only [serAt_setSer]
  fin_cases y <;> rfl

/-- Settles O8: `endPowerOn_eq` and `endPinReset_eq` say which reset ends and when the build begins, `endBuild_eq` what the build's
end leaves. -/
theorem startUpBuild : Obligations.StartUpBuild := by
  refine ⟨fun s => ⟨fun hpower hpin => ?_, fun hpower hpin => ?_, fun hpower hpin => ⟨?_, ?_⟩, fun hpower => ?_,
    fun hpin => ?_⟩, fun s => ⟨fun hready hreset => ⟨_, rfl, ?_⟩, fun h => congrArg Host.Outcome.next (endBuild_outside h)⟩⟩
  · exact congrArg Host.Outcome.next ((endPowerOn_eq hpower).trans (by rw [hpin, if_neg Bool.false_ne_true]))
  · exact congrArg Host.Outcome.next ((endPinReset_eq hpin).trans (by rw [hpower, if_neg Bool.false_ne_true]))
  · exact congrArg Host.Outcome.next ((endPowerOn_eq hpower).trans (if_pos hpin))
  · exact congrArg Host.Outcome.next ((endPinReset_eq hpin).trans (if_pos hpower))
  · exact congrArg Host.Outcome.next (if_pos (by rw [hpower]; rfl))
  · exact congrArg Host.Outcome.next (if_pos (by rw [hpin]; rfl))
  · rw [endBuild_eq hready hreset]
    exact ⟨rfl, rfl, serAt_endBuild s, rfl⟩

end Sys2Proof.Machine
end

section
/-! The host's accesses to the registers (R178, R179, R182), the DATA port (R49, R50), and the Command Port's accesses (R144,
R145, R149). -/

namespace Sys2Proof.Machine

open Sys2Proof.Says

-- One after another: side by side the proofs would each wait in a thread of their own.
set_option Elab.async false

/-! Bytes of flags. -/

@[simp] theorem byteOf_toNat (n : Nat) : (byteOf n).toNat = n % 256 := BitVec.toNat_ofNat n 8

theorem packBits_cons (b : Bool) (bits : List Bool) : packBits (b :: bits) = Nat.bit b (packBits bits) := by
  rw [packBits, Nat.bit_val, bit_eq_toNat, Nat.add_comm]

/-- R184: bit `i` of a byte of flags is the flag at that place. -/
theorem packBits_testBit (bits : List Bool) (i : Nat) : (packBits bits).testBit i = bits.getD i false := by
  induction bits generalizing i with
  | nil => rw [packBits, Nat.zero_testBit, List.getD_nil]
  | cons b bits ih =>
    rw [packBits_cons]
    cases i with
    | zero => rw [Nat.testBit_bit_zero, List.getD_cons_zero]
    | succ i => rw [Nat.testBit_bit_succ, ih, List.getD_cons_succ]

theorem packBits_lt (bits : List Bool) : packBits bits < 2 ^ bits.length := by
  induction bits with
  | nil => exact Nat.one_pos
  | cons b bits ih =>
    rw [packBits, List.length_cons, Nat.pow_succ, bit_eq_toNat]
    have := Bool.toNat_le b
    omega

theorem flagByte_getLsbD (bits : List Bool) {i : Nat} (h : i < 8) : (flagByte bits).getLsbD i = bits.getD i false := by
  rw [flagByte, byteOf, BitVec.getLsbD_ofNat, packBits_testBit, decide_eq_true h, Bool.true_and]

theorem flagByte_toNat_lt {bits : List Bool} {n : Nat} (h : bits.length = n) : (flagByte bits).toNat < 2 ^ n := by
  subst h
  rw [flagByte, byteOf_toNat]
  exact lt_of_le_of_lt (Nat.mod_le _ _) (packBits_lt bits)

/-! The registers. -/

theorem anyFault_iff (s : State) : anyFault s = true ↔ ∃ l, (engineAt s l).state = .fault := by
  simp only [anyFault, Bool.or_eq_true, beq_iff_eq]
  constructor
  · rintro (((h | h) | h) | h)
    · exact ⟨0, h⟩
    · exact ⟨1, h⟩
    · exact ⟨2, h⟩
    · exact ⟨3, h⟩
  · rintro ⟨l, h⟩
    fin_cases l
    · exact .inl (.inl (.inl h))
    · exact .inl (.inl (.inr h))
    · exact .inl (.inr h)
    · exact .inr h

/-- R182: the bits of STATUS. -/
theorem readRegister_status (s : State) :
    let status := readRegister 0x4#4 s
    status.getLsbD 0 = s.window.ready ∧ status.getLsbD 1 = s.intake.stall ∧
      (status.getLsbD 2 = true ↔ s.port.state = .executing) ∧ (status.getLsbD 3 = true ↔ s.completion.queue ≠ []) ∧
      (status.getLsbD 4 = true ↔ ∃ l, (engineAt s l).state = .fault) ∧ (status.getLsbD 5 = true ↔ s.intake.fifo = []) ∧
      status.toNat < 64 := by
  have hbit (i : Nat) (hi : i < 8) := flagByte_getLsbD [s.window.ready, s.intake.stall, s.port.state == .executing,
    !s.completion.queue.isEmpty, anyFault s, s.intake.fifo.isEmpty] hi
  refine ⟨hbit 0 (by decide), hbit 1 (by decide), ?_, ?_, ?_, ?_, flagByte_toNat_lt rfl⟩
  · exact (Bool.coe_iff_coe.2 (hbit 2 (by decide))).trans beq_iff_eq
  · exact (Bool.coe_iff_coe.2 (hbit 3 (by decide))).trans ((Bool.not_eq_true' _).to_iff.trans List.isEmpty_eq_false_iff)
  · exact (Bool.coe_iff_coe.2 (hbit 4 (by decide))).trans (anyFault_iff s)
  · exact (Bool.coe_iff_coe.2 (hbit 5 (by decide))).trans List.isEmpty_iff

/-- R182: COMMAND as a number, the port's state in its four low bits. -/
theorem commandByte_toNat (p : Port) :
    (commandByte p).toNat = portStateNum p.state + 16 * packBits [p.abandoned, p.collided, p.strayParam, p.underrun] := by
  have hstate : portStateNum p.state < 4 := by cases p.state <;> decide
  have hflags : packBits [p.abandoned, p.collided, p.strayParam, p.underrun] < 16 := packBits_lt _
  rw [commandByte, byteOf_toNat]
  omega

theorem commandByte_getLsbD (p : Port) {i : Nat} (h : i < 4) :
    (commandByte p).getLsbD (4 + i) = [p.abandoned, p.collided, p.strayParam, p.underrun].getD i false := by
  have hstate : portStateNum p.state < 2 ^ 4 := by cases p.state <;> decide
  rw [← packBits_testBit, ← BitVec.testBit_toNat, commandByte_toNat, Nat.add_comm, Nat.add_comm 4 i,
    show 16 = 2 ^ 4 from rfl, Nat.testBit_two_pow_mul_add _ hstate, if_neg (by omega), Nat.add_sub_cancel]

/-- R105, R182: the two bits of a line in LINES. -/
theorem linesByte_group (s : State) (l : Fin 4) :
    (linesByte s).toNat / 4 ^ l.val % 4 = lineGroup (engineAt s l).state := by
  have hlt (k : LineState) : lineGroup k < 4 := by cases k <;> decide
  have h0 := hlt (engineAt s 0).state
  have h1 := hlt (engineAt s 1).state
  have h2 := hlt (engineAt s 2).state
  have h3 := hlt (engineAt s 3).state
  have hbyte : (linesByte s).toNat = (lineGroup (engineAt s 0).state + 4 * lineGroup (engineAt s 1).state
      + 16 * lineGroup (engineAt s 2).state + 64 * lineGroup (engineAt s 3).state) % 256 := byteOf_toNat _
  rw [hbyte]
  fin_cases l <;> simp only [Nat.reducePow, Fin.reduceFinMk, Fin.isValue] <;> omega

theorem readRegister_result_waiting {s : State} {b : Byte} {rest : List Byte} (hready : s.window.ready = true)
    (hport : s.port.state = .results) (hresults : s.port.results = b :: rest) : readRegister 0x3#4 s = b := by
  change resultByte s = b
  rw [resultByte, hready, hport, hresults]
  rfl

theorem readRegister_result_none {s : State} (h : s.window.ready = false ∨ s.port.state ≠ .results) :
    readRegister 0x3#4 s = 0x00#8 := by
  refine if_neg fun hboth => ?_
  obtain ⟨hready, hport⟩ : s.window.ready = true ∧ s.port.state = .results := by simpa using hboth
  obtain h | h := h
  · cases h.symm.trans hready
  · exact h hport

/-- Settles O10: STATUS is `readRegister_status`, COMMAND `commandByte_toNat` and `commandByte_getLsbD`, LINES
`linesByte_group`; the other registers hold a byte or a count of their unit. -/
theorem registersReadTheirUnits : Obligations.RegistersReadTheirUnits := by
  intro s status command control
  have hflag (i : Nat) (hi : i < 4) := commandByte_getLsbD s.port hi
  have hcontrol (i : Nat) (hi : i < 8) := flagByte_getLsbD [false, s.window.invchk] hi
  refine ⟨readRegister_status s, ⟨?_, hflag 0 (by decide), hflag 1 (by decide), hflag 2 (by decide), hflag 3 (by decide)⟩,
    ⟨rfl, rfl, rfl, rfl⟩, ⟨hcontrol 0 (by decide), hcontrol 1 (by decide), flagByte_toNat_lt rfl⟩, fun hle => ?_,
    fun hnone => ?_, fun j hsome => ?_, fun hle => ?_, fun hle => ?_, fun l => ?_,
    fun b rest => readRegister_result_waiting, readRegister_result_none, rfl, rfl, rfl⟩
  · change (commandByte s.port).toNat % 16 = _
    rw [commandByte_toNat]
    cases s.port.state <;> simp only [portStateNum] <;> omega
  · change (byteOf (16 - s.intake.fifo.length)).toNat + s.intake.fifo.length = 16
    rw [byteOf_toNat]
    omega
  · change orNone s.intake.target = 0xFF#8
    rw [hnone]
    rfl
  · change (orNone s.intake.target).toNat = j.val
    rw [hsome]
    exact (byteOf_toNat _).trans (Nat.mod_eq_of_lt (by omega))
  · exact (byteOf_toNat _).trans (Nat.mod_eq_of_lt (by omega))
  · exact (byteOf_toNat _).trans (Nat.mod_eq_of_lt (by omega))
  · change (linesByte s).toNat / 4 ^ l.val % 4 = _
    rw [linesByte_group]
    cases (engineAt s l).state <;> rfl

/-! The host's accesses while READY reads 0. -/

/-- Settles O9: each host access tests READY first. -/
theorem notReadyIgnoresHostAccesses : Obligations.NotReadyIgnoresHostAccesses := by
  intro s hready
  have hnot : (!s.window.ready) = true := by rw [hready]; rfl
  refine ⟨fun b => ⟨congrArg Host.Outcome.next (if_pos hnot), congrArg Host.Outcome.next (writeCommand_not_ready b s hready),
      congrArg Host.Outcome.next (writeCommand_not_ready b s hready),
      congrArg Host.Outcome.next (writeParameter_not_ready b s hready), congrArg Host.Outcome.next (if_pos hnot),
      congrArg Host.Outcome.next (if_pos hnot), congrArg Host.Outcome.next (if_pos hnot)⟩,
    fun b hbit => congrArg Host.Outcome.next ?_, fun c p hrow => ?_, congrArg Host.Outcome.next (if_pos hnot)⟩
  · rw [writeControl, hbit, hready, if_neg Bool.false_ne_true, if_neg Bool.false_ne_true]
  · obtain ⟨code, ps⟩ := p
    obtain ⟨k, -, -, -, -, hexec⟩ := exec_written hrow
    rw [hexec, hostCommand_not_ready k ps s hready]

/-! The host's settings. -/

/-- R182: CMDERR is bit 1 of EVENT. -/
theorem and_cmdErr_eq_zero_iff (b : Byte) : b &&& evMask .cmdErr = 0#8 ↔ b.getLsbD 1 = false := by
  rw [← not_iff_not, ← ne_eq, and_ne_zero_iff_exists_getLsbD, Bool.not_eq_false]
  constructor
  · rintro ⟨i, hi, hb, hmask⟩
    have honly : ∀ i, i < 8 → (evMask .cmdErr).getLsbD i = true → i = 1 := by decide
    exact honly i hi hmask ▸ hb
  · exact fun hb => ⟨1, by decide, hb, rfl⟩

theorem writeEvent_of_ready {s : State} (hready : s.window.ready = true) (b : Byte) :
    writeEvent b s =
      let t : State := { s with events := { s.events with flags := s.events.flags &&& ~~~b } }
      if b.getLsbD 1 then
        { t with port := { s.port with abandoned := false, collided := false, strayParam := false, underrun := false } }
      else t := by
  rw [writeEvent, hready, Bool.not_true, if_neg Bool.false_ne_true]
  simp only [and_cmdErr_eq_zero_iff]
  cases b.getLsbD 1 <;> rfl

/-- Settles O12: EVENT is `writeEvent_of_ready`; the others are the writes' own words once READY reads 1. -/
theorem settingWrites : Obligations.SettingWrites := by
  intro b s hready
  have hnot : ¬(!s.window.ready) = true := by rw [hready]; exact Bool.false_ne_true
  refine ⟨fun hbit => congrArg Host.Outcome.next ?_, fun hbit => congrArg Host.Outcome.next ?_,
    congrArg Host.Outcome.next (if_neg hnot), fun hbit => congrArg Host.Outcome.next ?_,
    fun reg hreg => congrArg Host.Outcome.next (writeRegister_ignored ?_ b s)⟩
  · rw [writeEvent_of_ready hready, hbit]
    rfl
  · rw [writeEvent_of_ready hready, hbit]
    rfl
  · rw [writeControl, hbit, if_neg Bool.false_ne_true, if_pos hready]
  · revert reg
    decide

/-! The DATA port. -/

theorem writeData_noTarget {s : State} (hready : s.window.ready = true) (htarget : s.intake.target = none) (b : Byte) :
    writeData b s = flagged 0x40#8 s := by
  rw [writeData, hready, Bool.not_true, if_neg Bool.false_ne_true, htarget]
  rfl

/-- R49, R50: a byte written to DATA while there is a target. -/
theorem writeData_target {s : State} (hready : s.window.ready = true) {j : Fin 16} (htarget : s.intake.target = some j)
    (b : Byte) : writeData b s =
      let t : State := { s with intake := { s.intake with fifo := s.intake.fifo ++ [(j, b)] } }
      if s.intake.fifo.length < 16 then (if s.intake.fifo.isEmpty then evalIntake t else t) else flagged 0x20#8 s := by
  rw [writeData, hready, Bool.not_true, if_neg Bool.false_ne_true]
  simp only [htarget]
  rfl

/-- Settles O13: `writeData_noTarget`, and the three cases of `writeData_target`. -/
theorem dataWrite : Obligations.DataWrite := by
  intro b s hready
  refine ⟨fun htarget => congrArg Host.Outcome.next (writeData_noTarget hready htarget b), fun j htarget =>
    ⟨fun hfull => congrArg Host.Outcome.next ?_, fun hsome hroom => congrArg Host.Outcome.next ?_,
      fun hempty => congrArg Host.Outcome.next ?_⟩⟩
  · rw [writeData_target hready htarget, if_neg (Nat.not_lt.2 hfull)]
  · rw [writeData_target hready htarget, if_pos hroom, if_neg]
    rw [List.isEmpty_iff_length_eq_zero]
    omega
  · rw [writeData_target hready htarget, hempty]
    rfl

/-! RESULT. -/

/-- Settles O18: the four ends of a read of RESULT. -/
theorem resultRead : Obligations.ResultRead := by
  intro s hready
  have hnot : ¬(!s.window.ready) = true := by rw [hready]; exact Bool.false_ne_true
  refine ⟨fun b hport hresults => congrArg Host.Outcome.next ?_, fun b c rest hport hresults => congrArg Host.Outcome.next ?_,
    fun hport => congrArg Host.Outcome.next ?_⟩
  · rw [readResult, if_neg hnot]
    simp only [hport, hresults]
  · rw [readResult, if_neg hnot]
    simp only [hport, hresults]
  · rw [readResult, if_neg hnot]
    split
    next h _ => exact (hport h).elim
    next h _ => exact (hport h).elim
    next => rfl

end Sys2Proof.Machine
end

section
/-! The Command Port: codes and parameters (R144, R145, R157), the rows as their writes (R183), and the refusal while a command
is executing (R148). -/

namespace Sys2Proof.Machine

open Sys2Proof.Says

theorem writeCommand_executing {s : State} (hready : s.window.ready = true) (hport : s.port.state = .executing)
    (code : Byte) : writeCommand code s = flagged 0x02#8 { s with port := { s.port with collided := true } } := by
  rw [writeCommand, hready, Bool.not_true, if_neg Bool.false_ne_true]
  simp only [hport]
  rfl

/-- R144: a port that takes a code accepts it, after a command that was being collected has been dropped. -/
theorem writeCommand_taking {s : State} (h : Taking s) (code : Byte) :
    writeCommand code s = acceptCode code (begun s) := by
  obtain ⟨hready, hport⟩ := h
  rw [writeCommand, hready, Bool.not_true, if_neg Bool.false_ne_true]
  cases hstate : s.port.state with
  | executing => exact (hport hstate).elim
  | collecting =>
    rw [begun, if_pos hstate]
    rfl
  | idle => rw [begun, if_neg (by rw [hstate]; decide)]
  | results => rw [begun, if_neg (by rw [hstate]; decide)]

theorem ofCode_eq_none {code : Byte} (h : code ∉ commandCodes) : Cmd.ofCode code = none := by
  cases hcode : Cmd.ofCode code with
  | none => rfl
  | some c =>
    rw [← code_of_ofCode hcode] at h
    cases c <;> exact (h (by decide)).elim

/-- R157: TAKE and STORE QUERY alone have no parameter. -/
theorem Cmd.params_ne_zero {c : Cmd} (htake : c ≠ .take) (hquery : c ≠ .storeQuery) : c.params ≠ 0 := by
  cases c with
  | take => exact (htake rfl).elim
  | storeQuery => exact (hquery rfl).elim
  | _ => decide

theorem acceptCode_unknown {code : Byte} (h : Cmd.ofCode code = none) (s : State) :
    acceptCode code s = answered [0x02#8] s := by
  rw [acceptCode, h]
  rfl

theorem acceptCode_collects {c : Cmd} (h : c.params ≠ 0) (s : State) :
    acceptCode c.code s =
      { s with port := { s.port with state := .collecting, staged := some c, staging := [], results := [] } } := by
  rw [acceptCode, ofCode_code]
  exact if_neg h

/-- Settles O14: `writeCommand_executing`, and `writeCommand_taking` with the two ends of an accepted code; the rows of TAKE and
STORE QUERY are their code writes. -/
theorem codeWrite : Obligations.CodeWrite := by
  intro code s hready
  refine ⟨fun hport => ⟨congrArg Host.Outcome.next (writeCommand_executing hready hport code),
      congrArg Host.Outcome.next (writeCommand_executing hready hport code)⟩,
    fun hport hcode => ⟨congrArg Host.Outcome.next ?_, congrArg Host.Outcome.next ?_⟩,
    fun hport c hcode htake hquery => congrArg Host.Outcome.next ?_, fun hcode => ?_, fun hcode => ?_⟩
  · rw [writeCommand_taking ⟨hready, hport⟩, acceptCode_unknown (ofCode_eq_none hcode)]
  · rw [writeCommand_taking ⟨hready, hport⟩, acceptCode_unknown (ofCode_eq_none hcode)]
  · rw [writeCommand_taking ⟨hready, hport⟩, ← hcode, acceptCode_collects (Cmd.params_ne_zero htake hquery)]
  · rw [hcode]
    rfl
  · rw [hcode]
    rfl

/-! Parameters. -/

theorem writeParameter_collecting {s : State} {c : Cmd} (hready : s.window.ready = true)
    (hport : s.port.state = .collecting) (hstaged : s.port.staged = some c) (b : Byte) :
    writeParameter b s =
      if c.params ≤ (s.port.staging ++ [b]).length then carryOut c (s.port.staging ++ [b]) (portExecuting s)
      else { s with port := { s.port with staging := s.port.staging ++ [b] } } := by
  rw [writeParameter, hready, Bool.not_true, if_neg Bool.false_ne_true]
  simp only [hport, hstaged]

theorem writeParameter_stray {s : State} (hready : s.window.ready = true) (hport : s.port.state ≠ .collecting)
    (b : Byte) : writeParameter b s = strayParameter s := by
  rw [writeParameter, hready, Bool.not_true, if_neg Bool.false_ne_true]
  split
  next h _ => exact (hport h).elim
  next => rfl

/-- The port with nothing staged and no result byte, as it stands before a command. -/
def emptied (s : State) : State :=
  { s with port := { s.port with state := .idle, staged := none, staging := [], results := [] } }

/-- Settles O15: `writeParameter_collecting` for a byte that is collected and for the last one, whose command is the row's on an
idle port (`hostCommand_admitted`); any other byte is stray. -/
theorem parameterWrite : Obligations.ParameterWrite := by
  intro b s hready
  refine ⟨fun c hport hstaged hshort => congrArg Host.Outcome.next ?_, fun i code hport hrow hstaged => ?_,
    fun hport => congrArg Host.Outcome.next (writeParameter_stray hready hport b)⟩
  · rw [writeParameter_collecting hready hport hstaged, if_neg]
    rw [List.length_append, List.length_singleton]
    omega
  · obtain ⟨c, hcode, hlength, -, -, hexec⟩ := exec_written hrow
    have hrest : hostCommand c (s.port.staging ++ [b]) (emptied s) =
        carryOut c (s.port.staging ++ [b]) (portExecuting s) :=
      hostCommand_admitted c _ (emptied s) hready (.inl rfl) hlength
    refine Eq.trans (congrArg Host.Outcome.next ?_) (hexec (emptied s)).symm
    rw [hrest, writeParameter_collecting hready hport (hstaged.trans hcode), if_pos hlength.ge]

/-! The rows as their writes. -/

theorem runAll_parameters (ps : List Byte) (s : State) :
    runAll (ps.map Instr.parameterWrite) s = .next (ps.foldl (fun t b => writeParameter b t) s) := by
  induction ps generalizing s with
  | nil => rfl
  | cons b ps ih => exact ih (writeParameter b s)

/-- Settles O16: a row is the host's writing of its command (`exec_written`), whose code is the row's. -/
theorem commandRowsAreTheirWrites : Obligations.CommandRowsAreTheirWrites := by
  intro i code ps s hrow
  obtain ⟨c, hcode, -, -, -, hexec⟩ := exec_written hrow
  rw [hexec, hostCommand, code_of_ofCode hcode]
  exact (runAll_parameters ps (writeCommand code s)).symm

/-! A port that is EXECUTING. -/

/-- R145: once CMDERR stands, parameters written to a port that is EXECUTING leave STRAYPARAM alone. -/
theorem strayParameters {s : State} (hready : s.window.ready = true) (hport : s.port.state = .executing)
    (hflag : s.events.flags ||| 0x02#8 = s.events.flags) (ps : List Byte) :
    ps.foldl (fun t b => writeParameter b t) s =
      { s with port := { s.port with strayParam := s.port.strayParam || decide (ps ≠ []) } } := by
  induction ps generalizing s with
  | nil => simp
  | cons b ps ih =>
    have hstray : writeParameter b s = { s with port := { s.port with strayParam := true } } := by
      rw [writeParameter_stray hready (by rw [hport]; decide)]
      exact congrArg (fun f => { s with port := { s.port with strayParam := true }, events := { s.events with flags := f } })
        hflag
    rw [List.foldl_cons, hstray]
    refine (ih (s := { s with port := { s.port with strayParam := true } }) hready hport hflag).trans ?_
    rw [Bool.true_or, decide_eq_true (List.cons_ne_nil b ps), Bool.or_true]

/-- Settles O17: the code collides (`writeCommand_executing`) and the parameters are stray (`strayParameters`). -/
theorem executingPortRefuses : Obligations.ExecutingPortRefuses := by
  intro i code ps s hrow hready hport
  obtain ⟨c, -, -, -, -, hexec⟩ := exec_written hrow
  have hflag : s.events.flags ||| 0x02#8 ||| 0x02#8 = s.events.flags ||| 0x02#8 := by
    rw [BitVec.or_assoc, BitVec.or_self]
  rw [hexec, hostCommand, writeCommand_executing hready hport]
  exact congrArg Host.Outcome.next
    (strayParameters (s := flagged 0x02#8 { s with port := { s.port with collided := true } }) hready hport hflag ps)

end Sys2Proof.Machine
end

section
/-! Frames (R127). -/

namespace Sys2Proof.Machine

theorem dataBits_length (seven : Bool) (b : Byte) : (dataBits seven b).length = if seven then 7 else 8 := by
  cases seven <;> rfl

/-- R127: the data bits are sent least significant first. -/
theorem dataBits_getD (seven : Bool) (b : Byte) {i : Nat} (h : i < if seven then 7 else 8) (d : Bool) :
    (dataBits seven b).getD i d = b.getLsbD i := by
  cases seven with
  | true =>
    have h : i < 7 := h
    interval_cases i <;> rfl
  | false =>
    have h : i < 8 := h
    interval_cases i <;> rfl

/-- R127: the parity bit makes the ones of the data bits and itself odd, or even. -/
theorem parityBit_count {p : Parity} (h : p ≠ .none) (bits : List Bool) :
    (bits ++ (parityBit p bits).toList).count true % 2 = if p = .odd then 1 else 0 := by
  have hsum (x : Bool) : (bits ++ [x]).count true = bits.count true + x.toNat := by
    cases x <;> simp
  cases p with
  | none => exact (h rfl).elim
  | odd =>
    change (bits ++ [bits.count true % 2 == 0]).count true % 2 = 1
    obtain heven | hodd := Nat.mod_two_eq_zero_or_one (bits.count true)
    · rw [hsum, Nat.add_mod, heven]
      rfl
    · rw [hsum, Nat.add_mod, hodd]
      rfl
  | even =>
    change (bits ++ [bits.count true % 2 == 1]).count true % 2 = 0
    obtain heven | hodd := Nat.mod_two_eq_zero_or_one (bits.count true)
    · rw [hsum, Nat.add_mod, heven]
      rfl
    · rw [hsum, Nat.add_mod, hodd]
      rfl

theorem parityBit_toList_length (p : Parity) (bits : List Bool) :
    (parityBit p bits).toList.length = if p = .none then 0 else 1 := by cases p <;> rfl

/-- R127: the bits of a frame between the start bit and the stop bits. -/
def frameBody (c : SerConfig) (b : Byte) : List Bool :=
  dataBits c.seven b ++ (parityBit c.parity (dataBits c.seven b)).toList

theorem frameLevels_eq (c : SerConfig) (b : Byte) :
    frameLevels c b = false :: (frameBody c b ++ List.replicate (if c.twoStop then 2 else 1) true) := by
  rw [frameLevels, frameBody, List.append_assoc, List.append_assoc, List.append_assoc]
  cases c.twoStop <;> rfl

theorem frameBody_length (c : SerConfig) (b : Byte) :
    (frameBody c b).length = (if c.seven then 7 else 8) + if c.parity = .none then 0 else 1 := by
  rw [frameBody, List.length_append, dataBits_length, parityBit_toList_length]

/-- Settles O54: `frameLevels_eq` cuts a frame into the start bit, its body and the stop bits; the body is the data bits
(`dataBits_getD`) and the parity bit (`parityBit_count`). -/
theorem frameFormat : Obligations.FrameFormat := by
  intro c b d p f
  have hbody : (frameBody c b).length = d + p := frameBody_length c b
  have hf : f = false :: (frameBody c b ++ List.replicate (if c.twoStop then 2 else 1) true) := frameLevels_eq c b
  refine ⟨?_, ?_, fun i hi => ?_, fun hparity => ?_, fun i hi => ?_, fun u => ⟨fun hrest => ?_, fun hshift => ?_⟩⟩
  · rw [hf, List.length_cons, List.length_append, List.length_replicate, hbody]
    omega
  · rw [hf, List.getD_cons_zero]
  · rw [hf, Nat.add_comm, List.getD_cons_succ, List.getD_append _ _ _ _ (by omega), frameBody,
      List.getD_append _ _ _ _ (by rw [dataBits_length]; exact hi), dataBits_getD _ _ hi]
  · have hp : p = 1 := if_neg hparity
    rw [hf, List.drop_one, List.tail_cons, List.take_append_of_le_length (by omega), List.take_of_length_le (by omega)]
    exact parityBit_count hparity _
  · obtain ⟨k, rfl⟩ : ∃ k, i = k + 1 := ⟨i - 1, by omega⟩
    rw [hf, List.getD_cons_succ, List.getD_append_right _ _ _ _ (by omega), List.getD_eq_getElem?_getD,
      List.getElem?_getD_replicate_default_eq]
  · rw [yTxd]
    cases h : u.transmit with
    | shifting => exact (hrest h).elim
    | rest => rfl
    | waiting => rfl
  · rw [yTxd, hshift]

end Sys2Proof.Machine
end

section
/-! A CLK period (log 7). -/

namespace Sys2Proof.Machine

open Sys2Proof.Says

-- One after another: side by side the proofs would each wait in a thread of their own.
set_option Elab.async false

theorem step_empty {s : State} (h : s.pending = []) : step s = .next (clkPeriod s) := by
  simp only [step, h]

/-! What counts and ends in it. -/

/-- R124: a level is in the snapshot after the second period for which it is held. -/
theorem sampleRxd_eq (y : Fin 2) (s : State) : sampleRxd y s = setSer y (
    let u := serAt s y
    if u.pins.rxd = u.snapshot.rxd then { u with rxdClks := 0 }
    else if u.rxdClks = 0 then { u with rxdClks := 1 }
    else { u with snapshot := { u.snapshot with rxd := u.pins.rxd }, rxdClks := 0 }) s := by
  by_cases hlevel : (serAt s y).pins.rxd = (serAt s y).snapshot.rxd
  · simp only [sampleRxd, if_pos hlevel]
  · by_cases hclks : (serAt s y).rxdClks = 0
    · simp only [sampleRxd, if_neg hlevel, hclks]
      rfl
    · have hdue : ¬(serAt s y).rxdClks + 1 < Config.sampleClks := fun h => hclks (Nat.lt_one_iff.1 (Nat.lt_of_succ_lt_succ h))
      simp only [sampleRxd, if_neg hlevel, if_neg hclks, if_neg hdue]

/-- R156: the CLK periods of a tick. -/
theorem tickClks_eq (n : Byte) : Config.tickClks n = (if n = 0#8 then 256 else n.toNat) * 64 := by
  have hzero : n.toNat = 0 ↔ n = 0#8 := (BitVec.toNat_eq (y := 0#8)).symm
  simp only [Config.tickClks, hzero]

/-- R119: the CLK periods of the strobe, by its code. -/
theorem strobeClks_eq (code : Fin 4) :
    Config.strobeClks code = match code.val with | 0 => 8 | 1 => 16 | 2 => 32 | _ => 64 := by
  fin_cases code <;> rfl

/-- R127: the BCLK periods of a bit, by the rate code. -/
theorem bitBclks_eq (rate : Fin 8) :
    Config.bitBclks rate = match rate.val with
      | 0 => 6144 | 1 => 3072 | 2 => 1536 | 3 => 768 | 4 => 384 | 5 => 192 | 6 => 96 | _ => 48 := by
  fin_cases rate <;> rfl

theorem clkTimeBase_eq (s : State) : clkTimeBase s =
    if s.timeBase.count + 1 < (if s.timeBase.setting = 0#8 then 256 else s.timeBase.setting.toNat) * 64 then
      { s with timeBase := { s.timeBase with count := s.timeBase.count + 1 } }
    else after .tick s := by
  rw [clkTimeBase, tickClks_eq]
  rfl

theorem clkBuild_eq {s : State} (hreset : inReset s = false) : clkBuild s =
    if s.window.ready then s
    else if s.window.buildClks + 1 < 512 then { s with window := { s.window with buildClks := s.window.buildClks + 1 } }
    else after .startUpBuildEnd s := by
  rw [clkBuild, building, hreset, Bool.not_false, Bool.and_true]
  cases s.window.ready <;> rfl

theorem clkBuild_of_ready {s : State} (h : s.window.ready = true) : clkBuild s = s := by
  rw [clkBuild, building, h, Bool.not_true, Bool.false_and, if_neg Bool.false_ne_true]

/-- R104, R115: the expiries of the lines' timers, each as the row of its event. -/
theorem clkTimers_eq (s : State) : clkTimers s =
    ([.holdTimerExpiry 0, .starveTimerExpiry 0, .holdTimerExpiry 1, .starveTimerExpiry 1, .holdTimerExpiry 2,
      .starveTimerExpiry 2, .holdTimerExpiry 3, .starveTimerExpiry 3, .ackTimerExpiry 0, .ackTimerExpiry 1] : List Instr).foldl
      (fun t c => after c t) s := by
  have hhold (l : Fin 4) (t : State) : after (.holdTimerExpiry l) t = expireHold l t := rfl
  have hstarve (l : Fin 4) (t : State) : after (.starveTimerExpiry l) t = expireStarve l t := rfl
  have hack (x : Fin 2) (t : State) : after (.ackTimerExpiry x) t = expireAck x t := rfl
  simp only [List.foldl_cons, List.foldl_nil, hhold, hstarve, hack, clkTimers]

theorem countHandshake_eq (x : Fin 2) (s : State) : countHandshake x s =
    if (parAt s x).handshake ∈ [.setup, .strobe, .trail] then
      setPar x { parAt s x with phaseClks := (parAt s x).phaseClks + 1 } s else s := by
  unfold countHandshake
  simp only
  cases (parAt s x).handshake <;> rfl

theorem clkHandshake_eq (x : Fin 2) (s : State) :
    let u := parAt s x
    let strobe := match u.config.strobeCode.val with | 0 => 8 | 1 => 16 | 2 => 32 | _ => 64
    clkHandshake x s =
      if u.handshake = .setup then (if u.phaseClks < 4 then s else after (.setupEnd x) s)
      else if u.handshake = .strobe then (if u.phaseClks < strobe then s else after (.strobeEnd x) s)
      else if u.handshake = .trail then (if u.phaseClks < 4 then s else after (.trailEnd x) s)
      else s := by
  intro u strobe
  have hstrobe : strobe = Config.strobeClks u.config.strobeCode := (strobeClks_eq _).symm
  unfold clkHandshake
  rw [hstrobe]
  simp only [u]
  cases (parAt s x).handshake <;> rfl

/-- R127: the bit and the BCLK periods passed in it, after `n` more. -/
theorem countFrame_eq (y : Fin 2) (n : Nat) (s : State) :
    let u := serAt s y
    let bit := match u.config.rate.val with
      | 0 => 6144 | 1 => 3072 | 2 => 1536 | 3 => 768 | 4 => 384 | 5 => 192 | 6 => 96 | _ => 48
    let passed := u.bitIndex * bit + u.bitClks + n
    countFrame y n s = if u.transmit = .shifting then
      setSer y { u with bitIndex := passed / bit, bitClks := passed % bit } s else s := by
  intro u bit passed
  have hbit : Config.bitBclks (serAt s y).config.rate = bit := bitBclks_eq _
  simp only [countFrame, hbit]
  rfl

/-! A period in which nothing is under way. -/

/-- No byte, frame, level or timer is under way. -/
structure Dormant (s : State) : Prop where
  timers : ∀ l, (engineAt s l).hold = none ∧ (engineAt s l).starve = none
  par : ∀ x, (parAt s x).handshake = .rest ∧ (parAt s x).ack = none
  ser : ∀ y, (serAt s y).transmit = .rest ∧ (serAt s y).pins.rxd = (serAt s y).snapshot.rxd ∧ (serAt s y).rxdClks = 0

theorem Dormant.sampleRxd {s : State} (h : Dormant s) (y : Fin 2) : Machine.sampleRxd y s = s := by
  obtain ⟨-, hlevel, hclks⟩ := h.ser y
  simp only [sampleRxd_eq, if_pos hlevel]
  rw [← hclks]
  exact setSer_serAt y s

theorem Dormant.countHandshake {s : State} (h : Dormant s) (x : Fin 2) : Machine.countHandshake x s = s := by
  rw [countHandshake_eq, (h.par x).1]
  rfl

theorem Dormant.clkHandshake {s : State} (h : Dormant s) (x : Fin 2) : Machine.clkHandshake x s = s := by
  rw [clkHandshake_eq, (h.par x).1]
  rfl

theorem Dormant.countFrame {s : State} (h : Dormant s) (y : Fin 2) (n : Nat) : Machine.countFrame y n s = s := by
  rw [countFrame_eq, (h.ser y).1]
  rfl

theorem Dormant.clkFrame {s : State} (h : Dormant s) (y : Fin 2) : Machine.clkFrame y s = s := by
  simp only [Machine.clkFrame, (h.ser y).1, reduceCtorEq, false_and, if_false]

theorem Dormant.expireHold {s : State} (h : Dormant s) (l : Fin 4) : Machine.expireHold l s = s := by
  simp only [Machine.expireHold, (h.timers l).1, timerDue, Bool.and_false, Bool.false_eq_true, if_false]

theorem Dormant.expireStarve {s : State} (h : Dormant s) (l : Fin 4) : Machine.expireStarve l s = s := by
  simp only [Machine.expireStarve, (h.timers l).2, timerDue, Bool.and_false, Bool.false_eq_true, if_false]

theorem Dormant.expireAck {s : State} (h : Dormant s) (x : Fin 2) : Machine.expireAck x s = s := by
  simp only [Machine.expireAck, (h.par x).2, timerDue, Bool.false_eq_true, if_false]

theorem Dormant.clkTimers {s : State} (h : Dormant s) : Machine.clkTimers s = s := by
  simp only [Machine.clkTimers, h.expireHold, h.expireStarve, h.expireAck]

theorem Dormant.clkPeriod {s : State} (h : Dormant s) (hreset : inReset s = false) (hready : s.window.ready = true)
    (htick : s.timeBase.count + 1 < (if s.timeBase.setting = 0#8 then 256 else s.timeBase.setting.toNat) * 64) :
    Machine.clkPeriod s =
      { s with fresh := s.fresh + 1, timeBase := { s.timeBase with count := s.timeBase.count + 1 } } := by
  have hdrawn : Dormant { s with fresh := s.fresh + 1 } := { h with }
  have hcounted : Dormant
      { s with fresh := s.fresh + 1, timeBase := { s.timeBase with count := s.timeBase.count + 1 } } := { h with }
  simp only [Machine.clkPeriod, hreset, Bool.false_eq_true, if_false, hdrawn.sampleRxd, hdrawn.countHandshake,
    hdrawn.countFrame, clkTimeBase_eq, if_pos htick, hcounted.clkTimers, clkBuild_of_ready, hready,
    hcounted.clkHandshake, hcounted.clkFrame]

/-- Settles O2: an empty queue is `clkPeriod`; each clock of it is its equation above, and with nothing under way only the Time
Base counts (`Dormant.clkPeriod`). -/
theorem emptyQueueLetsOneClkPeriodPass : Obligations.EmptyQueueLetsOneClkPeriodPass := by
  refine ⟨fun s hqueue hreset => ?_, fun s hqueue hreset => ?_, sampleRxd_eq, clkTimeBase_eq, clkTimers_eq,
    fun s => clkBuild_eq, fun x s => ⟨countHandshake_eq x s, clkHandshake_eq x s⟩,
    fun y n s => ⟨countFrame_eq y n s, rfl⟩, fun s hqueue hreset hready htimers hpar hser htick => ?_⟩
  · rw [step_empty hqueue, clkPeriod, if_pos hreset]
  · rw [step_empty hqueue, clkPeriod, hreset, if_neg Bool.false_ne_true]
  · rw [step_empty hqueue, Dormant.clkPeriod ⟨htimers, hpar, hser⟩ hreset hready htick]

end Sys2Proof.Machine
end

section
/-! Retirement in the words of the statements (R16): its seven steps in one state, and the accesses that end before it (R39). -/

namespace Sys2Proof.Machine

open Sys2Proof.Says

-- One after another: side by side the proofs would each wait in a thread of their own.
set_option Elab.async false

theorem setTab_setTab {α : Type} {n : Nat} (v : Vector α n) (i : Fin n) (x y : α) :
    setTab (setTab v i x) i y = setTab v i y := by
  rw [setTab, setTab, setTab, Vector.set_set]

theorem setJob_setJob (j : Fin 16) (r q : Job) (s : State) : setJob j q (setJob j r s) = setJob j q s :=
  congrArg (fun v => { s with jobs := v }) (setTab_setTab s.jobs j _ _)

theorem setEngine_setEngine (l : Fin 4) (e f : Engine) (s : State) : setEngine l f (setEngine l e s) = setEngine l f s :=
  congrArg (fun v => { s with engines := v }) (setTab_setTab s.engines l e f)

/-! The scan. -/

theorem leBytes_two (n : Nat) : leBytes 2 n = [one n, one (n / 256)] := rfl

/-- R43, R183: the results of a scan, as the statements write them. -/
theorem verifyBytes_eq (v : Verify) : verifyBytes v = scanResults v := by
  rw [verifyBytes, scanResults, leBytes_two]
  cases v.firstBad <;> rfl

theorem endScan_eq (c : Code) (s : State) :
    endScan c s =
      answered (codeByte c :: scanResults s.verify) { s with verify := { s.verify with running := false } } := by
  rw [endScan, verifyBytes_eq]
  rfl

theorem endScanOf_eq (j : Fin 16) (s : State) : endScanOf j s = scanGone j s := by
  rw [endScanOf, scanGone]
  simp only [Bool.and_eq_true, decide_eq_true_eq, endScan_eq]
  rfl

theorem satSucc_eq (top n : Nat) : satSucc top n = if n < top then n + 1 else n := rfl

/-- R41: a read of the scan is counted as the statements say it. -/
theorem countRead_eq (err : Bool) (s : State) : countRead err s = scanRead err s := by
  cases err with
  | false => rfl
  | true =>
    cases hbad : s.verify.firstBad with
    | some b =>
      simp only [countRead, scanRead, hbad, satSucc_eq, Bool.true_and, decide_eq_true_eq, Option.isNone_some, Bool.false_and]
      rfl
    | none =>
      cases hpos : s.verify.pos with
      | none =>
        simp only [countRead, scanRead, hbad, hpos, satSucc_eq, Bool.true_and, decide_eq_true_eq, Option.isSome_none,
          Bool.and_false]
        rfl
      | some p =>
        simp only [countRead, scanRead, hbad, hpos, satSucc_eq, Bool.true_and, decide_eq_true_eq]
        rfl

/-! The accesses that end first. -/

theorem endAccessOf_noAccess {j : Fin 16} {s : State} (h : NoAccessOf j s) : endAccessOf j s = s := by
  obtain ⟨hintake, hverify⟩ := h
  unfold endAccessOf
  split
  next k haccess =>
    split
    next e es hfifo =>
      obtain ⟨i, b⟩ := e
      refine if_neg fun hj => hintake k b es haccess ?_
      rw [hfifo, show i = j from hj]
    · rfl
  next err haccess => exact if_neg (hverify err haccess)
  · rfl
  · rfl

theorem endAccessOf_scan {j : Fin 16} {s : State} {err : Bool} (haccess : s.spool.access = some (.verify err))
    (hjob : s.verify.job = j) : endAccessOf j s = scanRead err s := by
  rw [endAccessOf, haccess, ← countRead_eq]
  exact if_pos hjob

/-! The blocks, the queue and the hand-over. -/

/-- R36: the blocks join the tail of the Free List in their order, and their links become none. -/
theorem releaseAll_eq (bs : List (Fin 128)) (s : State) :
    releaseAll bs s = { s with spool := { s.spool with
      freeList := s.spool.freeList ++ bs, links := bs.foldl (fun v b => setTab v b none) s.spool.links } } := by
  induction bs generalizing s with
  | nil => rw [releaseAll, List.append_nil, List.foldl_nil]
  | cons b bs ih =>
    rw [releaseAll, ih, List.foldl_cons]
    simp only [releaseBlock, setLink, List.append_assoc, List.singleton_append]

/-- R135: a job that has ended is handed over: its record joins a queue that has room, and it waits for one that is full. -/
theorem handOver_eq {s : State} {j : Fin 16} {r : Job} {o : JobOutcome} (hjob : jobAt s j = some r)
    (hout : r.outcome = some o) :
    handOver j s =
      if s.completion.queue.length < 8 then
        flagged 0x04#8 (setJob j { r with posted := true } { s with
          completion := { queue := s.completion.queue ++ [recordFor s.completion.seq j r o r.cause],
                          postWait := s.completion.postWait, seq := s.completion.seq + 1#8 } })
      else { s with completion := { s.completion with postWait := s.completion.postWait ++ [j] } } := by
  rw [handOver, post_eq hjob hout]
  rfl

/-! The seven steps. -/

/-- R16, steps 1 to 6: all of retirement but the hand-over. -/
def ended (j : Fin 16) (r : Job) (o : JobOutcome) (c : Cause) (s : State) : State :=
  let blocks := chainOf s r
  let s := purge j s
  let s := { s with intake.target := if s.intake.target = some j then none else s.intake.target }
  let s := match r.output with
    | .queued => leaveQueue r.line j s
    | .current => setEngine r.line { engineAt s r.line with current := none } s
    | .pending => s
    | .finished => s
  let s := releaseAll blocks s
  setJob j { r with outcome := some o, cause := c, intake := .closed, output := .finished, head := none, tail := none,
                    tailFill := 0, chainLen := 0, cancelPending := false, posted := false } s

theorem retireNow_eq_handOver (j : Fin 16) (r : Job) (o : JobOutcome) (c : Cause) (s : State) :
    retireNow j r o c s = handOver j (endScanOf j (ended j r o c s)) := rfl

theorem purge_eq (j : Fin 16) (s : State) :
    purge j s = { s with intake := { s.intake with
      fifo := s.intake.fifo.filter (fun e => e.1 ≠ j)
      headReq := if s.intake.fifo.head?.map Prod.fst = some j then .none else s.intake.headReq } } := by
  rw [purge]
  cases s.intake.fifo with
  | nil => rfl
  | cons e es =>
    simp only [List.head?_cons, Option.map_some, Option.some.injEq, beq_iff_eq]

/-- The record of a job that has ended and is not posted yet. -/
def endedJob (r : Job) (o : JobOutcome) (c : Cause) : Job :=
  { r with outcome := some o, cause := c, intake := .closed, output := .finished, head := none, tail := none,
           tailFill := 0, chainLen := 0, cancelPending := false, posted := false }

/-- R16: the first six steps as one change of the tables. -/
theorem ended_eq (j : Fin 16) (r : Job) (o : JobOutcome) (c : Cause) (s : State) :
    ended j r o c s = { s with
      jobs := setTab s.jobs j (some (endedJob r o c))
      intake := { s.intake with
        fifo := s.intake.fifo.filter (fun e => e.1 ≠ j)
        target := if s.intake.target = some j then none else s.intake.target
        headReq := if s.intake.fifo.head?.map Prod.fst = some j then .none else s.intake.headReq }
      queues := if r.output = .queued then setTab s.queues r.line (without j (queueAt s r.line)) else s.queues
      engines := if r.output = .current then setTab s.engines r.line { engineAt s r.line with current := none } else s.engines
      spool := { s.spool with
        freeList := s.spool.freeList ++ chainOf s r
        links := (chainOf s r).foldl (fun v b => setTab v b none) s.spool.links } } := by
  simp only [ended, purge_eq, releaseAll_eq]
  cases r.output <;> rfl

theorem chainFrom_congr {s t : State} (h : t.spool.links = s.spool.links) (n : Nat) (b : Option (Fin 128)) :
    chainFrom t n b = chainFrom s n b := by
  induction n generalizing b with
  | zero => rfl
  | succ n ih =>
    cases b with
    | none => rfl
    | some b => rw [chainFrom, chainFrom, ih, linkAt, linkAt, h]

/-- A chain is read from the links alone. -/
theorem chainOf_congr {s t : State} (h : t.spool.links = s.spool.links) (r : Job) : chainOf t r = chainOf s r :=
  chainFrom_congr h _ _

theorem scanGone_spool (j : Fin 16) (s : State) : (scanGone j s).spool = s.spool := by
  unfold scanGone
  split <;> rfl

/-- R44: the scan of the job ends with the same results before and after the six steps, which leave the Verify Unit alone. -/
theorem ended_scanGone (j : Fin 16) (r : Job) (o : JobOutcome) (c : Cause) (s : State) :
    ended j r o c (scanGone j s) = scanGone j (ended j r o c s) := by
  rw [ended_eq, ended_eq, chainOf_congr (congrArg Spool.links (scanGone_spool j s))]
  by_cases hscan : s.verify.running = true ∧ s.verify.job = j
  · simp only [scanGone, if_pos hscan]
    rfl
  · simp only [scanGone, if_neg hscan]

theorem handOver_ended (j : Fin 16) (r : Job) (o : JobOutcome) (c : Cause) (s : State) :
    handOver j (ended j r o c (scanGone j s)) = retired j r o c s := by
  have hjob (t : State) : jobAt (ended j r o c t) j = some (endedJob r o c) := by
    rw [ended_eq]
    exact tab_setTab_same t.jobs j _
  rw [handOver_eq (hjob _) rfl, ended_eq]
  by_cases hroom : (scanGone j s).completion.queue.length < 8
  · simp only [retired, hroom, if_true, decide_true, setJob, setTab_setTab]
    rfl
  · simp only [retired, hroom, if_false, decide_false, Bool.false_eq_true]
    rfl

/-- R16: retirement with no access of the job in progress is the one act of the statements. -/
theorem retireNow_eq (j : Fin 16) (r : Job) (o : JobOutcome) (c : Cause) (s : State) :
    retireNow j r o c s = retired j r o c s := by
  rw [retireNow_eq_handOver, endScanOf_eq, ← ended_scanGone, handOver_ended]

theorem retire_eq {s : State} {j : Fin 16} {r : Job} (hjob : jobAt s j = some r) (hfree : NoAccessOf j s)
    (o : JobOutcome) (c : Cause) : retire j o c s = retired j r o c s := by
  simp only [retire, endAccessOf_noAccess hfree, hjob, retireNow_eq]

/-- R44: a read of a scan of the job ends first, and is counted. -/
theorem retire_scanned {s : State} {j : Fin 16} {r : Job} {err : Bool} (hjob : jobAt s j = some r)
    (haccess : s.spool.access = some (.verify err)) (hscan : s.verify.job = j) (o : JobOutcome) (c : Cause) :
    retire j o c s = retired j r o c (scanRead err s) := by
  have hjob' : jobAt (scanRead err s) j = some r := hjob
  simp only [retire, endAccessOf_scan haccess hscan, hjob', retireNow_eq]

/-- Settles O50: `retire_eq` and `retire_scanned`. -/
theorem retirement : Obligations.Retirement := fun _ _ o c _ hjob =>
  ⟨fun hfree => retire_eq hjob hfree o c, fun _ haccess hscan => retire_scanned hjob haccess hscan o c⟩

end Sys2Proof.Machine
end

section
/-! The operations of the lines, the queues and the scan in the words of the statements. -/

namespace Sys2Proof.Machine

open Sys2Proof.Says

-- One after another: side by side the proofs would each wait in a thread of their own.
set_option Elab.async false

/-! What the start of a command leaves as it was. -/

@[simp] theorem engineAt_begun (s : State) (l : Fin 4) : engineAt (begun s) l = engineAt s l := by
  unfold begun; split <;> rfl

@[simp] theorem queueAt_begun (s : State) (l : Fin 4) : queueAt (begun s) l = queueAt s l := by
  unfold begun; split <;> rfl

@[simp] theorem parAt_begun (s : State) (x : Fin 2) : parAt (begun s) x = parAt s x := by
  unfold begun; split <;> rfl

@[simp] theorem serAt_begun (s : State) (y : Fin 2) : serAt (begun s) y = serAt s y := by
  unfold begun; split <;> rfl

@[simp] theorem begun_queues (s : State) : (begun s).queues = s.queues := by unfold begun; split <;> rfl

@[simp] theorem currentJob_begun (s : State) (l : Fin 4) : currentJob (begun s) l = currentJob s l := by
  unfold begun; split <;> rfl

@[simp] theorem pausesNow_begun (s : State) (l : Fin 4) : pausesNow (begun s) l = pausesNow s l := by
  unfold begun; split <;> rfl

/-- R158: two commands on a job are the same where they do the same on its record. -/
theorem onJob_congr {b : Byte} {s : State} {k k' : Fin 16 → Job → State}
    (h : ∀ j r, jobAt s j = some r → k j r = k' j r) : onJob b s k = onJob b s k' := by
  unfold onJob
  split
  · rfl
  · cases hjob : jobAt s (Fin.ofNat 16 b.toNat) with
    | none => rfl
    | some r => exact h _ r hjob

/-! Lines. -/

/-- A withdrawal changes a unit, and no engine. -/
theorem withdraw_setEngine (l k : Fin 4) (e : Engine) (s : State) :
    withdraw l (setEngine k e s) = setEngine k e (withdraw l s) := by
  cases hunit : unitOf l with
  | par x =>
    simp only [withdraw, hunit]
    exact (apply_ite (setEngine k e) ((parAt s x).handshake = .waiting)
      (setPar x { parAt s x with handshake := .rest } s) s).symm
  | ser y =>
    simp only [withdraw, hunit]
    exact (apply_ite (setEngine k e) ((serAt s y).transmit = .waiting)
      (setSer y { serAt s y with transmit := .rest } s) s).symm

theorem clearCycle_eq (l : Fin 4) (s : State) :
    clearCycle l s =
      setEngine l { engineAt s l with step := .boundary, fetched := none, hold := none, starve := none } (withdraw l s) :=
  withdraw_setEngine l l _ s

/-- R93: the entry into FAULT. -/
theorem enterFault_eq (l : Fin 4) (c : Cause) (s : State) : enterFault l c s = faulted l c s := by
  simp only [enterFault, clearCycle_eq, setEngine_setEngine, engineAt_setEngine, if_true]
  rfl

/-- R91: the line pauses where it can at once. -/
theorem pauseLine_eq (l : Fin 4) (s : State) : pauseLine l s = if pausesNow s l then paused l s else s := by
  have hpause : setEngine l { engineAt (clearCycle l s) l with state := .paused } (clearCycle l s) = paused l s := by
    rw [clearCycle_eq, engineAt_setEngine, if_pos rfl, setEngine_setEngine]
    rfl
  have hnow : pausesNow s l = (match (engineAt s l).state, (engineAt s l).step with
      | .starved, _ => true
      | .sending, .waiting => true
      | .sending, .fetching =>
        (match s.spool.access with
        | some (.drain k _) => decide (k ≠ l)
        | _ => true)
      | _, _ => false) := by
    unfold pausesNow
    cases (engineAt s l).state with
    | sending =>
      cases (engineAt s l).step with
      | fetching =>
        cases s.spool.access with
        | none => rfl
        | some a =>
          cases a with
          | intake k => rfl
          | verify err => rfl
          | drain k err => cases err <;> simp
      | _ => rfl
    | _ => rfl
  rw [hnow, ← hpause]
  rfl

/-- R92: the line resumes when both reasons to pause are gone. -/
theorem resumeLine_eq (l : Fin 4) (s : State) :
    resumeLine l s =
      if (engineAt s l).state = .paused ∧ (engineAt s l).stop = false ∧ currentUnheld s l = true then
        decideLine l (sendingAt l s)
      else s := by
  unfold resumeLine currentUnheld
  cases currentJob s l with
  | none => simp
  | some jr => simp only [Bool.and_eq_true, decide_eq_true_eq, Bool.not_eq_true', and_assoc]; rfl

/-- R89: the starvation of a line on its job ends. -/
theorem endStarvation_eq (l : Fin 4) (j : Fin 16) (s : State) :
    endStarvation l j s =
      if (engineAt s l).state = .starved ∧ (engineAt s l).current = some j then
        decideLine l (setEngine l { engineAt s l with state := .sending, step := .boundary, starve := none } s)
      else s := by
  simp only [endStarvation, Bool.and_eq_true, decide_eq_true_eq]

/-- R9, R61, R89: the change of a job's intake phase to CLOSED. -/
theorem becomeClosed_eq {s : State} {j : Fin 16} {r : Job} (hjob : jobAt s j = some r) :
    becomeClosed j s =
      if r.output = .pending then
        decideLine r.line (queuedLast r.line r.urgent j (setJob j { r with intake := .closed, output := .queued } s))
      else
        let u := setJob j { r with intake := .closed } s
        let e := engineAt s r.line
        if r.output = .current ∧ e.state = .starved ∧ e.current = some j then
          decideLine r.line (setEngine r.line { e with state := .sending, step := .boundary, starve := none } u)
        else u := by
  simp only [becomeClosed, hjob, joinTail_eq_queuedLast, endStarvation_eq]
  cases r.output with
  | pending => simp only [if_true]
  | current =>
    simp only [reduceCtorEq, if_false, true_and]
    rfl
  | queued => simp only [reduceCtorEq, if_false, false_and]
  | finished => simp only [reduceCtorEq, if_false, false_and]

/-! The scan. -/

/-- R42: a scan that is marked moved goes to the head block; one that is not stays where it is. -/
theorem moved_eq (v : Verify) (r : Job) :
    (if v.moved = true then { v with pos := chainStart r, moved := false } else v) =
      { v with pos := if v.moved then chainStart r else v.pos, moved := false } := by
  cases hmoved : v.moved with
  | true => rfl
  | false =>
    simp only [Bool.false_eq_true, if_false]
    rw [← hmoved]

/-- R41 to R43: the scan's next step, with no read in progress. -/
theorem scanStep_eq {s : State} {r : Job} (hread : ∀ err, s.spool.access ≠ some (.verify err))
    (hrunning : s.verify.running = true) (hjob : jobAt s s.verify.job = some r) :
    scanStep s =
      let v := { s.verify with pos := if s.verify.moved then chainStart r else s.verify.pos, moved := false }
      if atStoredEnd s r v.pos then
        answered (0x01#8 :: scanResults v) { s with verify := { v with running := false } }
      else { s with verify := v } := by
  unfold scanStep
  split
  next err haccess => exact (hread err haccess).elim
  next =>
    rw [hrunning, Bool.not_true, if_neg Bool.false_ne_true]
    simp only [hjob, endScan_eq, moved_eq]
    rfl

end Sys2Proof.Machine
end

section
/-! Commands on jobs: TARGET (R160), CLOSE (R161), HOLD and RELEASE (R163, R164), MOVE (R165) and VERIFY (R166). -/

namespace Sys2Proof.Machine

open Sys2Proof.Says

-- One after another: side by side the proofs would each wait in a thread of their own.
set_option Elab.async false

/-! TARGET. -/

theorem exec_target {job : Byte} {s : State} (h : Taking s) :
    exec (.target job) s = .next (actTarget job (portExecuting (begun s))) :=
  congrArg Host.Outcome.next (hostCommand_taking h .target [job] rfl)

theorem actTarget_portExecuting (job : Byte) (s : State) :
    let aim := fun x : Option (Fin 16) => answered [0x01#8] { s with intake := { s.intake with target := x } }
    actTarget job (portExecuting s) =
      if job = 0xFF#8 then aim none
      else onJob job s fun j r => if r.intake = .opened then aim (some j) else answered [0x05#8] s := by
  intro aim
  rw [actTarget, withJob_portExecuting]
  simp only [ite_not]
  rfl

/-- Settles O21: `actTarget_portExecuting`. -/
theorem targetCommand : Obligations.TargetCommand := by
  intro job s htaking aim
  rw [exec_target htaking, actTarget_portExecuting, begun_intake]
  exact ⟨fun hff => congrArg Host.Outcome.next (if_pos hff), fun hff => congrArg Host.Outcome.next (if_neg hff)⟩

/-! CLOSE. -/

theorem exec_closeJob {job : Byte} {s : State} (h : Taking s) :
    exec (.closeJob job) s = .next (actClose job (portExecuting (begun s))) :=
  congrArg Host.Outcome.next (hostCommand_taking h .closeJob [job] rfl)

/-- R7, R60: an accepted CLOSE of a job, `t` being the state in which the target is cleared and the command has ended. -/
theorem actClose_portExecuting (job : Byte) (s : State) :
    actClose job (portExecuting s) = onJob job s fun j r =>
      if r.intake ≠ .opened then answered [0x05#8] s
      else
        let t := answered [0x01#8] { s with
          intake := { s.intake with target := if s.intake.target = some j then none else s.intake.target } }
        if hasEntry t j then setJob j { r with intake := .closing } t else evalIntake (becomeClosed j t) :=
  withJob_portExecuting job s _

/-- Settles O22: `actClose_portExecuting`, and for a job without an entry the change to CLOSED (`becomeClosed_eq`). -/
theorem closeCommand : Obligations.CloseCommand := by
  intro job s htaking
  rw [exec_closeJob htaking, actClose_portExecuting]
  refine congrArg Host.Outcome.next (onJob_congr fun j r hjob => ?_)
  have hclosed (t : State) (ht : jobAt t j = some r) : evalIntake (becomeClosed j t) =
      if r.output = .pending then
        goesOn r.line (queuedLast r.line r.urgent j (setJob j { r with intake := .closed, output := .queued } t))
      else
        let u := setJob j { r with intake := .closed } t
        let e := engineAt t r.line
        if r.output = .current ∧ e.state = .starved ∧ e.current = some j then
          goesOn r.line (setEngine r.line { e with state := .sending, step := .boundary, starve := none } u)
        else evalIntake u := by
    rw [becomeClosed_eq ht, apply_ite evalIntake]
    refine if_congr Iff.rfl rfl ?_
    exact apply_ite evalIntake _ _ _
  rw [← engineAt_begun s, ← begun_intake s]
  exact if_congr Iff.rfl rfl (if_congr Iff.rfl rfl (hclosed _ hjob))

/-! HOLD and RELEASE. -/

theorem exec_hold {job : Byte} {s : State} (h : Taking s) :
    exec (.hold job) s = .next (actHold job (portExecuting (begun s))) :=
  congrArg Host.Outcome.next (hostCommand_taking h .hold [job] rfl)

theorem exec_release {job : Byte} {s : State} (h : Taking s) :
    exec (.release job) s = .next (actRelease job (portExecuting (begun s))) :=
  congrArg Host.Outcome.next (hostCommand_taking h .release [job] rfl)

theorem actHold_portExecuting (job : Byte) (s : State) :
    actHold job (portExecuting s) = onJob job s fun j r =>
      if r.output = .finished then answered [0x05#8] s
      else if r.held then answered [0x01#8] s
      else
        let t := answered [0x01#8] (setJob j { r with held := true } s)
        if r.output = .current then pauseLine r.line t else t :=
  withJob_portExecuting job s _

/-- R12: what follows in the line of a job that is held no longer. -/
theorem actRelease_portExecuting (job : Byte) (s : State) :
    actRelease job (portExecuting s) = onJob job s fun j r =>
      if r.output = .finished then answered [0x05#8] s
      else if !r.held then answered [0x01#8] s
      else
        let t := answered [0x01#8] (setJob j { r with held := false } s)
        match r.output with
        | .queued => goesOn r.line t
        | .current => evalIntake (resumeLine r.line t)
        | .pending => t
        | .finished => t :=
  withJob_portExecuting job s _

/-- Settles O24: HOLD pauses the line of a current job (`pauseLine_eq`), and RELEASE resumes it (`resumeLine_eq`). -/
theorem holdAndRelease : Obligations.HoldAndRelease := by
  refine ⟨fun job s htaking => ?_, fun job s htaking => ?_⟩
  · rw [exec_hold htaking, actHold_portExecuting]
    refine congrArg Host.Outcome.next (onJob_congr fun j r hjob => ?_)
    refine if_congr Iff.rfl rfl (if_congr Iff.rfl rfl ?_)
    rw [← pausesNow_begun s]
    exact (if_congr Iff.rfl (pauseLine_eq r.line _) rfl).trans (ite_and ..).symm
  · rw [exec_release htaking, actRelease_portExecuting]
    refine congrArg Host.Outcome.next (onJob_congr fun j r hjob => ?_)
    simp only [Bool.not_eq_true', resumeLine_eq, apply_ite evalIntake]
    rw [← engineAt_begun s]
    cases r.output <;> rfl

/-! MOVE. -/

theorem exec_move {job line : Byte} {s : State} (h : Taking s) :
    exec (.move job line) s = .next (actMove job line (portExecuting (begun s))) :=
  congrArg Host.Outcome.next (hostCommand_taking h .move [job, line] rfl)

theorem joinHead_eq_queuedFirst (l : Fin 4) (urgent : Bool) (j : Fin 16) (s : State) :
    joinHead l urgent j s = queuedFirst l urgent j s := by
  cases urgent <;> rfl

/-- R15, R68, R100: a current job leaves its line for the head of its class on another. -/
theorem moveCurrent_portExecuting (j : Fin 16) (r : Job) (l : Fin 4) (s : State) :
    moveCurrent j r l (portExecuting s) =
      let e := engineAt s r.line
      let t := setJob j { r with line := l, output := .queued }
        (setEngine r.line { e with current := none, state := if e.state = .paused then .idle else e.state } s)
      goesOn r.line (goesOn l (answered [0x01#8] (queuedFirst l r.urgent j t))) := by
  rw [moveCurrent, joinHead_eq_queuedFirst]
  rfl

/-- R165: MOVE tests the line, then the job, then what the job is at. -/
theorem actMove_portExecuting (job line : Byte) (s : State) :
    actMove job line (portExecuting s) = onLine line s fun l => onJob job s fun j r =>
      let e := engineAt s r.line
      if r.line = l then answered [0x03#8] s
      else match r.output with
        | .finished => answered [0x05#8] s
        | .pending => answered [0x01#8] (setJob j { r with line := l } s)
        | .queued =>
          let t := setJob j { r with line := l } { s with queues := setTab s.queues r.line (without j (queueAt s r.line)) }
          goesOn l (answered [0x01#8] (queuedLast l r.urgent j t))
        | .current =>
          if e.state = .paused ∨ e.state = .fault then moveCurrent j r l (portExecuting s) else answered [0x05#8] s := by
  rw [← withLine_portExecuting]
  change withLine line (portExecuting s) (fun l => withJob job (portExecuting s) _) = _
  simp only [withJob_portExecuting, joinTail_eq_queuedLast]
  rfl

/-- Settles O25: `actMove_portExecuting`, and `moveCurrent_portExecuting` for a job of a PAUSED or FAULT line. -/
theorem moveCommand : Obligations.MoveCommand := by
  intro job line s htaking
  rw [exec_move htaking, actMove_portExecuting]
  refine congrArg (fun k => Host.Outcome.next (onLine line (begun s) k)) (funext fun l => onJob_congr fun j r hjob => ?_)
  simp only [moveCurrent_portExecuting, engineAt_begun, queueAt_begun, begun_queues]
  refine if_congr Iff.rfl rfl ?_
  cases r.output with
  | pending => rfl
  | queued => rfl
  | finished => rfl
  | current =>
    simp only [reduceCtorEq, if_false, true_and]
    by_cases hout : (engineAt s r.line).state = .paused ∨ (engineAt s r.line).state = .fault
    · have hleft : (if (engineAt s r.line).state = .paused then LineState.idle else (engineAt s r.line).state) =
          if (engineAt s r.line).state = .paused then .idle else .fault := by
        obtain hp | hf := hout
        · simp only [hp, if_true]
        · simp only [hf]
      simp only [if_pos hout, hleft]
    · simp only [if_neg hout]

/-! VERIFY. -/

theorem exec_verify {job : Byte} {s : State} (h : Taking s) :
    exec (.verify job) s = .next (actVerify job (portExecuting (begun s))) :=
  congrArg Host.Outcome.next (hostCommand_taking h .verify [job] rfl)

theorem readPos_chainStart (s : State) (r : Job) : readPos s (chainStart r) = chainStart r := by
  unfold chainStart
  cases r.head <;> rfl

/-- R41: the start of a chain is its stored end where the chain is empty. -/
theorem atStoredEnd_chainStart (s : State) (r : Job) : atStoredEnd s r (chainStart r) = true ↔
    r.tail = none ∨ chainStart r = r.tail.map (fun b => { block := b, off := r.tailFill }) := by
  unfold atStoredEnd
  cases r.tail with
  | none => simp
  | some t => simp [readPos_chainStart]

/-- R41, R43: a scan that starts, of a job that is not FINISHED. -/
theorem scanStep_start {s : State} {j : Fin 16} {r : Job} (hread : ∀ err, s.spool.access ≠ some (.verify err))
    (hjob : jobAt s j = some r) :
    let scan : Verify := { Verify.reset with running := true, job := j, pos := chainStart r }
    scanStep { portExecuting s with verify := scan } =
      if r.tail = none ∨ chainStart r = r.tail.map (fun b => { block := b, off := r.tailFill }) then
        answered (0x01#8 :: scanResults Verify.reset) { s with verify := { scan with running := false } }
      else executing { s with verify := scan } := by
  intro scan
  rw [scanStep_eq (s := { portExecuting s with verify := scan }) hread rfl hjob]
  exact if_congr (atStoredEnd_chainStart _ r) rfl rfl

/-- Settles O26: `scanStep_start` for a job that is not FINISHED. -/
theorem verifyCommand : Obligations.VerifyCommand := by
  intro job s htaking hread
  have hread' : ∀ err, (begun s).spool.access ≠ some (.verify err) := by simpa only [begun_spool] using hread
  rw [exec_verify htaking, actVerify, withJob_portExecuting]
  refine congrArg Host.Outcome.next (onJob_congr fun j r hjob => ?_)
  exact if_congr Iff.rfl rfl (scanStep_start hread' hjob)

end Sys2Proof.Machine
end

section
/-! Commands on lines: LINE SET (R169), LINE ENABLE and DISABLE (R170, R171), LINE STOP and GO (R172). -/

namespace Sys2Proof.Machine

open Sys2Proof.Says

-- One after another: side by side the proofs would each wait in a thread of their own.
set_option Elab.async false

/-! The check of a line number. -/

theorem onLine_line {b : Byte} {l : Fin 4} (h : b.toNat = l.val) (s : State) (k : Fin 4 → State) : onLine b s k = k l := by
  have hl : Fin.ofNat 4 b.toNat = l := Fin.ext (by rw [Fin.val_ofNat, h, Nat.mod_eq_of_lt l.isLt])
  rw [onLine, if_neg (by omega), hl]

theorem onLine_badParam {b : Byte} (h : 4 ≤ b.toNat) (s : State) (k : Fin 4 → State) : onLine b s k = answered [0x03#8] s :=
  if_pos h

/-! LINE SET. -/

theorem exec_lineSet {line mode second holdLimit starveLimit separator policy substitute : Byte} {s : State} (h : Taking s) :
    exec (.lineSet line mode second holdLimit starveLimit separator policy substitute) s =
      .next (actLineSet line mode second holdLimit starveLimit separator policy substitute (portExecuting (begun s))) :=
  congrArg Host.Outcome.next
    (hostCommand_taking h .lineSet [line, mode, second, holdLimit, starveLimit, separator, policy, substitute] rfl)

theorem toNat_eq_zero_iff {b : Byte} : b.toNat = 0 ↔ b = 0x00#8 := by bv_omega

theorem toNat_eq_one_iff {b : Byte} : b.toNat = 1 ↔ b = 0x01#8 := by bv_omega

/-- R184: the policy byte. -/
theorem policyOf_eq (b : Byte) :
    policyOf b = if 1 < b.toNat then none else some (if b = 0#8 then .halt else .substitute) := by
  unfold policyOf
  split
  next h => rw [toNat_eq_zero_iff.1 h]; rfl
  next h => rw [toNat_eq_one_iff.1 h]; rfl
  next h0 h1 =>
    have hne : b.toNat ≠ 0 ∧ b.toNat ≠ 1 := ⟨h0, h1⟩
    exact (if_pos (by omega)).symm

/-- R119, R184: a parallel line's mode and ack limit. -/
theorem parConfigOf_eq (mode second : Byte) :
    parConfigOf mode second = if 8 ≤ mode.toNat ∨ second = 0#8 then none
      else some { holdCycle := mode.getLsbD 0, strobeCode := Fin.ofNat 4 (mode.toNat / 2), ackLimit := second } := by
  have hbad : (mode.toNat < 8 ∧ second.toNat ≠ 0) ↔ ¬(8 ≤ mode.toNat ∨ second = 0#8) := by
    rw [← toNat_eq_zero_iff]; omega
  rw [parConfigOf, if_congr hbad rfl rfl, ite_not]

/-- R184: the two parity positions of a mode as a number. -/
theorem parityBits (mode : Byte) :
    mode.toNat / 16 % 4 = (mode.getLsbD 4).toNat + 2 * (mode.getLsbD 5).toNat := by
  simp only [BitVec.getLsbD, Nat.toNat_testBit]
  omega

/-- R184: the parity positions of a serial mode. -/
theorem parityOf_eq (mode : Byte) :
    parityOf mode = if mode.getLsbD 4 = true ∧ mode.getLsbD 5 = true then none
      else some (if mode.getLsbD 4 then .odd else if mode.getLsbD 5 then .even else .none) := by
  rw [parityOf, parityBits]
  cases mode.getLsbD 4 <;> cases mode.getLsbD 5 <;> rfl

/-- R184: the flow byte. -/
theorem flowOf_eq (b : Byte) :
    flowOf b = if 2 < b.toNat then none else some (if b = 0#8 then .none else if b = 1#8 then .go else .xonxoff) := by
  unfold flowOf
  split
  next h => rw [toNat_eq_zero_iff.1 h]; rfl
  next h => rw [toNat_eq_one_iff.1 h]; rfl
  next h =>
    have hb : b = 0x02#8 := by bv_omega
    rw [hb]; rfl
  next h0 h1 h2 =>
    have hne : b.toNat ≠ 0 ∧ b.toNat ≠ 1 ∧ b.toNat ≠ 2 := ⟨h0, h1, h2⟩
    exact (if_pos (by omega)).symm

/-- R131, R184: a serial line's mode and flow. -/
theorem serConfigOf_eq (mode second : Byte) :
    serConfigOf mode second =
      if 128 ≤ mode.toNat ∨ (mode.getLsbD 4 = true ∧ mode.getLsbD 5 = true) ∨ 2 < second.toNat then none
      else some {
        rate := Fin.ofNat 8 mode.toNat, seven := mode.getLsbD 3
        parity := if mode.getLsbD 4 then .odd else if mode.getLsbD 5 then .even else .none
        twoStop := mode.getLsbD 6
        flow := if second = 0#8 then .none else if second = 1#8 then .go else .xonxoff } := by
  rw [serConfigOf, parityOf_eq, flowOf_eq]
  by_cases hparity : mode.getLsbD 4 = true ∧ mode.getLsbD 5 = true
  · rw [if_pos hparity, if_pos (Or.inr (Or.inl hparity))]
  by_cases hflow : 2 < second.toNat
  · rw [if_neg hparity, if_pos hflow, if_pos (Or.inr (Or.inr hflow))]
  rw [if_neg hparity, if_neg hflow]
  by_cases hmode : 128 ≤ mode.toNat
  · rw [if_pos (Or.inl hmode)]
    exact if_neg (Nat.not_lt.2 hmode)
  · rw [if_neg (not_or.2 ⟨hmode, not_or.2 ⟨hparity, hflow⟩⟩)]
    exact if_pos (Nat.not_le.1 hmode)

/-- R169: LINE SET of a parallel line. -/
theorem actLineSet_par {line : Byte} {x : Fin 2} (hline : line.toNat = x.val)
    (mode second holdLimit starveLimit separator policy substitute : Byte) (s : State) :
    actLineSet line mode second holdLimit starveLimit separator policy substitute (portExecuting s) =
      match policyOf policy, parConfigOf mode second with
      | some p, some c =>
        if (engineAt s (parLine x)).state ≠ .off then answered [0x05#8] s
        else answered [0x01#8] (setPar x { parAt s x with config := c } (setEngine (parLine x)
          { engineAt s (parLine x) with config := drainConfigOf holdLimit starveLimit separator p substitute } s))
      | _, _ => answered [0x03#8] s := by
  rw [actLineSet, withLine_portExecuting, onLine_line (l := parLine x) hline]
  cases policyOf policy with
  | none => rfl
  | some p =>
    simp only [unitOf_parLine]
    cases parConfigOf mode second <;> rfl

/-- R169: LINE SET of a serial line. -/
theorem actLineSet_ser {line : Byte} {y : Fin 2} (hline : line.toNat = y.val + 2)
    (mode second holdLimit starveLimit separator policy substitute : Byte) (s : State) :
    actLineSet line mode second holdLimit starveLimit separator policy substitute (portExecuting s) =
      match policyOf policy, serConfigOf mode second with
      | some p, some c =>
        if (engineAt s (serLine y)).state ≠ .off then answered [0x05#8] s
        else answered [0x01#8] (setSer y { serAt s y with config := c } (setEngine (serLine y)
          { engineAt s (serLine y) with config := drainConfigOf holdLimit starveLimit separator p substitute } s))
      | _, _ => answered [0x03#8] s := by
  rw [actLineSet, withLine_portExecuting, onLine_line (l := serLine y) hline]
  cases policyOf policy with
  | none => rfl
  | some p =>
    simp only [unitOf_serLine]
    cases serConfigOf mode second <;> rfl

/-- Settles O30: `actLineSet_par` and `actLineSet_ser`, with what each byte names. -/
theorem lineSetCommand : Obligations.LineSetCommand := by
  intro line mode second holdLimit starveLimit separator policy substitute s htaking row drain par ser badPar badSer
  rw [exec_lineSet htaking]
  refine ⟨fun hbad => congrArg Host.Outcome.next ?_, fun x hx hpolicy hpar => congrArg Host.Outcome.next ?_,
    fun y hy hpolicy hser => congrArg Host.Outcome.next ?_⟩
  · by_cases hline : 4 ≤ line.toNat
    · rw [actLineSet, withLine_portExecuting, onLine_badParam hline]
    by_cases hpar : line.toNat < 2
    · rw [actLineSet_par (x := ⟨line.toNat, hpar⟩) rfl, policyOf_eq, parConfigOf_eq]
      by_cases hpolicy : 1 < policy.toNat
      · rw [if_pos hpolicy]
      · have hmode : badPar := by
          obtain h | h | h | h := hbad
          · exact (hline h).elim
          · exact (hpolicy h).elim
          · exact h.2
          · exact (Nat.not_le.2 hpar h.1).elim
        rw [if_neg hpolicy, if_pos hmode]
    · rw [actLineSet_ser (y := ⟨line.toNat - 2, by omega⟩) (by simp only; omega), policyOf_eq, serConfigOf_eq]
      by_cases hpolicy : 1 < policy.toNat
      · rw [if_pos hpolicy]
      · have hmode : badSer := by
          obtain h | h | h | h := hbad
          · exact (hline h).elim
          · exact (hpolicy h).elim
          · exact (hpar h.1).elim
          · exact h.2
        rw [if_neg hpolicy, if_pos hmode]
  · rw [actLineSet_par hx, policyOf_eq, parConfigOf_eq, if_neg (Nat.not_lt.2 hpolicy), if_neg hpar, engineAt_begun, parAt_begun]
    rfl
  · rw [actLineSet_ser hy, policyOf_eq, serConfigOf_eq, if_neg (Nat.not_lt.2 hpolicy), if_neg hser, engineAt_begun, serAt_begun]
    rfl

/-! LINE ENABLE and LINE DISABLE. -/

theorem exec_lineEnable {line : Byte} {s : State} (h : Taking s) :
    exec (.lineEnable line) s = .next (actLineEnable line (portExecuting (begun s))) :=
  congrArg Host.Outcome.next (hostCommand_taking h .lineEnable [line] rfl)

theorem exec_lineDisable {line : Byte} {s : State} (h : Taking s) :
    exec (.lineDisable line) s = .next (actLineDisable line (portExecuting (begun s))) :=
  congrArg Host.Outcome.next (hostCommand_taking h .lineDisable [line] rfl)

/-- R129: what LINE ENABLE does to the unit of a serial line. -/
theorem startReceiver_eq (y : Fin 2) (s : State) :
    startReceiver y s = setSer y (if (serAt s y).config.flow = .xonxoff then
      { serAt s y with xoff := false, receiver := .markwait, startSeen := false } else { serAt s y with xoff := false }) s :=
  (apply_ite (fun u => setSer y u s) _ _ _).symm

/-- R101, R170: LINE ENABLE. -/
theorem actLineEnable_portExecuting (line : Byte) (s : State) :
    actLineEnable line (portExecuting s) = onLine line s fun l =>
      if (engineAt s l).state ≠ .off then answered [0x05#8] s
      else
        let t := answered [0x01#8] (setEngine l { engineAt s l with state := .idle } s)
        match unitOf l with
        | .par _ => goesOn l t
        | .ser y => goesOn l (startReceiver y t) := by
  rw [actLineEnable, withLine_portExecuting]
  refine congrArg _ (funext fun l => if_congr Iff.rfl rfl ?_)
  cases unitOf l <;> rfl

/-- R102, R171: LINE DISABLE. -/
theorem actLineDisable_portExecuting (line : Byte) (s : State) :
    actLineDisable line (portExecuting s) = onLine line s fun l =>
      if (engineAt s l).state ≠ .idle then answered [0x05#8] s
      else
        let t := answered [0x01#8] (setEngine l { engineAt s l with state := .off } s)
        match unitOf l with
        | .par _ => t
        | .ser y => stopReceiver y t := by
  rw [actLineDisable, withLine_portExecuting]
  rfl

/-- Settles O31: `actLineEnable_portExecuting` and `actLineDisable_portExecuting`, by the kind of the line. -/
theorem lineEnableAndDisable : Obligations.LineEnableAndDisable := by
  intro line s htaking
  rw [exec_lineEnable htaking, exec_lineDisable htaking, actLineEnable_portExecuting, actLineDisable_portExecuting]
  refine ⟨congrArg (fun k => Host.Outcome.next (onLine line (begun s) k)) (funext fun l => ?_),
    congrArg (fun k => Host.Outcome.next (onLine line (begun s) k)) (funext fun l => ?_)⟩
  · rw [← engineAt_begun s]
    refine if_congr Iff.rfl rfl ?_
    unfold unitOf
    by_cases hl : l.val < 2
    · simp only [if_pos hl]
    · simp only [if_neg hl, startReceiver_eq]
      rw [← serAt_begun s]
      rfl
  · rw [← engineAt_begun s]
    refine if_congr Iff.rfl rfl ?_
    unfold unitOf
    by_cases hl : l.val < 2
    · simp only [if_pos hl]
    · simp only [if_neg hl]
      rw [← serAt_begun s]
      rfl

/-! LINE STOP and LINE GO. -/

theorem exec_lineStop {line : Byte} {s : State} (h : Taking s) :
    exec (.lineStop line) s = .next (actLineStop line (portExecuting (begun s))) :=
  congrArg Host.Outcome.next (hostCommand_taking h .lineStop [line] rfl)

theorem exec_lineGo {line : Byte} {s : State} (h : Taking s) :
    exec (.lineGo line) s = .next (actLineGo line (portExecuting (begun s))) :=
  congrArg Host.Outcome.next (hostCommand_taking h .lineGo [line] rfl)

theorem engineAt_setEngine_same (l : Fin 4) (e : Engine) (s : State) : engineAt (setEngine l e s) l = e :=
  (engineAt_setEngine l e s l).trans (if_pos rfl)

/-- A write to a line's engine that keeps its current job. -/
theorem currentJob_setEngine_kept {s : State} {l : Fin 4} {e : Engine} (h : e.current = (engineAt s l).current) :
    currentJob (setEngine l e s) l = currentJob s l := by
  unfold currentJob
  rw [engineAt_setEngine, if_pos rfl, h]
  rfl

@[simp] theorem currentUnheld_begun (s : State) (l : Fin 4) : currentUnheld (begun s) l = currentUnheld s l := by
  rw [currentUnheld, currentUnheld, currentJob_begun]

theorem currentUnheld_setEngine_kept {s : State} {l : Fin 4} {e : Engine} (h : e.current = (engineAt s l).current) :
    currentUnheld (setEngine l e s) l = currentUnheld s l := by
  rw [currentUnheld, currentUnheld, currentJob_setEngine_kept h]

/-- R91: the points of an immediate pause do not depend on the stop flag. -/
theorem pausesNow_setEngine_kept {s : State} {l : Fin 4} {e : Engine} (hstate : e.state = (engineAt s l).state)
    (hstep : e.step = (engineAt s l).step) : pausesNow (setEngine l e s) l = pausesNow s l := by
  unfold pausesNow
  rw [engineAt_setEngine, if_pos rfl, hstate, hstep]
  rfl

/-- R92: a line whose stop flag has been cleared resumes, its job being unheld. -/
theorem resumeLine_go (l : Fin 4) (s : State) :
    let t := answered [0x01#8] (setEngine l { engineAt s l with stop := false } s)
    resumeLine l t =
      if (engineAt s l).state = .paused ∧ currentUnheld s l = true then decideLine l (sendingAt l t) else t := by
  intro t
  have hengine : engineAt t l = { engineAt s l with stop := false } := engineAt_setEngine_same l _ s
  have hunheld : currentUnheld t l = currentUnheld s l := currentUnheld_setEngine_kept rfl
  rw [resumeLine_eq, hengine, hunheld]
  exact if_congr (and_congr_right fun _ => ⟨fun h => h.2, fun h => ⟨rfl, h⟩⟩) rfl rfl

/-- R90, R92, R172: LINE GO of a line whose stop flag is set. -/
theorem goStopped_eq (l : Fin 4) (s : State) :
    let t := answered [0x01#8] (setEngine l { engineAt s l with stop := false } s)
    (match (engineAt t l).state with
      | .idle => settle l t
      | .paused => evalIntake (resumeLine l t)
      | .off => t
      | .sending => t
      | .starved => t
      | .fault => t) =
      if (engineAt s l).state = .idle then goesOn l t
      else if (engineAt s l).state = .paused then
        if currentUnheld s l then goesOn l (sendingAt l t) else evalIntake t
      else t := by
  intro t
  have hengine : engineAt t l = { engineAt s l with stop := false } := engineAt_setEngine_same l _ s
  have hstate : (engineAt t l).state = (engineAt s l).state := by rw [hengine]
  rw [hstate, resumeLine_go]
  cases (engineAt s l).state with
  | paused =>
    simp only [reduceCtorEq, if_false, if_true, true_and]
    exact apply_ite evalIntake _ _ _
  | idle => rfl
  | off => rfl
  | sending => rfl
  | starved => rfl
  | fault => rfl

/-- Settles O32: LINE STOP pauses the line (`pauseLine_eq`), and LINE GO resumes it (`resumeLine_eq`). -/
theorem lineStopAndGo : Obligations.LineStopAndGo := by
  intro line s htaking
  rw [exec_lineStop htaking, exec_lineGo htaking, actLineStop, actLineGo, withLine_portExecuting, withLine_portExecuting]
  refine ⟨congrArg (fun k => Host.Outcome.next (onLine line (begun s) k)) (funext fun l => ?_),
    congrArg (fun k => Host.Outcome.next (onLine line (begun s) k)) (funext fun l => ?_)⟩
  · rw [← engineAt_begun s, ← pausesNow_begun s]
    refine if_congr Iff.rfl rfl ((pauseLine_eq l _).trans (if_congr ?_ rfl rfl))
    exact Iff.of_eq (congrArg (· = true)
      (pausesNow_setEngine_kept (s := begun s) (e := { engineAt (begun s) l with stop := true }) rfl rfl))
  · rw [← engineAt_begun s]
    cases hstop : (engineAt (begun s) l).stop with
    | false => simp only [engineAt_portExecuting, hstop]; rfl
    | true =>
      simp only [engineAt_portExecuting, hstop]
      exact (goStopped_eq l (begun s)).trans (by rw [currentUnheld_begun]; rfl)

end Sys2Proof.Machine
end

section
/-! LINE RESUME (R173), LINE RESTART (R174), LINE ABORT (R175) and CANCEL (R162). -/

namespace Sys2Proof.Machine

open Sys2Proof.Says

-- One after another: side by side the proofs would each wait in a thread of their own.
set_option Elab.async false

/-! What a line in FAULT comes back to. -/

theorem readPos_congr {s t : State} (h : t.spool.links = s.spool.links) (p : Option Pos) : readPos t p = readPos s p := by
  simp only [readPos, linkAt, h]

theorem atStoredEnd_congr {s t : State} (h : t.spool.links = s.spool.links) (r : Job) (p : Option Pos) :
    atStoredEnd t r p = atStoredEnd s r p := by
  simp only [atStoredEnd, readPos_congr h]

/-- R95: the input behind the cause of a line is still active. -/
theorem inputActive_iff (s : State) (l : Fin 4) : inputActive s l (engineAt s l).cause = true ↔ stillFailing l s := by
  unfold inputActive stillFailing
  cases hunit : unitOf l with
  | ser y =>
    have hl : l.val = y.val + 2 := congrArg Fin.val (unitOf_ser hunit)
    refine ⟨fun h => (Bool.false_ne_true h).elim, ?_⟩
    rintro ⟨x, hx, -⟩
    exact (by omega : False).elim
  | par x =>
    have hl : l.val = x.val := congrArg Fin.val (unitOf_par hunit)
    have hx : ∀ x' : Fin 2, l.val = x'.val ↔ x' = x := fun x' => by omega
    simp only [hx, exists_eq_left]
    cases (engineAt s l).cause <;> simp

theorem inputActive_begun (s : State) (l : Fin 4) (c : Cause) : inputActive (begun s) l c = inputActive s l c := by
  unfold begun; split <;> rfl

theorem recoverLine_eq (l : Fin 4) (s : State) :
    recoverLine l s = recovered l ((currentJob s l).map fun jr => jr.2.held) s := by
  unfold recoverLine
  cases currentJob s l <;> rfl

theorem recoverLine_job {s : State} {l : Fin 4} {j : Fin 16} {r : Job} (h : currentJob s l = some (j, r)) :
    recoverLine l s = recovered l (some r.held) s := by
  rw [recoverLine_eq, h]
  rfl

theorem currentJob_setJob {s : State} {l : Fin 4} {j : Fin 16} {r : Job} (h : currentJob s l = some (j, r)) (q : Job) :
    currentJob (setJob j q s) l = some (j, q) :=
  currentJob_iff.2 ⟨(currentJob_iff.1 h).1, by rw [jobAt_setJob, if_pos rfl]⟩

/-! The choice of LINE RESUME. -/

theorem resumeChoice_none {s : State} {l : Fin 4} (h : currentJob s l = none) (skip : Bool) :
    resumeChoice l skip s = recovered l none s := by
  simp only [resumeChoice, h, recoverLine_eq, Option.map_none]

theorem resumeChoice_retry {s : State} {l : Fin 4} {j : Fin 16} {r : Job} (h : currentJob s l = some (j, r)) {skip : Bool}
    (hretry : skip = false ∨ (r.sepPending = false ∧ atStoredEnd s r r.cursor = true)) :
    resumeChoice l skip s = recovered l (some r.held) s := by
  simp only [resumeChoice, h, recoverLine_job h]
  obtain rfl | ⟨hsep, hend⟩ := hretry
  · rfl
  · simp only [hsep, hend, Bool.and_false, Bool.not_true, Bool.false_eq_true, if_false]

theorem engineAt_passByte (j : Fin 16) (r : Job) (p : Pos) (s : State) (l : Fin 4) :
    engineAt (passByte j r p s) l = engineAt s l := by
  obtain ⟨hengines, -, -⟩ := passByte_lines j r p s
  rw [engineAt, hengines]
  rfl

/-- R96: a skip passes the byte at the cursor. -/
theorem resumeChoice_skip {s : State} {l : Fin 4} {j : Fin 16} {r : Job} {p : Pos} (h : currentJob s l = some (j, r))
    (hsep : r.sepPending = false) (hend : atStoredEnd s r r.cursor = false) (hread : readPos s r.cursor = some p) :
    resumeChoice l true s = goesOn l (sendingAt l (passByte j r p s)) := by
  simp only [resumeChoice, h, hsep, hend, hread, Bool.and_false, Bool.false_eq_true, if_false, Bool.not_false, Bool.and_true,
    if_true]
  rw [← engineAt_passByte j r p s]
  rfl

/-- R85, R96: a skip of a separator completes a copy that is not the last. -/
theorem resumeChoice_earlierCopy {s : State} {l : Fin 4} {j : Fin 16} {r : Job} (h : currentJob s l = some (j, r))
    (hstate : (engineAt s l).state ≠ .idle) (hsep : r.sepPending = true) (hcopy : r.copiesDone + 1 < r.copies) :
    resumeChoice l true s = recovered l (some r.held) (completeCopy l j { r with sepPending := false } s) := by
  have hdone : completeCopy l j { r with sepPending := false } s = setJob j
      { r with sepPending := false, copiesDone := r.copiesDone + 1, cursor := chainStart r, copyPos := 0 } s := if_pos hcopy
  simp only [resumeChoice, h, hsep, Bool.and_self, if_true, hdone]
  refine (if_neg hstate).trans ?_
  rw [recoverLine_job (currentJob_setJob h _)]

/-- R85, R96: a skip of a separator completes the last copy. -/
theorem resumeChoice_lastCopy {s : State} {l : Fin 4} {j : Fin 16} {r : Job} (h : currentJob s l = some (j, r))
    (hsep : r.sepPending = true) (hcopy : r.copies ≤ r.copiesDone + 1) :
    resumeChoice l true s = goesOn l (completeCopy l j { r with sepPending := false } s) := by
  have hidle : (engineAt (completeCopy l j { r with sepPending := false } s) l).state = .idle := by
    rw [completeCopy, if_neg (Nat.not_lt.2 hcopy), engineAt_setEngine_same]
  simp only [resumeChoice, h, hsep, Bool.and_self, if_true, hidle]
  rfl

/-! LINE RESUME. -/

theorem exec_lineResume {line choice : Byte} {s : State} (h : Taking s) :
    exec (.lineResume line choice) s = .next (actLineResume line choice (portExecuting (begun s))) :=
  congrArg Host.Outcome.next (hostCommand_taking h .lineResume [line, choice] rfl)

/-- R173: the choice byte. -/
theorem skipOf_eq (b : Byte) : skipOf b = if 1 < b.toNat then none else some (decide (b = 1#8)) := by
  unfold skipOf
  split
  next h => rw [toNat_eq_zero_iff.1 h]; rfl
  next h => rw [toNat_eq_one_iff.1 h]; rfl
  next h0 h1 =>
    have hne : b.toNat ≠ 0 ∧ b.toNat ≠ 1 := ⟨h0, h1⟩
    exact (if_pos (by omega)).symm

/-- The state in which LINE RESUME makes its choice: the cause of the line cleared, the command ended. -/
def causeCleared (l : Fin 4) (s : State) : State :=
  answered [0x01#8] (setEngine l { engineAt s l with cause := .none } (begun s))

theorem currentJob_causeCleared (l : Fin 4) (s : State) : currentJob (causeCleared l s) l = currentJob s l :=
  (currentJob_setEngine_kept (s := begun s) (e := { engineAt s l with cause := .none }) (by rw [engineAt_begun])).trans
    (currentJob_begun s l)

theorem engineAt_causeCleared (l : Fin 4) (s : State) :
    engineAt (causeCleared l s) l = { engineAt s l with cause := .none } :=
  engineAt_setEngine_same l _ (begun s)

theorem causeCleared_links (l : Fin 4) (s : State) : (causeCleared l s).spool.links = s.spool.links :=
  congrArg Spool.links (begun_spool s)

/-- R173: LINE RESUME with a choice in range, by the state of the line. -/
theorem exec_lineResume_inRange {line choice : Byte} {l : Fin 4} {s : State} (htaking : Taking s) (hline : line.toNat = l.val)
    (hchoice : choice.toNat ≤ 1) :
    exec (.lineResume line choice) s = .next (
      if (engineAt s l).state ≠ .fault then answered [0x05#8] (begun s)
      else if inputActive s l (engineAt s l).cause then answered [0x07#8] (begun s)
      else resumeChoice l (decide (choice = 1#8) && decide ((engineAt s l).cause ≠ .starve)) (causeCleared l s)) := by
  rw [exec_lineResume htaking, actLineResume, withLine_portExecuting, onLine_line hline, skipOf_eq,
    if_neg (Nat.not_lt.2 hchoice), ← inputActive_begun, causeCleared, ← engineAt_begun s]
  rfl

/-- Settles O33: `exec_lineResume_inRange`, and one equation of `resumeChoice` for each choice that LINE RESUME has. -/
theorem lineResumeCommand : Obligations.LineResumeCommand := by
  intro line choice s htaking
  refine ⟨fun hbad => ?_, fun l hline hchoice => ?_⟩
  · rw [exec_lineResume htaking, actLineResume, withLine_portExecuting]
    by_cases hline : 4 ≤ line.toNat
    · rw [onLine_badParam hline]
    · rw [onLine_line (l := ⟨line.toNat, Nat.not_le.1 hline⟩) rfl, skipOf_eq, if_pos (hbad.resolve_left hline)]
      rfl
  rw [exec_lineResume_inRange htaking hline hchoice]
  refine ⟨fun hstate => congrArg Host.Outcome.next (if_pos hstate), fun hfault hactive => congrArg Host.Outcome.next ?_,
    fun hfault hactive => ?_⟩
  · rw [if_neg (not_not_intro hfault), if_pos ((inputActive_iff s l).2 hactive)]
  rw [if_neg (not_not_intro hfault), if_neg (mt (inputActive_iff s l).1 hactive)]
  refine ⟨fun hnone => congrArg Host.Outcome.next ?_, fun j r hjob => ?_⟩
  · exact resumeChoice_none ((currentJob_causeCleared l s).trans hnone) _
  have hjob' : currentJob (causeCleared l s) l = some (j, r) := (currentJob_causeCleared l s).trans hjob
  have hend := atStoredEnd_congr (causeCleared_links l s) r r.cursor
  have hread := readPos_congr (causeCleared_links l s) r.cursor
  have hstate : (engineAt (causeCleared l s) l).state ≠ .idle := by
    rw [engineAt_causeCleared]; simp only [hfault, ne_eq, reduceCtorEq, not_false_eq_true]
  have hskip (hone : choice = 1#8) (hstarved : (engineAt s l).cause ≠ .starve) :
      (decide (choice = 1#8) && decide ((engineAt s l).cause ≠ .starve)) = true := by
    rw [decide_eq_true hone, decide_eq_true hstarved]; rfl
  refine ⟨fun hretry => congrArg Host.Outcome.next (resumeChoice_retry hjob' ?_),
    fun hone hstarved hsep hnotEnd p hp => congrArg Host.Outcome.next ?_,
    fun hone hstarved hsep hcopy => congrArg Host.Outcome.next ?_,
    fun hone hstarved hsep hcopy => congrArg Host.Outcome.next ?_⟩
  · rw [hend]
    obtain rfl | hstarved | hboth := hretry
    · exact .inl rfl
    · exact .inl (by rw [decide_eq_false (not_not_intro hstarved), Bool.and_false])
    · exact .inr hboth
  · rw [hskip hone hstarved]
    exact resumeChoice_skip hjob' hsep (hend.trans hnotEnd) (hread.trans hp)
  · rw [hskip hone hstarved]
    exact resumeChoice_earlierCopy hjob' hstate hsep hcopy
  · rw [hskip hone hstarved]
    exact resumeChoice_lastCopy hjob' hsep hcopy

/-! LINE RESTART. -/

theorem exec_lineRestart {line : Byte} {s : State} (h : Taking s) :
    exec (.lineRestart line) s = .next (actLineRestart line (portExecuting (begun s))) :=
  congrArg Host.Outcome.next (hostCommand_taking h .lineRestart [line] rfl)

/-- R97, R174: LINE RESTART. -/
theorem actLineRestart_portExecuting (line : Byte) (s : State) :
    actLineRestart line (portExecuting s) = onLine line s fun l =>
      if (engineAt s l).state ≠ .fault then answered [0x05#8] s
      else match currentJob s l with
        | none => answered [0x05#8] s
        | some (j, r) =>
          if r.anyReleased then answered [0x05#8] s
          else if inputActive s l (engineAt s l).cause then answered [0x07#8] s
          else recoverLine l (answered [0x01#8] (setJob j { r with cursor := chainStart r, copyPos := 0, sepPending := false }
            (setEngine l { engineAt s l with cause := .none } s))) := by
  rw [actLineRestart, withLine_portExecuting]
  rfl

/-! The intake access that a retirement lets end. -/

/-- R39: an intake access of a job that is in progress ends with all that the end of the access does. -/
theorem endIntakeAccessOf_eq (j : Fin 16) (s : State) : endIntakeAccessOf j s = stored j s := by
  cases haccess : s.spool.access with
  | none => simp only [endIntakeAccessOf, stored, haccess]
  | some a =>
    cases a with
    | drain l err => simp only [endIntakeAccessOf, stored, haccess]
    | verify err => simp only [endIntakeAccessOf, stored, haccess]
    | intake k =>
      have hends : after .intakeAccessEnd s = intakeEnd k s := by rw [after, exec_intakeAccessEnd haccess]
      cases hfifo : s.intake.fifo with
      | nil => simp only [endIntakeAccessOf, stored, haccess, hfifo]
      | cons e es => simp only [endIntakeAccessOf, stored, haccess, hfifo, hends]

/-! LINE ABORT. -/

theorem exec_lineAbort {line : Byte} {s : State} (h : Taking s) :
    exec (.lineAbort line) s = .next (actLineAbort line (portExecuting (begun s))) :=
  congrArg Host.Outcome.next (hostCommand_taking h .lineAbort [line] rfl)

theorem engineAt_scanGone (j : Fin 16) (s : State) (l : Fin 4) : engineAt (scanGone j s) l = engineAt s l := by
  unfold scanGone; split <;> rfl

/-- R16: a current job that retires leaves its line, with nothing else of the engine changed. -/
theorem engineAt_retired {r : Job} (houtput : r.output = .current) (j : Fin 16) (o : JobOutcome) (c : Cause) (s : State) :
    engineAt (retired j r o c s) r.line = { engineAt s r.line with current := none } := by
  have hengines : (retired j r o c s).engines =
      (setEngine r.line { engineAt (scanGone j s) r.line with current := none } (scanGone j s)).engines := if_pos houtput
  rw [engineAt, hengines, ← engineAt_scanGone j s r.line]
  exact engineAt_setEngine_same r.line _ (scanGone j s)

theorem setEngine_retired {r : Job} (houtput : r.output = .current) (j : Fin 16) (o : JobOutcome) (c d : Cause) (st : LineState)
    (s : State) :
    setEngine r.line { engineAt (retired j r o c s) r.line with state := st, cause := d } (retired j r o c s) =
      setEngine r.line { engineAt s r.line with state := st, cause := d, current := none } (retired j r o c s) := by
  rw [engineAt_retired houtput]

/-- R98, R175: LINE ABORT, by the state of the line and its current job. -/
theorem actLineAbort_portExecuting (line : Byte) (s : State) :
    actLineAbort line (portExecuting s) = onLine line s fun l =>
      if (engineAt s l).state ≠ .fault then answered [0x05#8] s
      else abortLine l (match (engineAt s l).current with
        | none => portExecuting s
        | some j => stored j (executing s)) := by
  rw [actLineAbort, withLine_portExecuting]
  simp only [endIntakeAccessOf_eq]
  rfl

/-- R98: the current job of the line retires ABORTED with the line's cause. -/
theorem abortLine_job {s : State} {j : Fin 16} {r : Job} (hcurrent : (engineAt s r.line).current = some j)
    (hjob : jobAt s j = some r) (houtput : r.output = .current) (hfree : NoAccessOf j s) :
    abortLine r.line s = goesOn r.line (answered [0x01#8]
      (setEngine r.line { engineAt s r.line with state := .idle, cause := .none, current := none }
        (retired j r .aborted (engineAt s r.line).cause s))) := by
  simp only [abortLine, hcurrent, retire_eq hjob hfree, setEngine_retired houtput]
  rfl

/-- Settles O34: `actLineRestart_portExecuting`, and `abortLine_job` for a line with a current job. -/
theorem lineRestartAndAbort : Obligations.LineRestartAndAbort := by
  refine ⟨fun line s htaking => ?_, fun line s htaking => ?_⟩
  · rw [exec_lineRestart htaking, actLineRestart_portExecuting]
    refine ⟨fun hbad => congrArg Host.Outcome.next (onLine_badParam hbad _ _), fun l hline => ?_⟩
    rw [onLine_line hline, engineAt_begun, currentJob_begun, inputActive_begun]
    refine ⟨fun hrefused => congrArg Host.Outcome.next ?_, fun j r hfault hjob => ?_⟩
    · obtain hstate | hnone := hrefused
      · rw [if_pos hstate]
      · rw [hnone, ite_self]
    rw [if_neg (not_not_intro hfault), hjob]
    refine ⟨fun hreleased => congrArg Host.Outcome.next (if_pos hreleased),
      fun hreleased hactive => congrArg Host.Outcome.next ?_, fun hreleased hactive => congrArg Host.Outcome.next ?_⟩
    · exact (if_neg (Bool.eq_false_iff.1 hreleased)).trans (if_pos ((inputActive_iff s l).2 hactive))
    · refine (if_neg (Bool.eq_false_iff.1 hreleased)).trans ((if_neg (mt (inputActive_iff s l).1 hactive)).trans ?_)
      exact recoverLine_job (r := { r with cursor := chainStart r, copyPos := 0, sepPending := false })
        (currentJob_setJob ((currentJob_causeCleared l s).trans hjob) _)
  · rw [exec_lineAbort htaking, actLineAbort_portExecuting]
    refine ⟨fun hbad => congrArg Host.Outcome.next (onLine_badParam hbad _ _), fun l hline => ?_⟩
    rw [onLine_line hline, engineAt_begun]
    refine ⟨fun hstate => congrArg Host.Outcome.next (if_pos hstate), fun hfault hnone => congrArg Host.Outcome.next ?_,
      fun j r hfault hcurrent => ?_⟩
    · rw [if_neg (not_not_intro hfault), hnone]
      simp only [abortLine, engineAt_portExecuting, engineAt_begun, hnone]
      rfl
    · intro t hjob houtput hl hcurrent' hfree
      subst hl
      rw [if_neg (not_not_intro hfault), hcurrent]
      exact congrArg Host.Outcome.next (abortLine_job hcurrent' hjob houtput hfree)

/-! CANCEL. -/

theorem exec_cancel {job : Byte} {s : State} (h : Taking s) :
    exec (.cancel job) s = .next (actCancel job (portExecuting (begun s))) :=
  congrArg Host.Outcome.next (hostCommand_taking h .cancel [job] rfl)

theorem jobOf_job {b : Byte} {j : Fin 16} (h : b.toNat = j.val) : jobOf b = some j := by
  have hj : Fin.ofNat 16 b.toNat = j := Fin.ext (by rw [Fin.val_ofNat, h, Nat.mod_eq_of_lt j.isLt])
  rw [jobOf_eq_some (by omega), hj]

/-- R39, R162: CANCEL is taken after an intake access of the job. -/
theorem actCancel_eq {b : Byte} {j : Fin 16} {s t : State} (h : b.toNat = j.val) (ht : t = stored j (executing s)) :
    actCancel b (portExecuting s) = cancelJob b t := by
  rw [ht, actCancel, jobOf_job h]
  exact congrArg (cancelJob b) (endIntakeAccessOf_eq j _)

/-- R162: CANCEL of a free slot. -/
theorem actCancel_freeSlot {b : Byte} {j : Fin 16} {s t : State} (h : b.toNat = j.val) (ht : t = stored j (executing s))
    (hfree : jobAt t j = none) : actCancel b (portExecuting s) = answered [0x04#8] t := by
  rw [actCancel_eq h ht, cancelJob, withJob, jobOf_job h]
  simp only [hfree]
  rfl

/-- R19 to R21, R162: CANCEL of a job, the intake access of the job having ended. -/
theorem actCancel_job {b : Byte} {j : Fin 16} {r : Job} {s t : State} (h : b.toNat = j.val) (ht : t = stored j (executing s))
    (hjob : jobAt t j = some r) :
    actCancel b (portExecuting s) =
      match r.output with
      | .pending => evalIntake (answered [0x01#8] (retire j .cancelled .none t))
      | .queued => evalIntake (answered [0x01#8] (retire j .cancelled .none t))
      | .current =>
        if (engineAt t r.line).step = .inFlight then setJob j { r with cancelPending := true } t
        else cancelCurrent r.line j t
      | .finished => answered [0x05#8] t := by
  rw [actCancel_eq h ht, cancelJob, withJob, jobOf_job h]
  simp only [hjob]
  rfl

/-- R20, R99: CANCEL of a current job whose line has no byte in flight. -/
theorem actCancel_notInFlight {b : Byte} {j : Fin 16} {r : Job} {s t : State} (h : b.toNat = j.val)
    (ht : t = stored j (executing s)) (hjob : jobAt t j = some r) (houtput : r.output = .current)
    (hflight : (engineAt t r.line).step ≠ .inFlight) : actCancel b (portExecuting s) = cancelCurrent r.line j t := by
  rw [actCancel_job h ht hjob, houtput]
  exact if_neg hflight

@[simp] theorem withdraw_jobs (l : Fin 4) (s : State) : (withdraw l s).jobs = s.jobs := by
  unfold withdraw; split <;> split <;> rfl

@[simp] theorem withdraw_spool (l : Fin 4) (s : State) : (withdraw l s).spool = s.spool := by
  unfold withdraw; split <;> split <;> rfl

@[simp] theorem withdraw_intake (l : Fin 4) (s : State) : (withdraw l s).intake = s.intake := by
  unfold withdraw; split <;> split <;> rfl

@[simp] theorem withdraw_verify (l : Fin 4) (s : State) : (withdraw l s).verify = s.verify := by
  unfold withdraw; split <;> split <;> rfl

theorem noAccessOf_free {s : State} (h : s.spool.access = none) (j : Fin 16) : NoAccessOf j s := by
  refine ⟨fun k b es haccess => ?_, fun err haccess => ?_⟩ <;> rw [h] at haccess <;> cases haccess

/-- A job and the accesses of the store are as they were when a line gives up its byte cycle. -/
theorem noAccessOf_clearCycle {j : Fin 16} {s : State} (h : NoAccessOf j s) (l : Fin 4) : NoAccessOf j (clearCycle l s) := by
  obtain ⟨hstore, hscan⟩ := h
  refine ⟨?_, ?_⟩
  · simpa [clearCycle] using hstore
  · simpa [clearCycle] using hscan

theorem jobAt_clearCycle (l : Fin 4) (s : State) (j : Fin 16) : jobAt (clearCycle l s) j = jobAt s j := by
  simp [clearCycle, jobAt]

theorem jobAt_faulted (l : Fin 4) (c : Cause) (s : State) (j : Fin 16) : jobAt (faulted l c s) j = jobAt s j :=
  congrArg (fun jobs => tab jobs j) (withdraw_jobs l s)

theorem faulted_spool (l : Fin 4) (c : Cause) (s : State) : (faulted l c s).spool = s.spool := withdraw_spool l s

/-- R20, R99: the end of CANCEL of a current job whose line has no byte in flight and no fetch in progress. -/
theorem retire_cancelledAtOnce {s : State} {j : Fin 16} {r : Job} (hjob : jobAt s j = some r) (houtput : r.output = .current)
    (hfree : NoAccessOf j s) :
    let t := retire j .cancelled .none (clearCycle r.line s)
    settle r.line (finishCode .ok (setEngine r.line { engineAt t r.line with state := .idle, cause := .none } t)) =
      cancelledAtOnce r.line j r s := by
  intro t
  have hretired : t = retired j r .cancelled .none (clearCycle r.line s) :=
    retire_eq ((jobAt_clearCycle ..).trans hjob) (noAccessOf_clearCycle hfree _) ..
  rw [hretired, setEngine_retired houtput, engineAt_clearCycle, clearCycle_eq]
  rfl

theorem clearCycle_setEngine_fetched (l : Fin 4) (f : Option Fetched) (s : State) :
    clearCycle l (setEngine l { engineAt s l with fetched := f } s) = clearCycle l s := by
  simp only [clearCycle, engineAt_setEngine_same, setEngine_setEngine]

/-- R82: what the end of a fetch of a line leaves where the check error is found, before the policy of the line. -/
theorem fetchResult_checked {s : State} {l : Fin 4} {j : Fin 16} {r : Job} (h : currentJob s l = some (j, r)) :
    let t := flagged 0x80#8 (setJob j
      { r with checkErrors := if r.checkErrors < 255 then r.checkErrors + 1 else r.checkErrors }
      { s with spool := { s.spool with access := none } })
    fetchResult l true s = match (engineAt s l).config.policy with
      | .halt => faulted l .check t
      | .substitute =>
        let sub := fun f : Fetched => { f with value := (engineAt s l).config.substitute, kind := .substitute }
        setEngine l { engineAt t l with fetched := (engineAt t l).fetched.map sub } t := by
  intro t
  have hcurrent : currentJob (raise .check { s with spool := { s.spool with access := none } }) l = some (j, r) := h
  rw [← enterFault_eq]
  dsimp only at hcurrent
  simp only [fetchResult, hcurrent, Bool.not_true, Bool.false_eq_true, if_false]
  rfl

/-- R20, R82: CANCEL of a current job whose line has a fetch in progress. -/
theorem cancelCurrent_fetching {s : State} {j : Fin 16} {r : Job} {err : Bool} (houtput : r.output = .current)
    (hjob : jobAt s j = some r) (haccess : s.spool.access = some (.drain r.line err))
    (hcurrent : (engineAt s r.line).current = some j) :
    let free := { s with spool := { s.spool with access := none } }
    let q := { r with checkErrors := if err && decide (r.checkErrors < 255) then r.checkErrors + 1 else r.checkErrors }
    let counted := if err then flagged 0x80#8 (setJob j q free) else free
    cancelCurrent r.line j s =
      if err = true ∧ (engineAt s r.line).config.policy = .halt then cancelledAtOnce r.line j q (faulted r.line .check counted)
      else cancelledAtOnce r.line j q counted := by
  intro free q counted
  have hends : cancelCurrent r.line j s =
      let t := retire j .cancelled .none (clearCycle r.line (fetchResult r.line err s))
      settle r.line (finishCode .ok (setEngine r.line { engineAt t r.line with state := .idle, cause := .none } t)) := by
    simp only [cancelCurrent, haccess, if_true]
  have hline : r.line = q.line := rfl
  rw [hends]
  cases err with
  | false => exact retire_cancelledAtOnce (s := free) hjob houtput (noAccessOf_free rfl j)
  | true =>
    have hq : q = { r with checkErrors := if r.checkErrors < 255 then r.checkErrors + 1 else r.checkErrors } := by
      simp only [q, Bool.true_and, decide_eq_true_eq]
    have hqjob : jobAt counted j = some q := (jobAt_setJob j q free j).trans (if_pos rfl)
    rw [fetchResult_checked (currentJob_iff.2 ⟨hcurrent, hjob⟩), ← hq]
    cases hpolicy : (engineAt s r.line).config.policy with
    | halt =>
      rw [if_pos ⟨rfl, rfl⟩]
      exact retire_cancelledAtOnce (s := faulted r.line .check counted) (r := q) ((jobAt_faulted ..).trans hqjob) houtput
        (noAccessOf_free (congrArg Spool.access (faulted_spool ..)) j)
    | substitute =>
      rw [if_neg (by simp)]
      simp only [clearCycle_setEngine_fetched]
      exact retire_cancelledAtOnce (s := counted) (r := q) hqjob houtput (noAccessOf_free rfl j)

/-- R20, R99: CANCEL of a current job whose line has no byte in flight and no fetch in progress. -/
theorem cancelCurrent_notFetching {s : State} {j : Fin 16} {r : Job} (houtput : r.output = .current)
    (hjob : jobAt s j = some r) (hfree : NoAccessOf j s) (hfetch : ∀ err, s.spool.access ≠ some (.drain r.line err)) :
    cancelCurrent r.line j s = cancelledAtOnce r.line j r s := by
  rw [← retire_cancelledAtOnce hjob houtput hfree]
  unfold cancelCurrent
  split
  next k err haccess =>
    have hk : k ≠ r.line := fun h => hfetch err (by rw [haccess, h])
    rw [if_neg hk]
  next => rfl

/-- Settles O23: `actCancel_job`, and the two equations of `cancelCurrent`. -/
theorem cancelCommand : Obligations.CancelCommand := by
  intro job s htaking
  rw [exec_cancel htaking]
  refine ⟨fun hbad => congrArg Host.Outcome.next ?_, fun j hj => ?_⟩
  · rw [actCancel, cancelJob, jobOf, dif_neg (Nat.not_lt.2 hbad), withJob_portExecuting, onJob, if_pos hbad]
  intro t
  refine ⟨fun hnone => congrArg Host.Outcome.next (actCancel_freeSlot hj rfl hnone), fun r hjob => ?_⟩
  refine ⟨fun hfinished => congrArg Host.Outcome.next ?_, fun hwaits hfree => congrArg Host.Outcome.next ?_,
    fun hcurrent hflight => congrArg Host.Outcome.next ?_,
    fun hcurrent hflight hfree hfetch => congrArg Host.Outcome.next ?_, fun err hcurrent hflight haccess hline => ?_⟩
  · rw [actCancel_job hj rfl hjob, hfinished]
  · rw [actCancel_job hj rfl hjob, ← retire_eq hjob hfree]
    obtain hpending | hqueued := hwaits
    · rw [hpending]
    · rw [hqueued]
  · rw [actCancel_job hj rfl hjob, hcurrent]
    exact if_pos hflight
  · rw [actCancel_notInFlight hj rfl hjob hcurrent hflight, cancelCurrent_notFetching hcurrent hjob hfree hfetch]
  · intro free q counted halts
    rw [actCancel_notInFlight hj rfl hjob hcurrent hflight, cancelCurrent_fetching hcurrent hjob haccess hline]
    exact ⟨fun hhalts => congrArg Host.Outcome.next (if_pos hhalts),
      fun hhalts => congrArg Host.Outcome.next (if_neg hhalts)⟩

end Sys2Proof.Machine
end

section
/-! The Store Arbiter: who requests and who is next (R37, R38), and what a grant begins (R33, R39, R41, R54, R81). -/

namespace Sys2Proof.Machine

open Sys2Proof.Says

-- One after another: side by side the proofs would each wait in a thread of their own.
set_option Elab.async false

/-! Where a reader reads. -/

/-- R30: the read of a reader is made at one position. -/
theorem readPos_iff {s : State} {p : Option Pos} {q : Pos} : readPos s p = some q ↔ readsAt s p q := by
  cases p with
  | none => simp [readPos, readsAt]
  | some p =>
    by_cases hoff : p.off < 256
    · have hread : readPos s (some p) = some p := if_pos hoff
      rw [hread, readsAt]
      constructor
      · rintro ⟨⟩
        exact .inl ⟨rfl, hoff⟩
      · rintro (⟨hp, -⟩ | ⟨p', ⟨⟩, hoff', -⟩)
        · exact hp
        · exact absurd hoff (Nat.not_lt.2 hoff')
    · have hread : readPos s (some p) = (linkAt s p.block).map (fun b => { block := b, off := 0 }) := if_neg hoff
      rw [hread, readsAt, Option.map_eq_some_iff]
      constructor
      · rintro ⟨b, hlink, rfl⟩
        exact .inr ⟨p, rfl, Nat.not_lt.1 hoff, hlink, rfl⟩
      · rintro (⟨⟨⟩, hq⟩ | ⟨p', ⟨⟩, -, hlink, hzero⟩)
        · exact absurd hq hoff
        · exact ⟨q.block, hlink, by rw [← hzero]⟩

/-- R30: a position is the stored end, or the read that follows it is made there. -/
theorem atStoredEnd_iff {s : State} {r : Job} {tb : Fin 128} (htail : r.tail = some tb) (p : Option Pos) :
    atStoredEnd s r p = true ↔
      p = some { block := tb, off := r.tailFill } ∨ readsAt s p { block := tb, off := r.tailFill } := by
  rw [← readPos_iff]
  simp only [atStoredEnd, htail, Bool.or_eq_true, beq_iff_eq]

/-! Who requests. -/

theorem tailHasRoom_iff (r : Job) : tailHasRoom r = true ↔ r.tail ≠ none ∧ r.tailFill < 256 := by
  rw [tailHasRoom, Bool.and_eq_true, Option.isSome_iff_ne_none, decide_eq_true_iff]
  rfl

/-- R33: an allocation into a full tail. -/
theorem allocate_fullTail {j : Fin 16} {r : Job} {s : State} {tb nb : Fin 128} {more : List (Fin 128)}
    (htail : r.tail = some tb) (hfree : s.spool.freeList = nb :: more) :
    allocate j r s = some (setJob j { r with tail := some nb, tailFill := 0, chainLen := r.chainLen + 1 }
      (setLink nb none (setLink tb (some nb) { s with spool := { s.spool with freeList := more } }))) := by
  simp only [allocate, hfree, htail]

/-- R33: an allocation for a job without a chain. -/
theorem allocate_noTail {j : Fin 16} {r : Job} {s : State} {nb : Fin 128} {more : List (Fin 128)}
    (htail : r.tail = none) (hfree : s.spool.freeList = nb :: more) :
    allocate j r s = some (setJob j
      { r with head := some nb, tail := some nb, tailFill := 0, chainLen := r.chainLen + 1,
               cursor := some { block := nb, off := 0 } }
      (setLink nb none { s with spool := { s.spool with freeList := more } })) := by
  simp only [allocate, hfree, htail]

theorem allocate_isSome (j : Fin 16) (r : Job) (s : State) :
    (allocate j r s).isSome = true ↔ s.spool.freeList ≠ [] := by
  cases hfree : s.spool.freeList with
  | nil => simp [allocate, hfree]
  | cons nb more =>
    cases htail : r.tail with
    | none => simp [allocate_noTail htail hfree]
    | some tb => simp [allocate_fullTail htail hfree]

/-- R33, R54: the grant of the head entry's access, into a tail block with room and otherwise after an allocation. -/
theorem grantIntake_eq {s : State} {j : Fin 16} {b : Byte} {rest : List (Fin 16 × Byte)} {r : Job}
    (hfifo : s.intake.fifo = (j, b) :: rest) (hjob : jobAt s j = some r) :
    grantIntake s = (if tailHasRoom r then some s else allocate j r s).map fun t =>
      { t with spool := { t.spool with access := some (.intake (checkBit t.window.invchk b)) }
               intake := { t.intake with headReq := .granted } } := by
  unfold grantIntake
  split
  next hnil => cases hfifo.symm.trans hnil
  next j' b' rest' hcons =>
    cases hfifo.symm.trans hcons
    rw [hjob]
    cases hroom : tailHasRoom r <;> simp only [hroom] <;> rfl

theorem requesting_intake {s : State} {j : Fin 16} {b : Byte} {rest : List (Fin 16 × Byte)} {r : Job}
    (hfifo : s.intake.fifo = (j, b) :: rest) (hjob : jobAt s j = some r) :
    requesting s .intake = true ↔ s.intake.headReq = .waiting ∧
      ((r.tail ≠ none ∧ r.tailFill < 256) ∨ s.spool.freeList ≠ []) := by
  have hgrant : (grantTo .intake s).isSome = true ↔ tailHasRoom r = true ∨ s.spool.freeList ≠ [] := by
    rw [grantTo, grantIntake_eq hfifo hjob, Option.isSome_map]
    cases tailHasRoom r with
    | true => simp
    | false => simp [allocate_isSome]
  rw [requesting, Bool.and_eq_true, hgrant, tailHasRoom_iff]
  exact and_congr_left' beq_iff_eq

/-- R81: the grant of a line's fetch. -/
theorem grantFetch_eq {s : State} {l : Fin 4} {j : Fin 16} {r : Job} (hjob : currentJob s l = some (j, r)) :
    grantFetch l s = if atStoredEnd s r r.cursor then none else (readPos s r.cursor).map fun p =>
      { setEngine l { engineAt s l with fetched := some { value := (storeRead s p).1, kind := .stored, pos := some p } } s with
        spool.access := some (.drain l (storeRead s p).2) } := by
  simp only [grantFetch, hjob]
  cases readPos s r.cursor <;> rfl

/-- R41: the grant of a read of the scan. -/
theorem grantVerify_eq {s : State} {r : Job} (hjob : jobAt s s.verify.job = some r) :
    grantVerify s = if atStoredEnd s r s.verify.pos then none else (readPos s s.verify.pos).map fun p =>
      { s with spool.access := some (.verify (storeRead s p).2), verify.pos := some p } := by
  simp only [grantVerify, hjob]
  cases readPos s s.verify.pos with
  | none => exact (ite_self _).symm
  | some p => rfl

/-- A read is granted where there is a position to read that is not the stored end. -/
theorem readGranted_isSome {s : State} {p : Option Pos} {stop : Bool} (k : Pos → State) :
    (if stop then none else (readPos s p).map k).isSome = true ↔ stop = false ∧ ∃ q, readsAt s p q := by
  cases stop with
  | true => simp
  | false => simp [Option.isSome_iff_exists, readPos_iff]

theorem grantTo_drainOf (l : Fin 4) (s : State) : grantTo (drainOf l) s = grantFetch l s := by
  match l with
  | 0 => rfl
  | 1 => rfl
  | 2 => rfl
  | 3 => rfl

theorem atRequest_drainOf (l : Fin 4) (s : State) : atRequest s (drainOf l) = ((engineAt s l).step == .fetching) := by
  match l with
  | 0 => rfl
  | 1 => rfl
  | 2 => rfl
  | 3 => rfl

theorem requesting_drainOf {s : State} {l : Fin 4} {j : Fin 16} {r : Job} (hjob : currentJob s l = some (j, r)) :
    requesting s (drainOf l) = true ↔ (engineAt s l).step = .fetching ∧ atStoredEnd s r r.cursor = false ∧
      ∃ q, readsAt s r.cursor q := by
  rw [requesting, Bool.and_eq_true, atRequest_drainOf, grantTo_drainOf, grantFetch_eq hjob, readGranted_isSome]
  exact and_congr_left' beq_iff_eq

theorem requesting_verify {s : State} {r : Job} (hjob : jobAt s s.verify.job = some r) :
    requesting s .verify = true ↔ s.verify.running = true ∧ atStoredEnd s r s.verify.pos = false ∧
      ∃ q, readsAt s s.verify.pos q := by
  rw [requesting, Bool.and_eq_true, grantTo, grantVerify_eq hjob, readGranted_isSome]
  rfl

/-! Who is next. -/

/-- The first element of a list in the order of `f` that a test accepts is the accepted element with the least `f`. -/
theorem find?_eq_some_iff_least {α : Type} {xs : List α} {f : α → Nat} (hsorted : xs.Pairwise (fun a b => f a < f b))
    (hall : ∀ a, a ∈ xs) (p : α → Bool) (a : α) :
    xs.find? p = some a ↔ p a = true ∧ ∀ b, p b = true → f a ≤ f b := by
  have hleast {a : α} (h : xs.find? p = some a) : ∀ b, p b = true → f a ≤ f b := by
    intro b hb
    obtain ⟨-, before, after, rfl, hbefore⟩ := List.find?_eq_some_iff_append.1 h
    obtain hin | hin := List.mem_append.1 (hall b)
    · exact absurd hb (by simpa using hbefore b hin)
    · obtain rfl | hin := List.mem_cons.1 hin
      · exact Nat.le_refl _
      · obtain ⟨-, hlater, -⟩ := List.pairwise_append.1 hsorted
        exact Nat.le_of_lt ((List.pairwise_cons.1 hlater).1 b hin)
  refine ⟨fun h => ⟨List.find?_some h, hleast h⟩, fun ⟨ha, hmin⟩ => ?_⟩
  obtain ⟨b, hb⟩ := Option.isSome_iff_exists.1 (List.find?_isSome.2 ⟨a, hall a, ha⟩)
  have hsame : f a = f b := Nat.le_antisymm (hmin b (List.find?_some hb)) (hleast hb a ha)
  have hnodup : (xs.map f).Nodup := List.pairwise_map.2 (hsorted.imp Nat.ne_of_lt)
  rw [hb, List.inj_on_of_nodup_map hnodup (hall a) (hall b) hsame]

/-- R38: the order after the pointer, by the turn of each requester. -/
theorem afterPointer_sorted (s : State) : (afterPointer s.spool.pointer).Pairwise (fun a b => turn s a < turn s b) := by
  unfold turn
  cases s.spool.pointer <;> decide

theorem mem_afterPointer (q pointer : Requester) : q ∈ afterPointer pointer := by
  cases q <;> cases pointer <;> decide

theorem nextRequester_iff (s : State) (q : Requester) : isNext s q ↔ nextRequester s = some q :=
  (find?_eq_some_iff_least (afterPointer_sorted s) (fun a => mem_afterPointer a _) (requesting s) q).symm

/-- R38, R39: the next requester is granted, and the pointer then names it. -/
theorem storeGrant_eq {s t : State} {q : Requester} (hfree : s.spool.access = none) (hnext : isNext s q)
    (hgrant : grantTo q s = some t) : storeGrant s = setPointer q t := by
  simp only [storeGrant, hfree, (nextRequester_iff s q).1 hnext, hgrant, Option.getD_some]

theorem grantTo_access {q : Requester} {s t : State} (h : grantTo q s = some t) : t.spool.access ≠ none := by
  have fetches {l : Fin 4} (hf : grantFetch l s = some t) : t.spool.access ≠ none := by
    obtain ⟨err, herr⟩ := grantFetch_access hf
    simp [herr]
  cases q with
  | intake =>
    obtain ⟨j, b, rest, -, hbit⟩ := grantIntake_access h
    simp [hbit]
  | drainA => exact fetches h
  | drainB => exact fetches h
  | drainC => exact fetches h
  | drainD => exact fetches h
  | verify =>
    obtain ⟨err, herr⟩ := grantVerify_access h
    simp [herr]

/-- Settles O36: who requests (`requesting_intake`, `requesting_drainOf`, `requesting_verify`), and who is next
(`nextRequester_iff`). -/
theorem storeGrantRoundRobin : Obligations.StoreGrantRoundRobin := by
  intro s
  refine ⟨fun j b rest r hfifo hjob => requesting_intake hfifo hjob, fun l j r hjob => requesting_drainOf hjob,
    fun r hjob => requesting_verify hjob, fun hbusy => congrArg Host.Outcome.next ?_, fun hnone => congrArg Host.Outcome.next ?_,
    nextRequester_iff s, fun q hfree hnext => ?_⟩
  · obtain hsame | ⟨q, t, hfree, -⟩ := storeGrant_cases s
    · exact hsame
    · exact absurd hfree hbusy
  · obtain hsame | ⟨q, t, -, hnext, -⟩ := storeGrant_cases s
    · exact hsame
    · exact absurd ((nextRequester_iff s q).2 hnext).1 (by simp [hnone q])
  · obtain ⟨t, hgrant⟩ := grantTo_of_nextRequester ((nextRequester_iff s q).1 hnext)
    have hbusy : t.spool.access ≠ none := grantTo_access hgrant
    exact ⟨setPointer q t, congrArg Host.Outcome.next (storeGrant_eq hfree hnext hgrant), rfl, hbusy⟩

/-! What a grant begins. -/

/-- R39: what becomes of the stored end of a job while the access that took a new tail block is in progress. -/
theorem atStoredEnd_newTail {s t : State} {r : Job} {tb nb : Fin 128} (htail : r.tail = some tb) (hfull : r.tailFill = 256)
    (hunlinked : ∀ b, linkAt s b ≠ some nb)
    (hlinks : ∀ b, linkAt t b = if b = nb then none else if b = tb then some nb else linkAt s b)
    {q : Pos} (hoff : q.off ≤ 256) (hblock : q.block ≠ nb) :
    let r' := { r with tail := some nb, tailFill := 0, chainLen := r.chainLen + 1 }
    atStoredEnd t r' (some q) = atStoredEnd s r (some q) := by
  intro r'
  have hold : atStoredEnd s r (some q) = true ↔ q.block = tb ∧ q.off = 256 := by
    rw [atStoredEnd_iff htail, hfull]
    constructor
    · rintro (⟨⟨⟩⟩ | ⟨-, hlt⟩ | ⟨-, -, -, -, hzero⟩)
      · exact ⟨rfl, rfl⟩
      · exact absurd hlt (Nat.lt_irrefl _)
      · cases hzero
    · rintro ⟨hb, ho⟩
      exact .inl (by rw [← hb, ← ho])
  have hnew : atStoredEnd t r' (some q) = true ↔ q.block = tb ∧ q.off = 256 := by
    rw [atStoredEnd_iff (r := r') rfl]
    constructor
    · rintro (⟨⟨⟩⟩ | ⟨⟨⟩, -⟩ | ⟨q', ⟨⟩, hoff', hlink, -⟩)
      · exact absurd rfl hblock
      · exact absurd rfl hblock
      · rw [hlinks, if_neg hblock] at hlink
        refine ⟨?_, Nat.le_antisymm hoff hoff'⟩
        by_contra hb
        rw [if_neg hb] at hlink
        exact hunlinked _ hlink
    · rintro ⟨hb, ho⟩
      refine .inr (.inr ⟨q, rfl, Nat.le_of_eq ho.symm, ?_, rfl⟩)
      rw [hlinks, if_neg hblock, if_pos hb]
  exact Bool.eq_iff_iff.2 (hnew.trans hold.symm)

/-- R37: a reader that is granted is not at its stored end. -/
theorem grantFetch_isNext {s : State} {l : Fin 4} {j : Fin 16} {r : Job} {p : Pos} (hnext : isNext s (drainOf l))
    (hjob : currentJob s l = some (j, r)) (hread : readsAt s r.cursor p) :
    let f : Fetched := { value := (storeRead s p).1, kind := .stored, pos := some p }
    grantTo (drainOf l) s = some { setEngine l { engineAt s l with fetched := some f } s with
      spool.access := some (.drain l (storeRead s p).2) } := by
  intro f
  obtain ⟨-, hend, -⟩ := (requesting_drainOf hjob).1 hnext.1
  rw [grantTo_drainOf, grantFetch_eq hjob, hend, readPos_iff.2 hread]
  rfl

theorem grantVerify_isNext {s : State} {p : Pos} (hnext : isNext s .verify) (hread : readsAt s s.verify.pos p) :
    grantTo .verify s = some { s with spool.access := some (.verify (storeRead s p).2), verify.pos := some p } := by
  have hsome : (grantVerify s).isSome = true := by
    have hreq := hnext.1
    rw [requesting, Bool.and_eq_true] at hreq
    exact hreq.2
  cases hjob : jobAt s s.verify.job with
  | none => simp [grantVerify, hjob] at hsome
  | some r =>
    obtain ⟨-, hend, -⟩ := (requesting_verify hjob).1 hnext.1
    rw [grantTo, grantVerify_eq hjob, hend, readPos_iff.2 hread]
    rfl

/-- Settles O37: `grantIntake_eq` with the two allocations, `grantFetch_isNext` and `grantVerify_isNext`, and
`atStoredEnd_newTail` for the stored end. -/
theorem storeGrantAccess : Obligations.StoreGrantAccess := by
  intro s hfree
  refine ⟨fun j b rest r hnext hfifo hjob => ?_, fun l j r p hnext hjob hread => ?_, fun p hnext hread => ?_⟩
  · intro granted
    refine ⟨fun tb htail hroom => ?_, fun tb nb more htail hfull hlist => ?_, fun nb more htail hlist => ?_⟩
    · have hgrant := grantIntake_eq hfifo hjob
      rw [if_pos ((tailHasRoom_iff r).2 ⟨by simp [htail], hroom⟩)] at hgrant
      exact congrArg Host.Outcome.next (storeGrant_eq hfree hnext hgrant)
    · intro r' t
      have hgrant := grantIntake_eq hfifo hjob
      rw [if_neg (mt (tailHasRoom_iff r).1 fun h => Nat.not_lt.2 hfull h.2), allocate_fullTail htail hlist] at hgrant
      refine ⟨congrArg Host.Outcome.next (storeGrant_eq hfree hnext hgrant), fun h256 _ hunlinked q hoff hblock => ?_⟩
      refine atStoredEnd_newTail htail h256 hunlinked (fun b => ?_) hoff hblock
      refine (linkAt_setLink nb none _ b).trans (if_congr Iff.rfl rfl ?_)
      exact linkAt_setLink tb (some nb) _ b
    · have hgrant := grantIntake_eq hfifo hjob
      rw [if_neg (mt (tailHasRoom_iff r).1 fun h => h.1 htail), allocate_noTail htail hlist] at hgrant
      exact congrArg Host.Outcome.next (storeGrant_eq hfree hnext hgrant)
  · exact congrArg Host.Outcome.next (storeGrant_eq hfree hnext (grantFetch_isNext hnext hjob hread))
  · exact congrArg Host.Outcome.next (storeGrant_eq hfree hnext (grantVerify_isNext hnext hread))

end Sys2Proof.Machine
end

section
/-! The ends of the accesses of the store (R41, R54, R82), and the evaluation of the head entry (R53). -/

namespace Sys2Proof.Machine

open Sys2Proof.Says

-- One after another: side by side the proofs would each wait in a thread of their own.
set_option Elab.async false

/-! The change to CLOSED. -/

/-- R61: a CLOSING job without an entry in the FIFO. -/
theorem closes_iff (s : State) (j : Fin 16) (r : Job) :
    (decide (r.intake = .closing) && !hasEntry s j) = true ↔ r.intake = .closing ∧ ∀ e ∈ s.intake.fifo, e.1 ≠ j := by
  simp [hasEntry]

theorem becomeClosed_pending {s : State} {j : Fin 16} {r : Job} (hjob : jobAt s j = some r) (houtput : r.output = .pending) :
    becomeClosed j s =
      decideLine r.line (queuedLast r.line r.urgent j (setJob j { r with intake := .closed, output := .queued } s)) :=
  (becomeClosed_eq hjob).trans (if_pos houtput)

theorem becomeClosed_starved {s : State} {j : Fin 16} {r : Job} (hjob : jobAt s j = some r) (houtput : r.output = .current)
    (hstarved : (engineAt s r.line).state = .starved ∧ (engineAt s r.line).current = some j) :
    becomeClosed j s = decideLine r.line (setEngine r.line
      { engineAt s r.line with state := .sending, step := .boundary, starve := none }
      (setJob j { r with intake := .closed } s)) :=
  ((becomeClosed_eq hjob).trans (if_neg (by rw [houtput]; exact OutputPhase.noConfusion))).trans
    (if_pos ⟨houtput, hstarved⟩)

theorem becomeClosed_still {s : State} {j : Fin 16} {r : Job} (hjob : jobAt s j = some r) (houtput : r.output ≠ .pending)
    (hstarved : ¬(r.output = .current ∧ (engineAt s r.line).state = .starved ∧ (engineAt s r.line).current = some j)) :
    becomeClosed j s = setJob j { r with intake := .closed } s :=
  ((becomeClosed_eq hjob).trans (if_neg houtput)).trans (if_neg hstarved)

/-! The end of an intake access. -/

theorem byteStored_closes {s : State} {j : Fin 16} {r : Job} (hjob : jobAt s j = some r)
    (hcloses : r.intake = .closing ∧ ∀ e ∈ s.intake.fifo, e.1 ≠ j) : byteStored j s = becomeClosed j s := by
  simp only [byteStored, hjob, (closes_iff s j r).2 hcloses, if_true]

/-- R55: the job of a stored byte that does not close: the starvation of its line ends. -/
theorem byteStored_open {s : State} {j : Fin 16} {r : Job} (hjob : jobAt s j = some r)
    (hcloses : ¬(r.intake = .closing ∧ ∀ e ∈ s.intake.fifo, e.1 ≠ j)) :
    byteStored j s =
      if r.output = .current ∧ (engineAt s r.line).state = .starved ∧ (engineAt s r.line).current = some j then
        decideLine r.line
          (setEngine r.line { engineAt s r.line with state := .sending, step := .boundary, starve := none } s)
      else s := by
  simp only [byteStored, hjob, mt (closes_iff s j r).1 hcloses, endStarvation_eq]
  exact (ite_and ..).symm

/-- R54, R55: the end of the access that stores the head entry. -/
theorem exec_intakeAccessEnd_job {s : State} {k : BitVec 1} {j : Fin 16} {b : Byte} {rest : List (Fin 16 × Byte)} {r : Job}
    {tb : Fin 128} (haccess : s.spool.access = some (.intake k)) (hfifo : s.intake.fifo = (j, b) :: rest)
    (hjob : jobAt s j = some r) (htail : r.tail = some tb) :
    let a := tb.val * 256 + r.tailFill
    exec .intakeAccessEnd s = .next (evalIntake (byteStored j
      (setJob j { r with tailFill := r.tailFill + 1, stored := r.stored + 1 } { s with
        intake := { s.intake with fifo := rest, headReq := .none }
        spool := { s.spool with
          access := none, bytes := Memory.write s.spool.bytes a b, checks := Memory.write s.spool.checks a k } }))) := by
  intro a
  rw [exec_intakeAccessEnd haccess, intakeEnd, hfifo, storeHead_eq hfifo hjob htail]

/-- Settles O39: `exec_intakeAccessEnd_job`, with `byteStored_open` for a job that goes on and `becomeClosed_eq`'s three cases
for one that closes. -/
theorem intakeAccessEnd : Obligations.IntakeAccessEnd := by
  intro s
  refine ⟨fun hidle => congrArg Host.Outcome.next ?_, fun k j b rest r tb haccess hfifo hjob htail => ?_⟩
  · unfold endIntakeAccess
    split
    next k haccess => exact (hidle k haccess).elim
    next => rfl
  intro r' a u closes e starved goes
  rw [exec_intakeAccessEnd_job haccess hfifo hjob htail]
  have hstored : jobAt (u r') j = some r' := (jobAt_setJob j r' _ j).trans (if_pos rfl)
  have hagain (q : Job) : setJob j q (u r') = u q := setJob_setJob ..
  refine ⟨fun hopen hcurrent hstarved => congrArg Host.Outcome.next ?_,
    fun hopen hstill => congrArg Host.Outcome.next ?_,
    fun hcloses hpending => congrArg Host.Outcome.next ?_,
    fun hcloses hcurrent hstarved => congrArg Host.Outcome.next ?_,
    fun hcloses hcurrent hstill => congrArg Host.Outcome.next ?_,
    fun hcloses hqueued => congrArg Host.Outcome.next ?_⟩
  · exact congrArg evalIntake ((byteStored_open hstored hopen).trans (if_pos ⟨hcurrent, hstarved⟩))
  · exact congrArg evalIntake ((byteStored_open hstored hopen).trans (if_neg hstill))
  · rw [← hagain]
    exact congrArg evalIntake ((byteStored_closes hstored hcloses).trans (becomeClosed_pending hstored hpending))
  · rw [← hagain]
    exact congrArg evalIntake ((byteStored_closes hstored hcloses).trans (becomeClosed_starved hstored hcurrent hstarved))
  · rw [← hagain]
    refine congrArg evalIntake ((byteStored_closes hstored hcloses).trans (becomeClosed_still hstored ?_ fun h => hstill h.2))
    rw [show r'.output = .current from hcurrent]
    exact OutputPhase.noConfusion
  · rw [← hagain]
    refine congrArg evalIntake ((byteStored_closes hstored hcloses).trans (becomeClosed_still hstored ?_ fun h => ?_))
    · rw [show r'.output = .queued from hqueued]
      exact OutputPhase.noConfusion
    · exact OutputPhase.noConfusion (h.1.symm.trans hqueued)

/-! The evaluation of the head entry. -/

/-- R56: no entry joins the FIFO while the head entry is discarded. -/
theorem discardHead_fifo_length (j : Fin 16) (rest : List (Fin 16 × Byte)) (s : State) :
    (discardHead j rest s).intake.fifo.length ≤ rest.length :=
  (acts_closeIfDrained j { s with intake.fifo := rest, intake.stall := false }).fifo.length_le

/-- R53: an evaluation looks at no more entries than the FIFO holds. -/
theorem evalHead_fuel {n m : Nat} {s : State} (hn : s.intake.fifo.length < n) (hm : s.intake.fifo.length < m) :
    evalHead n s = evalHead m s := by
  induction n generalizing m s with
  | zero => exact absurd hn (Nat.not_lt_zero _)
  | succ n ih =>
    cases m with
    | zero => exact absurd hm (Nat.not_lt_zero _)
    | succ m =>
      cases hfifo : s.intake.fifo with
      | nil => simp only [evalHead, hfifo]
      | cons e rest =>
        obtain ⟨j, b⟩ := e
        rw [hfifo, List.length_cons] at hn hm
        have hdiscard (t : State) : evalHead n (discardHead j rest t) = evalHead m (discardHead j rest t) := by
          have hlen := discardHead_fifo_length j rest t
          exact ih (by omega) (by omega)
        simp only [evalHead, hfifo, hdiscard]

theorem evalHead_discardHead {n : Nat} {rest : List (Fin 16 × Byte)} (h : rest.length < n) (j : Fin 16) (s : State) :
    evalHead n (discardHead j rest s) = evalIntake (discardHead j rest s) :=
  evalHead_fuel (Nat.lt_of_le_of_lt (discardHead_fifo_length j rest s) h) (Nat.lt_succ_self _)

/-- R53: the six tests on a head entry that has no request, in order. -/
theorem evalIntake_cons {s : State} {j : Fin 16} {b : Byte} {rest : List (Fin 16 × Byte)} {r : Job}
    (hfifo : s.intake.fifo = (j, b) :: rest) (hreq : s.intake.headReq = .none) (hjob : jobAt s j = some r) :
    evalIntake s =
      if r.truncated then evalIntake (discardHead j rest s)
      else if 16777215 ≤ r.stored then evalIntake (discardHead j rest (markTruncated j r s))
      else if tailHasRoom r then requestHead s
      else if r.quota ≠ 0 ∧ r.chainLen = r.quota then evalIntake (discardHead j rest (markTruncated j r s))
      else if s.spool.freeList.isEmpty then stallHead s
      else requestHead s := by
  have hdiscard (t : State) : evalHead s.intake.fifo.length (discardHead j rest t) = evalIntake (discardHead j rest t) :=
    evalHead_discardHead (by rw [hfifo]; exact Nat.lt_succ_self _) j t
  simp only [← hdiscard]
  rw [evalIntake]
  simp only [evalHead, hfifo, hreq, hjob, ne_eq, not_true_eq_false, if_false]
  rfl

theorem closeIfDrained_closes {s : State} {j : Fin 16} {r : Job} (hjob : jobAt s j = some r)
    (hcloses : r.intake = .closing ∧ ∀ e ∈ s.intake.fifo, e.1 ≠ j) : closeIfDrained j s = becomeClosed j s := by
  simp only [closeIfDrained, hjob, (closes_iff s j r).2 hcloses, if_true]

theorem closeIfDrained_open {s : State} {j : Fin 16} {r : Job} (hjob : jobAt s j = some r)
    (hcloses : ¬(r.intake = .closing ∧ ∀ e ∈ s.intake.fifo, e.1 ≠ j)) : closeIfDrained j s = s := by
  simp only [closeIfDrained, hjob]
  exact if_neg (mt (closes_iff s j r).1 hcloses)

/-- Settles O40: `evalIntake_cons` for the six tests, and `becomeClosed_eq`'s cases for the close after a discard. -/
theorem headEvaluation : Obligations.HeadEvaluation := by
  refine ⟨fun s hfifo => ?_, fun s hfifo hreq => ?_, fun s j b rest r hfifo hreq hjob => ?_, fun s j r hjob => ?_⟩
  · rw [evalIntake]
    simp only [evalHead, hfifo]
  · obtain ⟨e, rest, hcons⟩ := List.exists_cons_of_ne_nil hfifo
    rw [evalIntake]
    simp only [evalHead, hcons]
    exact if_pos hreq
  · intro room atQuota discarded marked requested stalled
    rw [evalIntake_cons hfifo hreq hjob]
    refine ⟨fun htruncated => ?_, fun htruncated hfull => ?_, fun htruncated hless hroom => ?_,
      fun htruncated hless hroom hquota => ?_, fun htruncated hless hroom hquota hnone => ?_,
      fun htruncated hless hroom hquota hsome => ?_⟩
    · rw [if_pos htruncated]
      rfl
    · rw [if_neg (Bool.eq_false_iff.1 htruncated), if_pos hfull]
      rfl
    · rw [if_neg (Bool.eq_false_iff.1 htruncated), if_neg (Nat.not_le.2 hless), if_pos ((tailHasRoom_iff r).2 hroom)]
      rfl
    · rw [if_neg (Bool.eq_false_iff.1 htruncated), if_neg (Nat.not_le.2 hless), if_neg (mt (tailHasRoom_iff r).1 hroom),
        if_pos hquota]
      rfl
    · rw [if_neg (Bool.eq_false_iff.1 htruncated), if_neg (Nat.not_le.2 hless), if_neg (mt (tailHasRoom_iff r).1 hroom),
        if_neg hquota, if_pos (List.isEmpty_iff.2 hnone)]
      rfl
    · rw [if_neg (Bool.eq_false_iff.1 htruncated), if_neg (Nat.not_le.2 hless), if_neg (mt (tailHasRoom_iff r).1 hroom),
        if_neg hquota, if_neg (mt List.isEmpty_iff.1 hsome)]
      rfl
  · intro closes closed e starved
    refine ⟨closeIfDrained_open hjob, fun hcloses hpending => ?_, fun hcloses hcurrent hstarved => ?_,
      fun hcloses hcurrent hstill => ?_, fun hcloses hqueued => ?_⟩
    · exact (closeIfDrained_closes hjob hcloses).trans (becomeClosed_pending hjob hpending)
    · exact (closeIfDrained_closes hjob hcloses).trans (becomeClosed_starved hjob hcurrent hstarved)
    · refine (closeIfDrained_closes hjob hcloses).trans (becomeClosed_still hjob ?_ fun h => hstill h.2)
      rw [hcurrent]
      exact OutputPhase.noConfusion
    · refine (closeIfDrained_closes hjob hcloses).trans (becomeClosed_still hjob ?_ fun h => ?_)
      · rw [hqueued]
        exact OutputPhase.noConfusion
      · exact OutputPhase.noConfusion (h.1.symm.trans hqueued)

/-! The end of a read of the scan. -/

/-- Settles O42: the read is counted (`countRead_eq`), and the scan takes its next step (`scanStep_eq`). -/
theorem verifyReadEnd : Obligations.VerifyReadEnd := by
  intro s
  refine ⟨fun hidle => congrArg Host.Outcome.next ?_, fun err r p haccess hrunning hjob hpos => ?_⟩
  · unfold endVerifyRead
    split
    next err haccess => exact (hidle err haccess).elim
    next => rfl
  intro t pos v
  have hends : exec .verifyReadEnd s = .next (scanStep t) := by
    change Host.Outcome.next (endVerifyRead s) = _
    rw [endVerifyRead, haccess]
    exact congrArg (fun u => Host.Outcome.next (scanStep u)) (countRead_eq err s)
  have hstep := scanStep_eq (s := t) (fun err h => by cases h) hrunning hjob
  have hplace : (if t.verify.moved then chainStart r else t.verify.pos) = pos := by
    change (if s.verify.moved then chainStart r else s.verify.pos.map _) = _
    rw [hpos]
    rfl
  rw [hends, hstep, hplace]
  exact congrArg Host.Outcome.next (if_congr (Iff.of_eq (congrArg (· = true) (atStoredEnd_congr rfl r pos))) rfl rfl)

/-! The end of a fetch. -/

/-- R83: readiness is asked for with a byte whatever byte the engine held. -/
theorem askReady_setEngine_fetched (l : Fin 4) (f : Fetched) (g : Option Fetched) (s : State) :
    askReady l f (setEngine l { engineAt s l with fetched := g } s) = askReady l f s := by
  simp only [askReady, engineAt_setEngine_same, setEngine_setEngine]

theorem endFetch_eq {s : State} {l : Fin 4} {err : Bool} (h : s.spool.access = some (.drain l err)) :
    endFetch l s = fetchDone l err s := by
  simp only [endFetch, h, if_true]

/-- R82, R91: the engine of a SENDING line after the end of its fetch: the pause, or readiness. -/
theorem fetchDone_sending {s t : State} {l : Fin 4} {err : Bool} {j : Fin 16} {r : Job} {f : Fetched}
    (ht : fetchResult l err s = t) (hstate : (engineAt t l).state = .sending) (hfetched : (engineAt t l).fetched = some f)
    (hjob : currentJob t l = some (j, r)) :
    fetchDone l err s =
      if (engineAt t l).stop || r.held then
        setEngine l { engineAt t l with state := .paused, step := .boundary, fetched := none } t
      else askReady l f t := by
  simp only [fetchDone, ht, hstate, hfetched, hjob]

theorem fetchDone_fault {s t : State} {l : Fin 4} {err : Bool} (ht : fetchResult l err s = t)
    (hstate : (engineAt t l).state = .fault) : fetchDone l err s = t := by
  simp only [fetchDone, ht, hstate]

theorem engineAt_faulted (l : Fin 4) (c : Cause) (s : State) : engineAt (faulted l c s) l =
    { engineAt s l with state := .fault, cause := c, step := .boundary, fetched := none, hold := none, starve := none } :=
  engineAt_setEngine_same l _ (withdraw l s)

/-- R82: a job's record and the check flag after a fetch that found a check error. -/
def fetchChecked (j : Fin 16) (r : Job) (s : State) : State :=
  flagged 0x80#8 (setJob j { r with checkErrors := if r.checkErrors < 255 then r.checkErrors + 1 else r.checkErrors }
    { s with spool := { s.spool with access := none } })

theorem fetchResult_halt {s : State} {l : Fin 4} {j : Fin 16} {r : Job} (hjob : currentJob s l = some (j, r))
    (hpolicy : (engineAt s l).config.policy = .halt) :
    fetchResult l true s = faulted l .check (fetchChecked j r s) := by
  refine (fetchResult_checked hjob).trans ?_
  simp only [hpolicy]
  rfl

theorem fetchResult_substitute {s : State} {l : Fin 4} {j : Fin 16} {r : Job} {f : Fetched}
    (hjob : currentJob s l = some (j, r)) (hfetched : (engineAt s l).fetched = some f)
    (hpolicy : (engineAt s l).config.policy = .substitute) :
    let w : Fetched := { value := (engineAt s l).config.substitute, kind := .substitute, pos := f.pos }
    fetchResult l true s = setEngine l { engineAt s l with fetched := some w } (fetchChecked j r s) := by
  intro w
  have hengine : engineAt (fetchChecked j r s) l = engineAt s l := rfl
  refine (fetchResult_checked hjob).trans ?_
  simp only [hpolicy]
  change setEngine l { engineAt (fetchChecked j r s) l with
    fetched := (engineAt (fetchChecked j r s) l).fetched.map _ } (fetchChecked j r s) = _
  rw [hengine, hfetched]
  rfl

/-- Settles O41: `fetchDone_sending` after what `fetchResult_checked` leaves, or `fetchDone_fault` under HALT. -/
theorem fetchEnd : Obligations.FetchEnd := by
  intro l s
  refine ⟨fun hidle => congrArg Host.Outcome.next ?_, fun j r f err haccess hstate hfetched hjob => ?_⟩
  · unfold endFetch
    split
    next k err haccess =>
      have hk : k ≠ l := fun h => hidle err (by rw [haccess, h])
      exact if_neg hk
    next => rfl
  intro e free counted pauses dropped
  have hends : exec (.fetchEnd l) s = .next (fetchDone l err s) := congrArg Host.Outcome.next (endFetch_eq haccess)
  rw [hends]
  have hcounted : currentJob counted l = some
      (j, { r with checkErrors := if r.checkErrors < 255 then r.checkErrors + 1 else r.checkErrors }) :=
    currentJob_setJob (s := free) hjob _
  have hsubstitute (herr : err = true) (hpolicy : e.config.policy = .substitute) : fetchDone l err s =
      if pauses then dropped counted
      else askReady l { value := e.config.substitute, kind := .substitute, pos := f.pos } counted := by
    have hresult := fetchResult_substitute hjob hfetched hpolicy
    rw [← herr] at hresult
    let w : Fetched := { value := e.config.substitute, kind := .substitute, pos := f.pos }
    have hcurrent := (currentJob_setEngine_kept (s := counted) (e := { e with fetched := some w }) rfl).trans hcounted
    have hdone := fetchDone_sending hresult (by rw [engineAt_setEngine_same]; exact hstate)
      (by rw [engineAt_setEngine_same]) hcurrent
    rw [hdone, engineAt_setEngine_same, setEngine_setEngine]
    exact congrArg (fun u => if pauses then dropped counted else u) (askReady_setEngine_fetched l w (some w) counted)
  refine ⟨fun herr hpause => congrArg Host.Outcome.next ?_, fun herr hpause => congrArg Host.Outcome.next ?_,
    fun herr hpolicy => congrArg Host.Outcome.next ?_, fun herr hpolicy hpause => congrArg Host.Outcome.next ?_,
    fun herr hpolicy hpause => congrArg Host.Outcome.next ?_⟩
  · exact (fetchDone_sending (t := free) (herr ▸ rfl) hstate hfetched hjob).trans (if_pos hpause)
  · exact (fetchDone_sending (t := free) (herr ▸ rfl) hstate hfetched hjob).trans (if_neg (Bool.eq_false_iff.1 hpause))
  · exact fetchDone_fault (herr ▸ fetchResult_halt hjob hpolicy) (by rw [engineAt_faulted])
  · exact (hsubstitute herr hpolicy).trans (if_pos hpause)
  · exact (hsubstitute herr hpolicy).trans (if_neg (Bool.eq_false_iff.1 hpause))

end Sys2Proof.Machine
end

section
/-! Between the engine and its unit: readiness (R83, R110, R125), the end of a byte (R84, R86, R99), the passing of a byte
(R35, R42) and the completion of a copy (R85). -/

namespace Sys2Proof.Machine

open Sys2Proof.Says

-- One after another: side by side the proofs would each wait in a thread of their own.
set_option Elab.async false

/-! Readiness. -/

/-- R93: what a fault leaves does not depend on what the engine was doing. -/
theorem faulted_setEngine {l : Fin 4} {e : Engine} {s : State} (hcurrent : e.current = (engineAt s l).current)
    (hstop : e.stop = (engineAt s l).stop) (hconfig : e.config = (engineAt s l).config) (c : Cause) :
    faulted l c (setEngine l e s) = faulted l c s := by
  simp only [faulted, withdraw_setEngine, engineAt_setEngine_same, setEngine_setEngine, hcurrent, hstop, hconfig]

/-- R83: the unit fails the byte. -/
theorem askReady_failure {l : Fin 4} {s : State} {c : Cause} (h : unitReady s l = .failure c) (f : Fetched) :
    askReady l f s = faulted l c s := by
  simp only [askReady, answerReady, unitReady_setEngine, h, enterFault_eq]
  exact faulted_setEngine (e := { engineAt s l with step := .waiting, fetched := some f }) rfl rfl rfl c

/-- R84: the unit takes the byte. -/
theorem askReady_ready {l : Fin 4} {s : State} (h : unitReady s l = .ready) (f : Fetched) :
    askReady l f s = unitPut l f.value (inFlight l f s) := by
  simp only [askReady, answerReady, unitReady_setEngine, h, putByte, engineAt_setEngine_same, setEngine_setEngine]
  rfl

/-- R83: the unit lets the byte wait. -/
theorem askReady_notReady {l : Fin 4} {s : State} (h : unitReady s l = .notReady) (f : Fetched) :
    askReady l f s = unitWait l (waitsFor l f s) := by
  simp only [askReady, unitReady_setEngine, h, setEngine_setEngine]
  rfl

theorem unitReady_parLine (s : State) (x : Fin 2) : unitReady s (parLine x) = parReady (parAt s x).snapshot := by
  rw [unitReady, unitOf_parLine]

theorem unitReady_serLine (s : State) (y : Fin 2) : unitReady s (serLine y) = serReady (serAt s y) := by
  rw [unitReady, unitOf_serLine]

theorem unitPut_inFlight_par (x : Fin 2) (f : Fetched) (s : State) :
    unitPut (parLine x) f.value (inFlight (parLine x) f s) =
      setPar x (putPar (parAt s x) f.value) (inFlight (parLine x) f s) := by
  rw [unitPut, unitOf_parLine]
  rfl

theorem unitPut_inFlight_ser (y : Fin 2) (f : Fetched) (s : State) :
    unitPut (serLine y) f.value (inFlight (serLine y) f s) =
      setSer y (putSer (serAt s y) f.value) (inFlight (serLine y) f s) := by
  rw [unitPut, unitOf_serLine]
  rfl

theorem unitWait_waitsFor_par (x : Fin 2) (f : Fetched) (s : State) :
    unitWait (parLine x) (waitsFor (parLine x) f s) =
      setPar x { parAt s x with handshake := .waiting } (waitsFor (parLine x) f s) := by
  rw [unitWait, unitOf_parLine]
  rfl

theorem unitWait_waitsFor_ser (y : Fin 2) (f : Fetched) (s : State) :
    unitWait (serLine y) (waitsFor (serLine y) f s) =
      setSer y { serAt s y with transmit := .waiting } (waitsFor (serLine y) f s) := by
  rw [unitWait, unitOf_serLine]
  rfl

/-- R125: the flow test of a serial line. -/
theorem serReady_eq (u : SerUnit) :
    serReady u = if (u.config.flow = .go ∧ u.snapshot.go = true) ∨ (u.config.flow = .xonxoff ∧ u.xoff = true)
      then .notReady else .ready := by
  unfold serReady
  cases u.config.flow with
  | none => rfl
  | go => cases u.snapshot.go <;> rfl
  | xonxoff => cases u.xoff <;> rfl

/-- Settles O43: the three answers of a unit (`askReady_failure`, `askReady_notReady`, `askReady_ready`), with what each kind of
unit answers. -/
theorem readiness : Obligations.Readiness := by
  refine ⟨fun x f s _ => ?_, fun y f s _ => ?_⟩
  · intro p l
    have hready : unitReady s l = parReady p := unitReady_parLine s x
    refine ⟨fun hon => askReady_failure ?_ f, fun hon hfail => askReady_failure ?_ f,
      fun hon hfail hout => askReady_failure ?_ f, fun hon hfail hout hhold => ?_, fun hon hfail hout hhold => ?_⟩
    · rw [hready, parReady, hon]; rfl
    · rw [hready, parReady, hon, hfail]; rfl
    · rw [hready, parReady, hon, hfail, hout]; rfl
    · rw [askReady_notReady (by rw [hready, parReady, hon, hfail, hout, hhold]; rfl), unitWait_waitsFor_par]
    · rw [askReady_ready (by rw [hready, parReady, hon, hfail, hout, hhold]; rfl), unitPut_inFlight_par]
  · intro u l blocked
    have hready : unitReady s l = if blocked then .notReady else .ready := (unitReady_serLine s y).trans (serReady_eq u)
    refine ⟨fun hblocked => ?_, fun hblocked => ?_⟩
    · rw [askReady_notReady (hready.trans (if_pos hblocked)), unitWait_waitsFor_ser]
    · rw [askReady_ready (hready.trans (if_neg hblocked)), unitPut_inFlight_ser]

/-! The end of a cancelled job. -/

theorem scanGone_ends {j : Fin 16} {s : State} (h : s.verify.running = true ∧ s.verify.job = j) :
    scanGone j s =
      answered (0x09#8 :: scanResults s.verify) { s with verify := { s.verify with running := false } } :=
  if_pos h

theorem scanGone_still {j : Fin 16} {s : State} (h : ¬(s.verify.running = true ∧ s.verify.job = j)) :
    scanGone j s = s :=
  if_neg h

/-- R16: what retirement leaves does not depend on the table's record of the job, which it writes. -/
theorem retired_setJob (j : Fin 16) (q r : Job) (o : JobOutcome) (c : Cause) (s : State) :
    retired j r o c (setJob j q s) = retired j r o c s := by
  have hscan : scanGone j (setJob j q s) = setJob j q (scanGone j s) := by
    by_cases hruns : s.verify.running = true ∧ s.verify.job = j
    · exact (scanGone_ends (s := setJob j q s) hruns).trans (congrArg (setJob j q) (scanGone_ends hruns).symm)
    · exact (scanGone_still (s := setJob j q s) hruns).trans (congrArg (setJob j q) (scanGone_still hruns).symm)
  simp only [retired, hscan, chainOf_congr (s := scanGone j s) (t := setJob j q (scanGone j s)) rfl]
  simp only [setJob, setTab_setTab]
  rfl

/-- R21, R99: a cancelled job whose byte has ended retires, and CANCEL completes. -/
theorem cancelEnds_eq {s : State} {j : Fin 16} {r : Job} (hjob : jobAt s j = some r) (houtput : r.output = .current)
    (hfree : NoAccessOf j s) (st : LineState) (c : Cause) :
    cancelEnds r.line j st c s = answered [0x01#8] (setEngine r.line
      { engineAt s r.line with state := st, cause := c, current := none } (retired j r .cancelled .none s)) := by
  rw [cancelEnds, retire_eq hjob hfree, setEngine_retired houtput]
  rfl

theorem cancelEnds_setJob {s : State} {j : Fin 16} {r : Job} (houtput : r.output = .current) (hfree : NoAccessOf j s)
    (st : LineState) (c : Cause) :
    cancelEnds r.line j st c (setJob j r s) = answered [0x01#8] (setEngine r.line
      { engineAt s r.line with state := st, cause := c, current := none } (retired j r .cancelled .none s)) := by
  rw [cancelEnds_eq (s := setJob j r s) ((jobAt_setJob j r s j).trans (if_pos rfl)) houtput hfree, retired_setJob]
  rfl

/-! The end of a byte. -/

/-- R84: a job's record after a byte of it was delivered. -/
def byteCounted (r : Job) : Job := { r with total := if r.total < 16777215 then r.total + 1 else r.total }

/-- R84: a line whose byte was delivered, before its job's record is written. -/
def byteDone (l : Fin 4) (s : State) : State := setEngine l { engineAt s l with step := .boundary, fetched := none } s

/-- R84, R86: the delivery of a stored or substitute byte. -/
theorem delivered_byte {s : State} {l : Fin 4} {j : Fin 16} {r : Job} {f : Fetched} {p : Pos}
    (hjob : currentJob s l = some (j, r)) (hfetched : (engineAt s l).fetched = some f) (hkind : f.kind ≠ .separator)
    (hpos : f.pos = some p) :
    let u := passByte j (byteCounted r) p (byteDone l s)
    delivered l s =
      if r.cancelPending then
        match jobAt u j with
        | none => u
        | some q =>
          let q' := if copyEnd u q && !q.separate then { q with copiesDone := q.copiesDone + 1 } else q
          decideLine l (cancelEnds l j .idle .none (setJob j q' u))
      else decideLine l u := by
  intro u
  simp only [delivered, hfetched, hjob, hpos]
  cases hk : f.kind with
  | separator => exact absurd hk hkind
  | stored => rfl
  | substitute => rfl

/-- R85, R86: the delivery of a separator. -/
theorem delivered_separator {s : State} {l : Fin 4} {j : Fin 16} {r : Job} {f : Fetched}
    (hjob : currentJob s l = some (j, r)) (hfetched : (engineAt s l).fetched = some f) (hkind : f.kind = .separator) :
    let q := { byteCounted r with sepPending := false }
    delivered l s =
      if r.cancelPending then
        decideLine l (cancelEnds l j .idle .none (setJob j { q with copiesDone := r.copiesDone + 1 } (byteDone l s)))
      else decideLine l (completeCopy l j q (byteDone l s)) := by
  intro q
  simp only [delivered, hfetched, hjob, hkind]
  rfl

theorem failedNoack_cancelled {s : State} {l : Fin 4} {j : Fin 16} {r : Job} (hjob : currentJob s l = some (j, r))
    (hcancel : r.cancelPending = true) :
    failedNoack l s = flagged 0x08#8 (cancelEnds l j .fault .noack (clearCycle l s)) := by
  simp only [failedNoack, hjob, hcancel, if_true]
  rfl

theorem copyEnd_iff (s : State) (r : Job) : copyEnd s r = true ↔
    r.sepPending = false ∧ atStoredEnd s r r.cursor = true ∧ r.intake = .closed := by
  simp [copyEnd, and_assoc]

/-- Settles O46: `delivered_byte`, `delivered_separator` and `failedNoack_cancelled`, with `cancelEnds_setJob` for a job that
CANCEL waits for. -/
theorem byteEnds : Obligations.ByteEnds := by
  intro l j r s hjob counted t ends
  refine ⟨fun f p hfetched hkind hpos hcancel => ?_, fun f p q hfetched hkind hpos hcancel => ?_,
    fun f hfetched hkind hcancel => ?_, fun f hfetched hkind hcancel houtput hline hfree => ?_, fun hcancel => ?_,
    fun hcancel houtput hline hfree => ?_⟩
  · exact (delivered_byte hjob hfetched hkind hpos).trans (if_neg (Bool.eq_false_iff.1 hcancel))
  · intro u hq houtput hline hfree copyEnds
    subst hline
    have hdelivered : delivered q.line s = decideLine q.line (cancelEnds q.line j .idle .none
        (setJob j (if copyEnd u q && !q.separate then { q with copiesDone := q.copiesDone + 1 } else q) u)) := by
      refine (delivered_byte hjob hfetched hkind hpos).trans ((if_pos hcancel).trans ?_)
      change (match jobAt u j with | none => u | some q => _) = _
      rw [hq]
      rfl
    have hends : (copyEnd u q && !q.separate) = true ↔ copyEnds := by
      rw [Bool.and_eq_true, copyEnd_iff, Bool.not_eq_true', and_assoc, and_assoc]
    rw [hdelivered]
    refine ⟨fun hend => ?_, fun hend => ?_⟩
    · rw [if_pos (hends.2 hend)]
      exact congrArg (decideLine q.line)
        (cancelEnds_setJob (r := { q with copiesDone := q.copiesDone + 1 }) houtput hfree .idle .none)
    · rw [if_neg (mt hends.1 hend)]
      exact congrArg (decideLine q.line) (cancelEnds_setJob houtput hfree .idle .none)
  · exact (delivered_separator hjob hfetched hkind).trans (if_neg (Bool.eq_false_iff.1 hcancel))
  · subst hline
    intro r'
    refine (delivered_separator hjob hfetched hkind).trans ((if_pos hcancel).trans ?_)
    exact congrArg (decideLine r.line) (cancelEnds_setJob (r := r') (s := t) houtput hfree .idle .none)
  · simp only [failedNoack, hjob, hcancel, enterFault_eq]
    rfl
  · subst hline
    intro e
    rw [failedNoack_cancelled hjob hcancel, cancelEnds_eq ((jobAt_clearCycle ..).trans (currentJob_jobAt hjob)) houtput
      (noAccessOf_clearCycle hfree _), engineAt_clearCycle, clearCycle_eq]

/-! The passing of a byte and the completion of a copy. -/

/-- R84: a job's record after its byte at `p` was passed. -/
def passedJob (r : Job) (p : Pos) : Job :=
  { r with copyPos := r.copyPos + 1, cursor := some { block := p.block, off := p.off + 1 } }

/-- R35, R84: the byte at a position is passed, and the head block is released where the byte is the first of its block in the
last copy of a job that is not retained. -/
theorem passByte_eq {r : Job} {h : Fin 128} (hhead : r.head = some h) (j : Fin 16) (p : Pos) (s : State) :
    passByte j r p s =
      if p.off = 0 ∧ r.retain = false ∧ r.copiesDone + 1 = r.copies ∧ h ≠ p.block then
        drainRelease j (passedJob r p) h p.block (setJob j (passedJob r p) s)
      else setJob j (passedJob r p) s := by
  have hpassed : passByte j r p s = match r.head with
      | none => setJob j (passedJob r p) s
      | some h =>
        if decide (p.off = 0) && !r.retain && decide (r.copiesDone + 1 = r.copies) && decide (h ≠ p.block) then
          drainRelease j (passedJob r p) h p.block (setJob j (passedJob r p) s)
        else setJob j (passedJob r p) s := rfl
  rw [hpassed, hhead]
  simp only [Bool.and_eq_true, decide_eq_true_eq, Bool.not_eq_true', and_assoc]

/-- R35, R42: the release of the head block, and the scan that stands in it. -/
theorem drainRelease_eq (j : Fin 16) (r : Job) (h nb : Fin 128) (s : State) :
    let q := { r with head := some nb, chainLen := r.chainLen - 1, anyReleased := true }
    let u := setJob j q { s with spool := { s.spool with
      freeList := s.spool.freeList ++ [h], links := setTab s.spool.links h none } }
    drainRelease j r h nb s =
      if s.verify.running = true ∧ s.verify.job = j ∧ s.verify.pos.map Pos.block = some h then
        scanStep { u with verify := { s.verify with moved := true } }
      else u := by
  intro q u
  simp only [drainRelease, Bool.and_eq_true, decide_eq_true_eq, and_assoc]
  rfl

/-- R85: the last copy completes. -/
theorem completeCopy_last {s : State} {j : Fin 16} {r : Job} (hlast : r.copies ≤ r.copiesDone + 1) (houtput : r.output = .current)
    (hfree : NoAccessOf j s) :
    let done := { r with copiesDone := r.copiesDone + 1 }
    completeCopy r.line j r s = setEngine r.line { engineAt s r.line with state := .idle, current := none }
      (retired j done .complete .none (setJob j done s)) := by
  intro done
  have hjob : jobAt (setJob j done s) j = some done := (jobAt_setJob j done s j).trans (if_pos rfl)
  have hengine : engineAt (retired j done .complete .none (setJob j done s)) r.line = { engineAt s r.line with current := none } :=
    engineAt_retired houtput j .complete .none (setJob j done s)
  rw [completeCopy, if_neg (Nat.not_lt.2 hlast), retire_eq hjob hfree]
  simp only [hengine]

theorem scanStep_reading {s : State} {err : Bool} (h : s.spool.access = some (.verify err)) : scanStep s = s := by
  rw [scanStep, h]

/-- Settles O47: `passByte_eq` with `drainRelease_eq` and the scan's next step (`scanStep_eq`), and `completeCopy_last`. -/
theorem passingAByteAndCompletingACopy : Obligations.PassingAByteAndCompletingACopy := by
  refine ⟨fun j r p h s hhead => ?_, fun l j r s => ⟨fun hmore => if_pos hmore, fun hlast houtput hline hfree => ?_⟩⟩
  · intro r' releases
    rw [passByte_eq hhead]
    refine ⟨fun hkeeps => if_neg hkeeps, fun hreleases => ?_⟩
    intro q u inIt start v
    have hmoves : drainRelease j (passedJob r p) h p.block (setJob j (passedJob r p) s) =
        if inIt then scanStep { u with verify := { s.verify with moved := true } } else u := by
      have hu : setJob j q (setJob j (passedJob r p) { s with spool := { s.spool with
          freeList := s.spool.freeList ++ [h], links := setTab s.spool.links h none } }) = u := setJob_setJob ..
      rw [drainRelease_eq, ← hu]
      rfl
    have hstep (hin : inIt) (hread : ∀ err, s.spool.access ≠ some (.verify err)) :
        scanStep { u with verify := { s.verify with moved := true } } =
          if atStoredEnd u q start then
            answered (0x01#8 :: scanResults v) { u with verify := { v with running := false } }
          else { u with verify := v } := by
      obtain ⟨hrunning, hscan, -⟩ := hin
      have hjob : jobAt u s.verify.job = some q := (jobAt_setJob j q _ s.verify.job).trans (if_pos hscan)
      exact scanStep_eq (s := { u with verify := { s.verify with moved := true } }) hread hrunning hjob
    rw [if_pos hreleases, hmoves]
    refine ⟨fun hout => if_neg hout, fun err hin haccess => ?_, fun hin hread hend => ?_, fun hin hread hend => ?_⟩
    · exact (if_pos hin).trans (scanStep_reading (s := { u with verify := { s.verify with moved := true } }) haccess)
    · rw [if_pos hin, hstep hin hread, if_neg (Bool.eq_false_iff.1 hend)]
    · rw [if_pos hin, hstep hin hread, if_pos hend]
  · subst hline
    exact completeCopy_last hlast houtput hfree

end Sys2Proof.Machine
end

section
/-! What a line does at once: the take rule (R71 to R73), the byte boundary (R80) and the copies that complete without a byte
(R85, R87). -/

namespace Sys2Proof.Machine

open Sys2Proof.Says

-- One after another: side by side the proofs would each wait in a thread of their own.
set_option Elab.async false

/-! The job a line would take. -/

theorem unheld_iff (s : State) (k : Fin 16) : unheld s k = true ↔ ∃ r, jobAt s k = some r ∧ r.held = false := by
  unfold unheld
  cases jobAt s k <;> simp

theorem find?_unheld_iff (s : State) (xs : List (Fin 16)) (j : Fin 16) :
    xs.find? (unheld s) = some j ↔
      ∃ a b, xs = a ++ j :: b ∧ unheld s j = true ∧ ∀ k ∈ a, ¬unheld s k = true := by
  rw [List.find?_eq_some_iff_append]
  constructor
  · rintro ⟨hj, a, b, hxs, ha⟩
    exact ⟨a, b, hxs, hj, fun k hk => by simpa using ha k hk⟩
  · rintro ⟨a, b, hxs, hj, ha⟩
    exact ⟨hj, a, b, hxs, fun k hk => by simpa using ha k hk⟩

/-- R71: the first URGENT entry that is not held, or failing that the first NORMAL one. -/
theorem eligible_iff (s : State) (l : Fin 4) (j : Fin 16) :
    eligible s l = some j ↔
      (queueAt s l).urgent.find? (unheld s) = some j ∨
        ((queueAt s l).urgent.find? (unheld s) = none ∧ (queueAt s l).normal.find? (unheld s) = some j) := by
  unfold eligible
  cases hfind : (queueAt s l).urgent.find? (unheld s) <;> simp [hfind]

theorem eligible_unheld {s : State} {l : Fin 4} {j : Fin 16} (h : eligible s l = some j) :
    ∃ r, jobAt s j = some r ∧ r.held = false := by
  rw [← unheld_iff]
  obtain h | ⟨-, h⟩ := (eligible_iff s l j).1 h
  · exact List.find?_some h
  · exact List.find?_some h

/-- R69: the queue that an entry leaves is shorter. -/
theorem queueLength_without_lt {q : LineQueue} {j : Fin 16} (h : j ∈ q.urgent ∨ j ∈ q.normal) :
    queueLength (without j q) < queueLength q := by
  have hle (xs : List (Fin 16)) : (xs.filter (fun k => k ≠ j)).length ≤ xs.length := List.length_filter_le ..
  have hlt {xs : List (Fin 16)} (hj : j ∈ xs) : (xs.filter (fun k => k ≠ j)).length < xs.length :=
    List.length_filter_lt_length_iff_exists.2 ⟨j, hj, by simp⟩
  unfold queueLength without
  obtain hj | hj := h
  · exact Nat.add_lt_add_of_lt_of_le (hlt hj) (hle _)
  · exact Nat.add_lt_add_of_le_of_lt (hle _) (hlt hj)

theorem queueLength_without_le (q : LineQueue) (j : Fin 16) : queueLength (without j q) ≤ queueLength q :=
  Nat.add_le_add (List.length_filter_le ..) (List.length_filter_le ..)

theorem eligible_mem {s : State} {l : Fin 4} {j : Fin 16} (h : eligible s l = some j) :
    j ∈ (queueAt s l).urgent ∨ j ∈ (queueAt s l).normal := by
  obtain h | ⟨-, h⟩ := (eligible_iff s l j).1 h
  · exact .inl (List.mem_of_find?_eq_some h)
  · exact .inr (List.mem_of_find?_eq_some h)

theorem eligible_congr {s t : State} {l : Fin 4} (hqueue : queueAt t l = queueAt s l) (hheld : ∀ k, unheld t k = unheld s k) :
    eligible t l = eligible s l := by
  have hheld' : unheld t = unheld s := funext hheld
  rw [eligible, eligible, hqueue, hheld']

/-! One step of a line. -/

/-- R73: a line with the job that it takes. -/
def taken (l : Fin 4) (j : Fin 16) (r : Job) (s : State) : State :=
  setEngine l { engineAt s l with state := .sending, current := some j, step := .boundary }
    (setJob j { r with output := .current } { s with queues := setTab s.queues l (without j (queueAt s l)) })

theorem takeJob_eq {s : State} {j : Fin 16} {r : Job} (hjob : jobAt s j = some r) (l : Fin 4) :
    takeJob l j s = taken l j r s := by
  simp only [takeJob, hjob]
  rfl

/-- R80: a line is SENDING at a byte boundary with this job. -/
structure Deciding (l : Fin 4) (j : Fin 16) (r : Job) (s : State) : Prop where
  state : (engineAt s l).state = .sending
  step : (engineAt s l).step = .boundary
  job : currentJob s l = some (j, r)

theorem runLine_take {s : State} {l : Fin 4} {j : Fin 16} {r : Job} (hidle : (engineAt s l).state = .idle)
    (hstop : (engineAt s l).stop = false) (htakes : eligible s l = some j) (hjob : jobAt s j = some r) (n : Nat) :
    runLine (n + 1) l s = runLine n l (taken l j r s) := by
  simp only [runLine, hidle, hstop, htakes, takeJob_eq hjob, Bool.false_eq_true, if_false]

theorem runLine_takesNone {s : State} {l : Fin 4} (hidle : (engineAt s l).state = .idle)
    (hnone : (engineAt s l).stop = true ∨ eligible s l = none) (n : Nat) : runLine n l s = s := by
  cases n with
  | zero => rfl
  | succ n =>
    simp only [runLine, hidle]
    obtain hstop | hnone := hnone
    · exact if_pos hstop
    · simp only [hnone, ite_self]

/-- R80: without a copy end the other tests decide. -/
theorem Deciding.runLine_tests {l : Fin 4} {j : Fin 16} {r : Job} {s : State} (h : Deciding l j r s)
    (hend : ¬copyEnd s r = true) (n : Nat) : runLine (n + 1) l s = boundaryTests l r s := by
  simp only [runLine, h.state, h.step, h.job, hend, ne_eq, not_true_eq_false, if_false]
  rfl

/-- R86: a copy end with a separator. -/
theorem Deciding.runLine_separator {l : Fin 4} {j : Fin 16} {r : Job} {s : State} (h : Deciding l j r s)
    (hend : copyEnd s r = true) (hseparate : r.separate = true) (n : Nat) :
    runLine (n + 1) l s = boundaryTests l { r with sepPending := true } (setJob j { r with sepPending := true } s) := by
  simp only [runLine, h.state, h.step, h.job, hend, hseparate, ne_eq, not_true_eq_false, if_false, if_true]
  rfl

/-- R85: a copy end without a separator. -/
theorem Deciding.runLine_copy {l : Fin 4} {j : Fin 16} {r : Job} {s : State} (h : Deciding l j r s)
    (hend : copyEnd s r = true) (hseparate : r.separate = false) (n : Nat) :
    runLine (n + 1) l s = runLine n l (completeCopy l j r s) := by
  simp only [runLine, h.state, h.step, h.job, hend, hseparate, ne_eq, not_true_eq_false, if_false, if_true,
    Bool.false_eq_true]

/-- R94: in the other states a line decides nothing. -/
theorem runLine_waits {s : State} {l : Fin 4}
    (h : (engineAt s l).state ∈ [.off, .starved, .paused, .fault] ∨
      ((engineAt s l).state = .sending ∧ (engineAt s l).step ≠ .boundary)) (n : Nat) : runLine n l s = s := by
  cases n with
  | zero => rfl
  | succ n =>
    rw [runLine]
    obtain h | ⟨hstate, hstep⟩ := h
    · cases hstate : (engineAt s l).state with
      | idle => simp [hstate] at h
      | sending => simp [hstate] at h
      | off => rfl
      | starved => rfl
      | paused => rfl
      | fault => rfl
    · rw [hstate]
      exact if_pos hstep

/-! Enough steps. -/

/-- R2: no job has more than 15 copies. -/
def CopiesBounded (s : State) : Prop := ∀ j r, jobAt s j = some r → r.copies ≤ 15

theorem CopiesBounded.acts {s t : State} (h : CopiesBounded s) (hacts : Acts s t) : CopiesBounded t := by
  intro j r hjob
  cases hold : jobAt s j with
  | none => cases hjob.symm.trans (hacts.free j hold)
  | some q =>
    obtain ⟨r', hr', hlater⟩ := hacts.jobs j q hold
    cases hjob.symm.trans hr'
    rw [hlater.copies]
    exact h j q hold

/-- A bound on the takes and copies that may follow one another on a line: seventeen for each job in its queue, and the copies
that its current job has left. -/
def linePotential (l : Fin 4) (s : State) : Nat :=
  if (engineAt s l).state = .idle then 17 * queueLength (queueAt s l)
  else match currentJob s l with
    | none => 0
    | some (_, r) => r.copies - r.copiesDone + 1 + 17 * queueLength (queueAt s l)

theorem linePotential_idle {s : State} {l : Fin 4} (h : (engineAt s l).state = .idle) :
    linePotential l s = 17 * queueLength (queueAt s l) := if_pos h

theorem Deciding.linePotential_eq {l : Fin 4} {j : Fin 16} {r : Job} {s : State} (h : Deciding l j r s) :
    linePotential l s = r.copies - r.copiesDone + 1 + 17 * queueLength (queueAt s l) := by
  have hstate : (engineAt s l).state ≠ .idle := by rw [h.state]; exact LineState.noConfusion
  rw [linePotential, if_neg hstate, h.job]

theorem deciding_taken (l : Fin 4) (j : Fin 16) (r : Job) (s : State) :
    Deciding l j { r with output := .current } (taken l j r s) where
  state := by rw [taken, engineAt_setEngine_same]
  step := by rw [taken, engineAt_setEngine_same]
  job := currentJob_iff.2 ⟨by rw [taken, engineAt_setEngine_same], (jobAt_setJob j _ _ j).trans (if_pos rfl)⟩

theorem queueAt_taken (l : Fin 4) (j : Fin 16) (r : Job) (s : State) :
    queueAt (taken l j r s) l = without j (queueAt s l) := tab_setTab_same s.queues l _

theorem linePotential_taken {s : State} {l : Fin 4} {j : Fin 16} {r : Job} (hidle : (engineAt s l).state = .idle)
    (htakes : eligible s l = some j) (hcopies : r.copies ≤ 15) : linePotential l (taken l j r s) < linePotential l s := by
  have hlen := queueLength_without_lt (eligible_mem htakes)
  rw [(deciding_taken l j r s).linePotential_eq, linePotential_idle hidle, queueAt_taken]
  simp only
  omega

/-! The queues are shortened alone. -/

theorem storeHead_queues (k : BitVec 1) (s : State) : (storeHead k s).queues = s.queues := by
  unfold storeHead
  split
  · rfl
  · simp only
    split
    · rfl
    · split <;> rfl

theorem endAccessOf_queues (j : Fin 16) (s : State) : (endAccessOf j s).queues = s.queues := by
  unfold endAccessOf
  split
  · split
    · split
      · exact storeHead_queues _ s
      · rfl
    · rfl
  · split
    · rw [countRead_eq]; rfl
    · rfl
  · rfl
  · rfl

theorem scanGone_queues (j : Fin 16) (s : State) : (scanGone j s).queues = s.queues := by
  unfold scanGone; split <;> rfl

theorem retired_queues (j : Fin 16) (r : Job) (o : JobOutcome) (c : Cause) (s : State) :
    (retired j r o c s).queues =
      if r.output = .queued then setTab s.queues r.line (without j (queueAt s r.line)) else s.queues := by
  rw [← scanGone_queues j s, queueAt, ← scanGone_queues j s]
  rfl

theorem queueLength_retired_le (j : Fin 16) (r : Job) (o : JobOutcome) (c : Cause) (s : State) (l : Fin 4) :
    queueLength (queueAt (retired j r o c s) l) ≤ queueLength (queueAt s l) := by
  rw [queueAt, retired_queues]
  split
  · rw [tab_setTab]
    split
    next h => rw [h]; exact queueLength_without_le _ j
    · exact Nat.le_refl _
  · exact Nat.le_refl _

theorem queueLength_retire_le (j : Fin 16) (o : JobOutcome) (c : Cause) (s : State) (l : Fin 4) :
    queueLength (queueAt (retire j o c s) l) ≤ queueLength (queueAt s l) := by
  have hends : queueAt (endAccessOf j s) l = queueAt s l := by rw [queueAt, endAccessOf_queues]; rfl
  rw [← hends, retire]
  cases jobAt (endAccessOf j s) j with
  | none => exact Nat.le_refl _
  | some r =>
    refine Nat.le_trans (Nat.le_of_eq ?_) (queueLength_retired_le j r o c (endAccessOf j s) l)
    rw [← retireNow_eq]

theorem linePotential_completeCopy {l : Fin 4} {j : Fin 16} {r : Job} {s : State} (h : Deciding l j r s) :
    linePotential l (completeCopy l j r s) < linePotential l s := by
  rw [h.linePotential_eq]
  by_cases hmore : r.copiesDone + 1 < r.copies
  · have hnext : Deciding l j { r with copiesDone := r.copiesDone + 1, cursor := chainStart r, copyPos := 0 }
        (completeCopy l j r s) := by
      rw [completeCopy, if_pos hmore]
      exact ⟨h.state, h.step, currentJob_setJob h.job _⟩
    have hqueue : queueAt (completeCopy l j r s) l = queueAt s l := by rw [completeCopy, if_pos hmore]; rfl
    rw [hnext.linePotential_eq, hqueue]
    simp only
    omega
  · have hidle : (engineAt (completeCopy l j r s) l).state = .idle := by
      rw [completeCopy, if_neg hmore, engineAt_setEngine_same]
    have hqueue : queueLength (queueAt (completeCopy l j r s) l) ≤ queueLength (queueAt s l) := by
      rw [completeCopy, if_neg hmore]
      exact queueLength_retire_le j .complete .none (setJob j { r with copiesDone := r.copiesDone + 1 } s) l
    rw [linePotential_idle hidle]
    omega

theorem CopiesBounded.completeCopy {l : Fin 4} {j : Fin 16} {r : Job} {s : State} (h : CopiesBounded s)
    (hjob : jobAt s j = some r) : CopiesBounded (completeCopy l j r s) :=
  h.acts (acts_completeCopy l j r r s hjob (Later.refl r) (Nat.le_refl _))

theorem CopiesBounded.taken {l : Fin 4} {j : Fin 16} {r : Job} {s : State} (h : CopiesBounded s)
    (hjob : jobAt s j = some r) : CopiesBounded (taken l j r s) := by
  rw [← takeJob_eq hjob]
  exact h.acts (acts_takeJob l j s)

/-- Log 11: with more steps than its potential a line decides the same. -/
theorem runLine_fuel {l : Fin 4} {n m : Nat} {s : State} (hcopies : CopiesBounded s) (hn : linePotential l s < n)
    (hm : linePotential l s < m) : runLine n l s = runLine m l s := by
  induction n generalizing m s with
  | zero => exact absurd hn (Nat.not_lt_zero _)
  | succ n ih =>
    cases m with
    | zero => exact absurd hm (Nat.not_lt_zero _)
    | succ m =>
      have hnext {t : State} (ht : CopiesBounded t) (hless : linePotential l t < linePotential l s) :
          runLine n l t = runLine m l t := ih ht (by omega) (by omega)
      cases hstate : (engineAt s l).state with
      | idle =>
        cases hstop : (engineAt s l).stop with
        | true => rw [runLine_takesNone hstate (.inl hstop), runLine_takesNone hstate (.inl hstop)]
        | false =>
          cases htakes : eligible s l with
          | none => rw [runLine_takesNone hstate (.inr htakes), runLine_takesNone hstate (.inr htakes)]
          | some j =>
            obtain ⟨r, hjob, -⟩ := eligible_unheld htakes
            rw [runLine_take hstate hstop htakes hjob, runLine_take hstate hstop htakes hjob]
            exact hnext (hcopies.taken hjob) (linePotential_taken hstate htakes (hcopies j r hjob))
      | sending =>
        by_cases hstep : (engineAt s l).step = .boundary
        · cases hcurrent : currentJob s l with
          | none => simp only [runLine, hstate, hcurrent]
          | some jr =>
            obtain ⟨j, r⟩ := jr
            have h : Deciding l j r s := ⟨hstate, hstep, hcurrent⟩
            by_cases hend : copyEnd s r = true
            · cases hseparate : r.separate with
              | true => rw [h.runLine_separator hend hseparate, h.runLine_separator hend hseparate]
              | false =>
                rw [h.runLine_copy hend hseparate, h.runLine_copy hend hseparate]
                exact hnext (hcopies.completeCopy (currentJob_jobAt hcurrent)) (linePotential_completeCopy h)
            · rw [h.runLine_tests hend, h.runLine_tests hend]
        · rw [runLine_waits (.inr ⟨hstate, hstep⟩), runLine_waits (.inr ⟨hstate, hstep⟩)]
      | off => simp only [runLine, hstate]
      | starved => simp only [runLine, hstate]
      | paused => simp only [runLine, hstate]
      | fault => simp only [runLine, hstate]

theorem runLine_eq_decideLine {l : Fin 4} {n : Nat} {s : State} (hcopies : CopiesBounded s) (hn : linePotential l s < n)
    (hbound : linePotential l s < 320) : runLine n l s = decideLine l s :=
  runLine_fuel hcopies hn hbound

/-! The take rule. -/

theorem chainStart_none {r : Job} (h : r.head = none) : chainStart r = none := by rw [chainStart, h]; rfl

/-- R87: the record of a CLOSED job without a byte and without a separator, none of its copies under way. -/
structure ZeroLength (r : Job) : Prop where
  sepPending : r.sepPending = false
  separate : r.separate = false
  intake : r.intake = .closed
  head : r.head = none
  tail : r.tail = none
  cursor : r.cursor = none
  copyPos : r.copyPos = 0
  output : r.output = .current

theorem ZeroLength.copyEnd {r : Job} (h : ZeroLength r) (s : State) : copyEnd s r = true := by
  rw [copyEnd_iff, atStoredEnd, h.tail]
  exact ⟨h.sepPending, rfl, h.intake⟩

/-- R85, R87: the copies of a job of length zero complete one after another, and it retires. -/
theorem runLine_zeroLength {n k : Nat} {j : Fin 16} {r : Job} {s : State} (h : Deciding r.line j r s) (hzero : ZeroLength r)
    (hfree : NoAccessOf j s) (hleft : r.copies = r.copiesDone + (k + 1)) :
    let done := { r with copiesDone := r.copies }
    runLine (n + (k + 1)) r.line s = runLine n r.line
      (setEngine r.line { engineAt s r.line with state := .idle, current := none }
        (retired j done .complete .none (setJob j done s))) := by
  induction k generalizing r s with
  | zero =>
    intro done
    have hdone : { r with copiesDone := r.copiesDone + 1 } = done := by simp only [done, hleft]
    rw [h.runLine_copy (hzero.copyEnd s) hzero.separate, completeCopy_last (by omega) hzero.output hfree, hdone]
  | succ k ih =>
    intro done
    have hnext : completeCopy r.line j r s = setJob j { r with copiesDone := r.copiesDone + 1 } s := by
      have hcursor : chainStart r = r.cursor := (chainStart_none hzero.head).trans hzero.cursor.symm
      rw [completeCopy, if_pos (by omega), hcursor, ← hzero.copyPos]
    have hcopies : r.copies = r.copiesDone + 1 + (k + 1) := by omega
    have hdeciding : Deciding r.line j { r with copiesDone := r.copiesDone + 1 }
        (setJob j { r with copiesDone := r.copiesDone + 1 } s) := ⟨h.state, h.step, currentJob_setJob h.job _⟩
    have hrest := ih (r := { r with copiesDone := r.copiesDone + 1 })
      (s := setJob j { r with copiesDone := r.copiesDone + 1 } s) hdeciding { hzero with } hfree hcopies
    rw [← Nat.add_assoc, h.runLine_copy (hzero.copyEnd s) hzero.separate, hnext, hrest, setJob_setJob]
    rfl

/-- R85: a line that a job left is IDLE, with the queue that it had. -/
theorem linePotential_left {j : Fin 16} {r : Job} {s : State} (houtput : r.output = .current) (e : Engine) (q : Job) :
    linePotential r.line (setEngine r.line { e with state := .idle, current := none }
      (retired j r .complete .none (setJob j q s))) = 17 * queueLength (queueAt s r.line) := by
  have hqueue : (retired j r .complete .none (setJob j q s)).queues = s.queues := by
    rw [retired_queues, houtput]
    rfl
  rw [linePotential_idle (by rw [engineAt_setEngine_same]), queueAt_setEngine, queueAt, hqueue]
  rfl

theorem jobAt_retired (j : Fin 16) (r : Job) (o : JobOutcome) (c : Cause) (s : State) (k : Fin 16) :
    ∃ r', r'.held = r.held ∧ r'.copies = r.copies ∧ jobAt (retired j r o c s) k = if k = j then some r' else jobAt s k := by
  have hjobs : (scanGone j s).jobs = s.jobs := by unfold scanGone; split <;> rfl
  refine ⟨_, ?_, ?_, (tab_setTab ..).trans (if_congr Iff.rfl rfl ?_)⟩
  · rfl
  · rfl
  · rw [hjobs]; rfl

theorem CopiesBounded.setJob {s : State} (h : CopiesBounded s) {r : Job} (hr : r.copies ≤ 15) (j : Fin 16) :
    CopiesBounded (setJob j r s) := by
  intro k q hq
  rw [jobAt_setJob] at hq
  split at hq
  · cases hq; exact hr
  · exact h k q hq

theorem CopiesBounded.retired {s : State} (h : CopiesBounded s) {r : Job} (hr : r.copies ≤ 15) (j : Fin 16) (o : JobOutcome)
    (c : Cause) : CopiesBounded (retired j r o c s) := by
  intro k q hq
  obtain ⟨r', -, hcopies, hk⟩ := jobAt_retired j r o c s k
  rw [hk] at hq
  split at hq
  · cases hq; exact hcopies ▸ hr
  · exact h k q hq

/-- R71: the retirement of a job that is in no queue leaves what a line would take. -/
theorem eligible_left {j : Fin 16} {r : Job} {s : State} (hjob : jobAt s j = some r) (houtput : r.output = .current)
    (l : Fin 4) (e : Engine) :
    let done := { r with copiesDone := r.copiesDone + 1 }
    eligible (setEngine r.line e (retired j done .complete .none (setJob j done s))) l = eligible s l := by
  intro done
  refine eligible_congr ?_ fun k => ?_
  · have hqueue : (retired j done .complete .none (setJob j done s)).queues = s.queues := by
      rw [retired_queues, show done.output = .current from houtput]
      rfl
    rw [queueAt_setEngine, queueAt, hqueue]
    rfl
  · obtain ⟨r', hheld, -, hretired⟩ := jobAt_retired j done .complete .none (setJob j done s) k
    have hk : jobAt (setEngine r.line e (retired j done .complete .none (setJob j done s))) k =
        if k = j then some r' else jobAt s k := by
      refine hretired.trans ?_
      rw [jobAt_setJob]
      split <;> rfl
    unfold unheld
    by_cases hkj : k = j
    · rw [hk, if_pos hkj, hkj, hjob]
      exact congrArg not hheld
    · rw [hk, if_neg hkj]

/-- Settles O49: the equations of one step of a line, and `runLine_fuel` for the steps that are left. -/
theorem byteBoundary : Obligations.ByteBoundary := by
  intro l j r s hstate hstep hjob ended
  have h : Deciding l j r s := ⟨hstate, hstep, hjob⟩
  have hends : copyEnd s r = true ↔ ended := copyEnd_iff s r
  refine ⟨fun hnot => h.runLine_tests (mt hends.1 hnot) 319,
    fun hended hseparate => h.runLine_separator (hends.2 hended) hseparate 319,
    fun hended hseparate hmore => ?_, fun hended hseparate hlast houtput hline hfree => ?_⟩
  · intro r'
    have hcopy : decideLine l s = runLine 319 l (setJob j r' s) :=
      (h.runLine_copy (hends.2 hended) hseparate 319).trans (congrArg (runLine 319 l) (if_pos hmore))
    have hnext : Deciding l j r' (setJob j r' s) := ⟨hstate, hstep, currentJob_setJob hjob r'⟩
    rw [hcopy]
    refine ⟨fun ⟨hlen, hcopies⟩ => ?_, fun hnotEnd => hnext.runLine_tests (fun hcopyEnd => ?_) 318⟩
    · have hcopies' : CopiesBounded (setJob j r' s) := by
        have hkept := CopiesBounded.completeCopy (l := l) hcopies (currentJob_jobAt hjob)
        rwa [completeCopy, if_pos hmore] at hkept
      have hpotential : linePotential l (setJob j r' s) < 319 := by
        have hr : r'.copies ≤ 15 := hcopies j r (currentJob_jobAt hjob)
        have hqueue : queueLength (queueAt (setJob j r' s) l) ≤ 16 := hlen
        rw [hnext.linePotential_eq]
        omega
      exact runLine_eq_decideLine hcopies' hpotential (by omega)
    · obtain ⟨-, hatEnd, -⟩ := (copyEnd_iff _ r').1 hcopyEnd
      rw [atStoredEnd_congr (s := s) (t := setJob j r' s) rfl, hnotEnd] at hatEnd
      cases hatEnd
  · subst hline
    intro t
    have ht : completeCopy r.line j r s = t := completeCopy_last hlast houtput hfree
    have hcopy : decideLine r.line s = runLine 319 r.line t :=
      (h.runLine_copy (hends.2 hended) hseparate 319).trans (congrArg (runLine 319 r.line) ht)
    have hidle : (engineAt t r.line).state = .idle := by rw [engineAt_setEngine_same]
    rw [hcopy]
    refine ⟨fun ⟨hlen, hcopies⟩ => ?_, fun hnone => runLine_takesNone hidle ?_ 319⟩
    · have hcopies' : CopiesBounded t := ht ▸ CopiesBounded.completeCopy hcopies (currentJob_jobAt hjob)
      have hpotential : linePotential r.line t ≤ 17 * 16 := by
        have hleft := linePotential_left (j := j) (s := s) (r := { r with copiesDone := r.copiesDone + 1 }) houtput
          (engineAt s r.line) { r with copiesDone := r.copiesDone + 1 }
        exact Nat.le_trans (Nat.le_of_eq hleft) (Nat.mul_le_mul_left 17 hlen)
      exact runLine_eq_decideLine hcopies' (by omega) (by omega)
    · refine hnone.imp (fun hstop => ?_) fun htakes => ?_
      · rw [engineAt_setEngine_same]
        exact hstop
      · exact (eligible_left (currentJob_jobAt hjob) houtput r.line _).trans htakes

/-- Settles O48: `eligible_iff`, the equations of one step of a line, `runLine_zeroLength`, and `runLine_fuel` for the steps
that are left. -/
theorem takeRule : Obligations.TakeRule := by
  refine ⟨fun s l j => ?_, fun l s hidle => ⟨fun hnone => runLine_takesNone hidle hnone 320, fun j r hstop htakes hjob => ?_⟩,
    fun l s hwaits => runLine_waits hwaits 320⟩
  · intro takes
    rw [eligible_iff, find?_unheld_iff, find?_unheld_iff, List.find?_eq_none]
    simp only [unheld_iff]
    rfl
  intro r' t
  have htake : decideLine l s = runLine 319 l t := runLine_take hidle hstop htakes hjob 319
  have hdeciding : Deciding l j r' t := deciding_taken l j r s
  have hlinks : t.spool.links = s.spool.links := rfl
  have hends : copyEnd t r' = true ↔ r.sepPending = false ∧ atStoredEnd s r r.cursor = true ∧ r.intake = .closed := by
    rw [copyEnd_iff, atStoredEnd_congr hlinks]
    rfl
  rw [htake]
  refine ⟨fun ⟨hlen, hcopies⟩ => ?_, fun hnot => hdeciding.runLine_tests (mt hends.1 hnot) 318,
    fun hsep hend hclosed hseparate => hdeciding.runLine_separator (hends.2 ⟨hsep, hend, hclosed⟩) hseparate 318,
    fun ⟨hlen, hcopies⟩ hsep hseparate hclosed hhead htail hcursor hpos hleft hline hfree => ?_⟩
  · have hless : linePotential l t < linePotential l s := linePotential_taken hidle htakes (hcopies j r hjob)
    have hbound : linePotential l s ≤ 17 * 16 :=
      Nat.le_trans (Nat.le_of_eq (linePotential_idle hidle)) (Nat.mul_le_mul_left 17 hlen)
    exact runLine_eq_decideLine (CopiesBounded.taken hcopies hjob) (by omega) (by omega)
  · subst hline
    intro done
    have hzero : ZeroLength r' := ⟨hsep, hseparate, hclosed, hhead, htail, hcursor, hpos, rfl⟩
    have hcopies15 : r.copies ≤ 15 := hcopies j r hjob
    obtain ⟨k, hk⟩ : ∃ k, r'.copies = r'.copiesDone + (k + 1) := ⟨r.copies - r.copiesDone - 1, by
      simp only [r']; omega⟩
    obtain ⟨n, hn⟩ : ∃ n, 319 = n + (k + 1) := ⟨319 - (k + 1), by simp only [r'] at hk; omega⟩
    have hrun := runLine_zeroLength (n := n) (r := r') hdeciding hzero hfree hk
    rw [← hn] at hrun
    rw [hrun]
    have hdone : done.copies ≤ 15 := hcopies15
    have hcopies' : CopiesBounded (retired j done .complete .none (setJob j done t)) :=
      ((CopiesBounded.taken hcopies hjob).setJob hdone j).retired hdone j _ _
    have hpotential : linePotential r.line (setEngine r.line { engineAt t r.line with state := .idle, current := none }
        (retired j done .complete .none (setJob j done t))) ≤ 17 * 16 := by
      have hleft := linePotential_left (j := j) (s := t) (r := done) rfl (engineAt t r.line) done
      have hqueue : queueLength (queueAt t r.line) ≤ 16 := by
        rw [show queueAt t r.line = without j (queueAt s r.line) from queueAt_taken r.line j r s]
        exact Nat.le_trans (queueLength_without_le _ j) hlen
      exact Nat.le_trans (Nat.le_of_eq hleft) (Nat.mul_le_mul_left 17 hqueue)
    refine runLine_eq_decideLine hcopies' (Nat.lt_of_le_of_lt hpotential ?_) (Nat.lt_of_le_of_lt hpotential (by decide))
    simp only [r'] at hk
    omega

end Sys2Proof.Machine
end

section
/-! The Parallel Line Unit: the handshake (R112 to R116) and its inputs (R109 to R114, R117). -/

namespace Sys2Proof.Machine

open Sys2Proof.Says

-- One after another: side by side the proofs would each wait in a thread of their own.
set_option Elab.async false

theorem setPar_parAt (x : Fin 2) (s : State) : setPar x (parAt s x) s = s :=
  congrArg (fun par => { s with par := par }) (setTab_tab s.par x)

theorem setPar_setPar (x : Fin 2) (u v : ParUnit) (s : State) : setPar x u (setPar x v s) = setPar x u s :=
  congrArg (fun par => { s with par := par }) (setTab_setTab s.par x v u)

theorem parAt_setPar_same (x : Fin 2) (u : ParUnit) (s : State) : parAt (setPar x u s) x = u :=
  (parAt_setPar x u s x).trans (if_pos rfl)

/-! The report of a byte's end. -/

theorem beforeReport_eq (l : Fin 4) (s : State) : beforeReport l s = reporting l s := by
  unfold beforeReport reporting
  cases currentJob s l with
  | none => rfl
  | some jr => exact if_congr Iff.rfl (endIntakeAccessOf_eq jr.1 s) rfl

theorem reportEnd_delivered (x : Fin 2) (s : State) :
    reportEnd x .delivered s = evalIntake (delivered (parLine x) (parEnded x (reporting (parLine x) s))) := by
  rw [reportEnd, beforeReport_eq]
  rfl

theorem reportEnd_noack (x : Fin 2) (s : State) :
    reportEnd x .noack s = evalIntake (failedNoack (parLine x) (parEnded x (reporting (parLine x) s))) := by
  rw [reportEnd, beforeReport_eq]
  rfl

/-- R112: a byte is out from SETUP to ACKWAIT. -/
theorem byteOut_iff (h : Handshake) :
    byteOut h = true ↔ h = .setup ∨ h = .strobe ∨ h = .trail ∨ h = .ackwait := by
  cases h <;> simp [byteOut]

/-- Settles O44: the ends of the phases are the model's own, a decided byte is reported (`reportEnd_delivered`,
`reportEnd_noack`), and `byteOut` says where the outputs hold the byte. -/
theorem handshakePhases : Obligations.HandshakePhases := by
  intro x s u
  have htrail : exec (.trailEnd x) s = .next (endTrail x s) := rfl
  refine ⟨rfl, rfl, fun hphase => ?_, fun hphase hnone => ?_, fun hphase hdecided => ?_, fun hphase hdecided => ?_,
    fun hphase => ?_, fun hphase => ?_, ?_⟩
  · exact congrArg Host.Outcome.next (if_neg hphase)
  · rw [htrail, endTrail, if_pos hphase]
    simp only [show (parAt s x).decided = none from hnone]
    rw [← hnone]
  · rw [htrail, endTrail, if_pos hphase, ← reportEnd_delivered]
    simp only [show (parAt s x).decided = some .delivered from hdecided]
  · rw [htrail, endTrail, if_pos hphase, ← reportEnd_noack]
    simp only [show (parAt s x).decided = some .noack from hdecided]
  · exact if_pos ((byteOut_iff u.handshake).2 (by simpa using hphase))
  · refine if_neg fun hout => ?_
    have hflying := (byteOut_iff u.handshake).1 hout
    simp only [List.mem_cons, List.not_mem_nil, or_false] at hphase
    obtain h | h := hphase <;> simp [h] at hflying
  · rw [xPut, bne_eq_false_iff_eq]

/-! A byte in flight. -/

/-- R113, R115: the outcome of an undecided byte that is out is decided. -/
theorem decideByte_undecided {x : Fin 2} {s : State} (hout : byteOut (parAt s x).handshake = true)
    (hnone : (parAt s x).decided = none) (o : ByteEnd) :
    decideByte x o s =
      let t := setPar x { parAt s x with decided := some o, ack := none } s
      if (parAt s x).handshake = .ackwait then reportEnd x o t else t := by
  simp only [decideByte, hout, hnone, Option.isNone_none, Bool.and_self, if_true]

/-- R113: a byte that is decided, or not out, is not decided again. -/
theorem decideByte_still {x : Fin 2} {s : State}
    (h : ¬(byteOut (parAt s x).handshake = true ∧ (parAt s x).decided = none)) (o : ByteEnd) : decideByte x o s = s := by
  rw [← Option.isNone_iff_eq_none, ← Bool.and_eq_true] at h
  exact if_neg h

/-- R113, R114: the device has acknowledged the byte: the fall of xTOOK, or the fall of xHOLD after a busy that was seen. -/
def Acknowledged (u : ParUnit) (old new : ParPins) : Prop :=
  if u.config.holdCycle then old.hold = true ∧ new.hold = false ∧ u.busySeen = true
  else old.took = true ∧ new.took = false

theorem examineInFlight_acknowledged {x : Fin 2} {old new : ParPins} {s : State} (h : Acknowledged (parAt s x) old new) :
    examineInFlight x old new s = decideByte x .delivered s := by
  unfold Acknowledged at h
  unfold examineInFlight
  cases hcycle : (parAt s x).config.holdCycle with
  | true =>
    rw [hcycle, if_pos rfl] at h
    obtain ⟨hold, hnew, hbusy⟩ := h
    simp [hcycle, hold, hnew, hbusy]
  | false =>
    rw [hcycle, if_neg Bool.false_ne_true] at h
    obtain ⟨hold, hnew⟩ := h
    simp [hcycle, hold, hnew]

/-- R114: a change that acknowledges nothing may be the rise of xHOLD, the busy that HOLD-cycle mode waits for. -/
theorem examineInFlight_still {x : Fin 2} {old new : ParPins} {s : State} (h : ¬Acknowledged (parAt s x) old new) :
    examineInFlight x old new s = setPar x { parAt s x with
      busySeen := (parAt s x).busySeen || ((parAt s x).config.holdCycle && new.hold && !old.hold) } s := by
  have hsame : setPar x { parAt s x with busySeen := (parAt s x).busySeen } s = s := setPar_parAt x s
  unfold Acknowledged at h
  unfold examineInFlight
  cases hcycle : (parAt s x).config.holdCycle with
  | true =>
    rw [hcycle, if_pos rfl] at h
    cases hnew : new.hold <;> cases hold : old.hold <;> simp_all
  | false =>
    rw [hcycle, if_neg Bool.false_ne_true] at h
    have hnot : (!new.took && old.took) = false := by
      cases hnew : new.took <;> cases hold : old.took <;> simp_all
    simp [hcycle, hnot, hsame]

/-! The inputs. -/

theorem exec_inputChange (x : Fin 2) (new : ParPins) (s : State) :
    exec (.inputChange x new) s = .next (changeInputs x new s) := rfl

/-- R109: the unit of a parallel line with its inputs changed, in the snapshot too. -/
def parSeen (x : Fin 2) (new : ParPins) (s : State) : State :=
  setPar x { parAt s x with pins := new, snapshot := new } s

theorem parAt_parSeen (x : Fin 2) (new : ParPins) (s : State) :
    parAt (parSeen x new s) x = { parAt s x with pins := new, snapshot := new } := parAt_setPar_same ..

/-- R109, R111, R113: what a change of the inputs does in each phase of the handshake. -/
theorem changeInputs_eq {s : State} (hreset : inReset s = false) (x : Fin 2) (new : ParPins) :
    changeInputs x new s = match (parAt s x).handshake with
      | .rest => parSeen x new s
      | .waiting =>
        if readyInputsDiffer (parAt s x).snapshot new then answerReady (parLine x) (parSeen x new s) else parSeen x new s
      | .setup => examineInFlight x (parAt s x).snapshot new (parSeen x new s)
      | .strobe => examineInFlight x (parAt s x).snapshot new (parSeen x new s)
      | .trail => examineInFlight x (parAt s x).snapshot new (parSeen x new s)
      | .ackwait => examineInFlight x (parAt s x).snapshot new (parSeen x new s) := by
  rw [changeInputs, hreset]
  rfl

/-- R113: a change of the inputs while a byte is in flight. -/
theorem changeInputs_flying {x : Fin 2} {s : State} (hreset : inReset s = false)
    (hflying : byteOut (parAt s x).handshake = true) (new : ParPins) :
    changeInputs x new s = examineInFlight x (parAt s x).snapshot new (parSeen x new s) := by
  rw [changeInputs_eq hreset]
  cases hphase : (parAt s x).handshake with
  | rest => rw [hphase] at hflying; cases hflying
  | waiting => rw [hphase] at hflying; cases hflying
  | setup => rfl
  | strobe => rfl
  | trail => rfl
  | ackwait => rfl

theorem readyInputsDiffer_iff (a b : ParPins) :
    readyInputsDiffer a b = true ↔ b.hold ≠ a.hold ∨ b.fail ≠ a.fail ∨ b.out ≠ a.out ∨ b.on ≠ a.on := by
  simp only [readyInputsDiffer, Bool.or_eq_true, bne_iff_ne, or_assoc, ne_comm]

/-- R111: a change of the inputs while a byte waits for readiness. -/
theorem changeInputs_waiting {x : Fin 2} {s : State} (hreset : inReset s = false)
    (hwaiting : (parAt s x).handshake = .waiting) (new : ParPins) :
    changeInputs x new s =
      if readyInputsDiffer (parAt s x).snapshot new then answerReady (parLine x) (parSeen x new s) else parSeen x new s := by
  rw [changeInputs_eq hreset, hwaiting]

theorem answerReady_failure {s : State} {l : Fin 4} {c : Cause} (h : unitReady s l = .failure c) :
    answerReady l s = faulted l c s := by
  rw [answerReady, h, ← enterFault_eq]

theorem answerReady_notReady {s : State} {l : Fin 4} (h : unitReady s l = .notReady) : answerReady l s = s := by
  rw [answerReady, h]

theorem answerReady_ready {s : State} {l : Fin 4} {f : Fetched} (h : unitReady s l = .ready)
    (hfetched : (engineAt s l).fetched = some f) : answerReady l s = unitPut l f.value (inFlight l f s) := by
  rw [answerReady, h]
  simp only [putByte, hfetched, inFlight]

/-- Settles O45: `examineInFlight_acknowledged`, `examineInFlight_still` and `decideByte_undecided` for a byte in flight, and the
three answers of a unit for one that waits. -/
theorem inputChange : Obligations.InputChange := by
  refine ⟨fun x new s => ?_, fun x new f s hreset hwaiting hfetched => ?_⟩
  · intro u flying seen acknowledged
    have hflying : flying → byteOut u.handshake = true := (byteOut_iff u.handshake).2
    have hacknowledged : acknowledged ↔ Acknowledged (parAt (parSeen x new s) x) u.snapshot new := by
      rw [parAt_parSeen]
      exact Iff.rfl
    have hdecides (hreset : inReset s = false) (hfly : flying) (hack : acknowledged) :
        exec (.inputChange x new) s = .next (decideByte x .delivered (parSeen x new s)) := by
      rw [exec_inputChange, changeInputs_flying hreset (hflying hfly), examineInFlight_acknowledged (hacknowledged.1 hack)]
    refine ⟨fun hreset => ?_, fun hreset hrest => ?_, fun hreset hfly hack hnone hphase => ?_,
      fun hreset hphase hack hnone => ?_, fun hreset hfly hack hdecided => ?_, fun hreset hfly hack => ?_⟩
    · exact congrArg Host.Outcome.next (if_pos hreset)
    · rw [exec_inputChange, changeInputs_eq hreset, show (parAt s x).handshake = .rest from hrest]
      rfl
    · rw [hdecides hreset hfly hack]
      refine congrArg Host.Outcome.next ((decideByte_undecided ?_ ?_ .delivered).trans ((if_neg ?_).trans ?_))
      · rw [parAt_parSeen]; exact hflying hfly
      · rw [parAt_parSeen]; exact hnone
      · rw [parAt_parSeen]; exact hphase
      · rw [parAt_parSeen, parSeen, setPar_setPar]
    · rw [hdecides hreset (.inr (.inr (.inr hphase))) hack]
      refine congrArg Host.Outcome.next ((decideByte_undecided ?_ ?_ .delivered).trans ((if_pos ?_).trans ?_))
      · rw [parAt_parSeen]; exact hflying (.inr (.inr (.inr hphase)))
      · rw [parAt_parSeen]; exact hnone
      · rw [parAt_parSeen]; exact hphase
      · rw [reportEnd_delivered, parAt_parSeen, parSeen, setPar_setPar]
    · rw [hdecides hreset hfly hack]
      refine congrArg Host.Outcome.next (decideByte_still (fun h => hdecided ?_) .delivered)
      rw [parAt_parSeen] at h
      exact h.2
    · rw [exec_inputChange, changeInputs_flying hreset (hflying hfly),
        examineInFlight_still (mt hacknowledged.2 hack), parAt_parSeen, parSeen, setPar_setPar]
  · intro u l seen t differ
    have hready : unitReady t l = parReady new := by
      rw [unitReady_parLine, parAt_setPar_same]
    have hdiffer : readyInputsDiffer u.snapshot new = true ↔ differ := readyInputsDiffer_iff u.snapshot new
    have hends (h : differ) : exec (.inputChange x new) s = .next (answerReady l t) := by
      rw [exec_inputChange, changeInputs_waiting hreset hwaiting, if_pos (hdiffer.2 h)]
      rfl
    refine ⟨fun hsame => ?_, fun h hon => ?_, fun h hon hfail => ?_, fun h hon hfail hout => ?_,
      fun h hon hfail hout hhold => ?_, fun h hon hfail hout hhold => ?_⟩
    · rw [exec_inputChange, changeInputs_waiting hreset hwaiting, if_neg (mt hdiffer.1 hsame)]
      rfl
    · rw [hends h, answerReady_failure (by rw [hready, parReady, hon]; rfl)]
    · rw [hends h, answerReady_failure (by rw [hready, parReady, hon, hfail]; rfl)]
    · rw [hends h, answerReady_failure (by rw [hready, parReady, hon, hfail, hout]; rfl)]
    · rw [hends h, answerReady_notReady (by rw [hready, parReady, hon, hfail, hout, hhold]; rfl)]
    · rw [hends h, answerReady_ready (s := t) (l := l) (by rw [hready, parReady, hon, hfail, hout, hhold]; rfl) hfetched,
        unitPut_inFlight_par, parAt_setPar_same]
      exact congrArg Host.Outcome.next (setPar_setPar x (putPar seen f.value) seen (inFlight l f s))

end Sys2Proof.Machine
end

section
/-! The timers (R104, R115, R156), the Serial Line Unit's transmitter (R124, R126, R128) and its receiver (R129, R130). -/

namespace Sys2Proof.Machine

open Sys2Proof.Says

-- One after another: side by side the proofs would each wait in a thread of their own.
set_option Elab.async false

/-! The timers. -/

theorem timerDue_iff (t : Option Nat) (limit : Nat) : timerDue t limit = true ↔ ∃ n, t = some n ∧ limit ≤ n := by
  cases t with
  | none => simp [timerDue]
  | some n => simp [timerDue]

theorem engineAt_takeTick {s : State} (hreset : inReset s = false) (l : Fin 4) :
    engineAt (takeTick s) l = tickEngine (engineAt s l) := by
  rw [takeTick, hreset, if_neg Bool.false_ne_true]
  match l with
  | 0 => rfl
  | 1 => rfl
  | 2 => rfl
  | 3 => rfl

theorem parAt_takeTick {s : State} (hreset : inReset s = false) (x : Fin 2) :
    parAt (takeTick s) x = tickPar (parAt s x) := by
  rw [takeTick, hreset, if_neg Bool.false_ne_true]
  match x with
  | 0 => rfl
  | 1 => rfl

/-- R83, R104: the expiry of a hold timer. -/
theorem expireHold_eq (l : Fin 4) (s : State) :
    let e := engineAt s l
    expireHold l s =
      if e.state = .sending ∧ e.step = .waiting ∧ timerDue e.hold (e.config.holdLimit.toNat * 16) = true then
        faulted l .holdtime s
      else s := by
  intro e
  simp only [expireHold, enterFault_eq, Bool.and_eq_true, decide_eq_true_eq, and_assoc]
  rfl

/-- R89, R104: the expiry of a starve timer. -/
theorem expireStarve_eq (l : Fin 4) (s : State) :
    let e := engineAt s l
    expireStarve l s =
      if e.state = .starved ∧ timerDue e.starve (e.config.starveLimit.toNat * 64) = true then faulted l .starve s else s := by
  intro e
  simp only [expireStarve, enterFault_eq, Bool.and_eq_true, decide_eq_true_eq]
  rfl

theorem byteOut_iff_not_rest (h : Handshake) : byteOut h = true ↔ h ≠ .rest ∧ h ≠ .waiting := by
  cases h <;> simp [byteOut]

/-- Settles O51: one tick of each kind of timer, and the three expiries (`expireHold_eq`, `expireStarve_eq`, and
`decideByte_undecided` for the ack timer). -/
theorem timers : Obligations.Timers := by
  refine ⟨fun s hreset => ⟨takeTick s, rfl, engineAt_takeTick hreset, parAt_takeTick hreset, ?_, ?_⟩,
    fun s hreset => congrArg Host.Outcome.next (if_pos hreset), fun l s => ?_, fun x s => ?_⟩
  · rw [takeTick, hreset, if_neg Bool.false_ne_true]
  · rw [takeTick, hreset, if_neg Bool.false_ne_true]
  · intro e holdDue starveDue
    have hhold : exec (.holdTimerExpiry l) s = .next (expireHold l s) := rfl
    have hstarve : exec (.starveTimerExpiry l) s = .next (expireStarve l s) := rfl
    have hholdDue := and_congr_right fun _ : e.state = .sending => and_congr_right fun _ : e.step = .waiting =>
      timerDue_iff e.hold (e.config.holdLimit.toNat * 16)
    have hstarveDue := and_congr_right fun _ : e.state = .starved =>
      timerDue_iff e.starve (e.config.starveLimit.toNat * 64)
    rw [hhold, hstarve, expireHold_eq, expireStarve_eq]
    exact ⟨fun hdue => congrArg Host.Outcome.next (if_pos (hholdDue.2 hdue)),
      fun hdue => congrArg Host.Outcome.next (if_neg (mt hholdDue.1 hdue)),
      fun hdue => congrArg Host.Outcome.next (if_pos (hstarveDue.2 hdue)),
      fun hdue => congrArg Host.Outcome.next (if_neg (mt hstarveDue.1 hdue))⟩
  · intro u due
    have hack : exec (.ackTimerExpiry x) s =
        .next (if timerDue u.ack u.config.ackLimit.toNat then decideByte x .noack s else s) := rfl
    rw [hack]
    simp only [timerDue_iff]
    refine ⟨fun ⟨hexpired, hnone, hphase⟩ hnot => congrArg Host.Outcome.next ?_,
      fun ⟨hexpired, hnone, hphase⟩ hackwait => congrArg Host.Outcome.next ?_, fun hnot => congrArg Host.Outcome.next ?_⟩
    · rw [if_pos hexpired, decideByte_undecided ((byteOut_iff_not_rest _).2 hphase) hnone]
      exact if_neg hnot
    · rw [if_pos hexpired, decideByte_undecided ((byteOut_iff_not_rest _).2 hphase) hnone, ← reportEnd_noack]
      exact if_pos hackwait
    · by_cases hexpired : ∃ n, u.ack = some n ∧ u.config.ackLimit.toNat ≤ n
      · rw [if_pos hexpired]
        refine decideByte_still (fun ⟨hout, hnone⟩ => hnot ⟨hexpired, hnone, ?_⟩) .noack
        exact (byteOut_iff_not_rest _).1 hout
      · rw [if_neg hexpired]

/-! The transmitter. -/

theorem setSer_setSer (y : Fin 2) (u v : SerUnit) (s : State) : setSer y u (setSer y v s) = setSer y u s :=
  congrArg (fun ser => { s with ser := ser }) (setTab_setTab s.ser y v u)

theorem serAt_setSer_same (y : Fin 2) (u : SerUnit) (s : State) : serAt (setSer y u s) y = u :=
  (serAt_setSer y u s y).trans (if_pos rfl)

theorem retestFlow_still {y : Fin 2} {s : State} (h : (serAt s y).transmit ≠ .waiting) : retestFlow y s = s := if_neg h

theorem retestFlow_notReady {y : Fin 2} {s : State} (h : serReady (serAt s y) = .notReady) : retestFlow y s = s := by
  rw [retestFlow, answerReady_notReady ((unitReady_serLine s y).trans h), ite_self]

/-- R126: a waiting byte is put when the flow test passes. -/
theorem retestFlow_ready {y : Fin 2} {s : State} {f : Fetched} (hwaiting : (serAt s y).transmit = .waiting)
    (hready : serReady (serAt s y) = .ready) (hfetched : (engineAt s (serLine y)).fetched = some f) :
    retestFlow y s = setSer y (putSer (serAt s y) f.value) (inFlight (serLine y) f s) := by
  rw [retestFlow, if_pos hwaiting, answerReady_ready ((unitReady_serLine s y).trans hready) hfetched, unitPut_inFlight_ser]

theorem exec_goChange (y : Fin 2) (level : Bool) (s : State) : exec (.goChange y level) s = .next (changeGo y level s) := rfl

theorem changeGo_eq {s : State} (hreset : inReset s = false) (y : Fin 2) (level : Bool) :
    let seen := { serAt s y with
      pins := { (serAt s y).pins with go := level }, snapshot := { (serAt s y).snapshot with go := level } }
    changeGo y level s =
      if (serAt s y).config.flow = .go then retestFlow y (setSer y seen s) else setSer y seen s := by
  rw [changeGo, hreset]
  rfl

/-- Settles O52: `changeGo_eq` with the three ways of `retestFlow`, and the report of a frame's end. -/
theorem serialTransmit : Obligations.SerialTransmit := by
  intro y s u l
  refine ⟨fun level hreset => congrArg Host.Outcome.next (if_pos hreset), fun level hreset => ?_,
    fun hidle => congrArg Host.Outcome.next (if_neg hidle), fun hshifting => ?_⟩
  · intro seen
    have hunit : serAt (setSer y seen s) y = seen := serAt_setSer_same y seen s
    rw [exec_goChange, changeGo_eq hreset]
    refine ⟨fun hnot => congrArg Host.Outcome.next ?_, fun f hflow hwaiting hlevel hfetched => congrArg Host.Outcome.next ?_⟩
    · by_cases hflow : u.config.flow = .go
      · rw [if_pos hflow]
        by_cases hwaiting : u.transmit = .waiting
        · have hlevel : level = true := by
            cases level with
            | true => rfl
            | false => exact (hnot ⟨hflow, hwaiting, rfl⟩).elim
          refine retestFlow_notReady ?_
          rw [hunit, serReady_eq]
          exact if_pos (.inl ⟨hflow, hlevel⟩)
        · refine retestFlow_still ?_
          rw [hunit]
          exact hwaiting
      · exact if_neg hflow
    · rw [if_pos hflow]
      have hready : serReady (serAt (setSer y seen s) y) = .ready := by
        rw [hunit, serReady_eq]
        refine if_neg ?_
        rintro (⟨-, hgo⟩ | ⟨hxon, -⟩)
        · exact Bool.false_ne_true (hlevel.symm.trans hgo)
        · cases hflow.symm.trans hxon
      rw [retestFlow_ready (by rw [hunit]; exact hwaiting) hready hfetched, hunit]
      exact setSer_setSer y (putSer seen f.value) seen (inFlight l f s)
  · have hends : exec (.frameEnd y) s = .next (endFrame y s) := rfl
    rw [hends, endFrame, if_pos hshifting, beforeReport_eq]

/-! The receiver. -/

/-- R124: the unit of a serial line with yRXD at a level. -/
def rxdSeen (level : Bool) (u : SerUnit) : SerUnit :=
  { u with pins := { u.pins with rxd := level }, rxdClks := if u.pins.rxd = level then u.rxdClks else 0 }

theorem setRxd_eq (y : Fin 2) (level : Bool) (s : State) : setRxd y level s = setSer y (rxdSeen level (serAt s y)) s := rfl

theorem count_true_eq (bits : List Bool) : bits.count true = (bits.map bit).sum := by
  induction bits with
  | nil => rfl
  | cons b bits ih => cases b <;> simp [bit, ih, Nat.add_comm]

/-- R130: the data bits that are compared hold the ones that are counted. -/
theorem count_dataBits (c : SerConfig) (data : Byte) :
    (dataBits c.seven data).count true = onesIn (comparedData c data) := by
  rw [count_true_eq, onesIn, comparedData]
  cases c.seven with
  | false => simp [dataBits, Nat.add_assoc]
  | true => simp [dataBits, bit, Nat.add_assoc]

/-- R129: a character's parity agrees with its data bits. -/
theorem goodParity_iff (c : SerConfig) (data : Byte) (parity : Bool) :
    let ones := (onesIn (comparedData c data) + parity.toNat) % 2
    goodParity c data parity = true ↔
      c.parity = .none ∨ (c.parity = .odd ∧ ones = 1) ∨ (c.parity = .even ∧ ones = 0) := by
  intro ones
  simp only [goodParity, parityBit, count_dataBits, ones]
  cases c.parity with
  | none => simp
  | odd =>
    cases parity with
    | false => simp
    | true => simp; omega
  | even =>
    cases parity with
    | false => simp
    | true => simp; omega

/-- R129: a receiver that has a character's data bits. -/
def characterTaken (data : Byte) (parity stop : Bool) (u : SerUnit) : SerUnit :=
  { rxdSeen stop u with rxData := comparedData u.config data, rxParity := parity, startSeen := false }

/-- R129: the end of a character, by its stop bit and its parity. -/
theorem receiveCharacter_eq {y : Fin 2} {s : State} (h : (serAt s y).receiver = .receiving) (data : Byte) (parity stop : Bool) :
    let v := characterTaken data parity stop (serAt s y)
    receiveCharacter y data parity stop s =
      if !stop then setSer y { v with receiver := .markwait } s
      else if goodParity v.config data parity then actOnCharacter y data (setSer y { v with receiver := .hunt } s)
      else setSer y { v with receiver := .hunt } s := by
  intro v
  have hreceiving : (rxdSeen stop (serAt s y)).receiver = .receiving := h
  simp only [receiveCharacter, setRxd_eq, serAt_setSer_same, setSer_setSer, hreceiving, if_true]
  rfl

/-- R130: what a good character does to a unit. -/
theorem actOnCharacter_eq (y : Fin 2) (data : Byte) (v : SerUnit) (s : State) :
    actOnCharacter y data (setSer y v s) =
      if comparedData v.config data = 0x13#8 then setSer y { v with xoff := true } s
      else if comparedData v.config data = 0x11#8 then
        if v.config.flow = .xonxoff then retestFlow y (setSer y { v with xoff := false } s)
        else setSer y { v with xoff := false } s
      else setSer y v s := by
  simp only [actOnCharacter, serAt_setSer_same, setSer_setSer]

theorem exec_receivedCharacter (y : Fin 2) (data : Byte) (parity stop : Bool) (s : State) :
    exec (.receivedCharacter y data parity stop) s = .next (receiveCharacter y data parity stop s) := rfl

/-- R129: out of RECEIVING the end of a character is a level alone. -/
theorem receiveCharacter_still {y : Fin 2} {s : State} (h : (serAt s y).receiver ≠ .receiving) (data : Byte)
    (parity stop : Bool) : receiveCharacter y data parity stop s = setSer y (rxdSeen stop (serAt s y)) s := by
  simp only [receiveCharacter, setRxd_eq, serAt_setSer_same]
  exact if_neg h

/-- R129, R130: a good character: XOFF, XON or neither. -/
theorem receiveCharacter_good {y : Fin 2} {s : State} (h : (serAt s y).receiver = .receiving) {data : Byte} {parity : Bool}
    (hgood : goodParity (serAt s y).config data parity = true) :
    let v := { characterTaken data parity true (serAt s y) with receiver := .hunt }
    receiveCharacter y data parity true s = actOnCharacter y data (setSer y v s) :=
  (receiveCharacter_eq h data parity true).trans (if_pos hgood)

/-- R129: a character with a parity error is discarded. -/
theorem receiveCharacter_badParity {y : Fin 2} {s : State} (h : (serAt s y).receiver = .receiving) {data : Byte} {parity : Bool}
    (hbad : ¬goodParity (serAt s y).config data parity = true) :
    receiveCharacter y data parity true s =
      setSer y { characterTaken data parity true (serAt s y) with receiver := .hunt } s :=
  (receiveCharacter_eq h data parity true).trans (if_neg hbad)

/-- Settles O53: `setRxd_eq` for the level, and `receiveCharacter_eq` and `actOnCharacter_eq` for a character. -/
theorem receiver : Obligations.Receiver := by
  intro y s u seen
  refine ⟨congrArg Host.Outcome.next ?_, congrArg Host.Outcome.next ?_, fun level => congrArg Host.Outcome.next ?_,
    fun data parity stop => ?_⟩
  · simp only [rxdAtMark, setRxd_eq, serAt_setSer_same, setSer_setSer]
    exact (apply_ite (fun v => setSer y v s) (u.receiver = .markwait) _ _).symm
  · simp only [rxdFalls, setRxd_eq, serAt_setSer_same, setSer_setSer]
    exact (apply_ite (fun v => setSer y v s) (u.receiver = .hunt) _ _).symm
  · simp only [sampleStartBit, setRxd_eq, serAt_setSer_same, setSer_setSer]
    exact (apply_ite (fun v => setSer y v s) (u.receiver = .hunt ∧ u.startSeen = true) _ _).symm
  · intro sent ended ones good
    have hgood : goodParity u.config data parity = true ↔ good := goodParity_iff u.config data parity
    have hnotXoff (hxon : sent = 0x11#8) : sent ≠ 0x13#8 := by
      rw [hxon]
      decide
    rw [exec_receivedCharacter]
    refine ⟨fun hstate => congrArg Host.Outcome.next (receiveCharacter_still hstate data parity stop),
      fun hstate hstop => congrArg Host.Outcome.next ?_, fun hstate hstop hother => congrArg Host.Outcome.next ?_,
      fun hstate hstop hok hxoff => congrArg Host.Outcome.next ?_,
      fun hstate hstop hok hxon hidle => congrArg Host.Outcome.next ?_,
      fun f hstate hstop hok hxon hflow hwaiting hfetched => congrArg Host.Outcome.next ?_⟩
    · subst hstop
      exact receiveCharacter_eq hstate data parity false
    · subst hstop
      by_cases hok : good
      · obtain ⟨hnotXoff, hnotXon⟩ := hother.resolve_left (not_not_intro hok)
        rw [receiveCharacter_good hstate (hgood.2 hok), actOnCharacter_eq]
        exact (if_neg hnotXoff).trans (if_neg hnotXon)
      · exact receiveCharacter_badParity hstate (mt hgood.1 hok)
    · subst hstop
      rw [receiveCharacter_good hstate (hgood.2 hok), actOnCharacter_eq]
      exact if_pos hxoff
    · subst hstop
      rw [receiveCharacter_good hstate (hgood.2 hok), actOnCharacter_eq]
      refine (if_neg (hnotXoff hxon)).trans ((if_pos hxon).trans ?_)
      by_cases hflow : u.config.flow = .xonxoff
      · refine (if_pos hflow).trans (retestFlow_still ?_)
        rw [serAt_setSer_same]
        exact fun hwaiting => hidle ⟨hflow, hwaiting⟩
      · exact if_neg hflow
    · subst hstop
      let v := { ended with receiver := .hunt, xoff := false }
      have hunit : serAt (setSer y v s) y = v := serAt_setSer_same y v s
      have hready : serReady (serAt (setSer y v s) y) = .ready := by
        rw [hunit, serReady_eq]
        refine if_neg ?_
        rintro (⟨hgo, -⟩ | ⟨-, hxoff⟩)
        · cases hflow.symm.trans hgo
        · cases hxoff
      rw [receiveCharacter_good hstate (hgood.2 hok), actOnCharacter_eq]
      refine (if_neg (hnotXoff hxon)).trans ((if_pos hxon).trans ((if_pos hflow).trans ?_))
      refine (retestFlow_ready (s := setSer y v s) (by rw [hunit]; exact hwaiting) hready hfetched).trans ?_
      rw [hunit]
      exact setSer_setSer y (putSer v f.value) v (inFlight (serLine y) f s)

end Sys2Proof.Machine
end
